-- ==== Sys2Proof/Word.lean ====
section
/-! DEFINITION. The word types of the machine (R2, R3, R100) and the association lists that sparse state is kept in. -/

namespace Sys2Proof

/-- A 64-bit register value (R100). -/
abbrev Word := BitVec 64
/-- A byte of memory (R3). -/
abbrev Byte := BitVec 8
/-- A vector register or a data-queue entry (R100, R289). -/
abbrev VWord := BitVec 1024
/-- A predicate register, one bit per byte lane (R101). -/
abbrev PWord := BitVec 128
/-- A word of an accumulator (R232). -/
abbrev AWord := BitVec 32

/-- A register file of `2 ^ n` registers of `w` bits, named by `n`-bit numbers (R100). -/
abbrev RegFile (n w : Nat) := Vector (BitVec w) (2 ^ n)

/-- Register `r` of a file. -/
def RegFile.get {n w : Nat} (f : RegFile n w) (r : BitVec n) : BitVec w :=
  f[r.toNat]'r.isLt

/-- The file with register `r` holding `v`. -/
def RegFile.put {n w : Nat} (f : RegFile n w) (r : BitVec n) (v : BitVec w) : RegFile n w :=
  f.set r.toNat v r.isLt

/-- The file in which every register reads zero (R102). -/
def RegFile.zero (n w : Nat) : RegFile n w := Vector.replicate (2 ^ n) 0

/-- A sparse map from numbers, the first entry of a key being its value. -/
abbrev Assoc (α : Type) := List (Nat × α)

/-- The value of key `k`, or `d` where the map lists none. -/
def Assoc.get {α : Type} (d : α) : Assoc α → Nat → α
  | [], _ => d
  | (j, v) :: r, k => if j = k then v else Assoc.get d r k

/-- The map with key `k` at `v`. -/
def Assoc.put {α : Type} : Assoc α → Nat → α → Assoc α
  | [], k, v => [(k, v)]
  | (j, w) :: r, k, v => if j = k then (k, v) :: r else (j, w) :: Assoc.put r k v

/-- The value of key `k`, if the map lists one. -/
def Assoc.find {α : Type} : Assoc α → Nat → Option α
  | [], _ => none
  | (j, v) :: r, k => if j = k then some v else Assoc.find r k

/-- The map without key `k`. -/
def Assoc.drop {α : Type} (m : Assoc α) (k : Nat) : Assoc α := m.filter (fun e => e.1 != k)

/-- The list with element `n` replaced by `f` of it; unchanged where there is none. -/
def modAt {α : Type} : List α → Nat → (α → α) → List α
  | [], _, _ => []
  | x :: r, 0, f => f x :: r
  | x :: r, n + 1, f => x :: modAt r n f

/-- The first element that satisfies `p`, changed by `f`; every other element as it was. -/
def modFirst {α : Type} : List α → (α → Bool) → (α → α) → List α
  | [], _, _ => []
  | x :: r, p, f => if p x then f x :: r else x :: modFirst r p f

end Sys2Proof
end

