-- ==== Sys2Proof/Syntax.lean ====
section
/-! DEFINITION. The operations and events of the machine as terms: `Instr` has one constructor for each row of
spec/opcode_table.json. The 190 slot operations take their operands as the encodings of R87 to R93 give them; the
93 events take what their rule leaves to the agent that performs them. -/

namespace Sys2Proof

/-- The element formats of R34, in the order of their 4-bit codes. -/
inductive Fmt where
  | f32 | bf16 | f16 | e4m3 | e5m2 | o4 | s8 | s16 | s32 | s64 | n8 | n16 | n32 | n64 | b1
  deriving DecidableEq, Repr

/-- A 6-bit operand specifier that R81 does not reserve: a register of the slot's own file, a queue, the constant
zero (which discards as a destination), or a register relative to the slot's base. -/
inductive Spec where
  | reg (n : BitVec 5)
  | rq (n : BitVec 3)
  | lq
  | kq
  | sq
  | zero
  | rel (n : BitVec 4)
  deriving DecidableEq, Repr

/-- An X-slot register field (R246): an x register, or 0x2B for an operand that is not given. -/
inductive XSpec where
  | x (n : BitVec 4)
  | none
  deriving DecidableEq, Repr

/-- The nine scopes of R334. -/
inductive Scope where
  | ctx | core | quad | ter | cas | part | mod | pod | sys
  deriving DecidableEq, Repr

/-- The order field of R89. -/
inductive Order where
  | ordinary | relaxed | acqRel | seqCst
  deriving DecidableEq, Repr

/-- The rounding modes of R51. -/
inductive Rounding where
  | rne | rz | rd | ru | rs
  deriving DecidableEq, Repr

/-- The reader classes of R118. -/
inductive RClass where
  | sign | argw | narrow | keepmask | full
  deriving DecidableEq, Repr

/-- The conditions of CMP and CMPI (R150). -/
inductive SCond where
  | eq | ne | lt | ge | ltu | geu
  deriving DecidableEq, Repr

/-- The conditions of VCMP (R199). -/
inductive VCond where
  | eq | ne | lt | ge | le | gt
  deriving DecidableEq, Repr

/-- The conditions of VFCMP (R217). -/
inductive FCond where
  | eq | ne | lt | ge | le | gt | un
  deriving DecidableEq, Repr

/-- The conditions of WAITW (R157). -/
inductive WCond where
  | eq | ne | geu | ltu
  deriving DecidableEq, Repr

/-- The ATOM operations of R165. -/
inductive AtomOp where
  | swap | add | and | or | xor | max | min | fadd
  deriving DecidableEq, Repr

/-- The operators of VRED and VSCAN (R228). -/
inductive TreeOp where
  | sum | max | min | and | or | xor
  deriving DecidableEq, Repr

/-- The quantisation targets of R224. -/
inductive QTarget where
  | o4 | s8 | e4m3 | e5m2
  deriving DecidableEq, Repr

/-- The collective kinds of XCOLL (R266); XCAV runs a cavity reduction (R382). -/
inductive CollKind where
  | barrier | bcast | rscat | agath | allred | cavity
  deriving DecidableEq, Repr

/-- The collective operators of R266. -/
inductive CollOp where
  | add | max | min | mul | and | or | xor | affine
  deriving DecidableEq, Repr

/-- The index widths of XCPC (R245). -/
inductive IBits where
  | i2 | i3 | i4
  deriving DecidableEq, Repr

/-- The two vector slots. -/
inductive VSlot where
  | v0 | v1
  deriving DecidableEq, Repr

/-- The vector widths of R76. -/
inductive VWidth where
  | w256 | w512 | w1024
  deriving DecidableEq, Repr

/-- What every vector operation carries beside its operands: its slot, its width from the bundle header (R76), its
predicate field and its negate bit (R92). -/
structure VHdr where
  slot : VSlot
  width : VWidth
  pred : BitVec 4
  neg : Bool
  deriving DecidableEq, Repr

/-- Source b of a vector shift: an operand or a 6-bit immediate (R198). -/
inductive ShiftBy where
  | by (b : Spec)
  | imm (k : BitVec 6)
  deriving DecidableEq, Repr

/-- A place that MOVX reads or writes (R153): an S-slot specifier, an a specifier (register or relative), or a
register of the l, x or y file. -/
inductive MovLoc where
  | s (sp : Spec)
  | a (sp : Spec)
  | l (n : BitVec 3)
  | x (n : BitVec 4)
  | y (n : BitVec 3)
  deriving DecidableEq, Repr

/-- What MOVX reads: a place, or a system register 0x00 to 0x3F. -/
inductive MovSrc where
  | loc (m : MovLoc)
  | sys (n : BitVec 6)
  deriving DecidableEq, Repr

/-- Where CMP and CMPI write: an S destination or a predicate register (R150). -/
inductive CmpDst where
  | s (sp : Spec)
  | p (n : BitVec 4)
  deriving DecidableEq, Repr

/-- The index-base registers SETB names (R155). -/
inductive Base where
  | bs | ba | bv | bw
  deriving DecidableEq, Repr

/-- The form of FENCE (R157). -/
inductive FenceOrd where
  | acq | rel | sc
  deriving DecidableEq, Repr

/-- A global core number (R13). -/
abbrev CoreId := BitVec 11

/-- A context of the module: its core and its number in the core (R15). -/
structure CtxId where
  core : CoreId
  ctx : BitVec 2
  deriving DecidableEq, Repr

/-- What a LOAD_PERFORM event performs: entry `n` of the load-address queue, or the tile cache taking the line of a
device virtual address before any load asks for it (R338). -/
inductive LoadWhat where
  | entry (n : Nat)
  | fetch (va : Nat)
  deriving DecidableEq, Repr

/-- What arrives for a channel: word `n` in flight inside the module, or, from another module, a word, the far sender's first
tile with an entry that does not match, or the credit post of a far receiver (R371 to R373). -/
inductive WordFrom where
  | flight (n : Nat)
  | remote (at_ : CtxId) (chan : BitVec 8) (word : Nat) (data : Word)
  | mismatch (at_ : CtxId) (chan : BitVec 8)
  | credit (at_ : CtxId) (chan : BitVec 8)
  deriving DecidableEq, Repr

/-- One of the accesses that are performed in one cycle (R330, R353): entry `n` of a context's load-address queue, the head
of its store-address queue, a write-back of its dirty bytes, the stamp at the head of a lane, or a stamp of the sequencer. -/
inductive Access where
  | load (c : CtxId) (n : Nat)
  | store (c : CtxId)
  | writeBack (c : CtxId)
  | stamp (core : CoreId) (lane : BitVec 3)
  | part (core : CoreId) (comm : BitVec 8)
  deriving DecidableEq, Repr

/-- A host access to device memory through a virtual function's pages (R348). -/
inductive HostAccess where
  | read (addr : Nat) (len : Nat)
  | write (addr : Nat) (bytes : List Byte)
  deriving DecidableEq, Repr

/-- A fault that an engine or a write-back reports (R285). -/
structure AsyncFault where
  code : BitVec 8
  detail : Word
  addr : Word
  deriving DecidableEq, Repr

/-- What the signed boot finds of the two firmware images and of the module (R414). -/
structure BootFacts where
  signatureOk : Bool
  digestOk : Bool
  aboveFloor : Bool
  dramOk : Bool
  version : BitVec 16
  /-- The SHA-512 digests of the Urmon firmware and of the device firmware (R414, R416). -/
  urmonDigest : BitVec 512
  deviceDigest : BitVec 512
  deriving DecidableEq, Repr

/-- The parts whose errors Urmon counts (R418): a core, a row of a DRAM channel, a channel, a through-silicon via, each at the
terrace that counts it, and a lane of a link. -/
inductive Part where
  | core (c : CoreId)
  | row (terrace : BitVec 4) (channel : BitVec 3) (row : Nat)
  | channel (terrace : BitVec 4) (channel : BitVec 3)
  | via (terrace : BitVec 4) (via : Nat)
  | lane (link : BitVec 4) (lane : BitVec 4)
  deriving DecidableEq, Repr

/-- One constructor for each row of spec/opcode_table.json. Those that no definition of the model builds stand last: Lean compiles
the building of a constructor only up to a certain place. -/
inductive Instr where
  -- C slot (R87)
  | br (t : BitVec 16)
  | brp (p : BitVec 4) (n : Bool) (t : BitVec 16)
  | bri (l : BitVec 3)
  | call (l : BitVec 3) (t : BitVec 16)
  | ret (l : BitVec 3)
  | loop (l : BitVec 3) (ring drain : BitVec 3) (n : BitVec 15)
  | lbr (l : BitVec 3) (t : BitVec 16)
  | lset (l : BitVec 3) (ring drain : BitVec 3)
  | nextPoint (l : BitVec 3) (t : BitVec 16)
  | exit
  | yield (n : BitVec 18)
  | skip (p : BitVec 4) (n : Bool) (k : BitVec 16)
  | join (g : BitVec 18)
  | leave (g : BitVec 18)
  | trap (c : BitVec 18)
  | svc (c : BitVec 18)
  | brk (c : BitVec 18)
  | eret
  -- S slot (R88)
  | add (d a b : Spec)
  | addi (d a : Spec) (imm : BitVec 12)
  | sub (d a b : Spec)
  | mul (d a b : Spec)
  | mulHs (d a b : Spec)
  | mulHu (d a b : Spec)
  | div (d a b : Spec)
  | divU (d a b : Spec)
  | rem (d a b : Spec)
  | remU (d a b : Spec)
  | and (d a b : Spec)
  | or (d a b : Spec)
  | xor (d a b : Spec)
  | andi (d a : Spec) (imm : BitVec 12)
  | ori (d a : Spec) (imm : BitVec 12)
  | xori (d a : Spec) (imm : BitVec 12)
  | shl (d a b : Spec)
  | shr (d a b : Spec)
  | sar (d a b : Spec)
  | shiL (d a : Spec) (n : BitVec 6)
  | shiR (d a : Spec) (n : BitVec 6)
  | shiA (d a : Spec) (n : BitVec 6)
  | min (d a b : Spec)
  | minU (d a b : Spec)
  | max (d a b : Spec)
  | maxU (d a b : Spec)
  | clz (d a : Spec)
  | popc (d a : Spec)
  | bext (d a b : Spec)
  | bextS (d a b : Spec)
  | bins (d a b : Spec)
  | cmp (d : CmpDst) (a b : Spec) (c : SCond)
  | cmpi (d : CmpDst) (a : Spec) (v : BitVec 8) (c : SCond)
  | sel (d a b : Spec) (neg : Bool) (p : BitVec 4)
  | li (d : Spec) (imm : BitVec 12)
  | lui (d : Spec) (imm : BitVec 12)
  | movx (d : MovLoc) (a : MovSrc)
  | movxB (slot : VSlot) (d : Spec) (a : Spec) (f : Fmt)
  | setb (b : Base) (a : Spec)
  | csrr (d : Spec) (n : BitVec 12)
  | csrw (n : BitVec 12) (a : Spec)
  -- A slot (R89)
  | aadd (d a b : Spec)
  | aaddi (d a : Spec) (imm : BitVec 12)
  | amadd (d a b c : Spec)
  | ali (d : Spec) (imm : BitVec 12)
  | lda (base idx : Spec) (w : BitVec 3) (sc : Scope) (o : Order)
  | lds (base stride : Spec) (w : BitVec 3)
  | ldt (base offs : Spec)
  | ldk (base idx : Spec) (c : RClass)
  | pf (base idx : Spec) (w : BitVec 3)
  | sta (base idx : Spec) (w : BitVec 3) (sc : Scope) (o : Order)
  | sts (base stride : Spec) (w : BitVec 3)
  | stt (base offs : Spec)
  | sti (base offs : Spec) (neg : Bool)
  | skst (base shape : Spec) (c : RClass)
  | skrtg (base param : Spec) (c : RClass)
  | skdrop (base idx : Spec)
  | atom (base data : Spec) (w : BitVec 3) (sc : Scope) (o : Order) (op : AtomOp)
  | cas (base data : Spec) (w : BitVec 3) (sc : Scope) (o : Order)
  | gidx (base idx : Spec)
  -- K slot (R90)
  | kld (d : BitVec 4) (off : BitVec 14)
  | kldD0 (d : BitVec 4) (off : BitVec 14)
  | kset (d : BitVec 4) (c : BitVec 8)
  | kmov (d s : BitVec 4)
  | kmovAdj (d s : BitVec 4) (n : BitVec 8)
  -- Y slot (R91)
  | waitf (ya : BitVec 3) (f : BitVec 5) (sc : Scope) (take : Bool)
  | postf (ya yb : BitVec 3) (f : BitVec 5) (sc : Scope) (k : BitVec 6)
  | waitw (ya yb : BitVec 3) (sc : Scope) (c : WCond)
  | waitc (loads stores copies tiles : BitVec 6)
  | gbar (g : BitVec 6) (sc : Scope)
  | phase (sc : Scope)
  | fence (sc : Scope) (o : FenceOrd)
  | rfence (ya : BitVec 3) (sc : Scope)
  | rfenceAll (sc : Scope)
  -- V slots, integer (R198 to R206)
  | vadd (h : VHdr) (f : Fmt) (d a b : Spec)
  | vsub (h : VHdr) (f : Fmt) (d a b : Spec)
  | vmul (h : VHdr) (f : Fmt) (d a b : Spec) (hi : Bool)
  | vmad (h : VHdr) (f : Fmt) (d a b c : Spec)
  | vadds (h : VHdr) (f : Fmt) (d a b : Spec)
  | vsubs (h : VHdr) (f : Fmt) (d a b : Spec)
  | vmin (h : VHdr) (f : Fmt) (d a b : Spec)
  | vmax (h : VHdr) (f : Fmt) (d a b : Spec)
  | vabs (h : VHdr) (f : Fmt) (d a : Spec)
  | vavg (h : VHdr) (f : Fmt) (d a b : Spec) (tr : Bool)
  | vabsd (h : VHdr) (f : Fmt) (d a b : Spec)
  | vshl (h : VHdr) (f : Fmt) (d a : Spec) (b : ShiftBy)
  | vshr (h : VHdr) (f : Fmt) (d a : Spec) (b : ShiftBy)
  | vsar (h : VHdr) (f : Fmt) (d a : Spec) (b : ShiftBy)
  | vand (h : VHdr) (f : Fmt) (d a b : Spec)
  | vor (h : VHdr) (f : Fmt) (d a b : Spec)
  | vxor (h : VHdr) (f : Fmt) (d a b : Spec)
  | vnot (h : VHdr) (f : Fmt) (d a : Spec)
  | vpopc (h : VHdr) (f : Fmt) (d a : Spec)
  | vcmp (h : VHdr) (f : Fmt) (pd : BitVec 4) (a b : Spec) (c : VCond)
  | vsel (h : VHdr) (f : Fmt) (d a b : Spec)
  | vdot (h : VHdr) (f : Fmt) (d a b c : Spec)
  | vwmul (h : VHdr) (f : Fmt) (d a b : Spec) (hi : Bool)
  | vnarw (h : VHdr) (f : Fmt) (d a b : Spec) (sat sgn rnd : Bool) (s : BitVec 4)
  | vwide (h : VHdr) (f : Fmt) (d a : Spec) (hi : Bool)
  | vpxu (h : VHdr) (f : Fmt) (d a b : Spec) (n : BitVec 5)
  | vpxp (h : VHdr) (f : Fmt) (d a : Spec) (n : BitVec 5) (sat : Bool)
  | vbitx (h : VHdr) (f : Fmt) (d a b : Spec) (len : BitVec 6)
  | vbitp (h : VHdr) (f : Fmt) (d a b c : Spec) (len : BitVec 6)
  | vlut (h : VHdr) (f : Fmt) (d a b c : Spec) (x2 : Bool)
  | vsad (h : VHdr) (f : Fmt) (d a b c : Spec)
  -- V slots, permutations and moves (R207 to R213)
  | vperm (h : VHdr) (f : Fmt) (d a b c : Spec)
  | vshuf (h : VHdr) (f : Fmt) (d a : Spec) (m : BitVec 7)
  | vslide (h : VHdr) (f : Fmt) (d a b : Spec) (s : BitVec 7)
  | vzip (h : VHdr) (f : Fmt) (d a b : Spec) (hi : Bool)
  | vuzip (h : VHdr) (f : Fmt) (d a b : Spec) (odd : Bool)
  | vtrn (h : VHdr) (f : Fmt) (d a b : Spec) (odd : Bool)
  | vcmpr (h : VHdr) (f : Fmt) (d a : Spec) (merge : Bool)
  | vbcast (h : VHdr) (f : Fmt) (d a : Spec) (m : BitVec 7)
  | vmov (h : VHdr) (f : Fmt) (d a : Spec)
  | vli (h : VHdr) (f : Fmt) (d : Spec) (imm : BitVec 25)
  | vmovx (h : VHdr) (f : Fmt) (d a : Spec)
  | pand (h : VHdr) (pd pa pb : BitVec 4)
  | por (h : VHdr) (pd pa pb : BitVec 4)
  | pxor (h : VHdr) (pd pa pb : BitVec 4)
  | pnot (h : VHdr) (pd pa : BitVec 4)
  | pset (h : VHdr) (f : Fmt) (pd : BitVec 4) (n : ShiftBy)
  | pcnt (h : VHdr) (f : Fmt) (d : Spec)
  -- V slots, float (R216 to R221)
  | vfadd (h : VHdr) (f : Fmt) (d a b : Spec)
  | vfsub (h : VHdr) (f : Fmt) (d a b : Spec)
  | vfmul (h : VHdr) (f : Fmt) (d a b : Spec)
  | vfma (h : VHdr) (f : Fmt) (d a b c : Spec) (np nc : Bool)
  | vfmin (h : VHdr) (f : Fmt) (d a b : Spec)
  | vfmax (h : VHdr) (f : Fmt) (d a b : Spec)
  | vfsgn (h : VHdr) (f : Fmt) (d a b : Spec) (m : BitVec 2)
  | vfcmp (h : VHdr) (f : Fmt) (pd : BitVec 4) (a b : Spec) (c : FCond)
  | vfcvt (h : VHdr) (dst src : Fmt) (d a b : Spec) (q : BitVec 6) (rm : Rounding)
  | vfclass (h : VHdr) (f : Fmt) (d a : Spec)
  | vfexp2 (h : VHdr) (f : Fmt) (d a : Spec)
  | vfexp (h : VHdr) (f : Fmt) (d a : Spec)
  | vflog2 (h : VHdr) (f : Fmt) (d a : Spec)
  | vflog (h : VHdr) (f : Fmt) (d a : Spec)
  | vfrcp (h : VHdr) (f : Fmt) (d a : Spec)
  | vfrsq (h : VHdr) (f : Fmt) (d a : Spec)
  | vftanh (h : VHdr) (f : Fmt) (d a : Spec)
  -- V slots, quantisation, readers and the tree unit (R222 to R229)
  | vamax (h : VHdr) (f : Fmt) (d a c : Spec)
  | vscl (h : VHdr) (f : Fmt) (d a : Spec) (t : QTarget) (ol : Bool)
  | vqnt (h : VHdr) (f : Fmt) (d a b : Spec) (t : QTarget) (rm : Rounding)
  | vdqnt (h : VHdr) (f : Fmt) (d a b : Spec) (t : QTarget)
  | vrelub (h : VHdr) (f : Fmt) (d b : Spec)
  | vmaxb (h : VHdr) (f : Fmt) (d b : Spec) (w : BitVec 4)
  | vmskb (h : VHdr) (f : Fmt) (d b : Spec)
  | vkfull (h : VHdr) (f : Fmt) (d : Spec)
  | vred (h : VHdr) (f : Fmt) (d a : Spec) (op : TreeOp)
  | vscan (h : VHdr) (f : Fmt) (d a sd : Spec) (op : TreeOp)
  -- M slot (R238)
  | mma (fa fb : Fmt) (acc : BitVec 3) (ka kb : BitVec 4) (hla hlb z : Bool)
  | mmb (fa fb : Fmt) (acc : BitVec 3) (hla hlb z : Bool) (and : Bool)
  | mcfg (fa fb : Fmt) (ka : BitVec 4) (cell int : Bool)
  | mdrain
  | mdrn (f : Fmt) (acc : BitVec 3) (rq : BitVec 3)
  | mclr (acc : BitVec 3) (inf : Bool)
  | mlda (f : Fmt) (acc : BitVec 3) (off : BitVec 14)
  -- X slot (R245)
  | xcp (lane : BitVec 3) (d s n : BitVec 4) (t : XSpec) (kept : Bool)
  | xcpz (lane : BitVec 3) (d s n t : BitVec 4) (dict : Bool)
  | xcpc (lane : BitVec 3) (f : Fmt) (d s n t : BitVec 4) (ib : IBits) (flag : BitVec 5)
  | xfill (lane : BitVec 3) (f : Fmt) (s : BitVec 4) (n : XSpec) (t : XSpec) (kept fb tr : Bool)
  | xgath (lane : BitVec 3) (d : XSpec) (n : BitVec 4) (t : XSpec)
  | xscat (lane : BitVec 3) (s n : BitVec 4) (t : XSpec)
  | xpopq (lane : BitVec 3) (d : BitVec 4) (rq : BitVec 3) (n : BitVec 4) (t : XSpec)
  | xsend (lane : BitVec 3) (ch : BitVec 8) (s : BitVec 4) (t : XSpec)
  | xrecv (lane : BitVec 3) (ch : BitVec 8) (d : XSpec) (t : XSpec)
  | xcoll (f : BitVec 4) (d s n : BitVec 4) (t : XSpec) (op : BitVec 4) (kind : BitVec 3)
  | xcav (f : BitVec 4) (d s n : BitVec 4) (t : XSpec) (op : BitVec 4)
  | xtrig (n : BitVec 6) (s : BitVec 4)
  | xcan (n : BitVec 6)
  | xcanLane (lane : BitVec 3)
  | xqfence (s : BitVec 4)
  | xstor (lane : BitVec 3) (d s n t : BitVec 4)
  -- events of a context (R277 to R288)
  | retireComplete (c : CtxId)
  | helperStart (core : CoreId)
  -- events of the memory path (R170 to R189, R337 to R365)
  | loadPerform (c : CtxId) (what : LoadWhat)
  | ldkEntryPush (c : CtxId) (n : Nat)
  | storePerform (c : CtxId)
  | atomicPerform (arrivals : List Access)
  | skstRecordWrite (c : CtxId)
  | skrtgRewrite (c : CtxId)
  | skdropClear (c : CtxId)
  | postfPerform (c : CtxId)
  | releaseWeirPass (c : CtxId)
  | waitwPeriodicRead (c : CtxId)
  | tagProbe (c : CtxId) (va : Nat)
  | tileCacheEviction (core : CoreId) (line : Nat)
  -- events of the copy unit (R250 to R271, R294 to R296, R370 to R385)
  | laneCommandStart (core : CoreId) (lane : BitVec 3)
  | copyChunk (core : CoreId) (lane : BitVec 3)
  | stampWrite (core : CoreId) (lane : BitVec 3)
  | xcpcBlockResume (core : CoreId) (lane : BitVec 3)
  | fifoFillPush (core : CoreId) (lane : BitVec 3)
  | xsendCreditTake (core : CoreId) (lane : BitVec 3)
  | channelWordArrival (w : WordFrom)
  | xrecvSlotTake (core : CoreId) (lane : BitVec 3)
  | triggerFire (core : CoreId)
  | triggerLaneEntry (core : CoreId) (entry : BitVec 6)
  | triggerComplete (core : CoreId) (entry : BitVec 6)
  | laneFenceRelease (core : CoreId)
  | collectiveChunk (core : CoreId)
  | collectiveComplete (core : CoreId) (comm : BitVec 8)
  | switchSlotRequest (core : CoreId) (comm : BitVec 8)
  | translationWalk (core : CoreId) (va : Nat) (drop : Nat)
  | groupBarrierComplete (part : BitVec 6) (g : BitVec 6)
  -- events of the host and of launches (R303 to R310, R348, R406, R410 to R412)
  | switchPoint (part : BitVec 6)
  | launchLoading (part : BitVec 6) (launch : Nat)
  | dictionaryPreload (part : BitVec 6) (launch : Nat)
  | launchBind (part : BitVec 6) (launch : Nat)
  | launchRunning (part : BitVec 6) (launch : Nat)
  | walkerPlace (part : BitVec 6) (launch : Nat) (core : CoreId)
  | launchComplete (part : BitVec 6) (launch : Nat)
  -- events of terraces, partitions and virtual devices (R395 to R409)
  | drainComplete (t : BitVec 4)
  | flushComplete (t : BitVec 4)
  | enumerationComplete (t : BitVec 4)
  | resetFlitDrain (vf : BitVec 10)
  | tinvComplete (part : BitVec 6)
  -- events of bring-up, attestation and health (R413 to R418)
  | attestationComplete
  | registrationWrite (r : BitVec 12) (v : BitVec 256)
  | relayCopyUpdate (t : BitVec 4) (n : Nat)
  | phaseWriteBack (c : CtxId)
  -- what the outside and system software do, what the event list of a turn does not name, and faults of the hardware
  | waitingStrapRelease (c : CtxId)
  | resultLanding (c : CtxId)
  | yieldExpiry (c : CtxId)
  | matrixWayRelease (core : CoreId)
  | asynchronousFault (c : CtxId) (f : AsyncFault)
  | stopRequest (c : CtxId)
  | operatorOverrun (part : BitVec 6) (launch : Nat)
  | contextResume (c : CtxId)
  | contextSave (c : CtxId)
  | contextRestore (src dst : CtxId)
  | endOperator (part : BitVec 6) (launch : Nat)
  | gbarArrival (c : CtxId)
  | shapeRecordFetch (core : CoreId) (n : Nat) (drop : Nat)
  /-- What a storage controller delivers of a storage read (R271): bytes of its data at an offset, in any order, or, with `data` none,
  its completion with the status of NVMe. -/
  | nvmeCompletion (core : CoreId) (lane : BitVec 3) (status : BitVec 15) (data : Option (Nat × List Byte))
  | gsubmit (vf : BitVec 10) (v : Word)
  | gstatWrite (vf : BitVec 10) (v : Word)
  | hostMemoryAccess (vf : BitVec 10) (a : HostAccess)
  | rolemapWrite (v : Word)
  | rolebootWrite (v : Word)
  | tctlReEnumerate (t : BitVec 4)
  | tctlReleaseFailed (t : BitVec 4)
  | terraceLogicError (t : BitVec 4)
  | pctlForm (part : BitVec 6) (addr : Word)
  | pctlDissolve (part : BitVec 6)
  | vdcfgWrite (vf : BitVec 10) (v : Word)
  | vdstatReset (vf : BitVec 10) (v : Word)
  | functionLevelReset (vf : BitVec 10)
  | migrationBoundary (part : BitVec 6) (area : Nat)
  | tinvStart (part : BitVec 6) (v : Word)
  | lctlTrain (link : BitVec 4)
  | lctlQuarantine (link : BitVec 4)
  | lctlRelease (link : BitVec 4)
  | linkTrainingDone (link : BitVec 4) (passed : BitVec 9) (peerModule : BitVec 16) (peerLink : BitVec 4)
  | linkTrainingTimeout (link : BitVec 4)
  | linkLaneFailure (link : BitVec 4) (lane : BitVec 4)
  | linkFailure (link : BitVec 4) (cause : BitVec 4)
  | flitRetry (link : BitVec 4)
  | powerOnReset (f : BootFacts)
  | bootStartTimeout
  | bootctlRestart (v : Word) (f : BootFacts)
  | attestationRequest (v : Word)
  | thermalEvent (t : BitVec 4) (monitor : BitVec 5) (value : BitVec 16)
  | coolantGradeChange (high : Bool)
  | correctableError (p : Part)
  | uncorrectableError (p : Part) (addr : Option Nat)
  | registerWrite (offset : Nat) (v : Word)
  deriving DecidableEq, Repr

end Sys2Proof
end

