-- ==== Sys2Proof/WellFormed.lean ====
section
/-! DEFINITION. What the encodings of R87 to R93 and the rules of each instruction allow, checked on the term alone.
A slot operation that is not well formed is one that R79 refuses at decode with fault 0x02. Checks that need the
state (privilege, matrix ownership, features, delay straps) stand in Machine/Issue.lean. -/

namespace Sys2Proof

/-- The 4-bit code of a format (R34). -/
def Fmt.code : Fmt → BitVec 4
  | .f32 => 0x0 | .bf16 => 0x1 | .f16 => 0x2 | .e4m3 => 0x3 | .e5m2 => 0x4 | .o4 => 0x5 | .s8 => 0x6 | .s16 => 0x7
  | .s32 => 0x8 | .s64 => 0x9 | .n8 => 0xA | .n16 => 0xB | .n32 => 0xC | .n64 => 0xD | .b1 => 0xE

/-- The format of a 4-bit code; 0xF is reserved (R34). -/
def Fmt.ofCode (c : BitVec 4) : Option Fmt :=
  match c.toNat with
  | 0 => some .f32 | 1 => some .bf16 | 2 => some .f16 | 3 => some .e4m3 | 4 => some .e5m2 | 5 => some .o4
  | 6 => some .s8 | 7 => some .s16 | 8 => some .s32 | 9 => some .s64 | 10 => some .n8 | 11 => some .n16
  | 12 => some .n32 | 13 => some .n64 | 14 => some .b1 | _ => none

/-- The bits of one element (R193); .o4 has no element of its own width and counts as 4. -/
def Fmt.bits : Fmt → Nat
  | .b1 => 1 | .o4 => 4
  | .s8 | .n8 | .e4m3 | .e5m2 => 8
  | .s16 | .n16 | .bf16 | .f16 => 16
  | .s32 | .n32 | .f32 => 32
  | .s64 | .n64 => 64

/-- The INT set of R197. -/
def Fmt.isInt : Fmt → Bool
  | .s8 | .s16 | .s32 | .s64 | .n8 | .n16 | .n32 | .n64 => true
  | _ => false

/-- The signed integer formats. -/
def Fmt.isSigned : Fmt → Bool
  | .s8 | .s16 | .s32 | .s64 => true
  | _ => false

/-- The FA set of R214. -/
def Fmt.isFA : Fmt → Bool
  | .f32 | .bf16 | .f16 => true
  | _ => false

/-- The FF set of R214. -/
def Fmt.isFF : Fmt → Bool
  | .f32 | .bf16 | .f16 | .e4m3 | .e5m2 => true
  | _ => false

/-- The ANY set of R197: every format but .o4 and .b1. -/
def Fmt.isAny : Fmt → Bool
  | .o4 | .b1 => false
  | _ => true

/-- The width of a vector operation in bits (R76). -/
def VWidth.bits : VWidth → Nat
  | .w256 => 256 | .w512 => 512 | .w1024 => 1024

/-- The lane groups of a vector operation (R193). -/
def VWidth.groups : VWidth → Nat
  | .w256 => 1 | .w512 => 2 | .w1024 => 4

/-- The elements of an operation, E of R193. -/
def VHdr.elems (h : VHdr) (f : Fmt) : Nat := h.width.bits / f.bits

/-- A source of the S, A and V slots (R81): anything but sq. -/
def Spec.isSrc : Spec → Bool
  | .sq => false
  | _ => true

/-- A register, direct or base-relative. -/
def Spec.isReg : Spec → Bool
  | .reg _ | .rel _ => true
  | _ => false

/-- A destination of the S slot (R81). -/
def Spec.isSDst : Spec → Bool
  | .reg _ | .rel _ | .sq | .zero => true
  | _ => false

/-- A destination of the A slot, and the S-file destination of VRED and VSCAN (R81, R228). -/
def Spec.isADst : Spec → Bool
  | .reg _ | .rel _ | .zero => true
  | _ => false

/-- A destination of the V slots (R81). -/
def Spec.isVDst : Spec → Bool
  | .lq | .kq => false
  | _ => true

/-- A field that the instruction does not read, which must be zero (R86). -/
def Spec.unread (s : Spec) : Bool := s == .reg 0

def ShiftBy.isSrc : ShiftBy → Bool
  | .by b => b.isSrc
  | .imm _ => true

/-- The code of a scope (R334). -/
def Scope.code : Scope → BitVec 4
  | .ctx => 0 | .core => 1 | .quad => 2 | .ter => 3 | .cas => 4 | .part => 5 | .mod => 6 | .pod => 7 | .sys => 8

/-- The scope of a code; 9 to 15 raise fault 0x02 (R89). -/
def Scope.ofCode (c : BitVec 4) : Option Scope :=
  match c.toNat with
  | 0 => some .ctx | 1 => some .core | 2 => some .quad | 3 => some .ter | 4 => some .cas | 5 => some .part
  | 6 => some .mod | 7 => some .pod | 8 => some .sys | _ => none

/-- The scope as a number, wider scopes higher (R335). -/
def Scope.rank (s : Scope) : Nat := s.code.toNat

def MovLoc.wfDst : MovLoc → Bool
  | .s sp => sp.isSDst
  | .a sp => sp.isReg
  | _ => true

/-- The system registers numbered below 0x800 (R111, R288). -/
def sysListed (n : Nat) : Bool := n ≤ 5 || (0x10 ≤ n && n ≤ 0x15)

def MovSrc.wf : MovSrc → Bool
  | .loc (.s sp) => sp.isSrc
  | .loc (.a sp) => sp.isReg
  | .loc _ => true
  | .sys n => sysListed n.toNat

def CmpDst.wf : CmpDst → Bool
  | .s sp => sp.isSDst
  | .p _ => true

/-- The width rule of R165: any width for an ordinary access, at most 8 bytes for a strong one, and no scope on an
ordinary one. -/
def lsWf (w : BitVec 3) (sc : Scope) (o : Order) : Bool :=
  match o with
  | .ordinary => sc == .ctx
  | _ => w.toNat ≤ 3

/-- Two source specifiers and a vector destination. -/
def wfDab (d a b : Spec) : Bool := d.isVDst && a.isSrc && b.isSrc

/-- Three source specifiers and a vector destination. -/
def wfDabc (d a b c : Spec) : Bool := wfDab d a b && c.isSrc

/-- No predicate and no negation (R194). -/
def VHdr.plain (h : VHdr) : Bool := h.pred == 0 && !h.neg

/-- The INT formats of fewer than 64 bits (R201). -/
def Fmt.isIntNarrow (f : Fmt) : Bool := f.isInt && f.bits < 64

/-- The 8-bit and 16-bit INT formats (R201, R205, R206). -/
def Fmt.isIntSmall (f : Fmt) : Bool := f.isInt && f.bits ≤ 16

/-- The formats VRED and VSCAN take with an operator (R228). -/
def TreeOp.accepts : TreeOp → Fmt → Bool
  | .sum, f | .max, f | .min, f => f.isFA || f.isInt
  | .and, f | .or, f | .xor, f => f.isInt

/-- The formats of an operand tile (R233). -/
def Fmt.isTile : Fmt → Bool
  | .bf16 | .f16 | .e4m3 | .e5m2 | .s8 | .o4 | .b1 => true
  | _ => false

/-- An M-slot operand whose format takes no scale has a zero scale field (R86, R238). -/
def scaleFieldWf (f : Fmt) (k : BitVec 4) : Bool :=
  match f with
  | .e4m3 | .e5m2 | .o4 => true
  | _ => k == 0

/-- Whether a collective operator accepts a format (R266). -/
def collOpWf (op : Nat) (f : BitVec 4) : Bool :=
  match Fmt.ofCode f with
  | none => false
  | some f =>
    if op ≤ 3 then f.isFA || f.isInt
    else if op ≤ 6 then f.isInt
    else op == 7 && f.isFA

def XSpec.isX : XSpec → Bool
  | .x _ => true
  | .none => false

/-- VFCVT's formats, part number and merge source (R219). -/
def vfcvtWf (dst src : Fmt) (b : Spec) (q : Nat) : Bool :=
  (dst.isFF || dst.isInt) && (src.isFF || src.isInt) && (dst.isFF || src.isFF) &&
  (if dst.bits = src.bits then q == 0 && b.unread
   else if src.bits < dst.bits then q < dst.bits / src.bits && b.unread
   else q < src.bits / dst.bits && b.isSrc)

/-- A term that R79 does not refuse for its fields alone. Every event is well formed. -/
def Instr.wf : Instr → Bool
  | .skip _ _ k => 1 ≤ k.toNat && k.toNat ≤ 16
  | .join g | .leave g => g.toNat < 64
  | .add d a b | .sub d a b | .mul d a b | .mulHs d a b | .mulHu d a b | .div d a b | .divU d a b | .rem d a b
  | .remU d a b | .and d a b | .or d a b | .xor d a b | .shl d a b | .shr d a b | .sar d a b | .min d a b
  | .minU d a b | .max d a b | .maxU d a b | .bext d a b | .bextS d a b => d.isSDst && a.isSrc && b.isSrc
  | .bins d a b => d.isReg && a.isSrc && b.isSrc
  | .addi d a _ | .andi d a _ | .ori d a _ | .xori d a _ | .shiL d a _ | .shiR d a _ | .shiA d a _ | .clz d a
  | .popc d a => d.isSDst && a.isSrc
  | .cmp d a b _ => d.wf && a.isSrc && b.isSrc
  | .cmpi d a _ _ => d.wf && a.isSrc
  | .sel d a b _ _ => d.isSDst && a.isSrc && b.isSrc
  | .li d _ | .lui d _ => d.isSDst
  | .movx d a => d.wfDst && a.wf
  | .movxB _ d a f => d.isReg && a.isSrc && f != .o4
  | .setb _ a => a.isSrc
  | .csrr d n => d.isSDst && (0x800 ≤ n.toNat || sysListed n.toNat)
  | .csrw n a => a.isSrc &&
      (0x800 ≤ n.toNat || (sysListed n.toNat && n != 2 && n != 3 && n != 5))
  | .aadd d a b => d.isADst && a.isSrc && b.isSrc
  | .aaddi d a _ => d.isADst && a.isSrc
  | .amadd d a b c => d.isADst && a.isSrc && b.isSrc && c.isSrc
  | .ali d _ => d.isADst
  | .lda b x w sc o | .sta b x w sc o => b.isSrc && x.isSrc && lsWf w sc o
  | .lds b x _ | .sts b x _ | .pf b x _ | .ldt b x | .stt b x | .ldk b x _ | .sti b x _ | .skst b x _
  | .skrtg b x _ | .skdrop b x | .gidx b x => b.isSrc && x.isSrc
  | .atom b x w _ _ op => b.isSrc && x.isSrc && (w == 2 || (w == 3 && op != .fadd))
  | .cas b x w _ _ => b.isSrc && x.isReg && (w == 2 || w == 3)
  | .postf ya yb _ sc k => (k == 0 || yb == 0) && (2 ≤ sc.rank || ya == 0)
  | .vadd _ f d a b | .vsub _ f d a b | .vmul _ f d a b _ | .vadds _ f d a b | .vsubs _ f d a b | .vmin _ f d a b
  | .vmax _ f d a b | .vavg _ f d a b _ | .vabsd _ f d a b => f.isInt && wfDab d a b
  | .vmad _ f d a b c => f.isInt && wfDabc d a b c
  | .vabs _ f d a | .vpopc _ f d a => f.isInt && d.isVDst && a.isSrc
  | .vshl _ f d a b | .vshr _ f d a b | .vsar _ f d a b => f.isInt && d.isVDst && a.isSrc && b.isSrc
  | .vand _ f d a b | .vor _ f d a b | .vxor _ f d a b => (f.isInt || f == .b1) && wfDab d a b
  | .vnot _ f d a => (f.isInt || f == .b1) && d.isVDst && a.isSrc
  | .vcmp _ f _ a b _ => f.isInt && a.isSrc && b.isSrc
  | .vsel _ f d a b => f.isAny && wfDab d a b
  | .vdot _ f d a b c | .vsad _ f d a b c => f.isIntSmall && wfDabc d a b c
  | .vwmul _ f d a b _ => f.isIntNarrow && wfDab d a b
  | .vnarw _ f d a b _ _ _ _ => f.isIntNarrow && wfDab d a b
  | .vwide _ f d a _ => f.isIntNarrow && d.isVDst && a.isSrc
  | .vpxu _ f d a b n => f.isInt && wfDab d a b && n.toNat < f.bits
  | .vpxp _ f d a n _ => f.isInt && d.isVDst && a.isSrc && n.toNat < f.bits
  | .vbitx _ f d a b len => f.isInt && wfDab d a b && 1 ≤ len.toNat && len.toNat ≤ f.bits
  | .vbitp _ f d a b c len => f.isInt && wfDabc d a b c && 1 ≤ len.toNat && len.toNat ≤ f.bits
  | .vlut _ f d a b c x2 => f.isIntSmall && wfDab d a b && (if x2 then c.isSrc else c.unread)
  | .vperm _ f d a b c => f.isAny && wfDabc d a b c
  | .vshuf h f d a m | .vbcast h f d a m => f.isAny && d.isVDst && a.isSrc && m.toNat < h.elems f
  | .vslide h f d a b s => f.isAny && wfDab d a b && s.toNat ≤ h.elems f
  | .vzip _ f d a b _ | .vuzip _ f d a b _ | .vtrn _ f d a b _ => f.isAny && wfDab d a b
  | .vcmpr _ f d a merge => f.isAny && a.isSrc && (if merge then d.isReg else d.isVDst)
  | .vmov _ f d a => f.isAny && d.isVDst && a.isSrc
  | .vli _ f d imm => f.isAny && d.isVDst &&
      (match f with | .bf16 | .f16 | .e4m3 | .e5m2 => imm.toNat < 2 ^ f.bits | _ => true)
  | .vmovx _ f d a => f.isAny && d.isReg && a.isSrc
  | .pand h _ _ _ | .por h _ _ _ | .pxor h _ _ _ | .pnot h _ _ => h.plain
  | .pset h f _ n => h.plain && f.isAny && n.isSrc
  | .pcnt _ f d => (f.isAny || f == .b1) && d.isVDst
  | .vfadd _ f d a b | .vfsub _ f d a b | .vfmul _ f d a b => f.isFA && wfDab d a b
  | .vfma _ f d a b c _ _ => f.isFA && wfDabc d a b c
  | .vfmin _ f d a b | .vfmax _ f d a b => f.isFF && wfDab d a b
  | .vfsgn _ f d a b m => f.isFF && wfDab d a b && m.toNat ≤ 2
  | .vfcmp _ f _ a b _ => f.isFF && a.isSrc && b.isSrc
  | .vfcvt _ dst src d a b q _ => vfcvtWf dst src b q.toNat && d.isVDst && a.isSrc
  | .vfclass _ f d a => f.isFF && d.isVDst && a.isSrc
  | .vfexp2 _ f d a | .vfexp _ f d a | .vflog2 _ f d a | .vflog _ f d a | .vfrcp _ f d a | .vfrsq _ f d a
  | .vftanh _ f d a => f.isFA && d.isVDst && a.isSrc
  | .vamax _ f d a c => f.isFA && d.isVDst && a.isSrc && c.isSrc
  | .vscl _ f d a t ol => f.isFA && d.isVDst && a.isSrc && (!ol || t == .o4)
  | .vqnt h f d a b t _ => f.isFA && wfDab d a b && (t != .o4 || 32 ≤ h.elems f)
  | .vdqnt _ f d a b t => f.isFA && d.isVDst && a.isSrc && (if t = .o4 then b.unread else b.isSrc)
  | .vrelub _ f d b | .vmaxb _ f d b _ => f.isFA && d.isVDst && b.isSrc && b != .kq
  | .vmskb _ f d b => f.isAny && d.isVDst && b.isSrc && b != .kq
  | .vkfull _ f d => f.isAny && d.isVDst
  | .vred _ f d a op => op.accepts f && d.isADst && a.isSrc
  | .vscan _ f d a sd op => op.accepts f && d.isVDst && a.isSrc && sd.isADst
  | .mma fa fb _ ka kb _ _ _ => scaleFieldWf fa ka && scaleFieldWf fb kb
  | .mcfg _ _ ka cell _ => cell || ka == 0
  | .mdrn f _ _ | .mlda f _ _ => f == .f32 || f == .s32 || f == .bf16
  | .xcpc _ f _ _ _ _ _ _ => f == .bf16 || f == .f16
  | .xfill _ f _ n _ kept _ tr => f.isTile && (n.isX == !kept) && !(tr && (kept || f == .o4 || f == .b1))
  | .xcoll f _ _ _ _ op kind =>
      match kind.toNat with
      | 0 | 1 | 3 => f == 0 && op == 0
      | 2 | 4 => collOpWf op.toNat f
      | _ => false
  | .xcav f _ _ _ _ op => collOpWf op.toNat f
  | _ => true

end Sys2Proof
end

