-- ==== Sys2Proof/Decode.lean ====
section
/-! DEFINITION. From bits to operations: the slot encodings of R86 to R93 with the opcode grids of R95, the bundle
header of R76, and the encoder beside them. Decoding is total: a word is an operation or is refused by name. -/

namespace Sys2Proof

/-- Why a slot word is refused; each is fault 0x02 of R79. -/
inductive DecodeError where
  /-- A dash of the opcode grids (R80, R95). -/
  | reservedOpcode
  /-- A non-zero field that the instruction does not read (R86). -/
  | unreadField
  /-- A specifier that R81 or R246 reserves. -/
  | reservedSpecifier
  /-- Format code 0xF (R34). -/
  | reservedFormat
  /-- A rounding code of R51 that is reserved. -/
  | reservedRounding
  /-- Scope codes 9 to 15 (R89, R91). -/
  | reservedScope
  /-- A function, condition or modifier value outside the instruction's row. -/
  | reservedFunction
  /-- Fields that are each legal and together break the instruction's own rule. -/
  | reservedValue
  deriving DecidableEq, Repr

/-- The nine slots, in slot order (R76). -/
inductive Slot where
  | c | s | a | v0 | v1 | m | k | x | y
  deriving DecidableEq, Repr

/-- The presence-bit number of a slot (R76). -/
def Slot.num : Slot → Nat
  | .c => 0 | .s => 1 | .a => 2 | .v0 => 3 | .v1 => 4 | .m => 5 | .k => 6 | .x => 7 | .y => 8

/-- The slots in slot order. -/
def slotOrder : List Slot := [.c, .s, .a, .v0, .v1, .m, .k, .x, .y]

/-- The width of a slot's encoding in 16-bit words (R77). -/
def Slot.words : Slot → Nat
  | .c | .s | .a | .k | .y => 2
  | .v0 | .v1 | .m | .x => 3

/-- One slot encoding of a bundle: its slot, the vector width its header gives, and its bits, a 32-bit encoding
zero-extended. -/
structure OpWord where
  slot : Slot
  width : VWidth
  word : BitVec 48
  deriving DecidableEq, Repr

/-- The fields of the C-T format (R87), highest first. -/
structure CT where
  op : BitVec 8
  l : BitVec 3
  p : BitVec 4
  n : BitVec 1
  t : BitVec 16
  deriving DecidableEq, Repr

/-- The word of the fields. -/
def packWordCT (r : CT) : BitVec (8 + 3 + 4 + 1 + 16) :=
  r.op ++ r.l ++ r.p ++ r.n ++ r.t

/-- The fields of a word. -/
def fieldsOfCT (w : BitVec (8 + 3 + 4 + 1 + 16)) : CT :=
  { op := w.extractLsb' 24 8, l := w.extractLsb' 21 3, p := w.extractLsb' 17 4, n := w.extractLsb' 16 1, t := w.extractLsb' 0 16 }

/-- The fields of the C-I format (R87), highest first. -/
structure CI where
  op : BitVec 8
  l : BitVec 3
  aux : BitVec 3
  imm : BitVec 18
  deriving DecidableEq, Repr

/-- The word of the fields. -/
def packWordCI (r : CI) : BitVec (8 + 3 + 3 + 18) :=
  r.op ++ r.l ++ r.aux ++ r.imm

/-- The fields of a word. -/
def fieldsOfCI (w : BitVec (8 + 3 + 3 + 18)) : CI :=
  { op := w.extractLsb' 24 8, l := w.extractLsb' 21 3, aux := w.extractLsb' 18 3, imm := w.extractLsb' 0 18 }

/-- The fields of the S-R, A-R and Y-C formats (R88, R89, R91): four 6-bit fields, highest first. -/
structure SR where
  op : BitVec 8
  d : BitVec 6
  a : BitVec 6
  b : BitVec 6
  c : BitVec 6
  deriving DecidableEq, Repr

/-- The word of the fields. -/
def packWordSR (r : SR) : BitVec (8 + 6 + 6 + 6 + 6) :=
  r.op ++ r.d ++ r.a ++ r.b ++ r.c

/-- The fields of a word. -/
def fieldsOfSR (w : BitVec (8 + 6 + 6 + 6 + 6)) : SR :=
  { op := w.extractLsb' 24 8, d := w.extractLsb' 18 6, a := w.extractLsb' 12 6, b := w.extractLsb' 6 6, c := w.extractLsb' 0 6 }

/-- The fields of the S-I and A-I formats (R88, R89), highest first. -/
structure SI where
  op : BitVec 8
  d : BitVec 6
  a : BitVec 6
  imm : BitVec 12
  deriving DecidableEq, Repr

/-- The word of the fields. -/
def packWordSI (r : SI) : BitVec (8 + 6 + 6 + 12) :=
  r.op ++ r.d ++ r.a ++ r.imm

/-- The fields of a word. -/
def fieldsOfSI (w : BitVec (8 + 6 + 6 + 12)) : SI :=
  { op := w.extractLsb' 24 8, d := w.extractLsb' 18 6, a := w.extractLsb' 12 6, imm := w.extractLsb' 0 12 }

/-- The fields of the A-M format (R89), highest first. -/
structure AM where
  op : BitVec 8
  b : BitVec 6
  x : BitVec 6
  w : BitVec 3
  sc : BitVec 4
  o : BitVec 2
  m : BitVec 3
  deriving DecidableEq, Repr

/-- The word of the fields. -/
def packWordAM (r : AM) : BitVec (8 + 6 + 6 + 3 + 4 + 2 + 3) :=
  r.op ++ r.b ++ r.x ++ r.w ++ r.sc ++ r.o ++ r.m

/-- The fields of a word. -/
def fieldsOfAM (w : BitVec (8 + 6 + 6 + 3 + 4 + 2 + 3)) : AM :=
  { op := w.extractLsb' 24 8, b := w.extractLsb' 18 6, x := w.extractLsb' 12 6, w := w.extractLsb' 9 3, sc := w.extractLsb' 5 4, o := w.extractLsb' 3 2, m := w.extractLsb' 0 3 }

/-- The fields of the K-slot format (R90), highest first. -/
structure KF where
  op : BitVec 8
  d : BitVec 4
  s : BitVec 4
  fn : BitVec 2
  imm : BitVec 14
  deriving DecidableEq, Repr

/-- The word of the fields. -/
def packWordKF (r : KF) : BitVec (8 + 4 + 4 + 2 + 14) :=
  r.op ++ r.d ++ r.s ++ r.fn ++ r.imm

/-- The fields of a word. -/
def fieldsOfKF (w : BitVec (8 + 4 + 4 + 2 + 14)) : KF :=
  { op := w.extractLsb' 24 8, d := w.extractLsb' 20 4, s := w.extractLsb' 16 4, fn := w.extractLsb' 14 2, imm := w.extractLsb' 0 14 }

/-- The fields of the Y-G format (R91), highest first. -/
structure YG where
  op : BitVec 8
  ya : BitVec 3
  yb : BitVec 3
  obj : BitVec 6
  sc : BitVec 4
  o : BitVec 2
  imm : BitVec 6
  deriving DecidableEq, Repr

/-- The word of the fields. -/
def packWordYG (r : YG) : BitVec (8 + 3 + 3 + 6 + 4 + 2 + 6) :=
  r.op ++ r.ya ++ r.yb ++ r.obj ++ r.sc ++ r.o ++ r.imm

/-- The fields of a word. -/
def fieldsOfYG (w : BitVec (8 + 3 + 3 + 6 + 4 + 2 + 6)) : YG :=
  { op := w.extractLsb' 24 8, ya := w.extractLsb' 21 3, yb := w.extractLsb' 18 3, obj := w.extractLsb' 12 6, sc := w.extractLsb' 8 4, o := w.extractLsb' 6 2, imm := w.extractLsb' 0 6 }

/-- The fields of the vector format (R92), highest first. -/
structure VF where
  op : BitVec 8
  f : BitVec 4
  p : BitVec 4
  n : BitVec 1
  d : BitVec 6
  a : BitVec 6
  b : BitVec 6
  c : BitVec 6
  fn : BitVec 7
  deriving DecidableEq, Repr

/-- The word of the fields. -/
def packWordVF (r : VF) : BitVec (8 + 4 + 4 + 1 + 6 + 6 + 6 + 6 + 7) :=
  r.op ++ r.f ++ r.p ++ r.n ++ r.d ++ r.a ++ r.b ++ r.c ++ r.fn

/-- The fields of a word. -/
def fieldsOfVF (w : BitVec (8 + 4 + 4 + 1 + 6 + 6 + 6 + 6 + 7)) : VF :=
  { op := w.extractLsb' 40 8, f := w.extractLsb' 36 4, p := w.extractLsb' 32 4, n := w.extractLsb' 31 1, d := w.extractLsb' 25 6, a := w.extractLsb' 19 6, b := w.extractLsb' 13 6, c := w.extractLsb' 7 6, fn := w.extractLsb' 0 7 }

/-- The fields of the M-slot format (R93), highest first. -/
structure MF where
  op : BitVec 8
  fa : BitVec 4
  fb : BitVec 4
  acc : BitVec 3
  rq : BitVec 3
  ka : BitVec 4
  kb : BitVec 4
  imm : BitVec 18
  deriving DecidableEq, Repr

/-- The word of the fields. -/
def packWordMF (r : MF) : BitVec (8 + 4 + 4 + 3 + 3 + 4 + 4 + 18) :=
  r.op ++ r.fa ++ r.fb ++ r.acc ++ r.rq ++ r.ka ++ r.kb ++ r.imm

/-- The fields of a word. -/
def fieldsOfMF (w : BitVec (8 + 4 + 4 + 3 + 3 + 4 + 4 + 18)) : MF :=
  { op := w.extractLsb' 40 8, fa := w.extractLsb' 36 4, fb := w.extractLsb' 32 4, acc := w.extractLsb' 29 3, rq := w.extractLsb' 26 3, ka := w.extractLsb' 22 4, kb := w.extractLsb' 18 4, imm := w.extractLsb' 0 18 }

/-- The fields of the X-slot format (R93), highest first. -/
structure XF where
  op : BitVec 8
  f : BitVec 4
  lane : BitVec 4
  d : BitVec 6
  a : BitVec 6
  b : BitVec 6
  c : BitVec 6
  m : BitVec 8
  deriving DecidableEq, Repr

/-- The word of the fields. -/
def packWordXF (r : XF) : BitVec (8 + 4 + 4 + 6 + 6 + 6 + 6 + 8) :=
  r.op ++ r.f ++ r.lane ++ r.d ++ r.a ++ r.b ++ r.c ++ r.m

/-- The fields of a word. -/
def fieldsOfXF (w : BitVec (8 + 4 + 4 + 6 + 6 + 6 + 6 + 8)) : XF :=
  { op := w.extractLsb' 40 8, f := w.extractLsb' 36 4, lane := w.extractLsb' 32 4, d := w.extractLsb' 26 6, a := w.extractLsb' 20 6, b := w.extractLsb' 14 6, c := w.extractLsb' 8 6, m := w.extractLsb' 0 8 }

/-- The 6 bits of a specifier (R81). -/
def Spec.code : Spec → BitVec 6
  | .reg n => 0#1 ++ n
  | .rq n => 0b100#3 ++ n
  | .lq => 0x28 | .kq => 0x29 | .sq => 0x2A | .zero => 0x2B
  | .rel n => 0b11#2 ++ n

/-- The specifier of 6 bits; 0x2C to 0x2F are reserved (R81). -/
def Spec.ofCode (b : BitVec 6) : Option Spec :=
  if b.toNat < 0x20 then some (.reg (b.extractLsb' 0 5))
  else if b.toNat < 0x28 then some (.rq (b.extractLsb' 0 3))
  else if b.toNat = 0x28 then some .lq
  else if b.toNat = 0x29 then some .kq
  else if b.toNat = 0x2A then some .sq
  else if b.toNat = 0x2B then some .zero
  else if b.toNat < 0x30 then none
  else some (.rel (b.extractLsb' 0 4))

/-- The 6 bits of an X-slot register field (R246). -/
def XSpec.code : XSpec → BitVec 6
  | .x n => 0b00#2 ++ n
  | .none => 0x2B

/-- The X-slot register field of 6 bits (R246). -/
def XSpec.ofCode (b : BitVec 6) : Option XSpec :=
  if b.toNat < 0x10 then some (.x (b.extractLsb' 0 4))
  else if b.toNat = 0x2B then some .none
  else Option.none

/-- A value, or the error that its absence stands for. -/
def orErr {α : Type} (e : DecodeError) : Option α → Except DecodeError α
  | some v => .ok v
  | none => .error e

def needs (e : DecodeError) (c : Bool) : Except DecodeError Unit := if c then .ok () else .error e

/-- A field that the instruction does not read must be zero (R86). -/
def mustBeZero {n : Nat} (b : BitVec n) : Except DecodeError Unit := needs .unreadField (b == 0)

def specOf (b : BitVec 6) : Except DecodeError Spec := orErr .reservedSpecifier (Spec.ofCode b)
def xspecOf (b : BitVec 6) : Except DecodeError XSpec := orErr .reservedSpecifier (XSpec.ofCode b)
/-- An x register that must be given. -/
def xregOf (b : BitVec 6) : Except DecodeError (BitVec 4) :=
  if b.toNat < 0x10 then .ok (b.extractLsb' 0 4) else .error .reservedSpecifier
/-- A field that must hold 0x2B. -/
def absentOf (b : BitVec 6) : Except DecodeError Unit := needs .reservedSpecifier (b == 0x2B)
def fmtOf (b : BitVec 4) : Except DecodeError Fmt := orErr .reservedFormat (Fmt.ofCode b)
def scopeOf (b : BitVec 4) : Except DecodeError Scope := orErr .reservedScope (Scope.ofCode b)

/-- A number from 0 to 15 in a 6-bit field. -/
def pregOf (b : BitVec 6) : Except DecodeError (BitVec 4) :=
  if b.toNat < 16 then .ok (b.extractLsb' 0 4) else .error .reservedSpecifier

def Order.code : Order → BitVec 2
  | .ordinary => 0 | .relaxed => 1 | .acqRel => 2 | .seqCst => 3
def Order.ofCode (b : BitVec 2) : Order :=
  match b.toNat with | 0 => .ordinary | 1 => .relaxed | 2 => .acqRel | _ => .seqCst

def Rounding.code : Rounding → BitVec 3
  | .rne => 0 | .rz => 1 | .rd => 2 | .ru => 3 | .rs => 4
def Rounding.ofCode (b : BitVec 3) : Option Rounding :=
  match b.toNat with | 0 => some .rne | 1 => some .rz | 2 => some .rd | 3 => some .ru | 4 => some .rs | _ => none
def roundOf (b : BitVec 3) : Except DecodeError Rounding := orErr .reservedRounding (Rounding.ofCode b)

def RClass.code : RClass → BitVec 3
  | .sign => 1 | .argw => 2 | .narrow => 3 | .keepmask => 4 | .full => 5
def RClass.ofCode (b : BitVec 3) : Option RClass :=
  match b.toNat with | 1 => some .sign | 2 => some .argw | 3 => some .narrow | 4 => some .keepmask | 5 => some .full | _ => none
def classOf (b : BitVec 3) : Except DecodeError RClass := orErr .reservedFunction (RClass.ofCode b)

def SCond.code : SCond → BitVec 3
  | .eq => 0 | .ne => 1 | .lt => 2 | .ge => 3 | .ltu => 4 | .geu => 5
def SCond.ofCode (b : BitVec 3) : Option SCond :=
  match b.toNat with | 0 => some .eq | 1 => some .ne | 2 => some .lt | 3 => some .ge | 4 => some .ltu | 5 => some .geu | _ => none

def VCond.code : VCond → BitVec 3
  | .eq => 0 | .ne => 1 | .lt => 2 | .ge => 3 | .le => 4 | .gt => 5
def VCond.ofCode (b : BitVec 3) : Option VCond :=
  match b.toNat with | 0 => some .eq | 1 => some .ne | 2 => some .lt | 3 => some .ge | 4 => some .le | 5 => some .gt | _ => none

def FCond.code : FCond → BitVec 3
  | .eq => 0 | .ne => 1 | .lt => 2 | .ge => 3 | .le => 4 | .gt => 5 | .un => 6
def FCond.ofCode (b : BitVec 3) : Option FCond :=
  match b.toNat with
  | 0 => some .eq | 1 => some .ne | 2 => some .lt | 3 => some .ge | 4 => some .le | 5 => some .gt | 6 => some .un | _ => none

def WCond.code : WCond → BitVec 2
  | .eq => 0 | .ne => 1 | .geu => 2 | .ltu => 3
def WCond.ofCode (b : BitVec 2) : WCond :=
  match b.toNat with | 0 => .eq | 1 => .ne | 2 => .geu | _ => .ltu

def AtomOp.code : AtomOp → BitVec 3
  | .swap => 0 | .add => 1 | .and => 2 | .or => 3 | .xor => 4 | .max => 5 | .min => 6 | .fadd => 7
def AtomOp.ofCode (b : BitVec 3) : AtomOp :=
  match b.toNat with
  | 0 => .swap | 1 => .add | 2 => .and | 3 => .or | 4 => .xor | 5 => .max | 6 => .min | _ => .fadd

def TreeOp.code : TreeOp → BitVec 3
  | .sum => 0 | .max => 1 | .min => 2 | .and => 3 | .or => 4 | .xor => 5
def TreeOp.ofCode (b : BitVec 3) : Option TreeOp :=
  match b.toNat with | 0 => some .sum | 1 => some .max | 2 => some .min | 3 => some .and | 4 => some .or | 5 => some .xor | _ => none

def QTarget.code : QTarget → BitVec 2
  | .o4 => 0 | .s8 => 1 | .e4m3 => 2 | .e5m2 => 3
def QTarget.ofCode (b : BitVec 2) : QTarget :=
  match b.toNat with | 0 => .o4 | 1 => .s8 | 2 => .e4m3 | _ => .e5m2

def IBits.code : IBits → BitVec 2
  | .i2 => 0 | .i3 => 1 | .i4 => 2
def IBits.ofCode (b : BitVec 2) : Option IBits :=
  match b.toNat with | 0 => some .i2 | 1 => some .i3 | 2 => some .i4 | _ => none

def FenceOrd.code : FenceOrd → BitVec 2
  | .acq => 1 | .rel => 2 | .sc => 3
def FenceOrd.ofCode (b : BitVec 2) : Option FenceOrd :=
  match b.toNat with | 1 => some .acq | 2 => some .rel | 3 => some .sc | _ => none

def Base.code : Base → BitVec 2
  | .bs => 0 | .ba => 1 | .bv => 2 | .bw => 3
def Base.ofCode (b : BitVec 2) : Base :=
  match b.toNat with | 0 => .bs | 1 => .ba | 2 => .bv | _ => .bw

/-- The function field of a vector shift or of PSET: an immediate with bit 6 set for a shift (R198). -/
def ShiftBy.shiftFields : ShiftBy → BitVec 6 × BitVec 7
  | .by b => (b.code, 0)
  | .imm k => (0, 1#1 ++ k)

def shiftByOf (b : BitVec 6) (fn : BitVec 7) : Except DecodeError ShiftBy :=
  if fn.extractLsb' 6 1 = 1 then do mustBeZero b; return .imm (fn.extractLsb' 0 6)
  else do mustBeZero fn; return .by (← specOf b)

/-- PSET's operand: an immediate count, or a register with function bit 6 (R212). -/
def psetOf (a : BitVec 6) (fn : BitVec 7) : Except DecodeError ShiftBy :=
  if fn.extractLsb' 6 1 = 1 then do mustBeZero (fn.extractLsb' 0 6); return .by (← specOf a)
  else do mustBeZero a; return .imm (fn.extractLsb' 0 6)

def bit {n : Nat} (b : BitVec n) (i : Nat) : Bool := b.getLsbD i

/-- The operation, where its fields together are legal for it. -/
def finish (i : Instr) : Except DecodeError Instr := if i.wf then .ok i else .error .reservedValue

/-- Two source specifiers and a destination of the S-R format. -/
def srDab (r : SR) (k : Spec → Spec → Spec → Instr) : Except DecodeError Instr := do
  finish (k (← specOf r.d) (← specOf r.a) (← specOf r.b))

/-- An S-R operation of one source. -/
def srDa (r : SR) (k : Spec → Spec → Instr) : Except DecodeError Instr := do
  mustBeZero r.b; mustBeZero r.c
  finish (k (← specOf r.d) (← specOf r.a))

def siDa (r : SI) (k : Spec → Spec → BitVec 12 → Instr) : Except DecodeError Instr := do
  finish (k (← specOf r.d) (← specOf r.a) r.imm)

/-- C-slot words (R87, R95). -/
def decodeC (w : BitVec 32) : Except DecodeError Instr :=
  let t := fieldsOfCT w
  let i := fieldsOfCI w
  match t.op.toNat with
  | 0x01 => do mustBeZero t.l; mustBeZero t.p; mustBeZero t.n; finish (.br t.t)
  | 0x02 => do mustBeZero t.l; finish (.brp t.p (t.n == 1) t.t)
  | 0x03 => do mustBeZero t.p; mustBeZero t.n; mustBeZero t.t; finish (.bri t.l)
  | 0x04 => do mustBeZero t.p; mustBeZero t.n; finish (.call t.l t.t)
  | 0x05 => do mustBeZero i.aux; mustBeZero i.imm; finish (.ret i.l)
  | 0x08 => finish (.loop i.l i.aux (i.imm.extractLsb' 15 3) (i.imm.extractLsb' 0 15))
  | 0x09 => do mustBeZero t.p; mustBeZero t.n; finish (.lbr t.l t.t)
  | 0x0A => do mustBeZero (i.imm.extractLsb' 0 15); finish (.lset i.l i.aux (i.imm.extractLsb' 15 3))
  | 0x10 => do mustBeZero t.p; mustBeZero t.n; finish (.nextPoint t.l t.t)
  | 0x11 => do mustBeZero i.l; mustBeZero i.aux; mustBeZero i.imm; finish .exit
  | 0x12 => do mustBeZero i.l; mustBeZero i.aux; finish (.yield i.imm)
  | 0x13 => do mustBeZero t.l; finish (.skip t.p (t.n == 1) t.t)
  | 0x18 => do mustBeZero i.l; mustBeZero i.aux; finish (.join i.imm)
  | 0x19 => do mustBeZero i.l; mustBeZero i.aux; finish (.leave i.imm)
  | 0x20 => do mustBeZero i.l; mustBeZero i.aux; finish (.trap i.imm)
  | 0x21 => do mustBeZero i.l; mustBeZero i.aux; finish (.svc i.imm)
  | 0x22 => do mustBeZero i.l; mustBeZero i.aux; finish (.brk i.imm)
  | 0x30 => do mustBeZero i.l; mustBeZero i.aux; mustBeZero i.imm; finish .eret
  | _ => .error .reservedOpcode

def movLocOf (file : Nat) (b : BitVec 6) : Except DecodeError MovLoc :=
  match file with
  | 0 => do return .s (← specOf b)
  | 1 => do return .a (← specOf b)
  | 2 => if b.toNat < 8 then .ok (.l (b.extractLsb' 0 3)) else .error .reservedSpecifier
  | 3 => if b.toNat < 16 then .ok (.x (b.extractLsb' 0 4)) else .error .reservedSpecifier
  | 4 => if b.toNat < 8 then .ok (.y (b.extractLsb' 0 3)) else .error .reservedSpecifier
  | _ => .error .reservedFunction

def MovLoc.file : MovLoc → BitVec 3
  | .s _ => 0 | .a _ => 1 | .l _ => 2 | .x _ => 3 | .y _ => 4

def MovLoc.field : MovLoc → BitVec 6
  | .s sp => sp.code | .a sp => sp.code | .l n => n.setWidth 6 | .x n => n.setWidth 6 | .y n => n.setWidth 6

def MovSrc.file : MovSrc → BitVec 3
  | .loc m => m.file | .sys _ => 5

def MovSrc.field : MovSrc → BitVec 6
  | .loc m => m.field | .sys n => n

/-- MOVX and MOVX.b (R153, R154). -/
def decodeMovx (r : SR) : Except DecodeError Instr :=
  let sf := r.c.extractLsb' 3 3
  let df := r.c.extractLsb' 0 3
  if 6 ≤ df.toNat then do
    needs .reservedFunction (sf == 0)
    mustBeZero (r.b.extractLsb' 4 2)
    finish (.movxB (if df = 6 then .v0 else .v1) (← specOf r.d) (← specOf r.a) (← fmtOf (r.b.extractLsb' 0 4)))
  else do
    mustBeZero r.b
    let src ← (if sf = 5 then Except.ok (MovSrc.sys r.a) else do return MovSrc.loc (← movLocOf sf.toNat r.a))
    finish (.movx (← movLocOf df.toNat r.d) src)

def cmpDstOf (toP : Bool) (d : BitVec 6) : Except DecodeError CmpDst :=
  if toP then do return .p (← pregOf d) else do return .s (← specOf d)

def CmpDst.field : CmpDst → BitVec 6
  | .s sp => sp.code | .p n => n.setWidth 6
def CmpDst.toP : CmpDst → BitVec 1
  | .s _ => 0 | .p _ => 1

/-- S-slot words (R88, R95). -/
def decodeS (w : BitVec 32) : Except DecodeError Instr :=
  let r := fieldsOfSR w
  let i := fieldsOfSI w
  match r.op.toNat with
  | 0x01 => do mustBeZero r.c; srDab r .add
  | 0x02 => siDa i .addi
  | 0x03 => do mustBeZero r.c; srDab r .sub
  | 0x04 => match r.c.toNat with
      | 0 => srDab r .mul | 1 => srDab r .mulHs | 2 => srDab r .mulHu | _ => .error .reservedFunction
  | 0x05 => match r.c.toNat with | 0 => srDab r .div | 1 => srDab r .divU | _ => .error .reservedFunction
  | 0x06 => match r.c.toNat with | 0 => srDab r .rem | 1 => srDab r .remU | _ => .error .reservedFunction
  | 0x08 => do mustBeZero r.c; srDab r .and
  | 0x09 => do mustBeZero r.c; srDab r .or
  | 0x0A => do mustBeZero r.c; srDab r .xor
  | 0x0B => siDa i .andi
  | 0x0C => siDa i .ori
  | 0x0D => siDa i .xori
  | 0x10 => do mustBeZero r.c; srDab r .shl
  | 0x11 => do mustBeZero r.c; srDab r .shr
  | 0x12 => do mustBeZero r.c; srDab r .sar
  | 0x13 => do
      mustBeZero (i.imm.extractLsb' 8 4)
      let d ← specOf i.d
      let a ← specOf i.a
      let n := i.imm.extractLsb' 0 6
      match (i.imm.extractLsb' 6 2).toNat with
      | 0 => finish (.shiL d a n) | 1 => finish (.shiR d a n) | 2 => finish (.shiA d a n)
      | _ => .error .reservedFunction
  | 0x18 => match r.c.toNat with | 0 => srDab r .min | 1 => srDab r .minU | _ => .error .reservedFunction
  | 0x19 => match r.c.toNat with | 0 => srDab r .max | 1 => srDab r .maxU | _ => .error .reservedFunction
  | 0x1A => srDa r .clz
  | 0x1B => srDa r .popc
  | 0x1C => match r.c.toNat with | 0 => srDab r .bext | 1 => srDab r .bextS | _ => .error .reservedFunction
  | 0x1D => do mustBeZero r.c; srDab r .bins
  | 0x20 => do
      mustBeZero (r.c.extractLsb' 4 2)
      finish (.cmp (← cmpDstOf (bit r.c 3) r.d) (← specOf r.a) (← specOf r.b)
        (← orErr .reservedFunction (SCond.ofCode (r.c.extractLsb' 0 3))))
  | 0x21 => do
      finish (.cmpi (← cmpDstOf (bit i.imm 3) i.d) (← specOf i.a) (i.imm.extractLsb' 4 8)
        (← orErr .reservedFunction (SCond.ofCode (i.imm.extractLsb' 0 3))))
  | 0x22 => do
      mustBeZero (r.c.extractLsb' 5 1)
      finish (.sel (← specOf r.d) (← specOf r.a) (← specOf r.b) (bit r.c 4) (r.c.extractLsb' 0 4))
  | 0x28 => do mustBeZero i.a; finish (.li (← specOf i.d) i.imm)
  | 0x29 => do mustBeZero i.a; finish (.lui (← specOf i.d) i.imm)
  | 0x30 => decodeMovx r
  | 0x31 => do
      mustBeZero r.d; mustBeZero r.b; mustBeZero (r.c.extractLsb' 2 4)
      finish (.setb (Base.ofCode (r.c.extractLsb' 0 2)) (← specOf r.a))
  | 0x38 => do mustBeZero i.a; finish (.csrr (← specOf i.d) i.imm)
  | 0x39 => do mustBeZero i.d; finish (.csrw i.imm (← specOf i.a))
  | _ => .error .reservedOpcode

/-- An A-M operation of base, index, width, scope and order that needs its modifier zero. -/
def amFull (r : AM) (k : Spec → Spec → BitVec 3 → Scope → Order → Instr) : Except DecodeError Instr := do
  mustBeZero r.m
  finish (k (← specOf r.b) (← specOf r.x) r.w (← scopeOf r.sc) (Order.ofCode r.o))

/-- An A-M operation that reads base, index and width alone. -/
def amWidth (r : AM) (k : Spec → Spec → BitVec 3 → Instr) : Except DecodeError Instr := do
  mustBeZero r.m; mustBeZero r.sc; mustBeZero r.o
  finish (k (← specOf r.b) (← specOf r.x) r.w)

/-- An A-M operation that reads base, index and modifier alone. -/
def amMod (r : AM) (k : Spec → Spec → BitVec 3 → Except DecodeError Instr) : Except DecodeError Instr := do
  mustBeZero r.w; mustBeZero r.sc; mustBeZero r.o
  k (← specOf r.b) (← specOf r.x) r.m

/-- A-slot words (R89, R95, R165). -/
def decodeA (w : BitVec 32) : Except DecodeError Instr :=
  let r := fieldsOfSR w
  let i := fieldsOfSI w
  let m := fieldsOfAM w
  match r.op.toNat with
  | 0x01 => do mustBeZero r.c; srDab r .aadd
  | 0x02 => siDa i .aaddi
  | 0x03 => do finish (.amadd (← specOf r.d) (← specOf r.a) (← specOf r.b) (← specOf r.c))
  | 0x04 => do mustBeZero i.a; finish (.ali (← specOf i.d) i.imm)
  | 0x10 => amFull m .lda
  | 0x11 => amWidth m .lds
  | 0x12 => amMod m fun b x md => do mustBeZero md; finish (.ldt b x)
  | 0x13 => amMod m fun b x md => do finish (.ldk b x (← classOf md))
  | 0x14 => amWidth m .pf
  | 0x18 => amFull m .sta
  | 0x19 => amWidth m .sts
  | 0x1A => amMod m fun b x md => do mustBeZero md; finish (.stt b x)
  | 0x1B => amMod m fun b x md => do mustBeZero (md.extractLsb' 1 2); finish (.sti b x (bit md 0))
  | 0x1C => amMod m fun b x md => do finish (.skst b x (← classOf md))
  | 0x1D => amMod m fun b x md => do finish (.skrtg b x (← classOf md))
  | 0x1E => amMod m fun b x md => do mustBeZero md; finish (.skdrop b x)
  | 0x20 => do
      finish (.atom (← specOf m.b) (← specOf m.x) m.w (← scopeOf m.sc) (Order.ofCode m.o) (AtomOp.ofCode m.m))
  | 0x21 => amFull m .cas
  | 0x28 => amMod m fun b x md => do mustBeZero md; finish (.gidx b x)
  | _ => .error .reservedOpcode

/-- K-slot words (R90, R190). -/
def decodeK (w : BitVec 32) : Except DecodeError Instr :=
  let r := fieldsOfKF w
  match r.op.toNat, r.fn.toNat with
  | 0x01, 0 => do mustBeZero r.s; finish (.kld r.d r.imm)
  | 0x01, 1 => do mustBeZero r.s; finish (.kldD0 r.d r.imm)
  | 0x02, 0 => do mustBeZero r.s; mustBeZero (r.imm.extractLsb' 8 6); finish (.kset r.d (r.imm.extractLsb' 0 8))
  | 0x03, 0 => do mustBeZero r.imm; finish (.kmov r.d r.s)
  | 0x03, 1 => do mustBeZero (r.imm.extractLsb' 8 6); finish (.kmovAdj r.d r.s (r.imm.extractLsb' 0 8))
  | 0x01, _ | 0x02, _ | 0x03, _ => .error .reservedFunction
  | _, _ => .error .reservedOpcode

/-- Y-slot words (R91, R157). -/
def decodeY (w : BitVec 32) : Except DecodeError Instr :=
  let r := fieldsOfYG w
  let q := fieldsOfSR w
  match r.op.toNat with
  | 0x01 => do
      mustBeZero r.yb; mustBeZero r.o; mustBeZero (r.imm.extractLsb' 1 5)
      needs .reservedValue (r.obj.toNat < 32)
      finish (.waitf r.ya (r.obj.extractLsb' 0 5) (← scopeOf r.sc) (bit r.imm 0))
  | 0x02 => do
      mustBeZero r.o
      needs .reservedValue (r.obj.toNat < 32)
      finish (.postf r.ya r.yb (r.obj.extractLsb' 0 5) (← scopeOf r.sc) r.imm)
  | 0x03 => do
      mustBeZero r.obj; mustBeZero r.o; mustBeZero (r.imm.extractLsb' 2 4)
      finish (.waitw r.ya r.yb (← scopeOf r.sc) (WCond.ofCode (r.imm.extractLsb' 0 2)))
  | 0x04 => finish (.waitc q.d q.a q.b q.c)
  | 0x05 => do
      mustBeZero r.ya; mustBeZero r.yb; mustBeZero r.o; mustBeZero r.imm
      finish (.gbar r.obj (← scopeOf r.sc))
  | 0x08 => do
      mustBeZero r.ya; mustBeZero r.yb; mustBeZero r.obj; mustBeZero r.o; mustBeZero r.imm
      finish (.phase (← scopeOf r.sc))
  | 0x09 => do
      mustBeZero r.ya; mustBeZero r.yb; mustBeZero r.obj; mustBeZero r.imm
      finish (.fence (← scopeOf r.sc) (← orErr .reservedFunction (FenceOrd.ofCode r.o)))
  | 0x0A => do
      mustBeZero r.yb; mustBeZero r.obj; mustBeZero r.o; mustBeZero (r.imm.extractLsb' 1 5)
      if bit r.imm 0 then do mustBeZero r.ya; finish (.rfenceAll (← scopeOf r.sc))
      else finish (.rfence r.ya (← scopeOf r.sc))
  | _ => .error .reservedOpcode

/-- The header part of a vector word. -/
def VF.hdr (r : VF) (slot : VSlot) (width : VWidth) : VHdr :=
  { slot := slot, width := width, pred := r.p, neg := r.n == 1 }

/-- Vector operations of two sources with the function field zero. -/
def vDab (r : VF) (k : Fmt → Spec → Spec → Spec → Instr) : Except DecodeError Instr := do
  mustBeZero r.c; mustBeZero r.fn
  finish (k (← fmtOf r.f) (← specOf r.d) (← specOf r.a) (← specOf r.b))

/-- Vector operations of two sources with function bit 0 a flag. -/
def vDabF (r : VF) (k : Fmt → Spec → Spec → Spec → Bool → Instr) : Except DecodeError Instr := do
  mustBeZero r.c; mustBeZero (r.fn.extractLsb' 1 6)
  finish (k (← fmtOf r.f) (← specOf r.d) (← specOf r.a) (← specOf r.b) (bit r.fn 0))

/-- Vector operations of one source. -/
def vDa (r : VF) (k : Fmt → Spec → Spec → Instr) : Except DecodeError Instr := do
  mustBeZero r.b; mustBeZero r.c; mustBeZero r.fn
  finish (k (← fmtOf r.f) (← specOf r.d) (← specOf r.a))

/-- Vector operations of one source with a 7-bit immediate. -/
def vDaI (r : VF) (k : Fmt → Spec → Spec → BitVec 7 → Instr) : Except DecodeError Instr := do
  mustBeZero r.b; mustBeZero r.c
  finish (k (← fmtOf r.f) (← specOf r.d) (← specOf r.a) r.fn)

/-- Vector operations of three sources. -/
def vDabc (r : VF) (k : Fmt → Spec → Spec → Spec → Spec → Instr) : Except DecodeError Instr := do
  mustBeZero r.fn
  finish (k (← fmtOf r.f) (← specOf r.d) (← specOf r.a) (← specOf r.b) (← specOf r.c))

/-- Vector shifts (R198). -/
def vShift (r : VF) (k : Fmt → Spec → Spec → ShiftBy → Instr) : Except DecodeError Instr := do
  mustBeZero r.c
  finish (k (← fmtOf r.f) (← specOf r.d) (← specOf r.a) (← shiftByOf r.b r.fn))

/-- The predicate operations (R211). -/
def vPred (r : VF) (k : BitVec 4 → BitVec 4 → BitVec 4 → Instr) : Except DecodeError Instr := do
  mustBeZero r.f; mustBeZero r.c; mustBeZero r.fn
  finish (k (← pregOf r.d) (← pregOf r.a) (← pregOf r.b))

/-- A skive reader's pop: source a is kq (R227). -/
def kqSource (r : VF) : Except DecodeError Unit := do
  needs .reservedSpecifier (r.a == 0x29)
  mustBeZero r.c

/-- V0 and V1 words, one shared map (R92, R95, R96). -/
def decodeV (slot : VSlot) (width : VWidth) (w : BitVec 48) : Except DecodeError Instr :=
  let r := fieldsOfVF w
  let h := r.hdr slot width
  match r.op.toNat with
  | 0x01 => vDab r (.vadd h)
  | 0x02 => vDab r (.vsub h)
  | 0x03 => vDabF r (.vmul h)
  | 0x04 => vDabc r (.vmad h)
  | 0x05 => vDab r (.vadds h)
  | 0x06 => vDab r (.vsubs h)
  | 0x07 => vDab r (.vmin h)
  | 0x08 => vDab r (.vmax h)
  | 0x09 => vDa r (.vabs h)
  | 0x0A => vDabF r (.vavg h)
  | 0x0B => vDab r (.vabsd h)
  | 0x0C => vShift r (.vshl h)
  | 0x0D => vShift r (.vshr h)
  | 0x0E => vShift r (.vsar h)
  | 0x0F => vDab r (.vand h)
  | 0x10 => vDab r (.vor h)
  | 0x11 => vDab r (.vxor h)
  | 0x12 => vDa r (.vnot h)
  | 0x13 => do
      mustBeZero r.c; mustBeZero (r.fn.extractLsb' 3 4)
      finish (.vcmp h (← fmtOf r.f) (← pregOf r.d) (← specOf r.a) (← specOf r.b)
        (← orErr .reservedFunction (VCond.ofCode (r.fn.extractLsb' 0 3))))
  | 0x14 => vDab r (.vsel h)
  | 0x15 => vDa r (.vpopc h)
  | 0x16 => vDabc r (.vdot h)
  | 0x17 => vDabF r (.vwmul h)
  | 0x18 => do
      mustBeZero r.c
      finish (.vnarw h (← fmtOf r.f) (← specOf r.d) (← specOf r.a) (← specOf r.b) (bit r.fn 0) (bit r.fn 1)
        (bit r.fn 2) (r.fn.extractLsb' 3 4))
  | 0x19 => do
      mustBeZero r.b; mustBeZero r.c; mustBeZero (r.fn.extractLsb' 1 6)
      finish (.vwide h (← fmtOf r.f) (← specOf r.d) (← specOf r.a) (bit r.fn 0))
  | 0x20 => do
      mustBeZero r.c; mustBeZero (r.fn.extractLsb' 5 2)
      finish (.vpxu h (← fmtOf r.f) (← specOf r.d) (← specOf r.a) (← specOf r.b) (r.fn.extractLsb' 0 5))
  | 0x21 => do
      mustBeZero r.b; mustBeZero r.c; mustBeZero (r.fn.extractLsb' 6 1)
      finish (.vpxp h (← fmtOf r.f) (← specOf r.d) (← specOf r.a) (r.fn.extractLsb' 0 5) (bit r.fn 5))
  | 0x22 => do
      mustBeZero r.c; mustBeZero (r.fn.extractLsb' 6 1)
      finish (.vbitx h (← fmtOf r.f) (← specOf r.d) (← specOf r.a) (← specOf r.b) (r.fn.extractLsb' 0 6))
  | 0x23 => do
      mustBeZero (r.fn.extractLsb' 6 1)
      finish (.vbitp h (← fmtOf r.f) (← specOf r.d) (← specOf r.a) (← specOf r.b) (← specOf r.c)
        (r.fn.extractLsb' 0 6))
  | 0x24 => do
      mustBeZero (r.fn.extractLsb' 1 6)
      finish (.vlut h (← fmtOf r.f) (← specOf r.d) (← specOf r.a) (← specOf r.b) (← specOf r.c) (bit r.fn 0))
  | 0x25 => vDabc r (.vsad h)
  | 0x28 => vDabc r (.vperm h)
  | 0x29 => vDaI r (.vshuf h)
  | 0x2A => do
      mustBeZero r.c
      finish (.vslide h (← fmtOf r.f) (← specOf r.d) (← specOf r.a) (← specOf r.b) r.fn)
  | 0x2B => vDabF r (.vzip h)
  | 0x2C => vDabF r (.vuzip h)
  | 0x2D => vDabF r (.vtrn h)
  | 0x2E => do
      mustBeZero r.b; mustBeZero r.c; mustBeZero (r.fn.extractLsb' 1 6)
      finish (.vcmpr h (← fmtOf r.f) (← specOf r.d) (← specOf r.a) (bit r.fn 0))
  | 0x2F => vDaI r (.vbcast h)
  | 0x30 => vDa r (.vmov h)
  | 0x31 => do finish (.vli h (← fmtOf r.f) (← specOf r.d) (r.a ++ r.b ++ r.c ++ r.fn))
  | 0x32 => vDa r (.vmovx h)
  | 0x38 => vPred r (.pand h)
  | 0x39 => vPred r (.por h)
  | 0x3A => vPred r (.pxor h)
  | 0x3B => do mustBeZero r.b; vPred r (fun d a _ => .pnot h d a)
  | 0x3C => do
      mustBeZero r.b; mustBeZero r.c
      finish (.pset h (← fmtOf r.f) (← pregOf r.d) (← psetOf r.a r.fn))
  | 0x3D => do
      mustBeZero r.a; mustBeZero r.b; mustBeZero r.c; mustBeZero r.fn
      finish (.pcnt h (← fmtOf r.f) (← specOf r.d))
  | 0x40 => vDab r (.vfadd h)
  | 0x41 => vDab r (.vfsub h)
  | 0x42 => vDab r (.vfmul h)
  | 0x43 => do
      mustBeZero (r.fn.extractLsb' 2 5)
      finish (.vfma h (← fmtOf r.f) (← specOf r.d) (← specOf r.a) (← specOf r.b) (← specOf r.c) (bit r.fn 0) (bit r.fn 1))
  | 0x44 => vDab r (.vfmin h)
  | 0x45 => vDab r (.vfmax h)
  | 0x46 => do
      mustBeZero r.c; mustBeZero (r.fn.extractLsb' 2 5)
      finish (.vfsgn h (← fmtOf r.f) (← specOf r.d) (← specOf r.a) (← specOf r.b) (r.fn.extractLsb' 0 2))
  | 0x47 => do
      mustBeZero r.c; mustBeZero (r.fn.extractLsb' 3 4)
      finish (.vfcmp h (← fmtOf r.f) (← pregOf r.d) (← specOf r.a) (← specOf r.b)
        (← orErr .reservedFunction (FCond.ofCode (r.fn.extractLsb' 0 3))))
  | 0x48 => do
      finish (.vfcvt h (← fmtOf r.f) (← fmtOf (r.fn.extractLsb' 3 4)) (← specOf r.d) (← specOf r.a) (← specOf r.b) r.c
        (← roundOf (r.fn.extractLsb' 0 3)))
  | 0x49 => vDa r (.vfclass h)
  | 0x50 => vDa r (.vfexp2 h)
  | 0x51 => vDa r (.vfexp h)
  | 0x52 => vDa r (.vflog2 h)
  | 0x53 => vDa r (.vflog h)
  | 0x54 => vDa r (.vfrcp h)
  | 0x55 => vDa r (.vfrsq h)
  | 0x56 => vDa r (.vftanh h)
  | 0x58 => do
      mustBeZero r.b; mustBeZero r.fn
      finish (.vamax h (← fmtOf r.f) (← specOf r.d) (← specOf r.a) (← specOf r.c))
  | 0x59 => do
      mustBeZero r.b; mustBeZero r.c; mustBeZero (r.fn.extractLsb' 3 4)
      finish (.vscl h (← fmtOf r.f) (← specOf r.d) (← specOf r.a) (QTarget.ofCode (r.fn.extractLsb' 0 2)) (bit r.fn 2))
  | 0x5A => do
      mustBeZero r.c; mustBeZero (r.fn.extractLsb' 5 2)
      finish (.vqnt h (← fmtOf r.f) (← specOf r.d) (← specOf r.a) (← specOf r.b) (QTarget.ofCode (r.fn.extractLsb' 3 2))
        (← roundOf (r.fn.extractLsb' 0 3)))
  | 0x5B => do
      mustBeZero r.c; mustBeZero (r.fn.extractLsb' 2 5)
      finish (.vdqnt h (← fmtOf r.f) (← specOf r.d) (← specOf r.a) (← specOf r.b) (QTarget.ofCode (r.fn.extractLsb' 0 2)))
  | 0x60 => do kqSource r; mustBeZero r.fn; finish (.vrelub h (← fmtOf r.f) (← specOf r.d) (← specOf r.b))
  | 0x61 => do
      kqSource r; mustBeZero (r.fn.extractLsb' 4 3)
      finish (.vmaxb h (← fmtOf r.f) (← specOf r.d) (← specOf r.b) (r.fn.extractLsb' 0 4))
  | 0x62 => do kqSource r; mustBeZero r.fn; finish (.vmskb h (← fmtOf r.f) (← specOf r.d) (← specOf r.b))
  | 0x63 => do kqSource r; mustBeZero r.b; mustBeZero r.fn; finish (.vkfull h (← fmtOf r.f) (← specOf r.d))
  | 0x68 => do
      mustBeZero r.b; mustBeZero r.c; mustBeZero (r.fn.extractLsb' 3 4)
      finish (.vred h (← fmtOf r.f) (← specOf r.d) (← specOf r.a)
        (← orErr .reservedFunction (TreeOp.ofCode (r.fn.extractLsb' 0 3))))
  | 0x69 => do
      mustBeZero r.b; mustBeZero (r.fn.extractLsb' 3 4)
      finish (.vscan h (← fmtOf r.f) (← specOf r.d) (← specOf r.a) (← specOf r.c)
        (← orErr .reservedFunction (TreeOp.ofCode (r.fn.extractLsb' 0 3))))
  | _ => .error .reservedOpcode

/-- M-slot words (R93, R238). -/
def decodeM (w : BitVec 48) : Except DecodeError Instr :=
  let r := fieldsOfMF w
  match r.op.toNat with
  | 0x01 => do
      mustBeZero r.rq; mustBeZero (r.imm.extractLsb' 3 15)
      finish (.mma (← fmtOf r.fa) (← fmtOf r.fb) r.acc r.ka r.kb (bit r.imm 0) (bit r.imm 1) (bit r.imm 2))
  | 0x02 => do
      mustBeZero r.rq; mustBeZero r.ka; mustBeZero r.kb; mustBeZero (r.imm.extractLsb' 5 13)
      needs .reservedFunction (bit r.imm 4 == false)
      finish (.mmb (← fmtOf r.fa) (← fmtOf r.fb) r.acc (bit r.imm 0) (bit r.imm 1) (bit r.imm 2) (bit r.imm 3))
  | 0x08 => do
      mustBeZero r.acc; mustBeZero r.rq; mustBeZero r.kb; mustBeZero (r.imm.extractLsb' 2 16)
      finish (.mcfg (← fmtOf r.fa) (← fmtOf r.fb) r.ka (bit r.imm 0) (bit r.imm 1))
  | 0x09 => do
      mustBeZero r.fa; mustBeZero r.fb; mustBeZero r.acc; mustBeZero r.rq; mustBeZero r.ka; mustBeZero r.kb
      mustBeZero r.imm; finish .mdrain
  | 0x10 => do
      mustBeZero r.fb; mustBeZero r.ka; mustBeZero r.kb; mustBeZero r.imm
      finish (.mdrn (← fmtOf r.fa) r.acc r.rq)
  | 0x11 => do
      mustBeZero r.fa; mustBeZero r.fb; mustBeZero r.rq; mustBeZero r.ka; mustBeZero r.kb
      mustBeZero (r.imm.extractLsb' 1 17); finish (.mclr r.acc (bit r.imm 0))
  | 0x12 => do
      mustBeZero r.fb; mustBeZero r.rq; mustBeZero r.ka; mustBeZero r.kb; mustBeZero (r.imm.extractLsb' 14 4)
      finish (.mlda (← fmtOf r.fa) r.acc (r.imm.extractLsb' 0 14))
  | _ => .error .reservedOpcode

/-- Lane values 8 to 15 raise fault 0x02 (R246). -/
def laneOf (b : BitVec 4) : Except DecodeError (BitVec 3) :=
  if b.toNat < 8 then .ok (b.extractLsb' 0 3) else .error .reservedFunction

/-- XPOPQ's source a names a result queue (R246). -/
def rqOf (b : BitVec 6) : Except DecodeError (BitVec 3) :=
  if b.extractLsb' 3 3 = 0b100 then .ok (b.extractLsb' 0 3) else .error .reservedSpecifier

/-- X-slot words (R93, R245). -/
def decodeX (w : BitVec 48) : Except DecodeError Instr :=
  let r := fieldsOfXF w
  match r.op.toNat with
  | 0x01 => do
      mustBeZero r.f; mustBeZero (r.m.extractLsb' 1 7)
      finish (.xcp (← laneOf r.lane) (← xregOf r.d) (← xregOf r.a) (← xregOf r.b) (← xspecOf r.c) (bit r.m 0))
  | 0x02 => do
      mustBeZero r.f; mustBeZero (r.m.extractLsb' 2 6); mustBeZero (r.m.extractLsb' 0 1)
      finish (.xcpz (← laneOf r.lane) (← xregOf r.d) (← xregOf r.a) (← xregOf r.b) (← xregOf r.c) (bit r.m 1))
  | 0x03 => do
      mustBeZero (r.m.extractLsb' 7 1)
      finish (.xcpc (← laneOf r.lane) (← fmtOf r.f) (← xregOf r.d) (← xregOf r.a) (← xregOf r.b) (← xregOf r.c)
        (← orErr .reservedFunction (IBits.ofCode (r.m.extractLsb' 0 2))) (r.m.extractLsb' 2 5))
  | 0x04 => do
      absentOf r.d; mustBeZero (r.m.extractLsb' 3 5)
      finish (.xfill (← laneOf r.lane) (← fmtOf r.f) (← xregOf r.a) (← xspecOf r.b) (← xspecOf r.c) (bit r.m 0)
        (bit r.m 1) (bit r.m 2))
  | 0x08 => do
      mustBeZero r.f; absentOf r.a; mustBeZero (r.m.extractLsb' 0 1); mustBeZero (r.m.extractLsb' 2 6)
      let d ← xspecOf r.d
      needs .reservedSpecifier (d.isX == !bit r.m 1)
      finish (.xgath (← laneOf r.lane) d (← xregOf r.b) (← xspecOf r.c))
  | 0x09 => do
      mustBeZero r.f; absentOf r.d; mustBeZero r.m
      finish (.xscat (← laneOf r.lane) (← xregOf r.a) (← xregOf r.b) (← xspecOf r.c))
  | 0x0A => do
      mustBeZero r.f; mustBeZero r.m
      finish (.xpopq (← laneOf r.lane) (← xregOf r.d) (← rqOf r.a) (← xregOf r.b) (← xspecOf r.c))
  | 0x10 => do
      mustBeZero r.f; absentOf r.d; absentOf r.b
      finish (.xsend (← laneOf r.lane) r.m (← xregOf r.a) (← xspecOf r.c))
  | 0x11 => do
      mustBeZero r.f; absentOf r.a; absentOf r.b
      finish (.xrecv (← laneOf r.lane) r.m (← xspecOf r.d) (← xspecOf r.c))
  | 0x12 => do
      mustBeZero r.lane; mustBeZero (r.m.extractLsb' 7 1)
      finish (.xcoll r.f (← xregOf r.d) (← xregOf r.a) (← xregOf r.b) (← xspecOf r.c) (r.m.extractLsb' 0 4)
        (r.m.extractLsb' 4 3))
  | 0x13 => do
      mustBeZero r.lane; mustBeZero (r.m.extractLsb' 4 4)
      finish (.xcav r.f (← xregOf r.d) (← xregOf r.a) (← xregOf r.b) (← xspecOf r.c) (r.m.extractLsb' 0 4))
  | 0x18 => do
      mustBeZero r.f; mustBeZero r.lane; absentOf r.d; absentOf r.b; absentOf r.c; mustBeZero (r.m.extractLsb' 6 2)
      finish (.xtrig (r.m.extractLsb' 0 6) (← xregOf r.a))
  | 0x19 => do
      mustBeZero r.f; absentOf r.d; absentOf r.a; absentOf r.b; absentOf r.c
      if bit r.m 7 then do mustBeZero (r.m.extractLsb' 0 7); finish (.xcanLane (← laneOf r.lane))
      else do mustBeZero r.lane; mustBeZero (r.m.extractLsb' 6 1); finish (.xcan (r.m.extractLsb' 0 6))
  | 0x1A => do
      mustBeZero r.f; mustBeZero r.lane; absentOf r.d; absentOf r.b; absentOf r.c; mustBeZero r.m
      finish (.xqfence (← xregOf r.a))
  | 0x20 => do
      mustBeZero r.f; mustBeZero r.m
      finish (.xstor (← laneOf r.lane) (← xregOf r.d) (← xregOf r.a) (← xregOf r.b) (← xregOf r.c))
  | _ => .error .reservedOpcode

/-- The operation of one slot encoding (R86, R94). -/
def decodeOp (o : OpWord) : Except DecodeError Instr :=
  match o.slot with
  | .c => decodeC (o.word.setWidth 32)
  | .s => decodeS (o.word.setWidth 32)
  | .a => decodeA (o.word.setWidth 32)
  | .k => decodeK (o.word.setWidth 32)
  | .y => decodeY (o.word.setWidth 32)
  | .v0 => decodeV .v0 o.width o.word
  | .v1 => decodeV .v1 o.width o.word
  | .m => decodeM o.word
  | .x => decodeX o.word

/-- The vector width of a header code; 0b11 is illegal (R76). -/
def widthOfCode (b : BitVec 2) : Option VWidth :=
  match b.toNat with | 0 => some .w256 | 1 => some .w512 | 2 => some .w1024 | _ => none

/-- A header that R76 allows: reserved bits zero, width codes legal, and zero where the slot is absent. -/
def headerLegal (h : BitVec 16) : Bool :=
  h.extractLsb' 13 3 == 0 &&
  (widthOfCode (h.extractLsb' 9 2)).isSome && (bit h 3 || h.extractLsb' 9 2 == 0) &&
  (widthOfCode (h.extractLsb' 11 2)).isSome && (bit h 4 || h.extractLsb' 11 2 == 0)

/-- The slots present in a header, in slot order. -/
def headerSlots (h : BitVec 16) : List Slot := slotOrder.filter (fun s => bit h s.num)

/-- The vector width a header gives a slot. -/
def headerWidth (h : BitVec 16) : Slot → VWidth
  | .v0 => (widthOfCode (h.extractLsb' 9 2)).getD .w256
  | .v1 => (widthOfCode (h.extractLsb' 11 2)).getD .w256
  | _ => .w256

/-- The number of 16-bit words that follow the header of a literal bundle (R73). -/
def headerWords (h : BitVec 16) : Nat := ((headerSlots h).map Slot.words).sum

/-- The slot encodings that lie one above the other in a number, from bit 0 (R73, R75). -/
def opsOfBits (h : BitVec 16) : List Slot → Nat → List OpWord
  | [], _ => []
  | s :: r, n =>
    { slot := s, width := headerWidth h s, word := BitVec.ofNat 48 (n % 2 ^ (16 * s.words)) } ::
      opsOfBits h r (n / 2 ^ (16 * s.words))

/-- 16-bit words as one number, the first the lowest. -/
def wordsToNat : List (BitVec 16) → Nat
  | [] => 0
  | w :: r => w.toNat + 2 ^ 16 * wordsToNat r

/-- The header and the slot encodings of a dictionary entry (R75). -/
def entryOps (e : BitVec 384) : BitVec 16 × List OpWord :=
  let h := e.extractLsb' 0 16
  (h, opsOfBits h (headerSlots h) (e.toNat / 2 ^ 16))

/-- The slot encodings of a literal bundle, from the words after its header (R73). -/
def literalOps (h : BitVec 16) (ws : List (BitVec 16)) : List OpWord := opsOfBits h (headerSlots h) (wordsToNat ws)

/-- Padding above the last encoding of an entry, which the loader requires to be zero (R75). -/
def entryPaddingZero (e : BitVec 384) : Bool :=
  e.toNat / 2 ^ (16 + 16 * headerWords (e.extractLsb' 0 16)) == 0

/-- A flag as one bit. -/
abbrev ob (b : Bool) : BitVec 1 := BitVec.ofBool b

/-- A C-T word. -/
def encCT (op : BitVec 8) (l : BitVec 3) (p : BitVec 4) (n : BitVec 1) (t : BitVec 16) : OpWord :=
  { slot := .c, width := .w256, word := (packWordCT { op := op, l := l, p := p, n := n, t := t }).setWidth 48 }

/-- A C-I word. -/
def encCI (op : BitVec 8) (l aux : BitVec 3) (imm : BitVec 18) : OpWord :=
  { slot := .c, width := .w256, word := (packWordCI { op := op, l := l, aux := aux, imm := imm }).setWidth 48 }

/-- A word of four 6-bit fields in slot `s`. -/
def encR (s : Slot) (op : BitVec 8) (d a b c : BitVec 6) : OpWord :=
  { slot := s, width := .w256, word := (packWordSR { op := op, d := d, a := a, b := b, c := c }).setWidth 48 }

/-- An S-I or A-I word. -/
def encI (s : Slot) (op : BitVec 8) (d a : BitVec 6) (imm : BitVec 12) : OpWord :=
  { slot := s, width := .w256, word := (packWordSI { op := op, d := d, a := a, imm := imm }).setWidth 48 }

/-- An A-M word. -/
def encAM (op : BitVec 8) (b x : Spec) (w : BitVec 3) (sc : BitVec 4) (o : BitVec 2) (m : BitVec 3) : OpWord :=
  { slot := .a, width := .w256,
    word := (packWordAM { op := op, b := b.code, x := x.code, w := w, sc := sc, o := o, m := m }).setWidth 48 }

/-- A K-slot word. -/
def encK (op : BitVec 8) (d s : BitVec 4) (fn : BitVec 2) (imm : BitVec 14) : OpWord :=
  { slot := .k, width := .w256, word := (packWordKF { op := op, d := d, s := s, fn := fn, imm := imm }).setWidth 48 }

/-- A Y-G word. -/
def encY (op : BitVec 8) (ya yb : BitVec 3) (obj : BitVec 6) (sc : BitVec 4) (o : BitVec 2) (imm : BitVec 6) : OpWord :=
  { slot := .y, width := .w256,
    word := (packWordYG { op := op, ya := ya, yb := yb, obj := obj, sc := sc, o := o, imm := imm }).setWidth 48 }

/-- The slot of a vector slot. -/
def VSlot.slot : VSlot → Slot
  | .v0 => .v0 | .v1 => .v1

/-- A vector word. -/
def encV (h : VHdr) (op : BitVec 8) (f : BitVec 4) (d a b c : BitVec 6) (fn : BitVec 7) : OpWord :=
  { slot := h.slot.slot, width := h.width,
    word := packWordVF { op := op, f := f, p := h.pred, n := ob h.neg, d := d, a := a, b := b, c := c, fn := fn } }

/-- An M-slot word. -/
def encM (op : BitVec 8) (fa fb : BitVec 4) (acc rq : BitVec 3) (ka kb : BitVec 4) (imm : BitVec 18) : OpWord :=
  { slot := .m, width := .w256,
    word := packWordMF { op := op, fa := fa, fb := fb, acc := acc, rq := rq, ka := ka, kb := kb, imm := imm } }

/-- An X-slot word. -/
def encX (op : BitVec 8) (f lane : BitVec 4) (d a b c : BitVec 6) (m : BitVec 8) : OpWord :=
  { slot := .x, width := .w256,
    word := packWordXF { op := op, f := f, lane := lane, d := d, a := a, b := b, c := c, m := m } }

/-- A 4-bit register number in a 6-bit field. -/
abbrev xr (n : BitVec 4) : BitVec 6 := (0 : BitVec 2) ++ n

/-- The destination file code of MOVX.b (R154). -/
def movxBFile : VSlot → BitVec 3
  | .v0 => 6 | .v1 => 7

/-- The slot encoding of an operation, from the fields of R87 to R93 and the opcodes of R95; an event has none. -/
def Instr.encode : Instr → Option OpWord
  | .br t => some (encCT 0x01 0 0 0 t)
  | .brp p n t => some (encCT 0x02 0 p (ob n) t)
  | .bri l => some (encCT 0x03 l 0 0 0)
  | .call l t => some (encCT 0x04 l 0 0 t)
  | .ret l => some (encCI 0x05 l 0 0)
  | .loop l r d n => some (encCI 0x08 l r (d ++ n))
  | .lbr l t => some (encCT 0x09 l 0 0 t)
  | .lset l r d => some (encCI 0x0A l r (d ++ (0 : BitVec 15)))
  | .nextPoint l t => some (encCT 0x10 l 0 0 t)
  | .exit => some (encCI 0x11 0 0 0)
  | .yield n => some (encCI 0x12 0 0 n)
  | .skip p n k => some (encCT 0x13 0 p (ob n) k)
  | .join g => some (encCI 0x18 0 0 g)
  | .leave g => some (encCI 0x19 0 0 g)
  | .trap c => some (encCI 0x20 0 0 c)
  | .svc c => some (encCI 0x21 0 0 c)
  | .brk c => some (encCI 0x22 0 0 c)
  | .eret => some (encCI 0x30 0 0 0)
  | .add d a b => some (encR .s 0x01 d.code a.code b.code 0)
  | .addi d a i => some (encI .s 0x02 d.code a.code i)
  | .sub d a b => some (encR .s 0x03 d.code a.code b.code 0)
  | .mul d a b => some (encR .s 0x04 d.code a.code b.code 0)
  | .mulHs d a b => some (encR .s 0x04 d.code a.code b.code 1)
  | .mulHu d a b => some (encR .s 0x04 d.code a.code b.code 2)
  | .div d a b => some (encR .s 0x05 d.code a.code b.code 0)
  | .divU d a b => some (encR .s 0x05 d.code a.code b.code 1)
  | .rem d a b => some (encR .s 0x06 d.code a.code b.code 0)
  | .remU d a b => some (encR .s 0x06 d.code a.code b.code 1)
  | .and d a b => some (encR .s 0x08 d.code a.code b.code 0)
  | .or d a b => some (encR .s 0x09 d.code a.code b.code 0)
  | .xor d a b => some (encR .s 0x0A d.code a.code b.code 0)
  | .andi d a i => some (encI .s 0x0B d.code a.code i)
  | .ori d a i => some (encI .s 0x0C d.code a.code i)
  | .xori d a i => some (encI .s 0x0D d.code a.code i)
  | .shl d a b => some (encR .s 0x10 d.code a.code b.code 0)
  | .shr d a b => some (encR .s 0x11 d.code a.code b.code 0)
  | .sar d a b => some (encR .s 0x12 d.code a.code b.code 0)
  | .shiL d a n => some (encI .s 0x13 d.code a.code ((0 : BitVec 4) ++ (0 : BitVec 2) ++ n))
  | .shiR d a n => some (encI .s 0x13 d.code a.code ((0 : BitVec 4) ++ (1 : BitVec 2) ++ n))
  | .shiA d a n => some (encI .s 0x13 d.code a.code ((0 : BitVec 4) ++ (2 : BitVec 2) ++ n))
  | .min d a b => some (encR .s 0x18 d.code a.code b.code 0)
  | .minU d a b => some (encR .s 0x18 d.code a.code b.code 1)
  | .max d a b => some (encR .s 0x19 d.code a.code b.code 0)
  | .maxU d a b => some (encR .s 0x19 d.code a.code b.code 1)
  | .clz d a => some (encR .s 0x1A d.code a.code 0 0)
  | .popc d a => some (encR .s 0x1B d.code a.code 0 0)
  | .bext d a b => some (encR .s 0x1C d.code a.code b.code 0)
  | .bextS d a b => some (encR .s 0x1C d.code a.code b.code 1)
  | .bins d a b => some (encR .s 0x1D d.code a.code b.code 0)
  | .cmp d a b c => some (encR .s 0x20 d.field a.code b.code ((0 : BitVec 2) ++ d.toP ++ c.code))
  | .cmpi d a v c => some (encI .s 0x21 d.field a.code (v ++ d.toP ++ c.code))
  | .sel d a b n p => some (encR .s 0x22 d.code a.code b.code ((0 : BitVec 1) ++ ob n ++ p))
  | .li d i => some (encI .s 0x28 d.code 0 i)
  | .lui d i => some (encI .s 0x29 d.code 0 i)
  | .movx d a => some (encR .s 0x30 d.field a.field 0 (a.file ++ d.file))
  | .movxB v d a f => some (encR .s 0x30 d.code a.code ((0 : BitVec 2) ++ f.code) ((0 : BitVec 3) ++ movxBFile v))
  | .setb b a => some (encR .s 0x31 0 a.code 0 ((0 : BitVec 4) ++ b.code))
  | .csrr d n => some (encI .s 0x38 d.code 0 n)
  | .csrw n a => some (encI .s 0x39 0 a.code n)
  | .aadd d a b => some (encR .a 0x01 d.code a.code b.code 0)
  | .aaddi d a i => some (encI .a 0x02 d.code a.code i)
  | .amadd d a b c => some (encR .a 0x03 d.code a.code b.code c.code)
  | .ali d i => some (encI .a 0x04 d.code 0 i)
  | .lda b x w sc o => some (encAM 0x10 b x w sc.code o.code 0)
  | .lds b x w => some (encAM 0x11 b x w 0 0 0)
  | .ldt b x => some (encAM 0x12 b x 0 0 0 0)
  | .ldk b x c => some (encAM 0x13 b x 0 0 0 c.code)
  | .pf b x w => some (encAM 0x14 b x w 0 0 0)
  | .sta b x w sc o => some (encAM 0x18 b x w sc.code o.code 0)
  | .sts b x w => some (encAM 0x19 b x w 0 0 0)
  | .stt b x => some (encAM 0x1A b x 0 0 0 0)
  | .sti b x n => some (encAM 0x1B b x 0 0 0 ((0 : BitVec 2) ++ ob n))
  | .skst b x c => some (encAM 0x1C b x 0 0 0 c.code)
  | .skrtg b x c => some (encAM 0x1D b x 0 0 0 c.code)
  | .skdrop b x => some (encAM 0x1E b x 0 0 0 0)
  | .atom b x w sc o op => some (encAM 0x20 b x w sc.code o.code op.code)
  | .cas b x w sc o => some (encAM 0x21 b x w sc.code o.code 0)
  | .gidx b x => some (encAM 0x28 b x 0 0 0 0)
  | .kld d o => some (encK 0x01 d 0 0 o)
  | .kldD0 d o => some (encK 0x01 d 0 1 o)
  | .kset d c => some (encK 0x02 d 0 0 ((0 : BitVec 6) ++ c))
  | .kmov d s => some (encK 0x03 d s 0 0)
  | .kmovAdj d s n => some (encK 0x03 d s 1 ((0 : BitVec 6) ++ n))
  | .waitf ya f sc t => some (encY 0x01 ya 0 ((0 : BitVec 1) ++ f) sc.code 0 ((0 : BitVec 5) ++ ob t))
  | .postf ya yb f sc k => some (encY 0x02 ya yb ((0 : BitVec 1) ++ f) sc.code 0 k)
  | .waitw ya yb sc c => some (encY 0x03 ya yb 0 sc.code 0 ((0 : BitVec 4) ++ c.code))
  | .waitc l s c t => some (encR .y 0x04 l s c t)
  | .gbar g sc => some (encY 0x05 0 0 g sc.code 0 0)
  | .phase sc => some (encY 0x08 0 0 0 sc.code 0 0)
  | .fence sc o => some (encY 0x09 0 0 0 sc.code o.code 0)
  | .rfence ya sc => some (encY 0x0A ya 0 0 sc.code 0 0)
  | .rfenceAll sc => some (encY 0x0A 0 0 0 sc.code 0 1)
  | .vadd h f d a b => some (encV h 0x01 f.code d.code a.code b.code 0 0)
  | .vsub h f d a b => some (encV h 0x02 f.code d.code a.code b.code 0 0)
  | .vmul h f d a b hi => some (encV h 0x03 f.code d.code a.code b.code 0 ((0 : BitVec 6) ++ ob hi))
  | .vmad h f d a b c => some (encV h 0x04 f.code d.code a.code b.code c.code 0)
  | .vadds h f d a b => some (encV h 0x05 f.code d.code a.code b.code 0 0)
  | .vsubs h f d a b => some (encV h 0x06 f.code d.code a.code b.code 0 0)
  | .vmin h f d a b => some (encV h 0x07 f.code d.code a.code b.code 0 0)
  | .vmax h f d a b => some (encV h 0x08 f.code d.code a.code b.code 0 0)
  | .vabs h f d a => some (encV h 0x09 f.code d.code a.code 0 0 0)
  | .vavg h f d a b t => some (encV h 0x0A f.code d.code a.code b.code 0 ((0 : BitVec 6) ++ ob t))
  | .vabsd h f d a b => some (encV h 0x0B f.code d.code a.code b.code 0 0)
  | .vshl h f d a s => some (encV h 0x0C f.code d.code a.code s.shiftFields.1 0 s.shiftFields.2)
  | .vshr h f d a s => some (encV h 0x0D f.code d.code a.code s.shiftFields.1 0 s.shiftFields.2)
  | .vsar h f d a s => some (encV h 0x0E f.code d.code a.code s.shiftFields.1 0 s.shiftFields.2)
  | .vand h f d a b => some (encV h 0x0F f.code d.code a.code b.code 0 0)
  | .vor h f d a b => some (encV h 0x10 f.code d.code a.code b.code 0 0)
  | .vxor h f d a b => some (encV h 0x11 f.code d.code a.code b.code 0 0)
  | .vnot h f d a => some (encV h 0x12 f.code d.code a.code 0 0 0)
  | .vpopc h f d a => some (encV h 0x15 f.code d.code a.code 0 0 0)
  | .vcmp h f pd a b c => some (encV h 0x13 f.code (xr pd) a.code b.code 0 ((0 : BitVec 4) ++ c.code))
  | .vsel h f d a b => some (encV h 0x14 f.code d.code a.code b.code 0 0)
  | .vdot h f d a b c => some (encV h 0x16 f.code d.code a.code b.code c.code 0)
  | .vwmul h f d a b hi => some (encV h 0x17 f.code d.code a.code b.code 0 ((0 : BitVec 6) ++ ob hi))
  | .vnarw h f d a b sat sgn rnd s =>
      some (encV h 0x18 f.code d.code a.code b.code 0 (s ++ ob rnd ++ ob sgn ++ ob sat))
  | .vwide h f d a hi => some (encV h 0x19 f.code d.code a.code 0 0 ((0 : BitVec 6) ++ ob hi))
  | .vpxu h f d a b n => some (encV h 0x20 f.code d.code a.code b.code 0 ((0 : BitVec 2) ++ n))
  | .vpxp h f d a n sat => some (encV h 0x21 f.code d.code a.code 0 0 ((0 : BitVec 1) ++ ob sat ++ n))
  | .vbitx h f d a b n => some (encV h 0x22 f.code d.code a.code b.code 0 ((0 : BitVec 1) ++ n))
  | .vbitp h f d a b c n => some (encV h 0x23 f.code d.code a.code b.code c.code ((0 : BitVec 1) ++ n))
  | .vlut h f d a b c x2 => some (encV h 0x24 f.code d.code a.code b.code c.code ((0 : BitVec 6) ++ ob x2))
  | .vsad h f d a b c => some (encV h 0x25 f.code d.code a.code b.code c.code 0)
  | .vperm h f d a b c => some (encV h 0x28 f.code d.code a.code b.code c.code 0)
  | .vshuf h f d a m => some (encV h 0x29 f.code d.code a.code 0 0 m)
  | .vslide h f d a b s => some (encV h 0x2A f.code d.code a.code b.code 0 s)
  | .vzip h f d a b hi => some (encV h 0x2B f.code d.code a.code b.code 0 ((0 : BitVec 6) ++ ob hi))
  | .vuzip h f d a b o => some (encV h 0x2C f.code d.code a.code b.code 0 ((0 : BitVec 6) ++ ob o))
  | .vtrn h f d a b o => some (encV h 0x2D f.code d.code a.code b.code 0 ((0 : BitVec 6) ++ ob o))
  | .vcmpr h f d a mg => some (encV h 0x2E f.code d.code a.code 0 0 ((0 : BitVec 6) ++ ob mg))
  | .vbcast h f d a m => some (encV h 0x2F f.code d.code a.code 0 0 m)
  | .vmov h f d a => some (encV h 0x30 f.code d.code a.code 0 0 0)
  | .vli h f d i => some (encV h 0x31 f.code d.code (i.extractLsb' 19 6) (i.extractLsb' 13 6) (i.extractLsb' 7 6)
      (i.extractLsb' 0 7))
  | .vmovx h f d a => some (encV h 0x32 f.code d.code a.code 0 0 0)
  | .pand h d a b => some (encV h 0x38 0 (xr d) (xr a) (xr b) 0 0)
  | .por h d a b => some (encV h 0x39 0 (xr d) (xr a) (xr b) 0 0)
  | .pxor h d a b => some (encV h 0x3A 0 (xr d) (xr a) (xr b) 0 0)
  | .pnot h d a => some (encV h 0x3B 0 (xr d) (xr a) 0 0 0)
  | .pset h f pd n => some (match n with
      | .by a => encV h 0x3C f.code (xr pd) a.code 0 0 (1#1 ++ (0 : BitVec 6))
      | .imm k => encV h 0x3C f.code (xr pd) 0 0 0 (0#1 ++ k))
  | .pcnt h f d => some (encV h 0x3D f.code d.code 0 0 0 0)
  | .vfadd h f d a b => some (encV h 0x40 f.code d.code a.code b.code 0 0)
  | .vfsub h f d a b => some (encV h 0x41 f.code d.code a.code b.code 0 0)
  | .vfmul h f d a b => some (encV h 0x42 f.code d.code a.code b.code 0 0)
  | .vfma h f d a b c np nc => some (encV h 0x43 f.code d.code a.code b.code c.code ((0 : BitVec 5) ++ ob nc ++ ob np))
  | .vfmin h f d a b => some (encV h 0x44 f.code d.code a.code b.code 0 0)
  | .vfmax h f d a b => some (encV h 0x45 f.code d.code a.code b.code 0 0)
  | .vfsgn h f d a b m => some (encV h 0x46 f.code d.code a.code b.code 0 ((0 : BitVec 5) ++ m))
  | .vfcmp h f pd a b c => some (encV h 0x47 f.code (xr pd) a.code b.code 0 ((0 : BitVec 4) ++ c.code))
  | .vfcvt h dst src d a b q rm => some (encV h 0x48 dst.code d.code a.code b.code q (src.code ++ rm.code))
  | .vfclass h f d a => some (encV h 0x49 f.code d.code a.code 0 0 0)
  | .vfexp2 h f d a => some (encV h 0x50 f.code d.code a.code 0 0 0)
  | .vfexp h f d a => some (encV h 0x51 f.code d.code a.code 0 0 0)
  | .vflog2 h f d a => some (encV h 0x52 f.code d.code a.code 0 0 0)
  | .vflog h f d a => some (encV h 0x53 f.code d.code a.code 0 0 0)
  | .vfrcp h f d a => some (encV h 0x54 f.code d.code a.code 0 0 0)
  | .vfrsq h f d a => some (encV h 0x55 f.code d.code a.code 0 0 0)
  | .vftanh h f d a => some (encV h 0x56 f.code d.code a.code 0 0 0)
  | .vamax h f d a c => some (encV h 0x58 f.code d.code a.code 0 c.code 0)
  | .vscl h f d a t ol => some (encV h 0x59 f.code d.code a.code 0 0 ((0 : BitVec 4) ++ ob ol ++ t.code))
  | .vqnt h f d a b t rm => some (encV h 0x5A f.code d.code a.code b.code 0 ((0 : BitVec 2) ++ t.code ++ rm.code))
  | .vdqnt h f d a b t => some (encV h 0x5B f.code d.code a.code b.code 0 ((0 : BitVec 5) ++ t.code))
  | .vrelub h f d b => some (encV h 0x60 f.code d.code 0x29 b.code 0 0)
  | .vmaxb h f d b w => some (encV h 0x61 f.code d.code 0x29 b.code 0 ((0 : BitVec 3) ++ w))
  | .vmskb h f d b => some (encV h 0x62 f.code d.code 0x29 b.code 0 0)
  | .vkfull h f d => some (encV h 0x63 f.code d.code 0x29 0 0 0)
  | .vred h f d a op => some (encV h 0x68 f.code d.code a.code 0 0 ((0 : BitVec 4) ++ op.code))
  | .vscan h f d a sd op => some (encV h 0x69 f.code d.code a.code 0 sd.code ((0 : BitVec 4) ++ op.code))
  | .mma fa fb acc ka kb ha hb z =>
      some (encM 0x01 fa.code fb.code acc 0 ka kb ((0 : BitVec 15) ++ ob z ++ ob hb ++ ob ha))
  | .mmb fa fb acc ha hb z an =>
      some (encM 0x02 fa.code fb.code acc 0 0 0 ((0 : BitVec 14) ++ ob an ++ ob z ++ ob hb ++ ob ha))
  | .mcfg fa fb ka cell i => some (encM 0x08 fa.code fb.code 0 0 ka 0 ((0 : BitVec 16) ++ ob i ++ ob cell))
  | .mdrain => some (encM 0x09 0 0 0 0 0 0 0)
  | .mdrn f acc rq => some (encM 0x10 f.code 0 acc rq 0 0 0)
  | .mclr acc inf => some (encM 0x11 0 0 acc 0 0 0 ((0 : BitVec 17) ++ ob inf))
  | .mlda f acc off => some (encM 0x12 f.code 0 acc 0 0 0 ((0 : BitVec 4) ++ off))
  | .xcp ln d s n t kept => some (encX 0x01 0 (0#1 ++ ln) (xr d) (xr s) (xr n) t.code ((0 : BitVec 7) ++ ob kept))
  | .xcpz ln d s n t dict =>
      some (encX 0x02 0 (0#1 ++ ln) (xr d) (xr s) (xr n) (xr t) ((0 : BitVec 6) ++ ob dict ++ (0 : BitVec 1)))
  | .xcpc ln f d s n t ib fl =>
      some (encX 0x03 f.code (0#1 ++ ln) (xr d) (xr s) (xr n) (xr t) ((0 : BitVec 1) ++ fl ++ ib.code))
  | .xfill ln f s n t kept fb tr =>
      some (encX 0x04 f.code (0#1 ++ ln) 0x2B (xr s) n.code t.code ((0 : BitVec 5) ++ ob tr ++ ob fb ++ ob kept))
  | .xgath ln d n t =>
      some (encX 0x08 0 (0#1 ++ ln) d.code 0x2B (xr n) t.code ((0 : BitVec 6) ++ ob (!d.isX) ++ (0 : BitVec 1)))
  | .xscat ln s n t => some (encX 0x09 0 (0#1 ++ ln) 0x2B (xr s) (xr n) t.code 0)
  | .xpopq ln d rq n t => some (encX 0x0A 0 (0#1 ++ ln) (xr d) (0b100#3 ++ rq) (xr n) t.code 0)
  | .xsend ln ch s t => some (encX 0x10 0 (0#1 ++ ln) 0x2B (xr s) 0x2B t.code ch)
  | .xrecv ln ch d t => some (encX 0x11 0 (0#1 ++ ln) d.code 0x2B 0x2B t.code ch)
  | .xcoll f d s n t op kind => some (encX 0x12 f 0 (xr d) (xr s) (xr n) t.code ((0 : BitVec 1) ++ kind ++ op))
  | .xcav f d s n t op => some (encX 0x13 f 0 (xr d) (xr s) (xr n) t.code ((0 : BitVec 4) ++ op))
  | .xtrig n s => some (encX 0x18 0 0 0x2B (xr s) 0x2B 0x2B ((0 : BitVec 2) ++ n))
  | .xcan n => some (encX 0x19 0 0 0x2B 0x2B 0x2B 0x2B ((0 : BitVec 2) ++ n))
  | .xcanLane ln => some (encX 0x19 0 (0#1 ++ ln) 0x2B 0x2B 0x2B 0x2B (1#1 ++ (0 : BitVec 7)))
  | .xqfence s => some (encX 0x1A 0 0 0x2B (xr s) 0x2B 0x2B 0)
  | .xstor ln d s n t => some (encX 0x20 0 (0#1 ++ ln) (xr d) (xr s) (xr n) (xr t) 0)
  | .waitingStrapRelease _ | .resultLanding _ | .yieldExpiry _ | .matrixWayRelease _ | .asynchronousFault _ _
  | .stopRequest _ | .operatorOverrun _ _ | .contextResume _ | .contextSave _ | .contextRestore _ _ | .endOperator _ _
  | .retireComplete _ | .helperStart _ | .loadPerform _ _ | .ldkEntryPush _ _ | .storePerform _ | .atomicPerform _
  | .skstRecordWrite _ | .skrtgRewrite _ | .skdropClear _ | .postfPerform _ | .releaseWeirPass _
  | .waitwPeriodicRead _ | .translationWalk _ _ _ | .tagProbe _ _ | .shapeRecordFetch _ _ _ | .tileCacheEviction _ _
  | .laneCommandStart _ _ | .copyChunk _ _ | .stampWrite _ _ | .xcpcBlockResume _ _ | .fifoFillPush _ _
  | .xsendCreditTake _ _ | .channelWordArrival _ | .xrecvSlotTake _ _ | .nvmeCompletion _ _ _ _ | .triggerFire _
  | .triggerLaneEntry _ _ | .triggerComplete _ _ | .laneFenceRelease _ | .collectiveChunk _ | .collectiveComplete _ _
  | .switchSlotRequest _ _ | .gbarArrival _ | .groupBarrierComplete _ _ | .gsubmit _ _ | .gstatWrite _ _
  | .switchPoint _ | .launchLoading _ _ | .dictionaryPreload _ _ | .launchBind _ _ | .launchRunning _ _
  | .walkerPlace _ _ _ | .launchComplete _ _ | .hostMemoryAccess _ _ | .rolemapWrite _ | .rolebootWrite _
  | .tctlReEnumerate _ | .tctlReleaseFailed _ | .drainComplete _ | .flushComplete _ | .enumerationComplete _
  | .terraceLogicError _ | .pctlForm _ _ | .pctlDissolve _ | .vdcfgWrite _ _ | .vdstatReset _ _
  | .functionLevelReset _ | .resetFlitDrain _ | .migrationBoundary _ _ | .tinvStart _ _ | .tinvComplete _
  | .lctlTrain _ | .lctlQuarantine _ | .lctlRelease _ | .linkTrainingDone _ _ _ _ | .linkTrainingTimeout _
  | .linkLaneFailure _ _ | .linkFailure _ _ | .flitRetry _ | .powerOnReset _ | .bootStartTimeout
  | .bootctlRestart _ _ | .attestationRequest _ | .attestationComplete | .registrationWrite _ _
  | .thermalEvent _ _ _ | .coolantGradeChange _ | .correctableError _ | .uncorrectableError _ _
  | .registerWrite _ _ | .relayCopyUpdate _ _ | .phaseWriteBack _ => none

/-- The slots that the opcode table's words are tried in: a 32-bit word names no slot of its own (log entry 6). -/
def tableSlots (nbits : Nat) : List Slot :=
  if nbits = 32 then [.k, .s, .c, .y, .a] else if nbits = 48 then [.v0, .m, .x] else []

/-- The first slot encoding among `ss` that decodes. -/
def firstDecoding (w : Nat) : List Slot → Option (OpWord × Instr)
  | [] => none
  | s :: r =>
    let o : OpWord := { slot := s, width := if s = .v0 then .w1024 else .w256, word := BitVec.ofNat 48 w }
    match decodeOp o with
    | .ok i => some (o, i)
    | .error _ => firstDecoding w r

/-- The instruction that the decoder reads from a word of the opcode table. -/
def decodeTableWord (nbits w : Nat) : Option Instr := (firstDecoding w (tableSlots nbits)).map (·.2)

end Sys2Proof
end

