-- ==== Sys2Proof/Config.lean ====
section
/-! DEFINITION. What the manual leaves open, as constants without a body: nothing can evaluate them and no proof can
see a value. Each is applied to what it may depend on, or to the counter `fresh` of the state. -/

namespace Sys2Proof

/-- A choice between two values that the manual allows, one for each use (log entry 4). -/
opaque Config.coin : Nat → Bool

/-- Elapsed or running time in microseconds, which the model does not count (R306, R309, R406; log entry 5). -/
opaque Config.micros : Nat → Nat

/-- Which of its two neighbours a faithfully rounded result of R67 takes: the place between them, in 2^-64ths of their
distance, from which the upper one is returned; a function of the instruction's number, the format and the lower
neighbour, so that the result is monotonic (log entry 7). -/
opaque Config.faithfulThreshold : Nat → Fmt → Nat → Nat

/-- VFTANH of a positive operand by its pattern, before it is bounded as R67 says; monotonic, as R67 requires (log
entry 7). -/
opaque Config.tanhOf : Fmt → (Nat →o Nat)

/-- The RSA-4096 signature of a SHA-512 digest with the module's identity key (R416; log entry 9). -/
opaque Config.identitySign : BitVec 512 → BitVec 4096

/-- How many flits the peer of a link grants each virtual channel when the link comes up, less one (R389, R392; log entry
71). -/
opaque Config.vcCredits : Nat → Nat

/-- Which usable link of a route a chunk takes (R393; log entry 71). -/
opaque Config.linkChoice : Nat → Nat

/-- The threads of other modules that belong to a group of a partition (R24, R375; log entry 19): from the address of the
partition's record and the group. -/
opaque Config.farMembers : Nat → Nat → List (BitVec 16 × BitVec 13)

/-- Which line a full tile cache gives up (R337, R361; log entry 83). -/
opaque Config.victimLine : Nat → Nat

/-- The module of the pod in which a 64 KiB page of device physical addresses lies; none is this module (R24, R354; log entry 10). -/
opaque Config.farModule : Nat → Option (BitVec 16)

/-- The first link of the route that system software gives a peer module, and those after it (R393): the manual names no register
for a route (log entry 10). -/
opaque Config.routeLinks : Nat → BitVec 4 × List (BitVec 4)

/-- The route of a peer module: 1 to 4 links (R393). -/
def Config.routeOf (m : Nat) : List (BitVec 4) := (Config.routeLinks m).1 :: (Config.routeLinks m).2.take 3

/-- A byte read from another module (log entry 10). -/
opaque Config.farByte : Nat → Nat → Byte

/-- The flags that a code object's kernel declares: the object format of R299 to R301 has no field for them
(log entry 11). -/
opaque Config.declaredFlags : List Byte → BitVec 32

/-- A byte of an operand tile row that its fill did not write, read under a format with longer rows (R261; log entry
12). -/
opaque Config.unfilledByte : Nat → Byte

/-- What a byte with an uncorrectable error gives an untimed read (R418; log entry 46). -/
opaque Config.badByte : Nat → Byte

/-- The device memory that system software releases after a reset of a virtual function, as its first 64 KiB pages and their numbers of
pages (R408; log entry 99). -/
opaque Config.releasedMemory : Nat → List (Nat × Nat)

/-- The current reading of a value that another module or the outside supplies (log entry 4). -/
opaque Config.outsideWord : Nat → Word

end Sys2Proof
end

