-- ==== Sys2Proof/Machine/Numbers.lean ====
section
/-! DEFINITION. Number formats and arithmetic (R41 to R69): exact values, rounding once to a format, conversions, O4
blocks, scales, the stochastic generator and the transcendentals. -/

namespace Sys2Proof

/-- The sticky flags of R57. -/
abbrev Flags := BitVec 3
def flInvalid : Flags := 1
def flOverflow : Flags := 2
def flUnder : Flags := 4

/-- A floating value, exact: a finite one is (-1)^neg × m × 2^e. -/
inductive FVal where
  | nan
  | inf (neg : Bool)
  | fin (neg : Bool) (m : Nat) (e : Int)
  deriving DecidableEq, Repr

/-- Fraction bits of a floating format (R41). -/
def Fmt.fbits : Fmt → Nat
  | .f32 => 23 | .bf16 => 7 | .f16 => 10 | .e4m3 => 3 | .e5m2 => 2 | _ => 0

/-- Exponent bits of a floating format (R41). -/
def Fmt.ebits : Fmt → Nat
  | .f32 | .bf16 => 8 | .f16 | .e5m2 => 5 | .e4m3 => 4 | _ => 0

/-- The bias of a floating format (R41). -/
def Fmt.bias : Fmt → Nat
  | .f32 | .bf16 => 127 | .f16 | .e5m2 => 15 | .e4m3 => 7 | _ => 0

/-- The pattern of the largest finite value (R41). -/
def Fmt.maxPat : Fmt → Nat
  | .f32 => 0x7F7FFFFF | .bf16 => 0x7F7F | .f16 => 0x7BFF | .e4m3 => 0x7E | .e5m2 => 0x7B | _ => 0

/-- The canonical NaN (R41). -/
def Fmt.nanPat : Fmt → Nat
  | .f32 => 0x7FC00000 | .bf16 => 0x7FC0 | .f16 => 0x7E00 | .e4m3 => 0x7F | .e5m2 => 0x7E | _ => 0

/-- The sign bit of a pattern, as a number to add. -/
def Fmt.signPat (f : Fmt) (neg : Bool) : Nat := if neg then 2 ^ (f.ebits + f.fbits) else 0

/-- The pattern of an infinity; .e4m3 has none and holds its largest value there (R41, R55). -/
def Fmt.infPat (f : Fmt) (neg : Bool) : Nat := f.signPat neg + (if f = .e4m3 then 0x7E else f.maxPat + 1)

/-- The value of a pattern (R41, R42). -/
def decodeF (f : Fmt) (b : Nat) : FVal :=
  let frac := b % 2 ^ f.fbits
  let ex := b / 2 ^ f.fbits % 2 ^ f.ebits
  let neg := b / 2 ^ (f.ebits + f.fbits) % 2 == 1
  if f = .e4m3 then
    if b % 128 = 127 then .nan
    else if ex = 0 then .fin neg frac (-9) else .fin neg (frac + 8) (ex - 10)
  else if ex = 2 ^ f.ebits - 1 then (if frac = 0 then .inf neg else .nan)
  else if ex = 0 then .fin neg frac (1 - f.bias - f.fbits)
  else .fin neg (frac + 2 ^ f.fbits) (ex - f.bias - f.fbits)

/-- A magnitude against the grid of a format: the pattern below it in an unbounded range, and the remainder over
2^k (R51). -/
def gridOf (f : Fmt) (m : Nat) (e : Int) : Nat × Nat × Nat :=
  if m = 0 then (0, 0, 0)
  else
    let emin : Int := 1 - f.bias
    let top : Int := Nat.log2 m + e
    let ex := if top < emin then emin else top
    let qe := ex - f.fbits
    let base := (ex - emin).toNat * 2 ^ f.fbits
    if qe ≤ e then (base + m * 2 ^ (e - qe).toNat, 0, 0)
    else
      let k := (qe - e).toNat
      (base + m / 2 ^ k, m % 2 ^ k, k)

/-- Whether a rounding goes to the neighbour of larger magnitude (R51, R53). -/
def roundsUp (rm : Rounding) (draw : BitVec 32) (neg odd : Bool) (rem k : Nat) : Bool :=
  match rm with
  | .rne => 2 ^ k < 2 * rem || (2 * rem == 2 ^ k && odd && rem != 0)
  | .rz => false
  | .rd => neg && rem != 0
  | .ru => !neg && rem != 0
  | .rs => draw.toNat < 2 ^ 32 * rem / 2 ^ k

/-- A value that overflows a format (R53, R55). -/
def overflowPat (f : Fmt) (rm : Rounding) (neg : Bool) : Nat :=
  if f = .e4m3 then f.signPat neg + f.maxPat
  else
    match rm with
    | .rne => f.infPat neg
    | .rz | .rs => f.signPat neg + f.maxPat
    | .rd => if neg then f.infPat neg else f.maxPat
    | .ru => if neg then f.signPat neg + f.maxPat else f.infPat neg

/-- An exact value rounded once to a format, with the flags that raises (R43, R44, R51 to R55). -/
def roundF (f : Fmt) (rm : Rounding) (draw : BitVec 32) : FVal → Nat × Flags
  | .nan => (f.nanPat, 0)
  | .inf neg => (f.infPat neg, if f = .e4m3 then flOverflow else 0)
  | .fin neg m e =>
    let (lo, rem, k) := gridOf f m e
    let p := if roundsUp rm draw neg (lo % 2 == 1) rem k then lo + 1 else lo
    if f.maxPat < p || (rm == .rs && lo == f.maxPat && rem != 0) then (overflowPat f rm neg, flOverflow)
    else (f.signPat neg + p, 0)

/-- Rounding to nearest, ties to even. -/
def roundNE (f : Fmt) (v : FVal) : Nat × Flags := roundF f .rne 0 v

/-- A dyadic integer as a value; an exact zero is +0. -/
def ofInt (i : Int) (e : Int) : FVal := .fin (i < 0) i.natAbs e

def FVal.neg : FVal → FVal
  | .nan => .nan | .inf n => .inf (!n) | .fin n m e => .fin (!n) m e
def FVal.abs : FVal → FVal
  | .nan => .nan | .inf _ => .inf false | .fin _ m e => .fin false m e
def FVal.isNaN : FVal → Bool
  | .nan => true | _ => false
def FVal.isZero : FVal → Bool
  | .fin _ m _ => m == 0 | _ => false

def signedM (neg : Bool) (m : Nat) : Int := if neg then -(m : Int) else m

/-- The exact sum; a NaN that comes of no NaN is invalid (R44, R57). -/
def FVal.add : FVal → FVal → FVal × Flags
  | .nan, _ | _, .nan => (.nan, 0)
  | .inf a, .inf b => if a = b then (.inf a, 0) else (.nan, flInvalid)
  | .inf a, .fin _ _ _ => (.inf a, 0)
  | .fin _ _ _, .inf b => (.inf b, 0)
  | .fin n1 m1 e1, .fin n2 m2 e2 =>
    if m1 = 0 && m2 = 0 then (.fin (n1 && n2) 0 0, 0)
    else
      let e := min e1 e2
      let t := signedM n1 (m1 * 2 ^ (e1 - e).toNat) + signedM n2 (m2 * 2 ^ (e2 - e).toNat)
      (ofInt t e, 0)

/-- The exact product. -/
def FVal.mul : FVal → FVal → FVal × Flags
  | .nan, _ | _, .nan => (.nan, 0)
  | .inf a, .inf b => (.inf (a != b), 0)
  | .inf a, .fin n m _ => if m = 0 then (.nan, flInvalid) else (.inf (a != n), 0)
  | .fin n m _, .inf b => if m = 0 then (.nan, flInvalid) else (.inf (n != b), 0)
  | .fin n1 m1 e1, .fin n2 m2 e2 => (.fin (n1 != n2) (m1 * m2) (e1 + e2), 0)

/-- A value times 2^n. -/
def FVal.scale (v : FVal) (n : Int) : FVal :=
  match v with
  | .fin s m e => .fin s m (e + n)
  | v => v

/-- The power of two of an E8 code (R45). -/
def e8Exp (c : Nat) : Int := c - 127

/-- A value under an E8 scale code: the code 0xFF is a NaN and invalid (R45). -/
def FVal.scaleE8 (v : FVal) (c : Nat) : FVal × Flags := if c = 0xFF then (.nan, flInvalid) else (v.scale (e8Exp c), 0)

/-- The order of R65 on non-NaN patterns: +0 is above -0. -/
def fkey (f : Fmt) (b : Nat) : Int :=
  let mag := b % 2 ^ (f.ebits + f.fbits)
  if b / 2 ^ (f.ebits + f.fbits) % 2 = 1 then -(mag : Int) - 1 else mag

/-- Less-than by value, the zeros equal; false where either is a NaN. -/
def FVal.lt : FVal → FVal → Bool
  | .nan, _ | _, .nan => false
  | .inf a, .inf b => a && !b
  | .inf a, .fin _ _ _ => a
  | .fin _ _ _, .inf b => !b
  | .fin n1 m1 e1, .fin n2 m2 e2 =>
    let e := min e1 e2
    decide (signedM n1 (m1 * 2 ^ (e1 - e).toNat) < signedM n2 (m2 * 2 ^ (e2 - e).toNat))

/-- Float max and min (R65). -/
def fmaxPat (f : Fmt) (a b : Nat) : Nat :=
  if (decodeF f a).isNaN || (decodeF f b).isNaN then f.nanPat else if fkey f a < fkey f b then b else a
def fminPat (f : Fmt) (a b : Nat) : Nat :=
  if (decodeF f a).isNaN || (decodeF f b).isNaN then f.nanPat else if fkey f b < fkey f a then b else a

def faddPat (f : Fmt) (a b : Nat) : Nat × Flags :=
  let (v, fl) := (decodeF f a).add (decodeF f b)
  let (p, fl') := roundNE f v
  (p, fl ||| fl')
def fmulPat (f : Fmt) (a b : Nat) : Nat × Flags :=
  let (v, fl) := (decodeF f a).mul (decodeF f b)
  let (p, fl') := roundNE f v
  (p, fl ||| fl')

/-- One rounding of a × b + c; an invalid product raises its flag whatever c is (R216). -/
def ffma (f : Fmt) (a b c : FVal) : Nat × Flags :=
  let (p, fl) := a.mul b
  let (v, fl2) := p.add c
  let (r, fl3) := roundNE f v
  (r, fl ||| fl2 ||| fl3)

-- Integers ------------------------------------------------------------------------------------------------------

/-- The value of an element of an integer format (R46). -/
def intVal (f : Fmt) (b : Nat) : Int :=
  if f.isSigned && 2 ^ (f.bits - 1) ≤ b % 2 ^ f.bits then (b % 2 ^ f.bits : Nat) - (2 ^ f.bits : Nat)
  else ((b % 2 ^ f.bits : Nat) : Int)

/-- A value as a pattern of w bits, wrapped. -/
def wrapTo (w : Nat) (v : Int) : Nat := (v % (2 ^ w : Nat)).toNat

/-- The least and the greatest value of a format of w bits. -/
def intMin (signed : Bool) (w : Nat) : Int := if signed then -((2 ^ (w - 1) : Nat) : Int) else 0
def intMax (signed : Bool) (w : Nat) : Int := if signed then ((2 ^ (w - 1) : Nat) : Int) - 1 else ((2 ^ w : Nat) : Int) - 1

/-- A value clamped to a range. -/
def clampInt (lo hi v : Int) : Int := if v < lo then lo else if hi < v then hi else v

/-- A finite value rounded to an integer (R53, R56). -/
def roundInt (rm : Rounding) (draw : BitVec 32) (neg : Bool) (m : Nat) (e : Int) : Int :=
  if 0 ≤ e then signedM neg (m * 2 ^ e.toNat)
  else
    let k := (-e).toNat
    let n := m / 2 ^ k
    let r := m % 2 ^ k
    signedM neg (if roundsUp rm draw neg (n % 2 == 1) r k then n + 1 else n)

/-- A float converted to an integer format (R56). -/
def floatToInt (f : Fmt) (rm : Rounding) (draw : BitVec 32) : FVal → Nat × Flags
  | .nan => (0, flInvalid)
  | .inf neg => (wrapTo f.bits (if neg then intMin f.isSigned f.bits else intMax f.isSigned f.bits), flInvalid)
  | .fin neg m e =>
    let v := roundInt rm draw neg m e
    let c := clampInt (intMin f.isSigned f.bits) (intMax f.isSigned f.bits) v
    (wrapTo f.bits c, if c = v then 0 else flInvalid)

-- The stochastic generator (R52) --------------------------------------------------------------------------------

def drawStep (g : Word) : Word × BitVec 32 :=
  let g : Word := if g = 0 then 0x9E3779B97F4A7C15 else g
  let g := g ^^^ (g <<< 13)
  let g := g ^^^ (g >>> 7)
  let g := g ^^^ (g <<< 17)
  (g, g.extractLsb' 32 32)

-- Scales (R69) --------------------------------------------------------------------------------------------------

/-- The bound M of a quantisation target. -/
def QTarget.bound : QTarget → Nat
  | .o4 => 7 | .s8 => 127 | .e4m3 => 448 | .e5m2 => 57344

/-- Whether m × 2^e is at most n × 2^s. -/
def leDyadic (m : Nat) (e : Int) (n : Nat) (s : Int) : Bool :=
  let b := min e s
  decide (m * 2 ^ (e - b).toNat ≤ n * 2 ^ (s - b).toNat)

/-- The scale code of a block's amax for a target's bound, with its flags (R69). -/
def scaleCode (bound : Nat) : FVal → Nat × Flags
  | .nan => (0xFF, flInvalid)
  | .inf _ => (0xFE, flOverflow)
  | .fin _ m e =>
    if m = 0 then (0, 0)
    else
      let s0 : Int := Nat.log2 m + e - Nat.log2 bound
      let s := if leDyadic m e bound s0 then s0 else s0 + 1
      if 127 + s < 0 then (0, flUnder)
      else if 254 < 127 + s then (0xFE, flOverflow)
      else ((127 + s).toNat, 0)

/-- The larger of two magnitudes; a NaN wins. -/
def maxMag (a b : FVal) : FVal :=
  if a.isNaN || b.isNaN then .nan else if a.abs.lt b.abs then b.abs else a.abs

-- O4 blocks (R47 to R50) ----------------------------------------------------------------------------------------

def sint4 (n : Nat) : Int := if 8 ≤ n then (n : Int) - 16 else n

/-- One decoded slot: its value before the scale, whether it is an outlier or the neighbour of one, and whether it holds a
marker that is not one (R48). -/
structure O4Slot where
  val : FVal
  outlier : Bool
  neighbour : Bool
  marker : Bool
  deriving DecidableEq, Repr

/-- The 16 slot bytes decoded pair by pair, with the outliers decoded so far. -/
def o4Pairs (nibs : Nat) : Nat → List Byte → List O4Slot
  | _, [] => []
  | n, b :: r =>
    let lo := b.toNat % 16
    let hi := b.toNat / 16
    let nib := if n = 0 then nibs % 16 else nibs / 16
    let zero : O4Slot := { val := .fin false 0 0, outlier := false, neighbour := true, marker := false }
    let plain (c : Nat) : O4Slot := { val := ofInt (sint4 c) 0, outlier := false, neighbour := false, marker := c == 8 }
    let out (c : Nat) : O4Slot := { val := decodeF .e4m3 (nib * 16 + c), outlier := true, neighbour := false, marker := false }
    if n < 2 && lo == 8 then out hi :: zero :: o4Pairs nibs (n + 1) r
    else if n < 2 && hi == 8 then zero :: out lo :: o4Pairs nibs (n + 1) r
    else plain lo :: plain hi :: o4Pairs nibs n r

/-- A slot under its block's scale code; the neighbour of an outlier is +0 whatever the code (R48, R49). -/
def O4Slot.scaled (e : O4Slot) (c : Nat) : FVal × Flags := if e.neighbour then (e.val, 0) else e.val.scaleE8 c

/-- The 32 slots of a block of 20 bytes. -/
def o4Decode (b : List Byte) : List O4Slot := o4Pairs ((b.getD 16 0).toNat) 0 (b.take 16)

/-- An element to be quantised: its quotient and its draw. -/
structure QElem where
  q : FVal
  draw : BitVec 32
  deriving DecidableEq, Repr

/-- A quotient rounded to an integer for its slot or its candidate test; an infinity is beyond every bound. -/
def QElem.rounded (rm : Rounding) (x : QElem) : Option Int :=
  match x.q with
  | .fin n m e => some (roundInt rm x.draw n m e)
  | .inf _ => none
  | .nan => some 0

/-- Whether an element is a candidate (R50). -/
def QElem.candidate (rm : Rounding) (x : QElem) : Bool :=
  match x.rounded rm with
  | some i => 7 < i.natAbs
  | none => true

/-- The candidate of largest quotient among those whose own index and pair neighbour are not chosen, ties to the lower
index (R50). -/
def bestCandidate (rm : Rounding) (xs : List QElem) (chosen : List Nat) : Option Nat :=
  let idx := (List.range xs.length).filter (fun i =>
    (xs.getD i { q := .nan, draw := 0 }).candidate rm && !chosen.any (fun c => c / 2 == i / 2))
  idx.foldl (fun (best : Option Nat) i =>
    match best with
    | none => some i
    | some j =>
      if (xs.getD j { q := .nan, draw := 0 }).q.abs.lt (xs.getD i { q := .nan, draw := 0 }).q.abs then some i else some j) none

/-- At most two outliers. -/
def chooseOutliers (rm : Rounding) (xs : List QElem) : List Nat :=
  match bestCandidate rm xs [] with
  | none => []
  | some i =>
    match bestCandidate rm xs [i] with
    | none => [i]
    | some j => if i < j then [i, j] else [j, i]

/-- The E4M3 pattern of an outlier at its position (R49). -/
def outlierPat (rm : Rounding) (i : Nat) (x : QElem) : Nat × Flags :=
  let (p, fl) := roundF .e4m3 rm x.draw x.q
  (if i % 2 = 1 && p % 16 == 8 then p + 1 else p, fl)

/-- A block of elements packed as O4 under scale byte c (R47, R49, R50). A NaN element gives slot 0 and is invalid
(R225). -/
def o4Pack (rm : Rounding) (c : Nat) (xs : List QElem) : List Byte × Flags :=
  let outs := chooseOutliers rm xs
  let pats := outs.map (fun i => (i, outlierPat rm i (xs.getD i { q := .nan, draw := 0 })))
  let slot (i : Nat) : Nat :=
    match pats.find? (fun p => p.1 / 2 == i / 2) with
    | some (j, p, _) => if j = i then 8 else p % 16
    | none =>
      match (xs.getD i { q := .fin false 0 0, draw := 0 }).q, (xs.getD i { q := .fin false 0 0, draw := 0 }).rounded rm with
      | .inf neg, _ => wrapTo 4 (if neg then -7 else 7)
      | _, some v => wrapTo 4 (clampInt (-7) 7 v)
      | _, none => 0
  let body := (List.range 16).map (fun j => BitVec.ofNat 8 (slot (2 * j) + 16 * slot (2 * j + 1)))
  let nib (k : Nat) : Nat := match pats[k]? with | some (_, p, _) => p / 16 | none => 0
  let fl := pats.foldl (fun (a : Flags) p => a ||| p.2.2) 0
  let nanFl : Flags := if xs.any (fun x => x.q.isNaN) then flInvalid else 0
  (body ++ [BitVec.ofNat 8 (nib 0 + 16 * nib 1), 0, BitVec.ofNat 8 c, 0], fl ||| nanFl)

-- Transcendentals (R67, R68) ------------------------------------------------------------------------------------

/-- The binary places of the fixed-point arithmetic that brackets a result (log entry 7). -/
def tP : Nat := 320
def tOne : Nat := 2 ^ tP
/-- ln 2 and log2 e in that arithmetic. -/
def tLn2 : Nat := 0xb17217f7d1cf79abc9e3b39803f2f6af40f343267298b62d8a0d175b8baafa2be7b876206debac98
def tLog2e : Nat := 0x171547652b82fe1777d0ffda0d23a7d11d6aef551bad2b4b1164a2cd9a342648fbc3887eeaa2ed9ac

/-- exp of a fixed-point x in [0, 1), by its series. -/
def tExp (x : Nat) : Nat :=
  ((List.range 70).foldl (fun (a : Nat × Nat) k => let t := a.2 * x / tOne / (k + 1); (a.1 + t, t)) (tOne, tOne)).1

/-- ln of a fixed-point z in [1, 2), by the series of the inverse hyperbolic tangent. -/
def tLn (z : Nat) : Nat :=
  let t := (z - tOne) * tOne / (z + tOne)
  let t2 := t * t / tOne
  let r := (List.range 110).foldl (fun (a : Nat × Nat) k => (a.1 + a.2 / (2 * k + 1), a.2 * t2 / tOne)) (0, t)
  2 * r.1

/-- A positive result y × 2^e, exact or with its true value just above, rounded faithfully: the two neighbours are
those of the format, and the free threshold decides between them (R67). -/
def faithful (op : Nat) (f : Fmt) (neg : Bool) (y : Nat) (e : Int) (exact : Bool) : Nat × Flags :=
  let (lo, rem, k) := gridOf f y e
  let up := if rem = 0 && exact then false
    else decide (Config.faithfulThreshold op f lo ≤ rem * 2 ^ 64 / 2 ^ k)
  let p := if up then lo + 1 else lo
  if f.maxPat < p then (f.infPat neg, flOverflow) else (f.signPat neg + p, 0)

/-- A finite value in fixed point, rounded down, with its sign apart. -/
def toFixed (m : Nat) (e : Int) : Nat :=
  let k := e + tP
  if 0 ≤ k then m * 2 ^ k.toNat else m / 2 ^ (-k).toNat

/-- 2^x for fixed-point |x|, as a fixed-point mantissa in [1, 2) and an exponent. -/
def tExp2 (neg : Bool) (x : Nat) : Nat × Int :=
  let i := x / tOne
  let fr := x % tOne
  if !neg then (tExp (fr * tLn2 / tOne), (i : Int) - tP)
  else if fr = 0 then (tOne, -(i : Int) - tP)
  else (tExp ((tOne - fr) * tLn2 / tOne), -(i : Int) - 1 - tP)

/-- A magnitude too large for the fixed-point arithmetic to matter: its exponential overflows or vanishes. -/
def hugeArg (m : Nat) (e : Int) : Bool := m != 0 && (12 : Int) < Nat.log2 m + e

/-- 2^a or e^a of a finite operand. -/
def expOf (op : Nat) (f : Fmt) (base2 : Bool) (neg : Bool) (m : Nat) (e : Int) : Nat × Flags :=
  if m = 0 then roundNE f (.fin false 1 0)
  else if hugeArg m e then
    if neg then faithful op f false 1 (-100000) false else (f.infPat false, flOverflow)
  else
    let x := if base2 then toFixed m e else toFixed m e * tLog2e / tOne
    let (y, ex) := tExp2 neg x
    faithful op f false y ex (base2 && x % tOne == 0)

/-- log2 a or ln a of a positive finite operand. -/
def logOf (op : Nat) (f : Fmt) (base2 : Bool) (m : Nat) (e : Int) : Nat × Flags :=
  let t := Nat.log2 m
  let ex : Int := t + e
  let z := m * tOne / 2 ^ t
  let l := tLn z
  let v : Int := if base2 then ex * tOne + (l * tLog2e / tOne : Nat) else ex * tLn2 + l
  if z = tOne && (base2 || ex = 0) then roundNE f (ofInt ex 0)
  else faithful op f (v < 0) v.natAbs (-(tP : Int)) false

/-- 1 / a of a finite non-zero operand. -/
def rcpOf (op : Nat) (f : Fmt) (neg : Bool) (m : Nat) (e : Int) : Nat × Flags :=
  faithful op f neg (2 ^ 512 / m) (-512 - e) (2 ^ 512 % m == 0)

/-- 1 / √a of a positive finite operand. -/
def rsqOf (op : Nat) (f : Fmt) (m : Nat) (e : Int) : Nat × Flags :=
  let (m, e) := if e % 2 = 0 then (m, e) else (2 * m, e - 1)
  let q := 2 ^ 1024 / m
  let y := Nat.sqrt q
  faithful op f false y (-512 - e / 2) (y * y * m == 2 ^ 1024)

/-- Whether a pattern is a power of two below which the representable values lie closer. -/
def binadeStart (f : Fmt) (p : Nat) : Bool := p % 2 ^ f.fbits == 0 && 2 ^ (f.fbits + 1) ≤ p

/-- tanh of a positive finite operand: within two units of the true result and at most 1, by the free function of the
operand's pattern (R67). The unit is that of the true result's own binade, which R67 does not say: DESIGN CHOICE (log
entry 74). Above the neighbour `lo + 1` the next value is two units off where `lo + 1` does not start a binade, and below a
start of a binade the values lie half a unit apart. -/
def tanhOf (f : Fmt) (b m : Nat) (e : Int) : Nat :=
  let one := (roundNE f (.fin false 1 0)).1
  let lo :=
    if hugeArg m e then one - 1
    else
      let x := toFixed m e * tLog2e / tOne * 2
      let (y, ex) := tExp2 false x
      let big := y * 2 ^ (ex + tP).toNat
      (gridOf f ((big - tOne) * tOne / (big + tOne)) (-(tP : Int))).1
  let least := if binadeStart f lo then lo - 2 else lo - 1
  let most := if binadeStart f (lo + 1) then lo + 1 else lo + 2
  min one (max least (min most ((Config.tanhOf f).toFun b)))

end Sys2Proof
end

