-- ==== Sys2Proof/Machine/Flags.lean ====
section
/-! DEFINITION. The conditions that operations test and the enables of vector elements (R101, R150, R194, R199, R217);
the sticky flags themselves are computed with each value in Machine/Numbers.lean. -/

namespace Sys2Proof

/-- The conditions of CMP and CMPI (R150). -/
def SCond.holds (c : SCond) (a b : Word) : Bool :=
  match c with
  | .eq => a == b | .ne => a != b | .lt => a.slt b | .ge => !a.slt b | .ltu => a.ult b | .geu => !a.ult b

/-- The conditions of VCMP on element values (R199). -/
def VCond.holds (c : VCond) (a b : Int) : Bool :=
  match c with
  | .eq => a == b | .ne => a != b | .lt => decide (a < b) | .ge => decide (b ≤ a) | .le => decide (a ≤ b)
  | .gt => decide (b < a)

/-- The conditions of VFCMP (R217). -/
def FCond.holds (c : FCond) (a b : FVal) : Bool :=
  let un := a.isNaN || b.isNaN
  match c with
  | .eq => !un && !a.lt b && !b.lt a
  | .ne => un || a.lt b || b.lt a
  | .lt => a.lt b
  | .ge => !un && !a.lt b
  | .le => !un && !b.lt a
  | .gt => b.lt a
  | .un => un

/-- The conditions of WAITW, unsigned (R160). -/
def WCond.holds (c : WCond) (a b : Word) : Bool :=
  match c with
  | .eq => a == b | .ne => a != b | .geu => !a.ult b | .ltu => a.ult b

/-- Whether any bit of a predicate, after negation, is one (R138, R151). -/
def anyBit (p : PWord) (neg : Bool) : Bool := (if neg then ~~~p else p) != 0

/-- Whether element i of e bits is enabled by a predicate register and the negate bit (R194). -/
def enabled (h : VHdr) (p : PWord) (e i : Nat) : Bool :=
  if h.pred = 0 && !h.neg then true else (bit p (i * e / 8)) != h.neg

/-- Bits of the enabled elements of an operation. -/
def enBits (h : VHdr) (p : PWord) (e n : Nat) : Nat :=
  (List.range n).foldl (fun a i => if enabled h p e i then a + (2 ^ e - 1) * 2 ^ (e * i) else a) 0

/-- Element i of e bits (R193). -/
def elemOf (v : VWord) (e i : Nat) : Nat := v.toNat / 2 ^ (e * i) % 2 ^ e

/-- Elements of e bits laid from bit 0 upward. -/
def packElems (e : Nat) : List Nat → Nat
  | [] => 0
  | x :: r => x % 2 ^ e + 2 ^ e * packElems e r

/-- The elements of a source. -/
def elemsOf (v : VWord) (e n : Nat) : List Nat := (List.range n).map (elemOf v e)

/-- One mask bit for each byte of enabled elements (R171, R196): bytes at and above the operation's width are not
masked. -/
def byteMask (h : VHdr) (p : PWord) (e n : Nat) : PWord :=
  BitVec.ofNat 128 ((List.range 128).foldl (fun a b =>
    if (h.width.bits ≤ 8 * b) || (e == 1 && b < n / 8 && enabled h p 8 b) || (e != 1 && enabled h p e (8 * b / e))
    then a + 2 ^ b else a) 0)

end Sys2Proof
end

