-- ==== Sys2Proof/Machine/State.lean ====
section
/-! DEFINITION. The state of the machine as plain data: every piece of state that the manual names (INVENTORY.md lists
them with their rules and reset values), the model's own bookkeeping, the two kinds of stop, and the state after
reset. -/

namespace Sys2Proof.Machine

/-- A stop of the whole machine. Every fault of the manual is a state of a context (R277, R285), an entry of the error
ring (R407) or a status, so no meaning raises one. -/
inductive Fault where
  /-- Raised by no meaning of the model: the type needs a value. Safe, since nothing reaches it. -/
  | none_
  deriving DecidableEq, Repr

/-- A step without a meaning. -/
inductive Refusal where
  /-- An instruction that the model gives no meaning yet, by its mnemonic; raised by the arms of `exec` alone. Safe. -/
  | notModelled (mnemonic : String)
  deriving DecidableEq, Repr

/-- Bytes by address, addresses strictly rising. In `State.mem` a byte of zero is not listed. -/
abbrev ByteMap := List Host.Cell

/-- The states of a context (R277). -/
inductive CState where
  | free | scrub | helper | ready | blocked | away | trapped | stopped | saved | retiring
  deriving DecidableEq, Repr

/-- Why a context is STOPPED (R277, R309): the debug port, system software, an overrun of its operator, or a nested fault. -/
inductive StopWhy where
  | debug | software | overrun | nested
  deriving DecidableEq, Repr

/-- The section a context fetches from: its image's token section, or a slice of it (R283). -/
inductive Section where
  | main
  | slice (n : Nat)
  deriving DecidableEq, Repr

/-- A fault and what its registers will hold (R288); `slot` is what FCAUSE names where the fault is asynchronous. -/
structure FaultInfo where
  code : BitVec 8
  detail : Word
  addr : Word
  slot : BitVec 4 := 0xF
  deriving DecidableEq, Repr

/-- What a landing result does (R107). -/
inductive Effect where
  | s (n : BitVec 5) (v : Word)
  /-- One of the handler's eight registers (R286). -/
  | h (n : BitVec 3) (v : Word)
  | a (n : BitVec 5) (v : Word)
  | d (n : BitVec 3) (v : Word)
  | l (n : BitVec 3) (v : Word)
  /-- LBR's write of the count (R142). -/
  | lLow (n : BitVec 3) (c : BitVec 32)
  | x (n : BitVec 3) (v : Word)
  | y (n : BitVec 3) (v : Word)
  | v (n : BitVec 5) (val mask : VWord)
  | w (n : BitVec 5) (val mask : VWord)
  | k (n : BitVec 4) (val : VWord)
  | p (n : BitVec 4) (val mask : PWord)
  | base (b : Base) (v : BitVec 5)
  | ring (len off : BitVec 3)
  /-- LBR's rotation of the ring and shift of the stage predicates, with the value that p8 receives (R105, R106). -/
  | shift (p8 : PWord)
  | sys (n : BitVec 12) (v : Word)
  /-- The arrival of owed entry `id` of a result queue. -/
  | rq (q : BitVec 3) (id : Nat) (v : VWord)
  | sq (v : VWord) (mask : PWord)
  | acc (n : BitVec 3) (words : List AWord)
  /-- Flags alone. -/
  | flagsOnly
  deriving DecidableEq, Repr

/-- A result in flight: the tick at which it lands, its slot, its effect and the flags it raises (R58, R279). -/
structure Flight where
  due : Nat
  slot : BitVec 4
  eff : Effect
  flags : BitVec 3
  deriving DecidableEq, Repr

/-- The state of a load-data entry (R290). -/
inductive EntryState where
  | reserved
  | present (v : VWord)
  | marked (f : FaultInfo)
  deriving DecidableEq, Repr

/-- An entry of lq: entry `part` of load `id`. -/
structure LqEntry where
  id : Nat
  part : Nat
  st : EntryState
  deriving DecidableEq, Repr

/-- An entry of kq with its side tag (R124), or a marked one (R123). -/
structure KqEntry where
  /-- The LDK that pushed it. -/
  id : Nat
  data : VWord
  cls : BitVec 8
  base : Word
  mark : Option FaultInfo
  deriving DecidableEq, Repr

/-- A store-data entry; a mask bit is 1 where the byte is written. -/
structure SqEntry where
  data : VWord
  mask : PWord
  deriving DecidableEq, Repr

/-- A shape record as an operation took it: its 64 bytes, or the fault that the fetch met (R177, R365). -/
inductive RecordOr where
  | bytes (b : List Byte)
  | fault (f : FaultInfo)
  deriving DecidableEq, Repr

/-- What an entry of the load-address queue asks for. -/
inductive LoadKind where
  | lda (w : BitVec 3) (sc : Scope) (o : Order)
  | lds (stride : Word) (w : BitVec 3)
  | ldt (offs : Word) (shape : RecordOr)
  | ldk (c : RClass)
  | atom (w : BitVec 3) (sc : Scope) (o : Order) (op : AtomOp) (v : Word)
  | cas (w : BitVec 3) (sc : Scope) (o : Order) (exp new : Word)
  | gidx
  /-- Row `part` of an XGATH.lq command, whose number the entry carries; it holds no load-address entry. -/
  | row (part : Nat) (bytes : Nat)
  deriving DecidableEq, Repr

/-- An entry of the load-address queue (R170), and the same for a marked lq entry that ERET re-performs (R174). -/
structure LoadOp where
  id : Nat
  ea : Word
  kind : LoadKind
  /-- LDK: the bytes of the record read so far, and the entries pushed (R123). Other loads: `pushed` is 1 once the load
  is performed; it stays here until its last lq entry is pushed in issue order (R170, R173), or is marked no more
  (R174). -/
  got : List Byte
  pushed : Nat
  /-- LDK: its next entry stands marked in kq, and ERET is to perform it again (R174). -/
  stuck : Bool
  /-- ERET performs it again, and its entries have not all been pushed anew (R174). -/
  redo : Bool
  deriving DecidableEq, Repr

/-- One granule that a record operation still has to write (R129): its device virtual address, its new bytes where it
writes any, and its new tag. -/
structure GranuleWrite where
  va : Nat
  bytes : Option (List Byte)
  tag : Bool
  deriving DecidableEq, Repr

/-- What an entry of the store-address queue asks for. -/
inductive StoreKind where
  | sta (w : BitVec 3) (sc : Scope) (o : Order)
  | sts (stride : Word) (w : BitVec 3)
  | stt (offs : Word) (shape : List Byte)
  | sti (offs : Word) (neg : Bool) (shape : List Byte)
  | skst (c : RClass) (shape : Word)
  deriving DecidableEq, Repr

/-- An entry of the store-address queue (R171): `frames` are the translations that passed at issue, as page and
physical page numbers, with those that a TINV has taken under their page numbers raised by 2^48 (R420); `held` marks a release that waits in a weir (R346); `data` are the store-data entries it has
taken; `plan` is what an SKST has still to write, once its data is there; `bad` are the faults that its granules have met (R420). -/
structure StoreOp where
  id : Nat
  ea : Word
  kind : StoreKind
  frames : List (Nat × Nat)
  held : Bool
  data : List SqEntry
  plan : Option (List GranuleWrite)
  bad : List (Nat × BitVec 8)
  flags : BitVec 3
  deriving DecidableEq, Repr

/-- A record operation in the background (R188, R189), with the translations that passed at issue and the faults that
its granules have met (R420). -/
structure TileOp where
  id : Nat
  drop : Bool
  frames : List (Nat × Nat)
  plan : List GranuleWrite
  bad : List (Nat × BitVec 8)
  flags : BitVec 3
  deriving DecidableEq, Repr

/-- A post that has issued and is not performed (R159); `uid` is the launch it was checked against (R329), `trig` the
trigger entry that fired it (R268). -/
structure Post where
  id : Nat
  core : CoreId
  flag : BitVec 5
  add : BitVec 32
  sc : Scope
  uid : Nat
  trig : Option (BitVec 6)
  deriving DecidableEq, Repr

/-- The running queues of a context, or those of its handler (R286, R289). -/
structure Queues where
  lq : List LqEntry
  kq : List KqEntry
  sq : List SqEntry
  la : List LoadOp
  sa : List StoreOp
  deriving DecidableEq, Repr

/-- What a strap has done so far; the model's own bookkeeping (log entry 3). -/
structure Strap where
  live : Bool
  /-- The offset of its first token and of the strap after it. -/
  offset : BitVec 32
  next : BitVec 32
  present : BitVec 9
  done : BitVec 9
  /-- How many results were in flight when it began. -/
  mark : Nat
  /-- The transfer that its C slot took (R137). -/
  taken : Option (BitVec 16)
  /-- The straps that its SKIP squashes. -/
  skip : BitVec 5
  exits : Bool
  away : Option (BitVec 18)
  /-- The result-queue pops of the strap that its slots have not taken yet (R293). -/
  rqPops : List (BitVec 3)
  deriving DecidableEq, Repr

/-- The course of a context in one mode: where it fetches, what is pending, its tick, its results in flight (the
shadow result buffer while it is away, R279) and its queues. User and handler have one each. -/
structure Flow where
  /-- A token offset, of which native code has 2^16 and the one beyond the last (R72, R75), or a Pyrino bundle index (R97, R288). -/
  pc : BitVec 32
  sect : Section
  /-- A transfer taken by the strap before: the next strap is its delay strap. -/
  delayTo : Option (BitVec 16)
  squash : BitVec 5
  tick : Nat
  flight : List Flight
  /-- The results of a strap that has partly issued, held until it completes (R284), and the EXIT or YIELD that it holds
  (R144, R145). -/
  held : List Flight
  heldExit : Bool
  heldAway : Option (BitVec 18)
  strap : Strap
  q : Queues
  deriving DecidableEq, Repr

/-- The strap that ERET is to issue, where it is not an ordinary one (R287): whether it is the rest of a strap that has partly
issued, its slots, the transfer that follows its delay strap, the straps to squash after it, and the EXIT or YIELD that the
part issued before holds (R284). -/
structure Resume where
  part : Bool
  mask : BitVec 9
  taken : Option (BitVec 16)
  skip : BitVec 5
  exits : Bool
  away : Option (BitVec 18)
  deriving DecidableEq, Repr

/-- A strong access of a thread that is performed before an older strong load of it (R350, R351): its number, whether it is
a write, its keys, and the region in which the pair stays unordered. -/
structure Ahead where
  id : Nat
  write : Bool
  keys : List Nat
  sc : Scope
  deriving DecidableEq, Repr

/-- A point of an index space (R310). -/
structure Point where
  i0 : BitVec 24
  i1 : BitVec 24
  i2 : BitVec 24
  deriving DecidableEq, Repr

/-- The word a BLOCKED context's WAITW watches (R331): its physical key, the mask, the reference, the condition and
the scope. -/
structure Watch where
  key : Nat
  mask : Word
  ref : Word
  cond : WCond
  sc : Scope
  deriving DecidableEq, Repr

/-- The state of one channel at the thread that is an end of it (R297, R371 to R373). -/
structure Chan where
  withdrawn : Bool
  /-- Tiles sent, by the sender; tiles taken, by the receiver. -/
  tiles : Nat
  /-- Words performed of each tile not yet complete, from the oldest. -/
  filling : List (Nat × Nat)
  /-- Complete slots not yet taken, oldest first, as tile numbers. -/
  complete : List Nat
  deriving DecidableEq, Repr

/-- A context (R15, R277 to R288). -/
structure Context where
  st : CState
  /-- The state held before a stop, why the stop came, and the nested fault that system software is told of (R277). -/
  before : CState
  stopWhy : StopWhy
  nested : Option FaultInfo
  priv : Bool
  user : Flow
  hand : Flow
  resume : Option Resume
  -- binding (R15, R113, R281, R304, R305, R352)
  launch : Option Nat
  part : BitVec 6
  code : Nat
  half : Bool
  thread : BitVec 13
  mat : Bool
  prio : BitVec 2
  mmr1 : Bool
  pyrino : Bool
  entryOff : BitVec 16
  -- register files (R100, R103, R104)
  l : RegFile 3 64
  s : RegFile 5 64
  a : RegFile 5 64
  x : RegFile 3 64
  d : RegFile 3 64
  y : RegFile 3 64
  v : RegFile 5 1024
  w : RegFile 5 1024
  k : RegFile 4 1024
  p : RegFile 4 128
  bs : BitVec 5
  ba : BitVec 5
  bv : BitVec 5
  bw : BitVec 5
  ringLen : BitVec 3
  ringOff : BitVec 3
  -- system registers (R57, R52, R288, R366)
  sticky : BitVec 3
  seed : Word
  fcause : Word
  fdetail : Word
  faddr : Word
  fret : Word
  ftick : Word
  fpyr : Word
  dvbase : Word
  dvsel : Word
  h : RegFile 3 64
  -- asynchronous faults not yet delivered, in report order (R285)
  pendingFaults : List FaultInfo
  -- memory path (R159, R188, R336 to R346)
  posts : List Post
  tileOps : List TileOp
  /-- Ordinary writes since the last PHASE (R338). -/
  own : ByteMap
  /-- Those of them that have not been written back, by physical key (R337). -/
  dirty : ByteMap
  /-- The keys of an STI's original and of its images, which are written back together (R337). -/
  tied : List (List Nat)
  /-- Bytes published by PHASE.core and still owed to their homes (R339). -/
  pubDirty : ByteMap
  snap : ByteMap
  snapScope : Scope
  fenceSc : Option Scope
  /-- Kept tags that record operations of the thread have set while later ones of its own were waiting, by key (R420). -/
  tagsSet : ByteMap
  /-- Remote strong stores that this thread must see through any relay copy (R343). -/
  must : List Nat
  /-- Strong accesses performed before older strong loads of the thread (R350, R351). -/
  ahead : List Ahead
  /-- Granules of another core's scratchpad whose tags have been probed (R175). -/
  probes : List Nat
  /-- Pages of 64 KiB whose walk has come back for the store that its next strap waits with (R175). -/
  walked : List Nat
  /-- The record that the SKRTG of its waiting strap is to rewrite, where nothing else holds that strap (R129). -/
  retag : Option Nat
  watch : Option Watch
  waitOk : Bool
  -- walker, groups and helper
  lastPoint : Option Point
  helps : Option (BitVec 2)
  wake : Nat
  chans : Assoc Chan
  /-- The number of instances this thread has issued on each communicator (R375). -/
  issued : Assoc Nat
  deriving DecidableEq, Repr

/-- An entry of a result queue that has arrived, or that is owed (R290). -/
structure RqEntry where
  id : Nat
  data : VWord
  claimed : Bool
  deriving DecidableEq, Repr

/-- A result queue: arrived entries in queue order and owed ones in the order of issue. -/
structure RQueue where
  present : List RqEntry
  owed : List RqEntry
  deriving DecidableEq, Repr

/-- The mode of a format pair (R235). -/
inductive MMode where
  | float | int | binary
  deriving DecidableEq, Repr

/-- The matrix configuration (R237). -/
structure MConfig where
  fa : Fmt
  fb : Fmt
  mode : MMode
  cell : BitVec 128
  used : Bool
  deriving DecidableEq, Repr

/-- The engine state of R237; DRAINING keeps the owner's tick of its MDRAIN. -/
inductive MState where
  | unset
  | configured (c : MConfig)
  | draining (t : Nat)
  deriving DecidableEq, Repr

/-- A stamp (R247): add mode, scope, address and addend. -/
structure Stamp where
  add : Bool
  sc : Scope
  addr : Nat
  word : Word
  deriving DecidableEq, Repr

/-- A copy-unit command with its operands as read at issue. -/
inductive CmdOp where
  | xcp (dst src : Word) (len : Nat) (kept : Bool)
  | xcpz (dst src : Word) (len bound : Nat) (dict : Option (Nat × Nat))
  | xcpc (dst src : Word) (count tab : Nat) (ib : IBits) (flag : BitVec 5)
  | xfill (src : Word) (stride : Nat) (f : Fmt) (kept fb tr : Bool) (scales : Nat)
  | xgath (dst : Word) (rb : Nat) (rows : List Word)
  | xgathLq (rb : Nat) (rows : List Word)
  | xscat (src : Word) (rb : Nat) (rows : List Word)
  | xpopq (dst : Word) (q : BitVec 3) (ids : List Nat) (stride : Nat)
  | xsend (ch : BitVec 8) (src : Word)
  | xrecv (ch : BitVec 8) (dst : Option Word)
  | xstor (dst lba : Word) (nlb : Nat) (reg : BitVec 12) (nsid : BitVec 32) (blockLog : Nat)
  deriving DecidableEq, Repr

/-- Where a command stands (R294). -/
inductive CmdState where
  | queued | performing
  /-- A fault was delivered. -/
  | suspended
  /-- The stamp write met a fault (R421): what it was to write. -/
  | suspendedStamp (status : BitVec 8) (detail : BitVec 15)
  /-- Every byte is moved and the stamp is to be written; an engine status where the command ended in an error. -/
  | stamping (status : BitVec 8) (detail : BitVec 15)
  /-- Its stamp is on its way to another module (R392, R394). -/
  | stampSent (status : BitVec 8)
  deriving DecidableEq, Repr

/-- A command of an engine lane. -/
structure Command where
  id : Nat
  ctx : BitVec 2
  op : CmdOp
  stamp : Option Stamp
  st : CmdState
  /-- Bytes delivered, and the next row, word, block or entry. -/
  delivered : Nat
  cursor : Nat
  /-- What an inflate has produced or a fill has gathered and not yet written, or a storage read has received. -/
  buf : List Byte
  /-- The shape records of its tensor addresses, taken when it started (R365). -/
  shapes : List (Nat × RecordOr)
  trig : Option (BitVec 6)
  /-- XSEND: its credit is taken, and the tile number it sends; XRECV: the tile it took; XCPC: the table in use. -/
  tile : Option Nat
  /-- The offsets and lengths of the data of a storage read that have come in (R271). -/
  parts : List (Nat × Nat)
  flags : BitVec 3
  /-- The modules that its next step reads from have been asked for the bytes (R392). -/
  asked : Bool
  deriving DecidableEq, Repr

/-- An entry of an engine lane; the fence entries of one XQFENCE carry one number (R294). -/
inductive LaneEntry where
  | cmd (c : Command)
  | fence (id : Nat) (ctx : BitVec 2)
  deriving DecidableEq, Repr

/-- The state of a trigger entry (R295); a fired operation may wait for a lane slot, be in its lane or queue, or be a
post on its way. -/
inductive TrigState where
  | armed
  | fired
  | running
  deriving DecidableEq, Repr

/-- A trigger entry that is not FREE: who armed it and the four words of its descriptor (R267). -/
structure Trigger where
  st : TrigState
  /-- An XCAN of this cycle names it while it is ARMED (R269, R295). -/
  cancel : Bool
  /-- Its XTRIG's number among the operations of its core. -/
  id : Nat
  ctx : BitVec 2
  w0 : Word
  w1 : Word
  w2 : Word
  w3 : Word
  deriving DecidableEq, Repr

/-- An instance in a communicator queue of a core: this contributor's part (R375, R376). -/
structure CollPart where
  id : Nat
  ctx : BitVec 2
  comm : BitVec 8
  kind : CollKind
  op : BitVec 4
  fmt : BitVec 4
  len : Nat
  root : Nat
  src : Word
  dst : Word
  stamp : Option Stamp
  /-- Which instance of the communicator it is, and which rounds trigger steps have released; none: all of them. -/
  k : Nat
  steps : Option Nat
  trig : Option (BitVec 6)
  started : Bool
  /-- The round under way, 0 for what precedes the first; the bytes of its messages that have been sent, and of the
  round's own work that have been written. -/
  round : Nat
  sent : Nat
  work : Nat
  /-- Bytes received, as (round, sending rank, bytes in order). -/
  inbox : List (Nat × Nat × List Byte)
  /-- What the round's own work writes, once it is formed (R379). -/
  out : Option (Nat × List Byte)
  delivered : Nat
  suspended : Bool
  /-- The shape records of its buffers' tensors, taken when it started (R365). -/
  shapes : List (Nat × RecordOr)
  flags : BitVec 3
  /-- The engine status that ends it; 0 while it is open. -/
  status : BitVec 8
  /-- Its stamp is on its way to another module (R392, R394). -/
  stampSent : Bool
  deriving DecidableEq, Repr

/-- A contributor of an instance: its thread number, the module it is in where that is another one, and its context where it is
in this one. -/
structure Member where
  thread : BitVec 13
  far : Option (BitVec 16)
  at_ : CtxId
  deriving DecidableEq, Repr

/-- An open instance of a communicator, seen by the whole module (R375, R385). -/
structure Coll where
  uid : Nat
  part : BitVec 6
  comm : BitVec 8
  group : BitVec 6
  k : Nat
  /-- The contributors in rank order. -/
  members : List Member
  /-- none: not decided; true: it holds a switch reduction slot; false: chain. -/
  slot : Option Bool
  /-- It ended on some contributor, and so on all (R375, R386); and the contributors whose part is over. -/
  ended : Bool
  /-- The engine status with which it ended on contributors that had not, which a part issued later ends with too. -/
  why : BitVec 8
  gone : List (BitVec 13)
  /-- The stores that the contributors of a barrier had seen when they issued it, with their own earlier ones (R376). -/
  seen : List Nat
  deriving DecidableEq, Repr

/-- An entry of a translation cache (R360): the page's first address, its size, its frame, what it grants, and whether
the dirty bit is known to be set. -/
structure TlbEntry where
  va : Nat
  size : Nat
  pa : Nat
  read : Bool
  write : Bool
  dirty : Bool
  deriving DecidableEq, Repr

/-- A line of the tile cache (R18, R361): 1 KiB of adjacent addresses, or a tile row of a tensor plane by its record, plane,
tile row and column. -/
inductive LineTag where
  | plain (va : Nat)
  | tensor (record plane row col : Nat)
  deriving DecidableEq, Repr

/-- One core (R18). -/
structure Core where
  ctxs : Vector Context 4
  acc : Vector (List AWord) 8
  mstate : MState
  ways : List Nat
  drainUntil : Nat
  fa : List (List (List Byte))
  fb : List (List (List Byte))
  /-- The fills of fa and fb that have issued and not pushed, in order (R261). -/
  faOrder : List Nat
  fbOrder : List Nat
  rq : Vector RQueue 8
  /-- Entries of each result queue that the first strap of the cycle has freed; they count from the next cycle (R292). -/
  rqHeld : Vector Nat 8
  flags : Vector (BitVec 32) 32
  flagsOwned : BitVec 32
  triggers : Assoc Trigger
  lanes : Vector (List LaneEntry) 8
  comms : Assoc (List CollPart)
  lastComm : Nat
  pub : ByteMap
  /-- The lines that its tile cache holds (R361). -/
  lines : List LineTag
  tlb : List TlbEntry
  records : Assoc (List Byte)
  dict : Vector (List (BitVec 384)) 2
  dictOf : Vector (Option Nat) 2
  points : List Point
  bound : Option Nat
  boundPart : BitVec 6
  lastTenant : Option (BitVec 16)
  cycle : Nat
  nextId : Nat
  deriving DecidableEq, Repr

/-- The three states of a link but for its names (R389). -/
inductive LinkState where
  | down | training | up | degraded | quarantined
  deriving DecidableEq, Repr

/-- A flit, or a run of flits of one chunk, on a link (R392, R394): its virtual channel, the command or collective part it
belongs to by core, context and number, what it carries, whether those bytes count as delivered by it, as those of a collective's
message do not (R248), and whether it has been sent; until then it waits for credit. -/
structure Flit where
  vc : BitVec 3
  src : CtxId
  owner : Nat
  data : List Host.Cell
  counts : Bool
  sent : Bool
  deriving DecidableEq, Repr

/-- A link (R390), with the credits of its virtual channels and its flits that the peer has not acknowledged, in the order in
which they were given to it (R392). -/
structure Link where
  credits : Vector Nat 8
  flits : List Flit
  st : LinkState
  failed : BitVec 9
  spareFor : BitVec 4
  cause : BitVec 4
  peerLink : BitVec 4
  peerModule : BitVec 16
  retries : BitVec 16
  /-- It has been released, and has not come up since: the count of retries starts anew when it does (R389, R390). -/
  fromRelease : Bool
  deriving DecidableEq, Repr

/-- The states of a terrace (R396). -/
inductive TState where
  | offline | compute | reservoir | draining | flushing | enumerating | failed
  deriving DecidableEq, Repr

/-- A terrace (R396, R399, R402, R417, R418). -/
structure Terrace where
  st : TState
  cause : BitVec 4
  busy : Bool
  /-- The role its sequence leads to, and the role it leaves. -/
  target : TState
  leaving : TState
  /-- For each of the 96 logical positions in router order, the physical core there, where it is not the position's own
  number (R12, R402). -/
  spares : Assoc Nat
  /-- The parts marked for retirement: cores, rows by channel and row, channels and vias (R418). -/
  coresMarked : List Nat
  rowsMarked : List (Nat × Nat)
  channelsMarked : List Nat
  viasMarked : List Nat
  /-- The spare rows and spare vias that stand in for marked ones (R28, R418). -/
  rowsSpared : List (Nat × Nat)
  viasSpared : List Nat
  /-- Correctable errors of each part. -/
  coreErrors : Assoc Nat
  rowErrors : Assoc Nat
  viaErrors : Assoc Nat
  /-- The 28 monitors (R29, R417). -/
  monitors : Vector (BitVec 16) 28
  /-- Stale relay copies: bytes by key that the port still serves (R342). -/
  relay : ByteMap
  deriving DecidableEq, Repr

/-- A core clock (R16, R397, R417). -/
inductive Clock where
  | mhz850 | mhz720
  deriving DecidableEq, Repr

/-- A cascade. -/
structure Cascade where
  clock : Clock
  /-- Lowered by a monitor until every temperature is below 100 degrees (R417). -/
  lowered : Bool
  /-- The channel that the spare DRAM channel stands in for (R28, R402). -/
  spareChannel : Option (BitVec 4)
  deriving DecidableEq, Repr

/-- A relay update that has not reached its terrace (R342): from store `store` of `src`. -/
structure RelayUpdate where
  store : Nat
  src : CtxId
  /-- A release's update waits for the earlier ones of its source to the same terrace (R346). -/
  rel : Bool
  terrace : BitVec 4
  bytes : ByteMap
  deriving DecidableEq, Repr

/-- What a release has left at an object for those who acquire there (R343): who released, at which scope, and the stores
that an acquirer must see. -/
structure Cover where
  src : CtxId
  sc : Scope
  stores : List Nat
  deriving DecidableEq, Repr

/-- One map of an element of a symmetry group on a coordinate (R312): the axis it reads, whether it reflects, and the
offset that it adds. -/
structure AxisMap where
  axis : Nat
  neg : Bool
  off : Nat
  deriving DecidableEq, Repr

/-- The symmetry of a kernel (R311). -/
structure Symmetry where
  gen0 : BitVec 32
  gen1 : BitVec 32
  block : List Nat
  deriving DecidableEq, Repr

/-- A channel-table entry (R370). -/
structure ChanEntry where
  peerModule : BitVec 16
  vc : BitVec 3
  comm : BitVec 8
  base : Nat
  slots : Nat
  flag : BitVec 5
  depth : Nat
  cols : Nat
  rows : Nat
  fmt : Fmt
  receive : Bool
  mode : BitVec 2
  peer : BitVec 13
  deriving DecidableEq, Repr

/-- A communicator template (R374). -/
structure CommEntry where
  num : BitVec 8
  group : BitVec 6
  prio : BitVec 2
  vc : BitVec 3
  desc : Bool
  alg : BitVec 2
  chunk : Nat
  deriving DecidableEq, Repr

/-- A slice (R300, R283). -/
structure Slice where
  from_ : BitVec 16
  to_ : BitVec 16
  tokens : List (BitVec 16)
  deriving DecidableEq, Repr

/-- An entry record (R300). -/
structure Entry where
  off : BitVec 16
  mask : BitVec 4
  mat : Bool
  deriving DecidableEq, Repr

/-- The loaded form of a code object, or the status with which its processing failed (R303). -/
structure Code where
  /-- A number of its own, by which a dictionary in a core is known to be this object's (R308). -/
  uid : Nat
  status : BitVec 8
  tokens : List (BitVec 16)
  bundles : List (BitVec 256)
  dict : List (BitVec 384)
  slices : List Slice
  entries : List Entry
  flags : BitVec 32
  chans : List ChanEntry
  comms : List CommEntry
  symm : Option Symmetry
  bound : Nat
  mmr : BitVec 8
  pyrino : Bool
  data : List (Nat × List Byte)
  dataWritten : Bool
  deriving DecidableEq, Repr

/-- The states of a launch (R307). -/
inductive LState where
  | pending | loading | binding | running | complete | ended
  deriving DecidableEq, Repr

/-- A launch with its record (R305, R306, R310). -/
structure Launch where
  uid : Nat
  st : LState
  status : BitVec 8
  bytes : List Byte
  code : Nat
  completion : Nat
  extents : List Nat
  rank : Nat
  prio : BitVec 2
  first : Nat
  count : Nat
  preds : List Nat
  elems : List (List AxisMap)
  blocks : List Nat
  /-- The next point to place in lexicographic number, the points that wait to be placed again, and how many points threads
  have drawn. -/
  nextPoint : Nat
  returned : List Point
  drawnCount : Nat
  deriving DecidableEq, Repr

/-- A graph in the queue of a virtual function (R410 to R412). -/
structure Graph where
  addr : Nat
  fetched : Bool
  completion : Nat
  status : BitVec 8
  launches : List Launch
  deriving DecidableEq, Repr

/-- The states of a virtual device (R405). -/
inductive VState where
  | disabled | idle | ready | running | resetting
  deriving DecidableEq, Repr

/-- A virtual device (R405, R406, R410). -/
structure VDev where
  cfg : Word
  nextCfg : Option Word
  code : BitVec 8
  st : VState
  vt : Nat
  graphs : List Graph
  completed : BitVec 16
  lastStatus : BitVec 8
  overflow : Bool
  msix : Nat
  resetStep : Nat
  /-- Restartable copy commands that wait to be resumed before the first launch of its graph binds (R256, R409). -/
  forms : List (List Byte)
  deriving DecidableEq, Repr

/-- A group (R321, R322): its members and those that have arrived at the open instance, with the passes that arrived
members have not yet used to depart. -/
structure Group where
  members : List (BitVec 13)
  /-- Members whose GBAR has arrived and whose earlier accesses are not all performed, so that they do not count yet (R324). -/
  coming : List (BitVec 13)
  arrived : List (BitVec 13)
  passed : List (BitVec 13)
  deriving DecidableEq, Repr

/-- A partition (R355, R403, R404). -/
structure Partition where
  formed : Bool
  hentry : Word
  hlen : BitVec 16
  troot : Word
  rtbase : Word
  rtcount : Word
  opBound : Nat
  features : BitVec 8
  harness : List CoreId
  portMap : List Byte
  tinv : Option Word
  groups : Assoc Group
  /-- Threads of other modules that belong to a group, with their modules (R24, R375; log entry 19). -/
  farGroups : Assoc (List (BitVec 16 × BitVec 13))
  codes : Assoc Code
  running : Option Nat
  deriving DecidableEq, Repr

/-- A channel word on its way inside the module (R372). -/
structure FlightWord where
  src : CtxId
  cmd : Nat
  dst : CtxId
  chan : BitVec 8
  tile : Nat
  word : Nat
  data : Word
  deriving DecidableEq, Repr

/-- What the image of a SAVED context adds to its own record (R278): the matrix engine, where it is the matrix
owner, with its last drain, and the entries it has claimed of result queues that have not arrived. -/
structure Image where
  acc : Vector (List AWord) 8
  mstate : MState
  ways : List Nat
  drainUntil : Nat
  owed : List (BitVec 3 × RqEntry)
  deriving DecidableEq, Repr

/-- The whole machine. -/
structure State where
  -- the model's own fields (log entries 3, 4)
  cur : CtxId
  agenda : List Instr
  turn : Nat
  fresh : Nat
  nextUid : Nat
  -- memory (R18, R20, R121): bytes and kept tags by home key (Ops.lean), uncorrectable marks
  mem : ByteMap
  poison : List Nat
  cover : Assoc (List Cover)
  relayPend : List RelayUpdate
  -- cores, terraces, cascades
  cores : Assoc Core
  images : Assoc Image
  terraces : Vector Terrace 16
  cascades : Vector Cascade 4
  -- partitions and virtual devices
  parts : Assoc Partition
  vdevs : Assoc VDev
  /-- Launches that have ended while contexts of theirs stay bound, with the symmetry by which their STIs still go (R309, R316). -/
  left : List Launch
  colls : List Coll
  words : List FlightWord
  -- Urmon
  rolemap : BitVec 32
  roleboot : Word
  mstatus : BitVec 8
  elog : List (Word × Word)
  elogCount : Nat
  coolantHigh : Bool
  links : Vector Link 16
  registrations : Assoc (BitVec 256)
  /-- Registration writes that clear valid and wait for commands in flight (R413). -/
  regPending : Assoc (BitVec 256)
  bootVersion : BitVec 16
  bootTrickle : Bool
  bootFails : BitVec 2
  bootReason : BitVec 8
  /-- The SHA-512 digests of the two firmware images in use (R414, R416). -/
  urmonDigest : BitVec 512
  deviceDigest : BitVec 512
  starting : Bool
  nonce : List Byte
  attestBusy : Bool
  report : List Byte
  deriving DecidableEq, Repr

/-- A strap record of nothing. -/
def Strap.none_ : Strap :=
  { live := false, offset := 0, next := 0, present := 0, done := 0, mark := 0, taken := none, skip := 0,
    exits := false, away := none, rqPops := [] }

def Queues.empty : Queues := { lq := [], kq := [], sq := [], la := [], sa := [] }

def Flow.reset : Flow :=
  { pc := 0, sect := .main, delayTo := none, squash := 0, tick := 0, flight := [], held := [],
    heldExit := false, heldAway := none, strap := Strap.none_,
    q := Queues.empty }

/-- A context that no launch has bound; its registers read the zero that the scrubber gives (log entry 1). -/
def Context.reset : Context :=
  { st := .free, before := .free, stopWhy := .software, nested := none, priv := false, user := Flow.reset,
    hand := Flow.reset, resume := none,
    launch := none, part := 0, code := 0, half := false, thread := 0, mat := false, prio := 0, mmr1 := false,
    pyrino := false, entryOff := 0,
    l := RegFile.zero 3 64, s := RegFile.zero 5 64, a := RegFile.zero 5 64, x := RegFile.zero 3 64,
    d := RegFile.zero 3 64, y := RegFile.zero 3 64, v := RegFile.zero 5 1024, w := RegFile.zero 5 1024,
    k := RegFile.zero 4 1024, p := RegFile.zero 4 128, bs := 0, ba := 0, bv := 0, bw := 0, ringLen := 0, ringOff := 0,
    sticky := 0, seed := 0, fcause := 0, fdetail := 0, faddr := 0, fret := 0, ftick := 0, fpyr := 0, dvbase := 0,
    dvsel := 0, h := RegFile.zero 3 64, pendingFaults := [], posts := [], tileOps := [], own := [], dirty := [],
    tied := [], pubDirty := [], snap := [], snapScope := .sys, fenceSc := none, tagsSet := [], must := [], ahead := [], probes := [],
    walked := [], retag := none, watch := none,
    waitOk := false, lastPoint := none, helps := none, wake := 0, chans := [], issued := [] }

def RQueue.empty : RQueue := { present := [], owed := [] }

def Core.reset : Core :=
  { ctxs := Vector.replicate 4 Context.reset, acc := Vector.replicate 8 [], mstate := .unset, ways := [],
    drainUntil := 0, fa := [], fb := [], faOrder := [], fbOrder := [], rq := Vector.replicate 8 RQueue.empty,
    rqHeld := Vector.replicate 8 0, flags := Vector.replicate 32 0, flagsOwned := 0, triggers := [],
    lanes := Vector.replicate 8 [], comms := [],
    lastComm := 0, pub := [], lines := [], tlb := [], records := [], dict := Vector.replicate 2 [],
    dictOf := Vector.replicate 2 none, points := [], bound := none, boundPart := 0, lastTenant := none, cycle := 0,
    nextId := 0 }

/-- A link is DOWN with peer module 0xFFFF, as R390 says of DOWN; the rest is a design choice (log entry 1). -/
def Link.reset : Link :=
  { credits := Vector.replicate 8 0, flits := [], st := .down, failed := 0, spareFor := 0xF, cause := 0, peerLink := 0,
    peerModule := 0xFFFF, retries := 0, fromRelease := false }

def Terrace.reset : Terrace :=
  { st := .offline, cause := 0, busy := false, target := .offline, leaving := .offline, spares := [],
    coresMarked := [], rowsMarked := [], channelsMarked := [], viasMarked := [], rowsSpared := [], viasSpared := [],
    coreErrors := [], rowErrors := [], viaErrors := [], monitors := Vector.replicate 28 0, relay := [] }

def Cascade.reset : Cascade := { clock := .mhz850, lowered := false, spareChannel := none }

def Partition.reset : Partition :=
  { formed := false, hentry := 0, hlen := 0, troot := 0, rtbase := 0, rtcount := 0, opBound := 0, features := 0,
    harness := [], portMap := [], tinv := none, groups := [], farGroups := [], codes := [], running := none }

def VDev.reset : VDev :=
  { cfg := 0, nextCfg := none, code := 0, st := .disabled, vt := 0, graphs := [], completed := 0, lastStatus := 0,
    overflow := false, msix := 0, resetStep := 0, forms := [] }

def Group.empty : Group := { members := [], coming := [], arrived := [], passed := [] }

/-- The machine before Urmon's first start: no terrace has a role, no partition is formed, and nothing is listed in
memory. ROLEBOOT is as the module leaves the factory (R398); every other value the manual gives no reset for is named
in log entry 1. -/
def State.reset : State :=
  { cur := { core := 0, ctx := 0 }, agenda := [], turn := 0, fresh := 0, nextUid := 0, mem := [],
    poison := [], cover := [], relayPend := [], cores := [], images := [],
    terraces := Vector.replicate 16 Terrace.reset, cascades := Vector.replicate 4 Cascade.reset, parts := [],
    vdevs := [], left := [], colls := [], words := [], rolemap := 0, roleboot := 0x0000000095959595, mstatus := 0, elog := [],
    elogCount := 0, coolantHigh := false, links := Vector.replicate 16 Link.reset, registrations := [],
    regPending := [],
    bootVersion := 0, bootTrickle := false, bootFails := 0, bootReason := 0, urmonDigest := 0, deviceDigest := 0,
    starting := false, nonce := [],
    attestBusy := false, report := [] }

end Sys2Proof.Machine
end

