-- ==== Sys2Proof/Machine/Ops.lean ====
section
/-! DEFINITION. The named operations over memory and registers, the landing of results, the end of a strap, and taking
a fault and returning from one (R279, R284 to R288). -/

namespace Sys2Proof.Machine

-- Byte maps and memory ------------------------------------------------------------------------------------------

/-- The byte listed at a key. -/
def bmGet : ByteMap → Nat → Option Byte
  | [], _ => none
  | (a, b) :: r, k => if a = k then some b else if k < a then none else bmGet r k

/-- The map with a byte listed at a key. -/
def bmPut : ByteMap → Nat → Byte → ByteMap
  | [], k, v => [(k, v)]
  | (a, b) :: r, k, v => if k < a then (k, v) :: (a, b) :: r else if a = k then (k, v) :: r else (a, b) :: bmPut r k v

/-- The map without a key. -/
def bmErase : ByteMap → Nat → ByteMap
  | [], _ => []
  | (a, b) :: r, k => if a = k then r else if k < a then (a, b) :: r else (a, b) :: bmErase r k

/-- Every byte of `n` written over `m`. -/
def bmUnion (m n : ByteMap) : ByteMap := n.foldl (fun m e => bmPut m e.1 e.2) m

/-- What memory reads as at a key: 0 where nothing is listed (log entry 2). -/
def memRead (m : ByteMap) (k : Nat) : Byte := (bmGet m k).getD 0

/-- Memory with a byte written; a zero byte is not listed. -/
def memWrite (m : ByteMap) (k : Nat) (v : Byte) : ByteMap := if v = 0 then bmErase m k else bmPut m k v

/-- Keys strictly rising. -/
def bmSorted : ByteMap → Bool
  | [] => true
  | [_] => true
  | (a, _) :: (b, v) :: r => decide (a < b) && bmSorted ((b, v) :: r)

/-- The canonical form of memory: keys strictly rising and no byte equal to what an unlisted key reads as. -/
def Memory.wf (m : ByteMap) : Bool := bmSorted m && m.all (fun e => e.2 != 0)

/-- Bytes from key `k` upward written. -/
def memWriteAll (m : ByteMap) (k : Nat) : List Byte → ByteMap
  | [] => m
  | b :: r => memWriteAll (memWrite m k b) (k + 1) r

/-- `n` bytes from key `k`. -/
def memReadAll (m : ByteMap) (k n : Nat) : List Byte := (List.range n).map (fun i => memRead m (k + i))

/-- Bytes as a number, the first least significant (R3). -/
def bytesNat : List Byte → Nat
  | [] => 0
  | b :: r => b.toNat + 256 * bytesNat r

/-- A number as `n` bytes, least significant first (R3). -/
def natBytes : Nat → Nat → List Byte
  | 0, _ => []
  | n + 1, v => BitVec.ofNat 8 (v % 256) :: natBytes n (v / 256)

/-- A little-endian field of a byte list. -/
def fieldNat (b : List Byte) (off n : Nat) : Nat := bytesNat ((b.drop off).take n)

def wordBytes (w : Word) : List Byte := natBytes 8 w.toNat
def bytesWord (b : List Byte) : Word := BitVec.ofNat 64 (bytesNat b)

/-- A sorted set of numbers with one more. -/
def setAdd : List Nat → Nat → List Nat
  | [], n => [n]
  | a :: r, n => if n < a then n :: a :: r else if a = n then a :: r else a :: setAdd r n

def setDrop (l : List Nat) (n : Nat) : List Nat := l.filter (· != n)

-- Keys of direct storage ----------------------------------------------------------------------------------------

/-- The first key of a core's scratchpad. -/
def padBase (c : CoreId) : Nat := 2 ^ 56 + c.toNat * 2 ^ 24

/-- The key of the kept tag of the granule of a key: a byte that is 1 where the granule is kept (R121). -/
def tagKey (k : Nat) : Nat := 2 ^ 60 + k / 64

/-- Whether a key is direct storage: a byte of a scratchpad, or a tag of one. Every other key is a device physical
address, or a tag of one. -/
def isDirect (k : Nat) : Bool := (2 ^ 56 ≤ k && k < 2 ^ 60) || 2 ^ 60 + 2 ^ 50 ≤ k

/-- The core whose scratchpad a key lies in. -/
def padCore (k : Nat) : Nat := (k - 2 ^ 56) / 2 ^ 24

-- Cores and contexts --------------------------------------------------------------------------------------------

def State.core (s : State) (c : CoreId) : Core := Assoc.get Core.reset s.cores c.toNat
def State.setCore (s : State) (c : CoreId) (k : Core) : State := { s with cores := Assoc.put s.cores c.toNat k }
def State.updCore (s : State) (c : CoreId) (f : Core → Core) : State := s.setCore c (f (s.core c))

def Core.ctx (k : Core) (n : BitVec 2) : Context := k.ctxs[n.toNat]'n.isLt
def Core.setCtx (k : Core) (n : BitVec 2) (c : Context) : Core := { k with ctxs := k.ctxs.set n.toNat c n.isLt }
def Core.updCtx (k : Core) (n : BitVec 2) (f : Context → Context) : Core := k.setCtx n (f (k.ctx n))

def State.ctx (s : State) (c : CtxId) : Context := (s.core c.core).ctx c.ctx
def State.setCtx (s : State) (c : CtxId) (x : Context) : State := s.updCore c.core (fun k => k.setCtx c.ctx x)
def State.updCtx (s : State) (c : CtxId) (f : Context → Context) : State := s.setCtx c (f (s.ctx c))

/-- The context that acts, and its core. -/
def State.me (s : State) : Context := s.ctx s.cur
def State.myCore (s : State) : Core := s.core s.cur.core
def State.updMe (s : State) (f : Context → Context) : State := s.updCtx s.cur f
def State.updMyCore (s : State) (f : Core → Core) : State := s.updCore s.cur.core f

/-- The four context numbers. -/
def ctxNums : List (BitVec 2) := [0, 1, 2, 3]

/-- The course of the mode the context is in. -/
def Context.flow (c : Context) : Flow := if c.priv then c.hand else c.user
def Context.setFlow (c : Context) (f : Flow) : Context := if c.priv then { c with hand := f } else { c with user := f }
def Context.updFlow (c : Context) (g : Flow → Flow) : Context := c.setFlow (g c.flow)

def Flow.updStrap (f : Flow) (g : Strap → Strap) : Flow := { f with strap := g f.strap }
def Flow.updQ (f : Flow) (g : Queues → Queues) : Flow := { f with q := g f.q }

def State.part (s : State) (p : BitVec 6) : Partition := Assoc.get Partition.reset s.parts p.toNat
def State.setPart (s : State) (p : BitVec 6) (x : Partition) : State := { s with parts := Assoc.put s.parts p.toNat x }
def State.updPart (s : State) (p : BitVec 6) (f : Partition → Partition) : State := s.setPart p (f (s.part p))

def State.vdev (s : State) (v : Nat) : VDev := Assoc.get VDev.reset s.vdevs v
def State.setVdev (s : State) (v : Nat) (x : VDev) : State := { s with vdevs := Assoc.put s.vdevs v x }
def State.updVdev (s : State) (v : Nat) (f : VDev → VDev) : State := s.setVdev v (f (s.vdev v))

/-- A number that no free value has used. -/
def State.draw (s : State) : Nat × State := (s.fresh, { s with fresh := s.fresh + 1 })

/-- The code object a context runs. -/
def State.codeOf (s : State) (c : Context) : Option Code := Assoc.find (s.part c.part).codes c.code

/-- The terrace number 4c + t of a core (R13). -/
def terraceOf (c : CoreId) : Nat := c.toNat / 128

/-- The physical core number of a core (R13). -/
def physOf (c : CoreId) : Nat := c.toNat % 128

def State.terrace (s : State) (t : Nat) : Terrace := (s.terraces[t]?).getD Terrace.reset
def State.setTerrace (s : State) (t : Nat) (x : Terrace) : State := { s with terraces := s.terraces.setIfInBounds t x }
def State.updTerrace (s : State) (t : Nat) (f : Terrace → Terrace) : State := s.setTerrace t (f (s.terrace t))

/-- The physical core at a logical position of a terrace (R12, R402). -/
def Terrace.coreAt (t : Terrace) (pos : Nat) : Nat := Assoc.get pos t.spares pos

/-- The positions 0 to 95 of a terrace. -/
def positions : List Nat := List.range 96

/-- Whether a global core number names an enabled core (R14): its own position's, or a spare brought in. -/
def State.enabledCore (s : State) (c : CoreId) : Bool :=
  positions.any (fun p => (s.terrace (terraceOf c)).coreAt p == physOf c)

/-- The quad router a core is attached to (R12). -/
def State.quadOf (s : State) (c : CoreId) : Nat :=
  match positions.find? (fun p => (s.terrace (terraceOf c)).coreAt p == physOf c) with
  | some p => p / 4
  | none => 0

-- Kept tags and uncorrectable marks -----------------------------------------------------------------------------

/-- Whether the granule of a key is kept at its home (R121). -/
def State.kept (s : State) (k : Nat) : Bool := memRead s.mem (tagKey k) != 0

/-- Whether a byte, or the tag of its granule that is read with it, holds an uncorrectable error (R121, R418). -/
def State.poisoned (s : State) (k : Nat) : Bool := s.poison.contains k || s.poison.contains (tagKey k)

-- The error ring ------------------------------------------------------------------------------------------------

/-- An entry of the error ring (R407): code, engine status, address, and the partition, function, core and context it
concerns. -/
def State.logError (s : State) (code status : BitVec 8) (addr : Word) (part : BitVec 6) (vf : BitVec 10)
    (core : CoreId) (ctx : BitVec 2) : State :=
  let w0 : Word := (BitVec.ofNat 16 s.elogCount ++ part ++ vf ++ (0 : BitVec 3) ++ ctx ++ core ++ status ++ code)
  { s with elog := Assoc.put (s.elog.zipIdx.map (fun e => (e.2, e.1))) (s.elogCount % 64) (w0, addr) |>.map (·.2)
           elogCount := s.elogCount + 1 }

-- Landing -------------------------------------------------------------------------------------------------------

/-- A masked merge: bits of `new` where the mask is one. -/
def mergeBits {n : Nat} (old new mask : BitVec n) : BitVec n := (old &&& ~~~mask) ||| (new &&& mask)

/-- Bits of the fault registers and of DVBASE and DVSEL that are not reserved (R288, R366). -/
def sysMask (n : BitVec 12) : Word :=
  match n.toNat with
  | 0x10 => 0xFFFBFF
  | 0x13 => 0x7FFFFFFFFF
  | 0x15 => 0x3FFFFFFFF
  | 0x820 => 0xFFFFFFFFFFFFF
  | 0x821 => 0xFFFF
  | _ => BitVec.allOnes 64

/-- A CSRW landing in its register (R111, R114, R156, R288). -/
def Context.writeSys (c : Context) (n : BitVec 12) (v : Word) : Context :=
  let v := v &&& sysMask n
  match n.toNat with
  | 0x000 => { c with sticky := v.setWidth 3 }
  | 0x001 => { c with seed := v }
  | 0x004 =>
    let len := v.extractLsb' 0 3
    { c with ringLen := len, ringOff := BitVec.ofNat 3 ((v.extractLsb' 3 3).toNat % (len.toNat + 1)) }
  | 0x010 => { c with fcause := v }
  | 0x011 => { c with fdetail := v }
  | 0x012 => { c with faddr := v }
  | 0x013 => { c with fret := v }
  | 0x014 => { c with ftick := v }
  | 0x015 => { c with fpyr := v }
  | 0x820 => { c with dvbase := v }
  | 0x821 => { c with dvsel := v }
  | k => if 0x818 ≤ k ∧ k ≤ 0x81F then { c with s := c.s.put (BitVec.ofNat 5 (24 + (k - 0x818))) v } else c

/-- The ring rotated by one, and the stage predicates shifted (R105, R106); a CSRW to RING that lands at the same tick
replaces the rotation alone (R114). -/
def Context.shiftStages (c : Context) (rotate : Bool) (p8 : PWord) : Context :=
  let p := (List.range 7).foldl (fun (q : RegFile 4 128) i =>
    q.put (BitVec.ofNat 4 (9 + i)) (c.p.get (BitVec.ofNat 4 (8 + i)))) c.p
  { c with
    ringOff := if rotate then BitVec.ofNat 3 ((c.ringOff.toNat + 1) % (c.ringLen.toNat + 1)) else c.ringOff
    p := p.put 8 p8 }

/-- An owed entry of a result queue arriving (R290, R291). -/
def RQueue.arrive (q : RQueue) (id : Nat) (v : VWord) : RQueue :=
  match q.owed.find? (fun e => e.id == id) with
  | some e => { present := q.present ++ [{ e with data := v }], owed := q.owed.filter (fun e => e.id != id) }
  | none => q

def Core.updRq (k : Core) (q : BitVec 3) (f : RQueue → RQueue) : Core :=
  { k with rq := k.rq.set q.toNat (f (k.rq[q.toNat]'q.isLt)) q.isLt }

/-- One result landing in a core (R107). -/
def Core.landEffect (k : Core) (n : BitVec 2) (e : Effect) : Core :=
  match e with
  | .s r v => k.updCtx n (fun c => { c with s := c.s.put r v })
  | .h r v => k.updCtx n (fun c => { c with h := c.h.put r v })
  | .a r v => k.updCtx n (fun c => { c with a := c.a.put r v })
  | .d r v => k.updCtx n (fun c => { c with d := c.d.put r v })
  | .l r v => k.updCtx n (fun c => { c with l := c.l.put r v })
  -- the upper half that an earlier strap's MOVX brings to this tick stays: DESIGN CHOICE (log entry 89)
  | .lLow r v => k.updCtx n (fun c => { c with l := c.l.put r ((c.l.get r).extractLsb' 32 32 ++ v) })
  | .x r v => k.updCtx n (fun c => { c with x := c.x.put r v })
  | .y r v => k.updCtx n (fun c => { c with y := c.y.put r v })
  | .v r v m => k.updCtx n (fun c => { c with v := c.v.put r (mergeBits (c.v.get r) v m) })
  | .w r v m => k.updCtx n (fun c => { c with w := c.w.put r (mergeBits (c.w.get r) v m) })
  | .k r v => k.updCtx n (fun c => { c with k := c.k.put r v })
  | .p r v m => k.updCtx n (fun c => { c with p := c.p.put r (mergeBits (c.p.get r) v m) })
  | .base b v => k.updCtx n (fun c =>
      match b with
      | .bs => { c with bs := v } | .ba => { c with ba := v } | .bv => { c with bv := v } | .bw => { c with bw := v })
  | .ring len off => k.updCtx n (fun c => { c with ringLen := len, ringOff := off })
  | .sys r v => k.updCtx n (fun c => c.writeSys r v)
  | .rq q id v => k.updRq q (fun q => q.arrive id v)
  | .sq v m => k.updCtx n (fun c => c.updFlow (fun f => f.updQ (fun q => { q with sq := q.sq ++ [{ data := v, mask := m }] })))
  | .acc r ws => { k with acc := k.acc.set r.toNat ws r.isLt }
  | .shift _ | .flagsOnly => k

def Effect.isShift : Effect → Option PWord
  | .shift stage => some stage
  | _ => none

def Effect.isRingWrite : Effect → Bool
  | .sys n _ => n == 4
  | _ => false

def Effect.isStickyWrite : Effect → Bool
  | .sys n _ => n == 0
  | _ => false

/-- Whether an effect enters a data queue. -/
def Effect.isPush : Effect → Bool
  | .rq _ _ _ | .sq _ _ => true
  | _ => false

/-- The pushes among some results, in slot order and, within one slot, in the order of issue (R84, R291). -/
def pushesOf (due : List Flight) : List Flight :=
  (List.range 9).flatMap (fun n => due.filter (fun f => f.eff.isPush && f.slot.toNat == n))

/-- The results due at a tick, applied: first LBR's shift (R106), then a CSRW of STICKY (R58), then every register's result in
the order of issue and of slots (R85, R107), then what enters queues (R291), then the flags (R58). -/
def Core.landAll (k : Core) (n : BitVec 2) (due : List Flight) : Core :=
  let rotate := !due.any (fun f => f.eff.isRingWrite)
  let k := due.foldl (fun k f =>
    match f.eff.isShift with
    | some p => k.updCtx n (fun c => c.shiftStages rotate p)
    | none => k) k
  let k := due.foldl (fun k f => if f.eff.isStickyWrite then k.landEffect n f.eff else k) k
  let k := due.foldl (fun k f => if f.eff.isStickyWrite || f.eff.isPush then k else k.landEffect n f.eff) k
  let k := (pushesOf due).foldl (fun k f => k.landEffect n f.eff) k
  let fl := due.foldl (fun (a : BitVec 3) f => a ||| f.flags) 0
  k.updCtx n (fun c => { c with sticky := c.sticky ||| fl })

/-- The ticks at which some results are due, rising. -/
def dueTicks (l : List Flight) : List Nat := l.foldl (fun a f => setAdd a f.due) []

/-- Results land tick by tick (R107, R279). -/
def Core.landTicks (k : Core) (n : BitVec 2) (due : List Flight) : Core :=
  (dueTicks due).foldl (fun k t => k.landAll n (due.filter (fun f => f.due == t))) k

/-- Results of the context's mode that are due at its tick and satisfy `p` land (R279). -/
def Core.landIf (k : Core) (n : BitVec 2) (p : Flight → Bool) : Core :=
  let f := (k.ctx n).flow
  let now (r : Flight) : Bool := r.due ≤ f.tick && p r
  let k := k.updCtx n (fun c => c.setFlow { f with flight := f.flight.filter (fun r => !now r) })
  k.landTicks n (f.flight.filter now)

/-- Every result of the context's mode that is due at its tick lands (R279). -/
def Core.land (k : Core) (n : BitVec 2) : Core := k.landIf n (fun _ => true)

/-- Whether an effect enters a result queue, which the contexts of a core share (R292). -/
def Effect.isRq : Effect → Bool
  | .rq _ _ _ => true
  | _ => false

/-- What is due of a user flow for the result queues enters them, once the strap that ended in a trap has left its cycle
(R292). -/
def Core.landRq (k : Core) (n : BitVec 2) : Core :=
  let f := (k.ctx n).user
  let now (r : Flight) : Bool := r.due ≤ f.tick && r.eff.isRq
  let due := f.flight.filter now
  if due.isEmpty then k
  else (k.updCtx n (fun c => { c with user := { f with flight := f.flight.filter (fun r => !now r) } })).landTicks n due

-- The end of a strap --------------------------------------------------------------------------------------------

/-- Where the next strap starts, and what stays pending, after a strap whose C slot took `taken` (R137). In Pyrino
code a branch has no delay bundle (R98). -/
def Flow.advance (f : Flow) (pyrino : Bool) (next : BitVec 32) (taken : Option (BitVec 16)) (squash : BitVec 5) : Flow :=
  let base := { f with tick := f.tick + 1, squash := squash, strap := Strap.none_ }
  match f.delayTo with
  | some t => { base with pc := t.setWidth 32, delayTo := none }
  | none =>
    match taken with
    | some t => if pyrino then { base with pc := t.setWidth 32 } else { base with pc := next, delayTo := some t }
    | none => { base with pc := next }

/-- Whether a context's straps follow the rules of translated Pyrino code (R98): not in its handler, whose section is native
(R286). -/
def Context.translated (c : Context) : Bool := c.pyrino && !c.priv

/-- The strap that issued is complete: its tick is counted, the next strap is named, and what lands at the new tick
lands (R112, R137, R139, R144, R145, R277). -/
def Context.endStrap (c : Context) (cycle : Nat) : Context :=
  let f := c.flow
  let st := f.strap
  let c := c.setFlow (f.advance c.translated st.next st.taken st.skip)
  let c := { c with resume := none, waitOk := false, watch := none, walked := [], retag := none,
                    wake := match st.away with | some n => cycle + n.toNat + 2 | none => c.wake }
  if st.exits then { c with st := .retiring }
  else if c.priv then c
  else match st.away with
    | some _ => { c with st := .away }
    | none => if c.st = .blocked then { c with st := .ready } else c

def State.endStrap (s : State) : State :=
  s.updMyCore (fun k => (k.updCtx s.cur.ctx (fun c => c.endStrap k.cycle)).land s.cur.ctx)

-- Taking a fault ------------------------------------------------------------------------------------------------

/-- FCAUSE (R288). -/
def fcauseWord (code : BitVec 8) (slot : BitVec 4) (pyrino part : Bool) (resume : BitVec 9) : Word :=
  (0 : BitVec 40) ++ code ++ slot ++ BitVec.ofBool pyrino ++ (0 : BitVec 1) ++ BitVec.ofBool part ++ resume

/-- FRET (R288): the low 16 bits of the point of return, a transfer still to be taken, and the straps of a SKIP still to squash. -/
def fretWord (offset : BitVec 32) (delayTo taken : Option (BitVec 16)) (squash : BitVec 5) : Word :=
  let (delay, pending, target) : Bool × Bool × BitVec 16 :=
    match delayTo, taken with
    | some t, _ => (true, true, t)
    | none, some t => (false, true, t)
    | none, none => (false, false, 0)
  (0 : BitVec 25) ++ BitVec.ofBool delay ++ squash ++ BitVec.ofBool pending ++ target ++ offset.setWidth 16

/-- A context takes a fault (R277, R286): in user mode the fault registers are written, results in flight stay where
they are, and the handler starts at offset 0 of its section in privileged mode; in privileged mode the fault is nested:
it stops the context and stands there for system software. `bundle` is the Pyrino bundle that FPYR names (R99). -/
def Context.takeFault (c : Context) (f : FaultInfo) (cause ret : Word) (pslot : BitVec 2) (bundle : BitVec 32) : Context :=
  if c.priv then { c with st := .stopped, before := .trapped, stopWhy := .nested, nested := some f }
  else { c with
    st := .trapped, priv := true, fcause := cause, fdetail := f.detail, faddr := f.addr, fret := ret
    ftick := BitVec.ofNat 64 c.user.tick
    fpyr := if c.pyrino then (0 : BitVec 30) ++ pslot ++ bundle else 0
    hand := Flow.reset, waitOk := false, watch := none, walked := [], retag := none, wake := 0 }

/-- The P slot that carries a native slot of a Pyrino bundle (R97). A fault of no single slot (an illegal strap, a dictionary
index, an asynchronous fault) has none, and FPYR then holds 3: DESIGN CHOICE (log entry 72). -/
def pslotOf (slot : BitVec 4) : BitVec 2 :=
  match slot.toNat with
  | 0 | 8 => 0
  | 1 | 2 | 6 => 1
  | 3 | 4 => 2
  | _ => 3

/-- An issue fault of slot `slot` (R284): what the slots before it did stands, its results, its EXIT and its YIELD are held
until the strap completes, and the tick does not advance. -/
def Context.issueFault (c : Context) (slot : BitVec 4) (f : FaultInfo) : Context :=
  let fl := c.flow
  let st := fl.strap
  let cause := fcauseWord f.code slot c.pyrino (st.done != 0 || c.resume.any (·.part)) (st.present &&& ~~~st.done)
  let ret := fretWord st.offset fl.delayTo st.taken st.skip
  let fl := { fl with flight := fl.flight.take st.mark, held := fl.flight.drop st.mark, heldExit := st.exits
                      heldAway := st.away, strap := Strap.none_ }
  let c := { c.setFlow fl with resume := none }
  c.takeFault f cause ret (pslotOf slot) st.offset

/-- A fault of the whole next strap (R79, R285): the strap at the pc is the point of return, whole. Where that strap is
the rest of one that has partly issued, the rest stays what ERET is to complete (log entry 13). -/
def Context.wholeFault (c : Context) (slot : BitVec 4) (f : FaultInfo) (resume : BitVec 9) (bundle : BitVec 32) : Context :=
  let fl := c.flow
  match c.resume with
  | some { part := true, mask := m, taken := t, skip := n, exits := x, away := y } =>
    let mark := fl.strap.mark
    let fl := { fl with flight := fl.flight.take mark, held := fl.flight.drop mark, heldExit := x, heldAway := y, strap := Strap.none_ }
    let c := { c.setFlow fl with resume := none }
    c.takeFault f (fcauseWord f.code slot c.pyrino true m) (fretWord fl.pc fl.delayTo t n) (pslotOf slot) bundle
  | r =>
    let c := { c.setFlow { fl with strap := Strap.none_ } with resume := none }
    c.takeFault f (fcauseWord f.code slot c.pyrino false resume) (fretWord fl.pc fl.delayTo (r.bind (·.taken)) (if fl.squash = 0 then (r.map (·.skip)).getD 0 else fl.squash))
      (pslotOf slot) bundle

/-- A decode fault of the next strap, or of one of its slots (R79). -/
def Context.decodeFaultAt (c : Context) (slot : BitVec 4) (f : FaultInfo) (resume : BitVec 9) : Context :=
  c.wholeFault slot f resume c.flow.pc

/-- An asynchronous fault is delivered: a strap that has partly completed is the point of return as it stands (R285). -/
def Context.deliverAsync (c : Context) (f : FaultInfo) : Context :=
  { c with st := .ready }.wholeFault f.slot f 0 c.flow.pc

/-- An asynchronous fault reaches its context (R285): at once where it is READY, BLOCKED or AWAY, between two straps, and no earlier
report waits; otherwise it is held behind those. -/
def Context.asyncFault (c : Context) (f : FaultInfo) : Context :=
  match c.st, c.pendingFaults, c.flow.strap.live with
  | .ready, [], false | .blocked, [], false | .away, [], false => c.deliverAsync f
  | _, l, _ => { c with pendingFaults := l ++ [f] }

/-- Whether a context still has a thread that can take a fault. -/
def Context.alive (c : Context) : Bool :=
  match c.st with
  | .free | .retiring | .scrub | .helper => false
  | _ => true

/-- The virtual function whose graph a partition runs. -/
def State.vfOf (s : State) (p : BitVec 6) : BitVec 10 := BitVec.ofNat 10 ((s.part p).running.getD 0)

/-- A fault that an engine or a write-back reports: to its context, or to the error ring where the thread has exited
(R175, R255, R420). -/
def State.reportFault (s : State) (c : CtxId) (f : FaultInfo) (status : BitVec 8) : State :=
  let x := s.ctx c
  if x.alive then s.setCtx c (x.asyncFault f)
  else s.logError f.code status f.addr x.part (s.vfOf x.part) c.core c.ctx

/-- ERET's return (R287), once its own conditions hold: user mode, the tick that FTICK names, the rest of a strap that
has partly issued, and the transfer and the squash count that FRET holds. With `partial` clear the strap at FRET.offset issues whole
and the count follows it; where the fault stood among the squashed straps of a SKIP, that strap is the first of those still to squash
(R139; log entry 73). FRET.offset has the low 16 bits of the offset (log entry 44). -/
def Context.eret (c : Context) : Context :=
  let cause := c.fcause
  let ret := c.fret
  let part := bit cause 9
  let pending := bit ret 32
  let delay := bit ret 38
  let target := ret.extractLsb' 16 16
  let count := ret.extractLsb' 33 5
  let low := ret.extractLsb' 0 16
  let u := c.user
  let squashing := !part && u.squash != 0
  let tick := c.ftick.toNat
  let high : BitVec 16 := if c.pyrino || low == u.pc.extractLsb' 0 16 then u.pc.extractLsb' 16 16 else 0
  let user := { u with pc := high ++ low, delayTo := if pending && delay then some target else none, tick := tick
                       squash := if squashing then count else 0
                       held := u.held.map (fun f => { f with due := f.due - u.tick + tick })
                       heldExit := false, heldAway := none, strap := Strap.none_ }
  let taken := if pending && !delay then some target else none
  let skip := if squashing then 0 else count
  let resume : Option Resume :=
    if part then
      some { part := true, mask := cause.extractLsb' 0 9, taken := taken, skip := skip, exits := u.heldExit, away := u.heldAway }
    else if taken.isSome || skip != 0 then
      some { part := false, mask := BitVec.allOnes 9, taken := taken, skip := skip, exits := false, away := none }
    else none
  { c with st := .ready, priv := false, user := user, hand := Flow.reset, resume := resume, waitOk := false,
           watch := none }

/-- The results that a strap which has partly issued holds are in flight again, as the strap's own (R284, R287). -/
def Context.rejoin (c : Context) : Context :=
  let u := c.user
  { c with user := { u with flight := u.flight ++ u.held, held := [], strap := { u.strap with mark := u.flight.length } } }

/-- ERET's return, with what is due at the tick that FTICK names landed before the point of return issues (R279, R287). -/
def Core.eret (k : Core) (n : BitVec 2) : Core :=
  ((k.updCtx n Context.eret).land n).updCtx n Context.rejoin

end Sys2Proof.Machine
end

