-- ==== Sys2Proof/Machine/Operands.lean ====
section
/-! DEFINITION. Every operand form: specifiers of the S, A, V and X slots, the ring, index bases and queues as sources
(R81 to R83, R103, R104, R135, R166), destinations with their landing ticks (R84, R105, R110, R196), and the handler's
own registers (R286). -/

namespace Sys2Proof.Machine

/-- What a slot operation does: it changes the state, or it finds an issue fault and has no effect (R284). -/
abbrev Act := ExceptT FaultInfo (StateM State)

/-- An issue fault with no detail and no address. -/
def faultCode {α : Type} (c : BitVec 8) : Act α := throw { code := c, detail := 0, addr := 0 }
def faultAt {α : Type} (c : BitVec 8) (addr : Nat) : Act α := throw { code := c, detail := 0, addr := BitVec.ofNat 64 addr }

/-- A fault where a condition fails. -/
def require (c : BitVec 8) (ok : Bool) : Act Unit := if ok then pure () else faultCode c

def getMe : Act Context := do return (← get).me
def updMeA (f : Context → Context) : Act Unit := modify (fun s => s.updMe f)
def updCoreA (f : Core → Core) : Act Unit := modify (fun s => s.updMyCore f)

/-- The slot number and the opcode of an operation, as fault details name them (R126). -/
def opSlot (i : Instr) : BitVec 4 :=
  match i.encode with | some o => BitVec.ofNat 4 o.slot.num | none => 0
def opCode (i : Instr) : BitVec 8 :=
  match i.encode with
  | some o => if o.slot.words = 3 then o.word.extractLsb' 40 8 else o.word.extractLsb' 24 8
  | none => 0

/-- The detail word of R126. -/
def detailWord (reason target opcode : BitVec 8) (slot : BitVec 4) (cls : BitVec 8) : Word :=
  (0 : BitVec 24) ++ reason ++ target ++ opcode ++ slot ++ (0 : BitVec 4) ++ cls

-- Registers -----------------------------------------------------------------------------------------------------

/-- The ring cell that name dn resolves to (R104). -/
def Context.ringCell (c : Context) (n : BitVec 3) : BitVec 3 :=
  let len := c.ringLen.toNat + 1
  if n.toNat < len then BitVec.ofNat 3 ((n.toNat + c.ringOff.toNat) % len) else n

/-- An s register; in the handler s24 to s31 are its own (R286). -/
def Context.readS (c : Context) (n : BitVec 5) : Word :=
  if c.priv && 24 ≤ n.toNat then c.h.get (n.extractLsb' 0 3) else c.s.get n
def Context.readA (c : Context) (n : BitVec 5) : Word :=
  if n.toNat < 24 then c.a.get n else c.d.get (c.ringCell (n.extractLsb' 0 3))
def Context.readX (c : Context) (n : BitVec 4) : Word :=
  if n.toNat < 8 then c.x.get (n.extractLsb' 0 3) else c.d.get (c.ringCell (n.extractLsb' 0 3))

/-- The effect that writes a register of the s, a or x file, resolved now (R105). -/
def Context.effS (c : Context) (n : BitVec 5) (v : Word) : Effect :=
  if c.priv && 24 ≤ n.toNat then .h (n.extractLsb' 0 3) v else .s n v
def Context.effA (c : Context) (n : BitVec 5) (v : Word) : Effect :=
  if n.toNat < 24 then .a n v else .d (c.ringCell (n.extractLsb' 0 3)) v
def Context.effX (c : Context) (n : BitVec 4) (v : Word) : Effect :=
  if n.toNat < 8 then .x (n.extractLsb' 0 3) v else .d (c.ringCell (n.extractLsb' 0 3)) v

/-- A base-relative register number (R81, R82). -/
def relReg (base : BitVec 5) (n : BitVec 4) : BitVec 5 := base + n.setWidth 5

/-- The register a direct or base-relative specifier names. -/
def specReg (base : BitVec 5) : Spec → Option (BitVec 5)
  | .reg n => some n
  | .rel n => some (relReg base n)
  | _ => none

-- Pops ----------------------------------------------------------------------------------------------------------

/-- The entry at the head of lq is taken; a marked one raises its fault and stays (R174). -/
def popLq : Act VWord := do
  let q := (← getMe).flow.q
  match q.lq with
  | { st := .present v, .. } :: r => do updMeA (fun c => c.updFlow (fun f => f.updQ (fun q => { q with lq := r }))); return v
  | { st := .marked f, .. } :: _ => throw f
  | _ => return 0

/-- The classes that an opcode is a member of (R118). -/
def memberOf (opcode : BitVec 8) (cls : BitVec 8) : Bool :=
  (opcode == 0x60 && cls == 1) || (opcode == 0x61 && cls == 2) || (opcode == 0x62 && cls == 4) ||
    (opcode == 0x63 && cls == 5)

/-- The entry at the head of kq is taken by a member of its class; any other pop, and a marked entry, raise fault 0x09
and the entry stays (R123, R125). -/
def popKq (slot : BitVec 4) (opcode : BitVec 8) : Act VWord := do
  match (← getMe).flow.q.kq with
  | [] => return 0
  | e :: r =>
    match e.mark with
    | some f => throw f
    | none =>
      if memberOf opcode e.cls && (slot == 3 || slot == 4) then do
        updMeA (fun c => c.updFlow (fun f => f.updQ (fun q => { q with kq := r })))
        return e.data
      else throw { code := 0x09, detail := detailWord 0 0 opcode slot e.cls, addr := e.base }

/-- The first unclaimed entry of a result queue is taken; with none present the queue underflows (R83, R290). -/
def popRq (n : BitVec 3) : Act VWord := do
  let q := (← get).myCore.rq[n.toNat]'n.isLt
  match q.present.find? (fun e => !e.claimed) with
  | none => faultCode 0x08
  | some e => do
    updCoreA (fun k => k.updRq n (fun q => { q with present := q.present.filter (fun x => x.id != e.id) }))
    updMeA (fun c => c.updFlow (fun f => f.updStrap (fun st => { st with rqPops := st.rqPops.erase n })))
    return e.data

/-- A queue named as a source; in a helper it reads zero and pops nothing (R283). -/
def popQueue (i : Instr) (sp : Spec) : Act VWord := do
  if (← getMe).st = .helper then return 0
  else
    match sp with
    | .lq => popLq
    | .kq => popKq (opSlot i) (opCode i)
    | .rq n => popRq n
    | _ => return 0

-- Sources -------------------------------------------------------------------------------------------------------

/-- A source of the S slot: a pop gives its low 64 bits (R135). -/
def srcS (i : Instr) (sp : Spec) : Act Word := do
  let c ← getMe
  match sp with
  | .reg n => return c.readS n
  | .rel n => return c.readS (relReg c.bs n)
  | .zero => return 0
  | sp => do return (← popQueue i sp).setWidth 64

/-- A source of the A slot (R166). -/
def srcA (i : Instr) (sp : Spec) : Act Word := do
  let c ← getMe
  match sp with
  | .reg n => return c.readA n
  | .rel n => return c.readA (relReg c.ba n)
  | .zero => return 0
  | sp => do return (← popQueue i sp).setWidth 64

/-- A register of a vector slot's file. -/
def Context.readV (c : Context) (slot : VSlot) (n : BitVec 5) : VWord :=
  match slot with | .v0 => c.v.get n | .v1 => c.w.get n
def Context.vbase (c : Context) : VSlot → BitVec 5
  | .v0 => c.bv | .v1 => c.bw

/-- A source of a vector slot, all its 1024 bits (R195). -/
def srcV (i : Instr) (slot : VSlot) (sp : Spec) : Act VWord := do
  let c ← getMe
  match sp with
  | .reg n => return c.readV slot n
  | .rel n => return c.readV slot (relReg (c.vbase slot) n)
  | .zero => return 0
  | sp => popQueue i sp

/-- An x register (R104, R246). -/
def srcX (n : BitVec 4) : Act Word := do return (← getMe).readX n

/-- The predicate register a vector operation names. -/
def predOf (h : VHdr) : Act PWord := do return (← getMe).p.get h.pred

-- Results -------------------------------------------------------------------------------------------------------

/-- A result of latency n enters flight (R107, R279); Pyrino results are there for the next bundle (R98). -/
def emit (i : Instr) (lat : Nat) (e : Effect) (flags : Flags := 0) : Act Unit :=
  updMeA (fun c => c.updFlow (fun f =>
    { f with flight := f.flight ++ [{ due := f.tick + (if c.translated then 1 else lat), slot := (opSlot i), eff := e, flags := flags }] }))

/-- A data entry of sq (R84, R135); a helper's push is discarded (R283). -/
def pushSq (i : Instr) (lat : Nat) (v : VWord) (mask : PWord) (flags : Flags := 0) : Act Unit := do
  if (← getMe).st = .helper then pure () else emit i lat (.sq v mask) flags

/-- The entries of a result queue that are not free: present, claimed or owed (R293). -/
def RQueue.used (q : RQueue) : Nat := q.present.length + q.owed.length

/-- Whether a strap may push `count` entries into a result queue: entries that it pops itself count as free (R293), those that
an earlier strap or an engine has freed in this cycle do not (R292). -/
def Core.rqRoom (k : Core) (c : Context) (n : BitVec 3) (count : Nat) : Bool :=
  (k.rq[n.toNat]'n.isLt).used + (k.rqHeld[n.toNat]'n.isLt) + count ≤ 128 + (c.flow.strap.rqPops.filter (· == n)).length

/-- An owed entry of a result queue is taken, or the queue overflows (R293). -/
def oweRq (n : BitVec 3) (count : Nat) : Act (List Nat) := do
  let k := (← get).myCore
  require 0x07 (k.rqRoom (← getMe) n count)
  let ids := (List.range count).map (k.nextId + ·)
  updCoreA (fun k => { k.updRq n (fun q => { q with owed := q.owed ++ ids.map (fun i => { id := i, data := 0, claimed := false }) })
                       with nextId := k.nextId + count })
  return ids

/-- A result of the S slot. -/
def dstS (i : Instr) (lat : Nat) (sp : Spec) (v : Word) : Act Unit := do
  let c ← getMe
  match sp with
  | .reg n => emit i lat (c.effS n v)
  | .rel n => emit i lat (c.effS (relReg c.bs n) v)
  | .sq => pushSq i lat (v.setWidth 1024) (BitVec.allOnes 128)
  | _ => pure ()

/-- A result of the A slot. -/
def dstA (i : Instr) (lat : Nat) (sp : Spec) (v : Word) : Act Unit := do
  let c ← getMe
  match sp with
  | .reg n => emit i lat (c.effA n v)
  | .rel n => emit i lat (c.effA (relReg c.ba n) v)
  | _ => pure ()

/-- The effect on a register of a vector file. -/
def effV (slot : VSlot) (n : BitVec 5) (v mask : VWord) : Effect :=
  match slot with | .v0 => .v n v mask | .v1 => .w n v mask

/-- Bits at and above a width. -/
def aboveBits (w : Nat) : VWord := BitVec.ofNat 1024 (2 ^ 1024 - 2 ^ w)

/-- A vector result by R196: `val` holds r in the enabled elements and zero elsewhere, `en` the bits of the enabled
elements, `bytes` the byte mask of an sq entry. -/
def dstVMask (i : Instr) (slot : VSlot) (w lat : Nat) (sp : Spec) (val en : VWord) (bytes : PWord) (flags : Flags) :
    Act Unit := do
  let c ← getMe
  match sp with
  | .reg n => emit i lat (effV slot n val (en ||| aboveBits w)) flags
  | .rel n => emit i lat (effV slot (relReg (c.vbase slot) n) val (en ||| aboveBits w)) flags
  | .rq n =>
    if c.st = .helper then pure ()
    else do
      match ← oweRq n 1 with
      | id :: _ => emit i lat (.rq n id val) flags
      | [] => pure ()
  | .sq => pushSq i lat val bytes flags
  | _ => emit i lat .flagsOnly flags

/-- A vector result element by element, under the predicate. -/
def dstV (i : Instr) (h : VHdr) (e lat : Nat) (sp : Spec) (r : List Nat) (flags : Flags := 0) : Act Unit := do
  let p ← predOf h
  let n := h.width.bits / e
  let en := BitVec.ofNat 1024 (enBits h p e n)
  dstVMask i h.slot h.width.bits lat sp (BitVec.ofNat 1024 (packElems e r) &&& en) en (byteMask h p e n) flags

/-- A vector result written whole, whatever the predicate. -/
def dstWhole (i : Instr) (h : VHdr) (lat : Nat) (sp : Spec) (v : VWord) (flags : Flags := 0) : Act Unit :=
  dstVMask i h.slot h.width.bits lat sp v (BitVec.allOnes 1024) (BitVec.allOnes 128) flags

/-- A predicate result on the byte lanes of a width: `val` where `mask`, and zero above the width (R199, R211). -/
def dstP (i : Instr) (lat : Nat) (n : BitVec 4) (val mask : PWord) (w : Nat) : Act Unit :=
  emit i lat (.p n (val &&& mask) (mask ||| BitVec.ofNat 128 (2 ^ 128 - 2 ^ (w / 8))))

end Sys2Proof.Machine
end

