-- ==== Sys2Proof/Machine/Translate.lean ====
section
/-! DEFINITION. Where a device virtual address leads: the address map (R354, R419), page tables and their walk (R355 to
R360), shape records (R363 to R365), and what a byte reads as for a thread: ordinary reads with their snapshot (R337,
R338), strong reads with relay copies (R341 to R343, R422), engine reads (R251), and the writes beside them. -/

namespace Sys2Proof.Machine

-- Regions -------------------------------------------------------------------------------------------------------

/-- Where a byte of the address space lies. -/
inductive Place where
  | mem (key : Nat)
  | acc (core : CoreId) (off : Nat)
  | regs (core : CoreId) (off : Nat)
  | far (pa : Nat)
  deriving DecidableEq, Repr

def windowBase : Nat := 0xFFF000000000
def windowEnd : Nat := 0x1000000000000
def tensorBase : Nat := 0xF000000000000
def vaEnd : Nat := 2 ^ 52

/-- The DRAM of a cascade: 48 GiB (R20). The rules give no place for it; the model gives cascade c the addresses from c << 36, as
R401 does for its reservoirs: DESIGN CHOICE (log entry 76). -/
def isDram (pa : Nat) : Bool := pa < 2 ^ 38 && pa % 2 ^ 36 < 48 * 2 ^ 30

/-- The range of the reservoir terraces (R401). -/
def isReservoir (pa : Nat) : Bool := 2 ^ 40 ≤ pa && pa < 2 ^ 40 + 2 ^ 38

/-- Whether a device physical address lies in another module of the pod (R24, R354; log entry 10). -/
def isFar (pa : Nat) : Bool := !isDram pa && !isReservoir pa && (Config.farModule (pa / 2 ^ 16)).isSome

/-- Whether a device physical address names nothing, or lies in the range of a terrace that is not in the RESERVOIR
role (R20, R401). -/
def State.physFault (s : State) (pa : Nat) : Bool :=
  if isDram pa then false
  else if !isReservoir pa then !isFar pa
  else
    let r := pa - 2 ^ 40
    let c := r / 2 ^ 36
    let t := r % 2 ^ 36 / 2 ^ 29
    !(t < 4 && r % 2 ^ 29 < 264 * 2 ^ 20 && (s.terrace (4 * c + t)).st == .reservoir)

-- The walk ------------------------------------------------------------------------------------------------------

/-- One level of a walk: the lowest index bit, the number of index bits, whether a leaf may stand there, and the size
of the next table (R356). -/
structure Level where
  shift : Nat
  bits : Nat
  leaf : Bool
  table : Bool
  next : Nat
  deriving DecidableEq, Repr

def levels : List Level :=
  [{ shift := 39, bits := 13, leaf := false, table := true, next := 4096 },
   { shift := 30, bits := 9, leaf := true, table := true, next := 4096 },
   { shift := 21, bits := 9, leaf := true, table := true, next := 256 },
   { shift := 16, bits := 5, leaf := true, table := false, next := 1 }]

/-- What a walk found: the leaf entry's own address and word, and the translation. -/
structure WalkHit where
  pteAddr : Nat
  entry : TlbEntry
  deriving DecidableEq, Repr

/-- A walk of the remaining levels from a table (R356, R357), with the permissions granted so far. -/
def walkLevels (s : State) (va : Nat) : List Level → Nat → Bool → Bool → Except (BitVec 8) WalkHit
  | [], _, _, _ => .error 0x0B
  | l :: rest, table, rd, wr =>
    let addr := table + va / 2 ^ l.shift % 2 ^ l.bits * 8
    if s.physFault addr || isFar addr then .error 0x0B
    else
      let e := bytesNat (memReadAll s.mem addr 8)
      let w := BitVec.ofNat 64 e
      let frame := (w.extractLsb' 8 44).toNat * 256
      let rd := rd && bit w 3
      let wr := wr && bit w 2
      if w.extractLsb' 52 12 != 0 || bit w 7 then .error 0x0B
      else if w.extractLsb' 0 2 = 1 then
        if l.table && frame % l.next == 0 then walkLevels s va rest frame rd wr else .error 0x0B
      else if w.extractLsb' 0 2 = 2 then
        if l.leaf && frame % 2 ^ l.shift == 0 && !bit w 6 then
          .ok { pteAddr := addr, entry := { va := va / 2 ^ l.shift * 2 ^ l.shift, size := 2 ^ l.shift, pa := frame,
                                            read := rd, write := wr, dirty := bit w 5 } }
        else .error 0x0B
      else .error 0x0B

/-- What a translation grants (R357). -/
def TlbEntry.grants (e : TlbEntry) (rd wr : Bool) : Bool := (!rd || e.read) && (!wr || e.write)

def TlbEntry.covers (e : TlbEntry) (va : Nat) : Bool := e.va ≤ va && va < e.va + e.size

/-- A walk for an access, with the accessed and dirty bits that it sets at the leaf's home (R357): the leaf as a cache would
hold it, or the fault. -/
def State.walkLeaf (s : State) (part : BitVec 6) (va : Nat) (rd wr : Bool) : Except (BitVec 8) TlbEntry × State :=
  let root := ((s.part part).troot.extractLsb' 16 36).toNat * 2 ^ 16
  match walkLevels s va levels root true true with
  | .error c => (.error c, s)
  | .ok h =>
    let ok := h.entry.grants rd wr
    let setD := wr && ok
    let low := memRead s.mem h.pteAddr
    let s := { s with mem := memWrite s.mem h.pteAddr (low ||| 0x10 ||| (if setD then 0x20 else 0)) }
    if ok then (.ok { h.entry with dirty := h.entry.dirty || setD }, s) else (.error 0x0C, s)

/-- A walk for an access of a core, and the entry that it leaves in the core's translation cache (R360). -/
def State.walk (s : State) (core : CoreId) (part : BitVec 6) (va : Nat) (rd wr : Bool) : Except (BitVec 8) Nat × State :=
  match s.walkLeaf part va rd wr with
  | (.error c, s) => (.error c, s)
  | (.ok e, s) =>
    let s := s.updCore core (fun k => { k with tlb := ((e :: k.tlb.filter (fun x => x.va != e.va || x.size != e.size)).take 1024) })
    (.ok (e.pa + (va - e.va)), s)

/-- A translation to a physical address that names nothing is a fault (R20, R401). -/
def State.checkPhys (s : State) (r : Except (BitVec 8) Nat × State) : Except (BitVec 8) Nat × State :=
  match r.1 with
  | .ok pa => if s.physFault pa then (.error 0x0B, r.2) else r
  | .error _ => r

/-- A page translation: a cached entry that serves the access, or a walk (R360). -/
def State.xlate (s : State) (core : CoreId) (part : BitVec 6) (va : Nat) (rd wr : Bool) : Except (BitVec 8) Nat × State :=
  match (s.core core).tlb.find? (fun e => e.covers va) with
  | some e =>
    if !e.grants rd wr then (.error 0x0C, s)
    else if wr && !e.dirty then s.checkPhys (s.walk core part va rd wr)
    else s.checkPhys (.ok (e.pa + (va - e.va)), s)
  | none => s.checkPhys (s.walk core part va rd wr)

/-- Where a byte lies, for an access that reads or writes it (R168, R354, R419); a tensor address is resolved before
this. -/
def State.place (s : State) (core : CoreId) (part : BitVec 6) (va : Nat) (rd wr : Bool) : Except (BitVec 8) Place × State :=
  if vaEnd ≤ va then (.error 0x0B, s)
  else if windowBase ≤ va && va < windowEnd then
    match (s.part part).harness[(va - windowBase) / 2 ^ 24]? with
    | none => (.error 0x0C, s)
    | some g =>
      let off := va % 2 ^ 24
      if !s.enabledCore g then (.error 0x0C, s)
      else if off < 0x200000 then (.ok (.mem (padBase g + off)), s)
      else if 0x400000 ≤ off && off < 0x420000 then (.ok (.acc g (off - 0x400000)), s)
      else if 0x800000 ≤ off && off < 0x810000 then (.ok (.regs g (off - 0x800000)), s)
      else (.error 0x0C, s)
  else if tensorBase ≤ va then (.error 0x0C, s)
  else
    match s.xlate core part va rd wr with
    | (.error c, s) => (.error c, s)
    | (.ok pa, s) => (.ok (if isFar pa then .far pa else .mem pa), s)

/-- The key of a byte of an A-slot access, which reaches device memory of this module and scratchpads alone (R168). -/
def State.keyOf (s : State) (core : CoreId) (part : BitVec 6) (va : Nat) (rd wr : Bool) : Except (BitVec 8) Nat × State :=
  match s.place core part va rd wr with
  | (.ok (.mem k), s) => (.ok k, s)
  | (.ok _, s) => (.error 0x0C, s)
  | (.error c, s) => (.error c, s)

/-- The keys of some bytes in the order given, each with its fault where it has one. -/
def State.keysOf (s : State) (core : CoreId) (part : BitVec 6) (rd wr : Bool) : List Nat → List (Nat × Except (BitVec 8) Nat) × State
  | [] => ([], s)
  | va :: r =>
    let (k, s) := s.keyOf core part va rd wr
    let (ks, s) := s.keysOf core part rd wr r
    ((va, k) :: ks, s)

/-- Consecutive addresses. -/
def vaRange (ea n : Nat) : List Nat := (List.range n).map (ea + ·)

-- Visibility ----------------------------------------------------------------------------------------------------

/-- The bytes two threads share at scope .core: what the core's tile cache holds as published, or the home (R339). -/
def State.coreByte (s : State) (core : CoreId) (k : Nat) : Byte := (bmGet (s.core core).pub k).getD (memRead s.mem k)

/-- The value an ordinary access takes when a snapshot is fixed (R338, R339). -/
def State.freshByte (s : State) (c : CtxId) (k : Nat) : Byte :=
  if (s.ctx c).snapScope = .core then s.coreByte c.core k else memRead s.mem k

/-- An ordinary read of a byte by a thread: its own latest write since its last PHASE, else its snapshot (R338). -/
def State.ordByte (s : State) (c : CtxId) (k : Nat) : Byte :=
  if isDirect k then memRead s.mem k
  else
    match bmGet (s.ctx c).own k with
    | some b => b
    | none => (bmGet (s.ctx c).snap k).getD (s.freshByte c k)

/-- The tags of ordinary accesses go the way of the granule's bytes (R121). -/
def State.ordKept (s : State) (c : CtxId) (k : Nat) : Bool := s.ordByte c (tagKey k) != 0

/-- The relay updates that have not reached a terrace and touch a key. -/
def State.pendingAt (s : State) (t : Nat) (k : Nat) : List RelayUpdate :=
  s.relayPend.filter (fun u => u.terrace.toNat == t && (bmGet u.bytes k).isSome)

/-- A read that went to the home has seen every pending store of the byte (R341). -/
def State.sawHome (s : State) (c : CtxId) (keys : List Nat) : State :=
  let t := terraceOf c.core
  let ids := keys.flatMap (fun k => (s.pendingAt t k).map (·.store))
  if ids.isEmpty then s else s.updCtx c (fun x => { x with must := (x.must ++ ids).dedup })

/-- The snapshot of a byte is fixed by its first ordinary access (R338), which reads the home where the core's tile cache holds
nothing published (R341). -/
def State.fixSnap (s : State) (c : CtxId) (k : Nat) : State :=
  if isDirect k || (bmGet (s.ctx c).snap k).isSome then s
  else
    let b := s.freshByte c k
    (s.updCtx c (fun x => { x with snap := bmPut x.snap k b })).sawHome c [k]

/-- Whether a strong read of a byte goes to the home: by its scope, by its order, by a FENCE.sc, or because the relay copy
does not yet hold a store that the thread must see (R342 to R345). -/
def State.readsHome (s : State) (c : CtxId) (sc : Scope) (home : Bool) (k : Nat) : Bool :=
  let x := s.ctx c
  let fenced := match x.fenceSc with | some f => decide (sc.rank ≤ f.rank) | none => false
  let covered := (s.pendingAt (terraceOf c.core) k).any (fun u => x.must.contains u.store)
  isDirect k || home || fenced || covered || sc.rank < 3

/-- A strong read of a byte (R342 to R345): by the relay copy of the thread's terrace where the scope is .ter or wider
and nothing sends it to the home. -/
def State.strongByte (s : State) (c : CtxId) (sc : Scope) (home : Bool) (k : Nat) : Byte :=
  if s.readsHome c sc home k then memRead s.mem k
  else (bmGet (s.terrace (terraceOf c.core)).relay k).getD (memRead s.mem k)

/-- An engine read for a context (R251, R347). -/
def State.engineByte (s : State) (c : CtxId) (k : Nat) : Byte :=
  if isDirect k then memRead s.mem k
  else
    match bmGet (s.ctx c).dirty k with
    | some b => b
    | none => s.coreByte c.core k

/-- The contexts of every core that holds state. -/
def State.allCtxs (s : State) : List CtxId :=
  s.cores.flatMap (fun e => ctxNums.map (fun n => { core := BitVec.ofNat 11 e.1, ctx := n }))

/-- Whether two cores belong to one partition. -/
def State.samePart (s : State) (a b : CoreId) : Bool :=
  s.parts.any (fun p => p.2.formed && p.2.harness.contains a && p.2.harness.contains b)

/-- Whether the threads of a core lie in the region of a scope from .core upward, seen from the threads of another (R334). -/
def State.inScope (s : State) (sc : Scope) (a b : CoreId) : Bool :=
  match sc.rank with
  | 0 | 1 => a == b
  | 2 => terraceOf a == terraceOf b && s.quadOf a == s.quadOf b
  | 3 => terraceOf a == terraceOf b
  | 4 => terraceOf a / 4 == terraceOf b / 4
  | 5 => terraceOf a / 4 == terraceOf b / 4 || s.samePart a b
  | _ => true

/-- Whether a thread lies in the region of a scope seen from another (R334): .ctx is the thread alone. -/
def State.inRegion (s : State) (sc : Scope) (a b : CtxId) : Bool := if sc.rank = 0 then a == b else s.inScope sc a.core b.core

/-- Whether a load, an atomic or a kept read is not yet performed; a gather index asks for nothing itself. -/
def LoadOp.isLive (o : LoadOp) : Bool :=
  match o.kind with
  | .gidx => false
  | .ldk _ => !o.stuck
  | _ => o.pushed == 0

/-- Whether an access is strong (R336). -/
def LoadKind.isStrong : LoadKind → Bool
  | .lda _ _ o => o != .ordinary
  | .atom _ _ _ _ _ | .cas _ _ _ _ _ => true
  | _ => false
def StoreKind.isStrong : StoreKind → Bool
  | .sta _ _ o => o != .ordinary
  | _ => false

/-- Loads and stores of a context, its handler's last. -/
def Context.loads (c : Context) : List LoadOp := c.user.q.la ++ c.hand.q.la
def Context.stores (c : Context) : List StoreOp := c.user.q.sa ++ c.hand.q.sa

/-- Orders that acquire, release and are sequentially consistent (R343, R345). -/
def orderAcquires : Order → Bool
  | .acqRel | .seqCst => true
  | _ => false

/-- The order of a load or an atomic. -/
def LoadKind.order : LoadKind → Order
  | .lda _ _ o | .atom _ _ o _ _ | .cas _ _ o _ _ => o
  | _ => .ordinary
def StoreKind.order : StoreKind → Order
  | .sta _ _ o => o
  | _ => .ordinary

/-- Whether a load acquires, and a store releases, for a context: by its order, or in fence-strengthening mode (R343,
R352). -/
def loadAcquires (c : Context) (k : LoadKind) : Bool := orderAcquires k.order || (c.mmr1 && k.isStrong)
def storeReleases (c : Context) (k : StoreKind) : Bool := orderAcquires k.order || (c.mmr1 && k.isStrong)

/-- An earlier acquire of the thread is not performed, but for those that `passed` lets it pass (R343); a sequentially consistent
store is one too (R345). -/
def acquirePending (c : Context) (passed : LoadOp → Bool) (id : Nat) : Bool :=
  c.loads.any (fun o => o.id < id && o.isLive && loadAcquires c o.kind && !passed o) ||
    c.stores.any (fun o => o.id < id && o.kind.order == .seqCst)

/-- Whether some acquire of the thread is not performed: what it does next may not read before that (R343). -/
def acquireOpen (c : Context) : Bool :=
  c.loads.any (fun o => o.isLive && loadAcquires c o.kind) || c.stores.any (fun o => o.kind.order == .seqCst)

/-- Earlier strong loads of a thread that are not performed. -/
def strongBefore (c : Context) (id : Nat) : List LoadOp := c.loads.filter (fun t => t.id < id && t.isLive && t.kind.isStrong)

/-- The accesses of a thread that stand performed before an older strong load of it (R351). -/
def Context.aheadNow (c : Context) : List Ahead := c.ahead.filter (fun a => !(strongBefore c a.id).isEmpty)

/-- Whether an access of a thread to some keys must wait for older strong loads of another thread: that thread has performed a
later access to one of the keys before them, and within the region of this pair its strong accesses are performed in issue order
(R350, R351). A read waits only for a write. -/
def State.aheadHolds (s : State) (c : CtxId) (write : Bool) (keys : List Nat) : Bool :=
  s.allCtxs.any (fun d => d != c && (s.ctx d).aheadNow.any (fun a =>
    (write || a.write) && s.inScope a.sc d.core c.core && a.keys.any (fun k => keys.contains k)))

/-- The keys of a watched word. -/
def Watch.keys (w : Watch) : List Nat := (List.range 8).map (w.key + ·)

/-- Whether a wait reads its word at the home as a whole (R341, R422). -/
def State.watchHome (s : State) (c : CtxId) (w : Watch) : Bool := w.keys.any (s.readsHome c w.sc false)

/-- A read of the watched word (R331, R422). -/
def State.watchWord (s : State) (c : CtxId) (w : Watch) : Word :=
  let home := s.watchHome c w
  let byte (k : Nat) : Byte :=
    if w.sc.rank ≤ 1 then (if isDirect k then memRead s.mem k else s.coreByte c.core k) else s.strongByte c w.sc home k
  BitVec.ofNat 64 (bytesNat (w.keys.map byte))

/-- Whether a read made now for a waiting thread satisfies its condition (R331); none is made before an earlier acquire of the thread is
performed (R343). -/
def State.watchHolds (s : State) (c : CtxId) (w : Watch) : Bool :=
  !acquireOpen (s.ctx c) && w.cond.holds (s.watchWord c w &&& w.mask) w.ref && !s.aheadHolds c false w.keys

/-- After a write to some keys, each WAITW that waits on one of them reads its word anew (R331). -/
def State.wake (s : State) (keys : List Nat) : State :=
  s.allCtxs.foldl (fun s c =>
    match (s.ctx c).watch with
    | some w =>
      if keys.any (fun k => w.key ≤ k && k < w.key + 8) && s.watchHolds c w then s.updCtx c (fun x => { x with waitOk := true })
      else s
    | none => s) s

-- Writes --------------------------------------------------------------------------------------------------------

/-- Bytes written where memory holds them, and the waiters that read them anew. A byte that is written holds no uncorrectable
error any more (log entry 15). -/
def State.rawWrite (s : State) (bs : ByteMap) : State :=
  let s : State := { s with mem := bs.foldl (fun m e => memWrite m e.1 e.2) s.mem
                            poison := s.poison.filter (fun k => (bmGet bs k).isNone) }
  s.wake (bs.map (·.1))

/-- The relay updates on their way without some bytes. -/
def stripUpdates (l : List RelayUpdate) (terrace : Nat → Bool) (bs : ByteMap) : List RelayUpdate :=
  (l.map (fun u => if terrace u.terrace.toNat then { u with bytes := u.bytes.filter (fun e => (bmGet bs e.1).isNone) } else u)).filter
    (fun u => !u.bytes.isEmpty)

/-- Every relay copy of some bytes is brought up to date with a write at their homes that is no strong store: a write-back, a
chunk or a host write (log entry 77). -/
def State.refreshRelays (s : State) (bs : ByteMap) : State :=
  if s.relayPend.isEmpty then s
  else { s with relayPend := stripUpdates s.relayPend (fun _ => true) bs
                terraces := s.terraces.map (fun x => { x with relay := x.relay.filter (fun e => (bmGet bs e.1).isNone) }) }

/-- Bytes written at their homes by an access that is no strong store (R334, R337, R341, R347, R348). -/
def State.homeWrite (s : State) (bs : ByteMap) : State := (s.refreshRelays bs).rawWrite bs

/-- The bytes of device memory among some. -/
def deviceBytes (bs : ByteMap) : ByteMap := bs.filter (fun e => !isDirect e.1)

/-- Bytes published in a core's tile cache (R339, R347, R422). -/
def State.publish (s : State) (core : CoreId) (bs : ByteMap) : State :=
  let device := deviceBytes bs
  if device.isEmpty then s else s.updCore core (fun k => { k with pub := bmUnion k.pub device })

/-- Ordinary bytes of a thread: direct storage at once, device memory into the tile cache as dirty bytes of the thread
(R337, R340). -/
def State.ordWrite (s : State) (c : CtxId) (bs : ByteMap) : State :=
  let direct := bs.filter (fun e => isDirect e.1)
  let device := deviceBytes bs
  let s := if direct.isEmpty then s else s.homeWrite direct
  if device.isEmpty then s
  else s.updCtx c (fun x => { x with own := bmUnion x.own device, dirty := bmUnion x.dirty device })

/-- Engine bytes of a context: in the core's tile cache and at their homes (R347). -/
def State.engineWrite (s : State) (core : CoreId) (bs : ByteMap) : State := (s.publish core bs).homeWrite bs

/-- What a release makes known: every store on its way to some relay copy that is visible to the thread, as its own, as one that
it must see, or by the relay copy of its own terrace (R343). -/
def State.coverOf (s : State) (c : CtxId) : List Nat :=
  let x := s.ctx c
  let hidden (i : Nat) : Bool := s.relayPend.any (fun u => u.store == i && u.terrace.toNat == terraceOf c.core)
  ((s.relayPend.filter (fun u => u.src == c || x.must.contains u.store || !hidden u.store)).map (·.store)).dedup

/-- A cover of a thread's release at a scope joins those at an object (R343). -/
def State.addCover (s : State) (c : CtxId) (sc : Scope) (obj : Nat) (stores : List Nat) : State :=
  let isLive (i : Nat) : Bool := s.relayPend.any (fun u => u.store == i)
  let new : Cover := { src := c, sc := sc, stores := stores.filter isLive }
  let old := (Assoc.get [] s.cover obj).map (fun v => { v with stores := v.stores.filter isLive })
  let all := (old ++ [new]).filter (fun v => !v.stores.isEmpty)
  if all.isEmpty then s else { s with cover := Assoc.put s.cover obj all.dedup }

/-- A release at a scope leaves its cover at the object that it writes (R343). -/
def State.leaveCover (s : State) (c : CtxId) (sc : Scope) (obj : Nat) : State := s.addCover c sc obj (s.coverOf c)

/-- An acquire at a scope takes the covers of those releases at the object whose threads and its own lie in each other's
region (R335, R343). -/
def State.takeCover (s : State) (c : CtxId) (sc : Scope) (obj : Nat) : State :=
  let seen := (Assoc.get [] s.cover obj).filter (fun v => s.inRegion sc c v.src && s.inRegion v.sc v.src c)
  let m := seen.flatMap (·.stores)
  if m.isEmpty then s else s.updCtx c (fun x => { x with must := (x.must ++ m).dedup })

/-- The objects that releases and acquires meet at: a word of memory, a flag of a core, a group of a partition. -/
def flagObj (c : CoreId) (f : BitVec 5) : Nat := 2 ^ 62 + c.toNat * 32 + f.toNat
def groupObj (p g : BitVec 6) : Nat := 2 ^ 62 + 2 ^ 20 + p.toNat * 64 + g.toNat

/-- A strong store at its home: the other terraces' relay copies of device memory keep the old bytes until their updates arrive,
and this terrace reads the new ones (R342). -/
def State.strongWrite (s : State) (c : CtxId) (rel : Bool) (bs : ByteMap) : State :=
  let device := deviceBytes bs
  if device.isEmpty then s.rawWrite bs
  else
    let id := s.nextUid
    let mine := terraceOf c.core
    let others := (List.range 16).filter (fun t => t != mine)
    let s : State := { s with nextUid := id + 1 }
    let s := others.foldl (fun s t => s.updTerrace t (fun x =>
      { x with relay := device.foldl (fun m e => if (bmGet m e.1).isSome then m else bmPut m e.1 (memRead s.mem e.1)) x.relay })) s
    let sent := others.map (fun t => { store := id, src := c, rel := rel, terrace := BitVec.ofNat 4 t, bytes := device : RelayUpdate })
    let s := s.updTerrace mine (fun x => { x with relay := device.foldl (fun m e => bmErase m e.1) x.relay })
    let s : State := { s with relayPend := stripUpdates s.relayPend (· == mine) device ++ sent }
    s.rawWrite bs

-- Shape records -------------------------------------------------------------------------------------------------

/-- A shape record read from its 64 bytes (R363). -/
structure Shape where
  base : Nat
  fmt : Fmt
  noWrite : Bool
  e0 : Nat
  e1 : Nat
  e2 : Nat
  e3 : Nat
  s1 : Nat
  s2 : Nat
  s3 : Nat
  deriving DecidableEq, Repr

/-- The record of 64 bytes, where it keeps to the table of R363. -/
def shapeOf (b : List Byte) : Option Shape :=
  let g := fieldNat b
  let flags := g 10 2
  let rank := g 9 1
  let base := g 0 8
  match Fmt.ofCode (BitVec.ofNat 4 (g 8 1)) with
  | none => none
  | some f =>
    let ok := g 8 1 < 16 && base < vaEnd && flags % 2 == 1 && flags < 4 && 1 ≤ rank && rank ≤ 4 && g 12 4 == 0 && g 56 8 == 0 &&
      1 ≤ g 16 4 && 1 ≤ g 20 4 && 1 ≤ g 24 4 && 1 ≤ g 28 4 && (f != .o4 || g 16 4 % 32 == 0) &&
      (2 ≤ rank || g 20 4 == 1) && (3 ≤ rank || g 24 4 == 1) && (4 ≤ rank || g 28 4 == 1)
    if ok then some { base := base, fmt := f, noWrite := flags / 2 % 2 == 1, e0 := g 16 4, e1 := g 20 4, e2 := g 24 4,
                      e3 := g 28 4, s1 := g 32 8, s2 := g 40 8, s3 := g 48 8 }
    else none

/-- The row size (R364). -/
def Shape.rowBytes (h : Shape) : Nat :=
  match h.fmt with
  | .b1 => (h.e0 + 7) / 8
  | .o4 => 20 * h.e0 / 32
  | f => h.e0 * (f.bits / 8)

/-- The address of byte m of row i1 of a plane, where it lies within the extents (R364). -/
def Shape.byteVa (h : Shape) (p i1 m : Nat) : Option Nat :=
  let i2 := p % h.e2
  let i3 := p / h.e2
  if m < h.rowBytes && i1 < h.e1 && i3 < h.e3 then some ((h.base + i3 * h.s3 + i2 * h.s2 + i1 * h.s1 + m) % 2 ^ 64)
  else none

/-- The address of a byte of a tensor address (R364). -/
def Shape.offsetVa (h : Shape) (o : Nat) : Option Nat :=
  let g := o / h.rowBytes
  h.byteVa (g / h.e1) (g % h.e1) (o % h.rowBytes)

/-- A shape record as an operation takes it (R365): from the record cache, or by a fetch from its home. -/
def State.takeRecord (s : State) (core : CoreId) (part : BitVec 6) (n : Nat) : RecordOr × State :=
  let p := s.part part
  let va := p.rtbase.toNat + 64 * n
  let bad (c : BitVec 8) (s : State) : RecordOr × State := (.fault { code := c, detail := 0, addr := BitVec.ofNat 64 va }, s)
  if n = 0 || p.rtcount.toNat ≤ n then bad 0x0C s
  else
    match Assoc.find (s.core core).records n with
    | some b => if (shapeOf b).isSome then (.bytes b, s) else bad 0x0C s
    | none =>
      if (windowBase ≤ va && va < windowEnd) || (tensorBase ≤ va && va < vaEnd) then bad 0x0C s
      else
        match s.keyOf core part va true false with
        | (.error c, s) => bad c s
        | (.ok k, s) =>
          if s.kept k then bad 0x0C s
          else if (List.range 64).any (fun i => s.poisoned (k + i)) then bad 0x12 s
          else
            let b := memReadAll s.mem k 64
            let s := s.updCore core (fun c => { c with records := ((n, b) :: c.records).take 256 })
            if (shapeOf b).isSome then (.bytes b, s) else bad 0x0C s

end Sys2Proof.Machine
end

