-- ==== Sys2Proof/Machine/Issue.lean ====
section
/-! DEFINITION. The issue of one slot operation: the faults of its decode (R79, R95, R111, R137, R231, R286, R302), what
makes its strap wait (R83, R136, R170, R171, R188, R239, R250, R266, R267), and the frame in which every slot operation
takes effect or faults (R284). -/

namespace Sys2Proof.Machine

-- What an operation pops and pushes -----------------------------------------------------------------------------

/-- The source specifiers of an operation in the order of their pops (R83). -/
def srcSpecs : Instr → List Spec
  | .add _ a b | .sub _ a b | .mul _ a b | .mulHs _ a b | .mulHu _ a b | .div _ a b | .divU _ a b | .rem _ a b
  | .remU _ a b | .and _ a b | .or _ a b | .xor _ a b | .shl _ a b | .shr _ a b | .sar _ a b | .min _ a b
  | .minU _ a b | .max _ a b | .maxU _ a b | .bext _ a b | .bextS _ a b | .bins _ a b | .cmp _ a b _
  | .sel _ a b _ _ | .aadd _ a b => [a, b]
  | .addi _ a _ | .andi _ a _ | .ori _ a _ | .xori _ a _ | .shiL _ a _ | .shiR _ a _ | .shiA _ a _ | .clz _ a
  | .popc _ a | .cmpi _ a _ _ | .movx _ (.loc (.s a)) | .movxB _ _ a _ | .setb _ a | .csrw _ a | .aaddi _ a _ => [a]
  | .amadd _ a b c => [a, b, c]
  | .lda a b _ _ _ | .lds a b _ | .ldt a b | .ldk a b _ | .pf a b _ | .sta a b _ _ _ | .sts a b _ | .stt a b
  | .sti a b _ | .skst a b _ | .skrtg a b _ | .skdrop a b | .atom a b _ _ _ _ | .gidx a b => [a, b]
  | .cas a _ _ _ _ => [a]
  | .vadd _ _ _ a b | .vsub _ _ _ a b | .vmul _ _ _ a b _ | .vadds _ _ _ a b | .vsubs _ _ _ a b | .vmin _ _ _ a b
  | .vmax _ _ _ a b | .vavg _ _ _ a b _ | .vabsd _ _ _ a b | .vand _ _ _ a b | .vor _ _ _ a b | .vxor _ _ _ a b
  | .vcmp _ _ _ a b _ | .vsel _ _ _ a b | .vwmul _ _ _ a b _ | .vnarw _ _ _ a b _ _ _ _ | .vpxu _ _ _ a b _
  | .vbitx _ _ _ a b _ | .vslide _ _ _ a b _ | .vzip _ _ _ a b _ | .vuzip _ _ _ a b _ | .vtrn _ _ _ a b _
  | .vfadd _ _ _ a b | .vfsub _ _ _ a b | .vfmul _ _ _ a b | .vfmin _ _ _ a b | .vfmax _ _ _ a b
  | .vfsgn _ _ _ a b _ | .vfcmp _ _ _ a b _ | .vfcvt _ _ _ _ a b _ _ | .vqnt _ _ _ a b _ _
  | .vdqnt _ _ _ a b _ => [a, b]
  | .vmad _ _ _ a b c | .vdot _ _ _ a b c | .vbitp _ _ _ a b c _ | .vlut _ _ _ a b c _ | .vsad _ _ _ a b c
  | .vperm _ _ _ a b c | .vfma _ _ _ a b c _ _ => [a, b, c]
  | .vabs _ _ _ a | .vnot _ _ _ a | .vpopc _ _ _ a | .vwide _ _ _ a _ | .vpxp _ _ _ a _ _ | .vshuf _ _ _ a _
  | .vcmpr _ _ _ a _ | .vbcast _ _ _ a _ | .vmov _ _ _ a | .vfclass _ _ _ a | .vfexp2 _ _ _ a | .vfexp _ _ _ a
  | .vflog2 _ _ _ a | .vflog _ _ _ a | .vfrcp _ _ _ a | .vfrsq _ _ _ a | .vftanh _ _ _ a | .vscl _ _ _ a _ _
  | .vmovx _ _ _ a | .vred _ _ _ a _ | .vscan _ _ _ a _ _ => [a]
  | .vamax _ _ _ a c => [a, c]
  | .vshl _ _ _ a (.by b) | .vshr _ _ _ a (.by b) | .vsar _ _ _ a (.by b) => [a, b]
  | .vshl _ _ _ a (.imm _) | .vshr _ _ _ a (.imm _) | .vsar _ _ _ a (.imm _) => [a]
  | .vrelub _ _ _ b | .vmaxb _ _ _ b _ | .vmskb _ _ _ b => [.kq, b]
  | .vkfull _ _ _ => [.kq]
  | .pset _ _ _ (.by b) => [b]
  | _ => []

/-- The vector, scalar and address destinations of an operation. -/
def dstSpec : Instr → Option Spec
  | .add d _ _ | .sub d _ _ | .mul d _ _ | .mulHs d _ _ | .mulHu d _ _ | .div d _ _ | .divU d _ _ | .rem d _ _
  | .remU d _ _ | .and d _ _ | .or d _ _ | .xor d _ _ | .shl d _ _ | .shr d _ _ | .sar d _ _ | .min d _ _
  | .minU d _ _ | .max d _ _ | .maxU d _ _ | .bext d _ _ | .bextS d _ _ | .bins d _ _ | .sel d _ _ _ _
  | .addi d _ _ | .andi d _ _ | .ori d _ _ | .xori d _ _ | .shiL d _ _ | .shiR d _ _ | .shiA d _ _ | .clz d _
  | .popc d _ | .li d _ | .lui d _ | .csrr d _ | .cmp (.s d) _ _ _ | .cmpi (.s d) _ _ _ | .movx (.s d) _ => some d
  | .vadd _ _ d _ _ | .vsub _ _ d _ _ | .vmul _ _ d _ _ _ | .vadds _ _ d _ _ | .vsubs _ _ d _ _ | .vmin _ _ d _ _
  | .vmax _ _ d _ _ | .vavg _ _ d _ _ _ | .vabsd _ _ d _ _ | .vand _ _ d _ _ | .vor _ _ d _ _ | .vxor _ _ d _ _
  | .vsel _ _ d _ _ | .vwmul _ _ d _ _ _ | .vnarw _ _ d _ _ _ _ _ _ | .vpxu _ _ d _ _ _
  | .vbitx _ _ d _ _ _ | .vslide _ _ d _ _ _ | .vzip _ _ d _ _ _ | .vuzip _ _ d _ _ _ | .vtrn _ _ d _ _ _
  | .vfadd _ _ d _ _ | .vfsub _ _ d _ _ | .vfmul _ _ d _ _ | .vfmin _ _ d _ _ | .vfmax _ _ d _ _
  | .vfsgn _ _ d _ _ _ | .vfcvt _ _ _ d _ _ _ _ | .vqnt _ _ d _ _ _ _ | .vdqnt _ _ d _ _ _
  | .vmad _ _ d _ _ _ | .vdot _ _ d _ _ _ | .vbitp _ _ d _ _ _ _ | .vlut _ _ d _ _ _ _ | .vsad _ _ d _ _ _
  | .vperm _ _ d _ _ _ | .vfma _ _ d _ _ _ _ _
  | .vabs _ _ d _ | .vnot _ _ d _ | .vpopc _ _ d _ | .vwide _ _ d _ _ | .vpxp _ _ d _ _ _ | .vshuf _ _ d _ _
  | .vcmpr _ _ d _ _ | .vbcast _ _ d _ _ | .vmov _ _ d _ | .vfclass _ _ d _ | .vfexp2 _ _ d _ | .vfexp _ _ d _
  | .vflog2 _ _ d _ | .vflog _ _ d _ | .vfrcp _ _ d _ | .vfrsq _ _ d _ | .vftanh _ _ d _ | .vscl _ _ d _ _ _
  | .vscan _ _ d _ _ _ | .vamax _ _ d _ _ | .vshl _ _ d _ _ | .vshr _ _ d _ _ | .vsar _ _ d _ _
  | .vrelub _ _ d _ | .vmaxb _ _ d _ _ | .vmskb _ _ d _ | .vkfull _ _ d | .vli _ _ d _ | .pcnt _ _ d => some d
  | _ => none

/-- How often an operation names a queue as a source. -/
def popCount (i : Instr) (sp : Spec) : Nat := (srcSpecs i).count sp

/-- The result-queue pops of an operation (R293). -/
def rqPopsOf (i : Instr) : List (BitVec 3) :=
  (srcSpecs i).filterMap (fun sp => match sp with | .rq n => some n | _ => none)

-- Decode faults -------------------------------------------------------------------------------------------------

/-- The privileged system registers (R288, R366). -/
def sysPrivListed (n : Nat) : Bool := n = 0x800 || n = 0x801 || (0x818 ≤ n && n ≤ 0x822)

/-- A feature that an operation needs (R302). -/
def featureOf : Instr → Option Nat
  | .mma fa fb _ _ _ _ _ _ => if fa = .o4 || fb = .o4 then some 0 else none
  | .mcfg fa fb _ _ _ => if fa = .o4 || fb = .o4 then some 0 else if fa = .b1 || fb = .b1 then some 1 else none
  | .mmb _ _ _ _ _ _ _ => some 1
  | .xcpz _ _ _ _ _ _ => some 2
  | .xcpc _ _ _ _ _ _ _ _ => some 3
  | .xstor _ _ _ _ _ => some 4
  | .xcav _ _ _ _ _ _ => some 7
  | _ => none

/-- Every feature an operation needs is enabled in the partition; an MCFG of .o4 with .b1 needs two. -/
def featuresOk (features : BitVec 8) (i : Instr) : Bool :=
  (match featureOf i with | some b => bit features b | none => true) &&
  (match i with | .mcfg fa fb _ _ _ => (fa != .b1 && fb != .b1) || bit features 1 | _ => true)

/-- The decode fault of one operation, where it has one (R79 at priority 3). In a helper an M operation is suppressed whoever owns
the engine (R283). -/
def decodeFault (s : State) (c : Context) (i : Instr) : Option (BitVec 8) :=
  let slot := (opSlot i).toNat
  let privileged := match i with
    | .eret => true
    | .csrr _ n | .csrw n _ => 0x800 ≤ n.toNat
    | _ => false
  let refused := match i with
    | .csrr _ n => 0x800 ≤ n.toNat && !sysPrivListed n.toNat
    | .csrw n _ => (0x800 ≤ n.toNat && (!sysPrivListed n.toNat || n == 0x800 || n == 0x801 || n == 0x822)) ||
        (0x10 ≤ n.toNat && n.toNat ≤ 0x15 && !c.priv)
    | _ => false
  if privileged && !c.priv then some 0x04
  else if !i.wf || refused || (slot == 5 && !c.mat && c.st != .helper) || !featuresOk (s.part c.part).features i ||
      (c.priv && 3 ≤ slot && slot ≤ 7) || (slot == 0 && c.flow.delayTo.isSome && !c.translated) then some 0x02
  else none

-- Operands of a waiting operation -------------------------------------------------------------------------------

/-- The value that an operand read gives, without its effect on the state. -/
def peek {α : Type} (s : State) (a : Act α) : Option α :=
  match (a.run s).1 with
  | .ok v => some v
  | .error _ => none

/-- The lowest code among some faulting addresses, with the lowest address that has it. -/
def lowestFault (l : List (Nat × BitVec 8)) : Option (Nat × BitVec 8) :=
  l.foldl (fun best x =>
    match best with
    | none => some x
    | some b => if x.2.ult b.2 || (x.2 == b.2 && x.1 < b.1) then some x else some b) none

/-- The lowest faulting address among some, with the lowest code there (R174, R255, R420; log entry 39). -/
def firstFault (l : List (Nat × BitVec 8)) : Option (Nat × BitVec 8) :=
  l.foldl (fun best x =>
    match best with
    | none => some x
    | some b => if x.1 < b.1 || (x.1 == b.1 && x.2.ult b.2) then some x else some b) none

/-- Pages of 64 KiB that some addresses touch. -/
def pagesOf (vas : List Nat) : List Nat := (vas.map (· / 2 ^ 16)).dedup

/-- The tensor that a tile descriptor names (R177). -/
def tensorOf (desc : Word) : Nat := (desc.extractLsb' 0 20).toNat

/-- Tile column, row and plane of a descriptor and its offsets (R177). -/
def tileCol (desc offs : Word) : Nat := (desc.extractLsb' 48 16 + offs.extractLsb' 16 16).toNat
def tileRow (desc offs : Word) : Nat := (desc.extractLsb' 32 16 + offs.extractLsb' 0 16).toNat
def tilePlane (desc : Word) : Nat := (desc.extractLsb' 20 12).toNat

/-- The address of byte b of row j of a tile, where it lies within the extents (R177, R364). -/
def tileVa (h : Shape) (desc offs : Word) (j b : Nat) : Option Nat :=
  h.byteVa (tilePlane desc) (8 * tileRow desc offs + j) (128 * tileCol desc offs + b)

/-- The addresses of a tile, row by row. -/
def tileVas (h : Shape) (desc offs : Word) : List Nat :=
  (List.range 8).flatMap (fun j => (List.range 128).filterMap (tileVa h desc offs j))

/-- The effective address of an A-slot operation (R167). -/
def eaOf (i : Instr) (base idx : Spec) : Act (Word × Word) := do
  let b ← srcA i base
  let x ← srcA i idx
  return (b, x)

/-- The element addresses of LDS and STS (R176). -/
def strideVas (base stride : Word) (w : Nat) : List Nat :=
  (List.range (128 / w)).map (fun k => (base + BitVec.ofNat 64 k * stride).toNat)

/-- The granule addresses that some byte addresses touch. -/
def granulesOf (vas : List Nat) : List Nat := (vas.map (fun a => a / 64 * 64)).dedup

/-- The size of a skived record (R116). -/
def recordGranules (payload : Nat) : Nat := (16 + payload + 63) / 64

/-- The elements of a record's entry, E of R124. -/
def perEntry (f : Fmt) : Nat := 1024 / f.bits

/-- The source formats that a class takes (R118). -/
def classTakes (cls : Nat) (f : Fmt) : Bool :=
  match cls with
  | 1 | 2 => f != .o4 && f != .b1
  | 3 => f.isFA
  | 4 | 5 => f != .o4
  | _ => false

/-- The fields of an SKST shape word (R186). -/
structure ShapeWord where
  fmt : Fmt
  e4 : Bool
  window : Nat
  rows : Nat
  cols : Nat
  deriving DecidableEq, Repr

/-- A shape word that keeps the limits of R186 for a class. -/
def shapeWordOf (cls : Nat) (w : Word) : Option ShapeWord :=
  match Fmt.ofCode (w.extractLsb' 32 4) with
  | none => none
  | some f =>
    let window := (w.extractLsb' 24 8).toNat
    let cols := (w.extractLsb' 12 12).toNat + 1
    let rows := (w.extractLsb' 0 12).toNat + 1
    if w.extractLsb' 37 27 == 0 && (cls == 3 || !bit w 36) && classTakes cls f &&
        (if cls = 2 then 1 ≤ window && window ≤ 16 else window == 0) && rows * cols ≤ 4096 then
      some { fmt := f, e4 := bit w 36, window := window, rows := rows, cols := cols }
    else none

/-- The payload bytes of a record (R119). -/
def payloadBytes (cls : Nat) (e4 : Bool) (f : Fmt) (rows cols window : Nat) : Nat :=
  let n := rows * cols
  match cls with
  | 1 | 4 => (n + 7) / 8
  | 2 => (rows * ((cols + window - 1) / window) + 1) / 2
  | 3 => if e4 then 33 * ((n + 31) / 32) else 20 * ((n + 31) / 32)
  | _ => (n * f.bits + 7) / 8

/-- The granules of scratchpads of other cores that a store or a record operation is about to check (R175). -/
def remoteGranules (s : State) (vas : List Nat) : List Nat :=
  (granulesOf vas).filter (fun a =>
    windowBase ≤ a && a < windowEnd && a % 2 ^ 24 < 0x200000 &&
      (match (s.part s.me.part).harness[(a - windowBase) / 2 ^ 24]? with
       | some g => g != s.cur.core
       | none => false))

/-- The bytes of the tile that a store names, with its shape record as it stands. -/
def tileTargets (s : State) (i : Instr) (b x : Spec) : List Nat :=
  match peek s (eaOf i b x) with
  | none => []
  | some e =>
    match (s.takeRecord s.cur.core s.me.part (tensorOf e.1)).1 with
    | .fault _ => []
    | .bytes r => match shapeOf r with | some h => tileVas h e.1 e.2 | none => []

/-- The bytes whose translations and tags a store checks at issue. -/
def storeTargets (s : State) (i : Instr) : List Nat :=
  match i with
  | .stt b x | .sti b x _ => tileTargets s i b x
  | .sta b x w _ _ => ((peek s (eaOf i b x)).map (fun e => vaRange (e.1 + e.2).toNat (2 ^ w.toNat))).getD []
  | .sts b x w => ((peek s (eaOf i b x)).map (fun e =>
      (strideVas e.1 e.2 (2 ^ w.toNat)).flatMap (fun a => vaRange a (2 ^ w.toNat)))).getD []
  | .skst b x c => ((peek s (eaOf i b x)).map (fun e =>
      let sh := e.2
      let f := (Fmt.ofCode (sh.extractLsb' 32 4)).getD .f32
      let bytes := payloadBytes c.code.toNat (bit sh 36) f ((sh.extractLsb' 0 12).toNat + 1)
        ((sh.extractLsb' 12 12).toNat + 1) (max 1 (sh.extractLsb' 24 8).toNat)
      vaRange e.1.toNat (64 * recordGranules bytes))).getD []
  | .skrtg b x _ => ((peek s (eaOf i b x)).map (fun e => [e.1.toNat])).getD []
  | .skdrop b x => ((peek s (eaOf i b x)).map (fun e => [(e.1 + e.2).toNat])).getD []
  | _ => []

/-- The pages of some addresses whose translation the core's cache does not hold and no walk has brought back (R175, R360). -/
def missingPages (s : State) (vas : List Nat) : List Nat :=
  (pagesOf (vas.filter (fun va => va < tensorBase && !(windowBase ≤ va && va < windowEnd)))).filter (fun p =>
    !s.myCore.tlb.any (fun e => e.covers (p * 2 ^ 16)) && !s.me.walked.contains p)

-- Waits ---------------------------------------------------------------------------------------------------------

/-- The capacity of the running queues of the context's mode (R286, R289). -/
def qCap (c : Context) (user : Nat) : Nat := if c.priv then 4 else user

/-- The first n entries of lq are there to be popped, or a pop among them raises its fault (R83, R174). -/
def lqReady : List LqEntry → Nat → Bool
  | _, 0 => true
  | [], _ + 1 => false
  | e :: r, n + 1 =>
    match e.st with
    | .reserved => false
    | .marked _ => true
    | .present _ => lqReady r n

/-- Whether an earlier LDK than the one that pushed an entry of kq has entries still to push, as one that ERET performs again has
(R123, R174). -/
def ldkAhead (la : List LoadOp) (id : Nat) : Bool :=
  la.any (fun o => o.id < id && !o.stuck && (match o.kind with | .ldk _ => true | _ => false))

/-- The first n entries of kq are there to be popped, or a pop among them raises its fault (R83, R123). -/
def kqReady (la : List LoadOp) : List KqEntry → Nat → Bool
  | _, 0 => true
  | [], _ + 1 => false
  | e :: r, n + 1 => !ldkAhead la e.id && (e.mark.isSome || kqReady la r n)

/-- The data entries on their way into sq count against its depth from issue (R290). -/
def sqInFlight (f : Flow) : Nat :=
  ((f.flight ++ f.held).filter (fun r => match r.eff with | .sq _ _ => true | _ => false)).length

/-- The lane entries of an engine lane. -/
def Core.lane (k : Core) (l : BitVec 3) : List LaneEntry := k.lanes[l.toNat]'l.isLt
def Core.updLane (k : Core) (l : BitVec 3) (f : List LaneEntry → List LaneEntry) : Core :=
  { k with lanes := k.lanes.set l.toNat (f (k.lane l)) l.isLt }
def laneFull (k : Core) (l : BitVec 3) : Bool := 16 ≤ (k.lane l).length

/-- The eight lanes. -/
def laneNums : List (BitVec 3) := [0, 1, 2, 3, 4, 5, 6, 7]

/-- The loads of some queues that are not performed; gather indices do not count. -/
def pendingLoads (q : Queues) : List LoadOp := q.la.filter LoadOp.isLive

/-- Whether an lq entry up to the last one of a load still awaits its data: the entries are pushed in issue order (R173). -/
def Queues.reservedUpTo (q : Queues) (id : Nat) : Bool :=
  ((q.lq.reverse).dropWhile (fun e => e.id != id)).any (fun e => match e.st with | .reserved => true | _ => false)

/-- Whether an entry of the load-address queue still holds its place: its last data entry has not been pushed, or it is a gather
index (R170, R173, R185). -/
def LoadOp.holdsPlace (q : Queues) (o : LoadOp) : Bool :=
  match o.kind with
  | .gidx => true
  | .row _ _ => false
  | .ldk _ => !o.stuck
  | _ => o.pushed == 0 || q.reservedUpTo o.id

/-- The entries of the load-address queue that count against its depth. -/
def Queues.placed (q : Queues) : List LoadOp := q.la.filter (LoadOp.holdsPlace q)

/-- The outstanding counts of R172 and R253. In a handler they are the accesses in the handler's queues, and the posts, the record
operations and the copies of the context, which no mode holds apart: DESIGN CHOICE (log entry 104). -/
def outLoads (c : Context) : Nat :=
  c.flow.q.placed.filter (fun o => match o.kind with | .lda _ _ _ | .lds _ _ | .atom _ _ _ _ _ | .cas _ _ _ _ _ => true | _ => false)
  |>.length
def isTileStore (o : StoreOp) : Bool := match o.kind with | .sta _ _ _ | .sts _ _ => false | _ => true
def outStores (c : Context) : Nat := (c.flow.q.sa.filter (fun o => !isTileStore o)).length + c.posts.length
def outTiles (c : Context) : Nat :=
  (c.flow.q.placed.filter (fun o => match o.kind with | .ldt _ _ | .ldk _ => true | _ => false)).length +
  (c.flow.q.sa.filter isTileStore).length + c.tileOps.length
def LaneEntry.owner : LaneEntry → BitVec 2
  | .cmd c => c.ctx
  | .fence _ x => x
/-- The copies class: lane commands, fences, collective instances and trigger entries (R253). A command that a trigger
fired counts as its entry does, and so does an instance whose rounds trigger steps release: each step counts by its entry until
that is FREE or cancelled. -/
def outCopies (k : Core) (n : BitVec 2) : Nat :=
  let lane := k.lanes.toList.flatMap (fun l => l.filter (fun e =>
    e.owner == n && (match e with | .cmd c => c.trig.isNone | .fence _ _ => false)))
  let fences := (k.lanes.toList.flatMap (fun l => l.filterMap (fun e =>
    match e with | .fence id x => if x = n then some id else none | .cmd _ => none))).dedup
  let comms := k.comms.flatMap (fun q => q.2.filter (fun p => p.ctx == n && p.steps.isNone && p.trig.isNone))
  let trigs := k.triggers.filter (fun t => t.2.ctx == n)
  lane.length + fences.length + comms.length + trigs.length

/-- Whether a terrace lies in the region of a scope seen from a core (R334). -/
def inScopeTerrace (s : State) (sc : Scope) (c : CoreId) (t : Nat) : Bool :=
  if sc.rank ≤ 3 then t == terraceOf c
  else if sc.rank = 4 then t / 4 == terraceOf c / 4
  else if sc.rank = 5 then t / 4 == terraceOf c / 4 ||
    s.parts.any (fun p => p.2.formed && p.2.harness.contains c && p.2.harness.any (fun d => terraceOf d == t))
  else true

/-- Whether every frame that a write was checked for is direct storage, which PHASE does not concern (R340); a translation that a TINV
has taken is none (R420). -/
def directFrames (fr : List (Nat × Nat)) : Bool := fr.all (fun f => f.1 < 2 ^ 48 && isDirect (f.2 * 2 ^ 16))

/-- Every earlier store, strong access and PHASE write-back of the thread is performed at the point of coherence of a
scope (R343, R344, R346), those of user mode also for its handler (log entry 14), and at .quad and wider the bytes that PHASE.core
still owes their homes. -/
def releaseReady (c : Context) (sc : Scope) : Bool :=
  c.stores.isEmpty && c.tileOps.isEmpty && !c.loads.any (fun o => o.isLive && o.kind.isStrong) &&
    (sc.rank ≤ 1 || c.pubDirty.isEmpty)

/-- Every earlier load, strong access and satisfied wait of the thread is performed (R344; log entry 14). -/
def acquireReady (c : Context) : Bool :=
  !c.loads.any LoadOp.isLive && !c.stores.any (fun o => o.kind.isStrong)

/-- The bytes that a PHASE at a scope waits for (R163, R339): the ordinary stores of its mode and the record operations that are
to become dirty bytes of device memory, the dirty bytes, and at .quad and wider those published before (log entry 14). -/
def phaseReady (c : Context) (sc : Scope) : Bool :=
  sc == .ctx || (!c.flow.q.sa.any (fun o => !o.kind.isStrong && !directFrames o.frames) &&
    !c.tileOps.any (fun o => !directFrames o.frames) && c.dirty.isEmpty && (sc.rank ≤ 1 || c.pubDirty.isEmpty))

/-- A wait that a fence has not ended (R344). -/
def fenceWaits (s : State) (c : Context) (sc : Scope) (o : FenceOrd) : Bool :=
  if sc = .ctx then false
  else
    match o with
    | .acq => !acquireReady c
    | .rel => !releaseReady c sc
    | .sc => !(acquireReady c && releaseReady c sc &&
        !s.relayPend.any (fun u => u.src == s.cur && inScopeTerrace s sc s.cur.core u.terrace.toNat))

/-- Whether the kernel of a context declares a flag (R158, R327). -/
def Core.owns (k : Core) (f : BitVec 5) : Bool := bit k.flagsOwned f.toNat
def Core.flag (k : Core) (f : BitVec 5) : BitVec 32 := k.flags[f.toNat]'f.isLt
def Core.setFlag (k : Core) (f : BitVec 5) (v : BitVec 32) : Core := { k with flags := k.flags.set f.toNat v f.isLt }

/-- Membership of a group (R321). -/
def State.group (s : State) (p g : BitVec 6) : Group := Assoc.get Group.empty (s.part p).groups g.toNat
def State.setGroup (s : State) (p g : BitVec 6) (x : Group) : State :=
  s.updPart p (fun q => { q with groups := Assoc.put q.groups g.toNat x })

/-- Points in lexicographic order (R310). -/
def Point.lt (a b : Point) : Bool :=
  a.i0.ult b.i0 || (a.i0 == b.i0 && (a.i1.ult b.i1 || (a.i1 == b.i1 && a.i2.ult b.i2)))

/-- Whether a thread may draw a point: it lies above every point the thread has drawn (R310). -/
def Context.mayDraw (c : Context) (p : Point) : Bool :=
  match c.lastPoint with
  | none => true
  | some q => q.lt p

/-- The launch a context serves, where it is the launch in progress of the graph at the head of its function's queue or
any other launch of that graph. -/
def State.launchOf (s : State) (c : Context) : Option Launch :=
  match c.launch, (s.part c.part).running with
  | some u, some v =>
    match (s.vdev v).graphs with
    | g :: _ => g.launches.find? (fun l => l.uid == u)
    | [] => none
  | _, _ => none

/-- The launch by whose symmetry the STIs of a context go: the one that it serves, or one that has ended and left the context bound
(R309, R316). -/
def State.imageLaunch (s : State) (c : Context) : Option Launch :=
  match s.launchOf c with
  | some l => some l
  | none => s.left.find? (fun l => c.launch == some l.uid)

/-- The points of a launch (R310). -/
def Launch.points (l : Launch) : Nat := l.extents.foldl (· * ·) 1

/-- The point of a number: dimension 2 moves fastest; undeclared dimensions read 0. -/
def Launch.pointAt (l : Launch) (n : Nat) : Point :=
  let e (d : Nat) : Nat := l.extents.getD d 1
  { i0 := BitVec.ofNat 24 (n / (e 1 * e 2)), i1 := BitVec.ofNat 24 (n / e 2 % e 1), i2 := BitVec.ofNat 24 (n % e 2) }

/-- The walker has placed every point and none waits to be placed again (R310). -/
def Launch.exhausted (l : Launch) : Bool := l.points ≤ l.nextPoint && l.returned.isEmpty

/-- The operations a helper leaves out (R283). NEXT, JOIN, LEAVE and YIELD stand in no row of that rule's table, and the model leaves
them out too: DESIGN CHOICE (log entry 78). -/
def helperSuppressed (i : Instr) : Bool :=
  5 ≤ (opSlot i).toNat ||
  match i with
  | .sta _ _ _ _ _ | .sts _ _ _ | .stt _ _ | .sti _ _ _ | .skst _ _ _ | .skrtg _ _ _ | .skdrop _ _
  | .atom _ _ _ _ _ _ | .cas _ _ _ _ _ | .gidx _ _ | .join _ | .leave _ | .nextPoint _ _ | .yield _ => true
  | _ => false

/-- The watched word of a WAITW, or the lowest of the faults that it meets at issue (R121, R160, R168, R284, R331, R354, R419). -/
def watchOf (s : State) (ya yb : BitVec 3) (sc : Scope) (cond : WCond) : Except FaultInfo Watch × State :=
  let c := s.me
  let va := (c.y.get ya).toNat
  let (ks, s) := s.keysOf s.cur.core c.part true false (vaRange va 8)
  let bad := ks.filterMap (fun k =>
    match k.2 with
    | .error e => some (k.1, e)
    | .ok k' => if s.kept k' then some (k.1 / 64 * 64, 0x09) else if s.poisoned k' then some (k.1, 0x12) else none)
  match lowestFault ((if va % 8 = 0 then [] else [(va, 0x0D)]) ++ bad), ks with
  | some f, _ =>
    (.error { code := f.2, detail := if f.2 = 0x09 then detailWord 0x05 0 0x10 8 0 else 0, addr := BitVec.ofNat 64 f.1 }, s)
  | none, (_, .ok k) :: _ => (.ok { key := k, mask := c.y.get yb, ref := c.y.get (yb + 1), cond := cond, sc := sc }, s)
  | none, _ => (.error { code := 0x0B, detail := 0, addr := BitVec.ofNat 64 va }, s)

/-- The record that an SKRTG names, by its header granule's key. -/
def retagKey (s : State) (i : Instr) (b x : Spec) : Option Nat :=
  match peek s (eaOf i b x) with
  | none => none
  | some e =>
    match (s.keyOf s.cur.core s.me.part e.1.toNat true false).1 with
    | .ok k => some k
    | .error _ => none

/-- Whether a record operation of some context is an SKRTG that still rewrites the record at a key. -/
def TileOp.retags (o : TileOp) (k : Nat) : Bool :=
  !o.drop && (match o.plan.getLast? with
    | some g => (Assoc.find o.frames (g.va / 2 ^ 16)).map (fun p => p * 2 ^ 16 + g.va % 2 ^ 16) == some k
    | none => false)

/-- Whether an SKRTG must wait for another one on its record: one that is rewriting it, or the waiting one of a thread with a lower
number (R129). -/
def retagBusy (s : State) (k : Nat) : Bool :=
  s.allCtxs.any (fun c => (s.ctx c).tileOps.any (fun o => o.retags k) ||
    (c != s.cur && (s.ctx c).st == .blocked && (s.ctx c).retag == some k && (s.ctx c).thread.ult s.me.thread))

/-- Whether an operation makes its strap wait, from the state at the strap's start with the strap's earlier pops taken;
lq0 and sq0 are the occupancies that count against the depths. -/
def opWaits (s : State) (lq0 sq0 : Nat) (i : Instr) : Bool :=
  let c := s.me
  let k := s.myCore
  let q := c.flow.q
  let pops := !lqReady q.lq (popCount i .lq) || !kqReady q.la q.kq (popCount i .kq)
  let sqFull := dstSpec i == some .sq && qCap c 32 ≤ sq0
  let laFull := qCap c 64 ≤ q.placed.length
  let saFull := qCap c 32 ≤ q.sa.length
  let lqFull (n : Nat) : Bool := qCap c 64 < lq0 + n
  let targets := storeTargets s i
  let probes := !(missingPages s targets).isEmpty || (remoteGranules s targets).any (fun g => !c.probes.contains g)
  if c.st = .helper then false
  else if pops || sqFull then true
  else
    match i with
    | .nextPoint _ _ =>
      !(k.points.any c.mayDraw) && !((s.launchOf c).map Launch.exhausted).getD true
    | .eret =>
      !(c.hand.flight.isEmpty && c.hand.q.lq.isEmpty && c.hand.q.sq.isEmpty && c.hand.q.placed.isEmpty && c.hand.q.sa.isEmpty)
    | .lda _ _ _ _ _ | .lds _ _ _ | .atom _ _ _ _ _ _ | .cas _ _ _ _ _ => laFull || lqFull 1
    | .ldt _ _ => laFull || lqFull 8
    | .ldk _ _ _ | .gidx _ _ => laFull
    | .sta _ _ _ _ _ | .sts _ _ _ | .stt _ _ | .sti _ _ _ | .skst _ _ _ => saFull || probes
    | .skrtg b x _ => probes || ((retagKey s i b x).map (retagBusy s)).getD false
    | .skdrop _ _ => probes
    | .waitf ya f _ _ => k.owns f && ((k.flag f).toNat < ((c.y.get ya).setWidth 32).toNat || acquireOpen c)
    | .waitw ya yb sc cond =>
      match (watchOf s ya yb sc cond).1 with
      | .ok w => acquireOpen c || (!c.waitOk && !s.watchHolds s.cur w)
      | .error _ => false
    | .waitc l st cp t =>
      !(outLoads c ≤ l.toNat && outStores c ≤ st.toNat && outCopies k s.cur.ctx ≤ cp.toNat && outTiles c ≤ t.toNat)
    | .gbar g _ =>
      let x := s.group c.part g
      x.members.contains c.thread && !x.passed.contains c.thread
    | .phase sc => !phaseReady c sc
    | .fence sc o => fenceWaits s c sc o
    | .mma _ _ _ _ _ _ _ _ | .mmb _ _ _ _ _ _ _ => k.fa.isEmpty || k.fb.isEmpty
    | .xcp l _ _ _ _ _ | .xcpz l _ _ _ _ _ | .xcpc l _ _ _ _ _ _ _ | .xfill l _ _ _ _ _ _ _ | .xscat l _ _ _
    | .xpopq l _ _ _ _ | .xsend l _ _ _ | .xrecv l _ _ _ | .xstor l _ _ _ _ => laneFull k l
    | .xgath l d n _ =>
      laneFull k l || (d == .none && (let rows := (c.readX n).extractLsb' 16 7
                                      1 ≤ rows.toNat && rows.toNat ≤ 64 && lqFull rows.toNat))
    | .xcoll _ _ _ n _ _ _ | .xcav _ _ _ n _ _ =>
      8 ≤ (Assoc.get [] k.comms ((c.readX n).extractLsb' 0 8).toNat).length
    | .xtrig n _ => ((Assoc.find k.triggers n.toNat).map (fun t => t.st != .armed)).getD false
    | .xqfence s' => laneNums.any (fun l => bit (c.readX s') l.toNat && laneFull k l)
    | _ => false

/-- What a strap has taken so far, for the waits of its later slots: pops, reservations and pushes. -/
def afterWaitOf (s : State) (i : Instr) : State :=
  (peekState s (srcSpecs i) i)
where
  peekState (s : State) (l : List Spec) (i : Instr) : State :=
    l.foldl (fun s sp =>
      match sp with
      | .lq => ((popLq.run s).2 : State)
      | .kq => ((popKq (opSlot i) (opCode i)).run s).2
      | .rq n => ((popRq n).run s).2
      | _ => s) s

/-- The lq entries that an operation reserves at issue. -/
def lqReserves (c : Context) : Instr → Nat
  | .lda _ _ _ _ _ | .lds _ _ _ | .atom _ _ _ _ _ _ | .cas _ _ _ _ _ => 1
  | .ldt _ _ => 8
  | .xgath _ .none n _ => ((c.readX n).extractLsb' 16 7).toNat
  | _ => 0

/-- Whether a strap must wait whole (R83, R136). -/
def strapWaits (s : State) (lq0 sq0 : Nat) : List Instr → Bool
  | [] => false
  | i :: r =>
    opWaits s lq0 sq0 i ||
      strapWaits (afterWaitOf s i) (lq0 + lqReserves s.me i) (sq0 + (if dstSpec i = some .sq then 1 else 0)) r

/-- Whether a user strap must wait for the marked entries that ERET has loads perform again (R174). -/
def Context.redoing (c : Context) : Bool := !c.priv && c.user.q.la.any (·.redo)

/-- The waits of some operations of the acting context. -/
def State.mustWait (s : State) (is : List Instr) : Bool :=
  let f := s.me.flow
  s.me.redoing || strapWaits s f.q.lq.length (f.q.sq.length + sqInFlight f) is

/-- Arms the watch of a WAITW among some operations and makes its first read (R331): a read that satisfies the condition lets the
strap issue, unless something else of the strap waits in that cycle (R136). -/
def State.arm (s : State) (is : List Instr) : State :=
  is.foldl (fun s i =>
    match i with
    | .waitw ya yb sc cond =>
      match watchOf s ya yb sc cond with
      | (.ok w, s) =>
        let others := is.filter (fun j => match j with | .waitw _ _ _ _ => false | _ => true)
        let ok := !s.mustWait others && (s.me.waitOk || s.watchHolds s.cur w)
        s.updMe (fun c => { c with watch := some w, waitOk := ok })
      | (.error _, s) => s
    | _ => s) s

/-- The record of the SKRTG among some operations, where that alone holds their strap (R129). -/
def State.retagOf (s : State) (is : List Instr) : Option Nat :=
  is.findSome? (fun i =>
    match i with
    | .skrtg b x _ => if s.mustWait (is.filter (fun j => j != i)) || !(missingPages s (storeTargets s i)).isEmpty then none else retagKey s i b x
    | _ => none)

/-- A tick of a handler passes while its ERET waits, so that the results of its straps land (R148, R279, R287): how they do while no
strap issues the rules do not say, DESIGN CHOICE (log entry 79). -/
def Core.passTick (k : Core) (n : BitVec 2) : Core :=
  (k.updCtx n (fun c => { c with hand := { c.hand with tick := c.hand.tick + 1 } })).land n

/-- Whether a handler's waiting strap is an ERET and some of its results have not landed. -/
def State.eretLands (s : State) (is : List Instr) : Bool :=
  s.me.priv && !s.me.hand.flight.isEmpty && is.any (fun i => match i with | .eret => true | _ => false)

/-- A context whose next strap waits is BLOCKED (R277), and a WAITW among its operations watches its word (R331). -/
def State.block (s : State) (is : List Instr) : State :=
  let s := if s.eretLands is then s.updMyCore (fun k => k.passTick s.cur.ctx) else s
  let s := s.arm is
  let key := s.retagOf is
  s.updMe (fun c => { c with st := if c.st = .ready then .blocked else c.st, retag := key })

-- The frame of a slot operation ---------------------------------------------------------------------------------

/-- A helper ends (R283): its context is FREE and nothing of it remains. -/
def Context.endHelper (_ : Context) : Context := Context.reset

/-- The slot has issued. -/
def Context.slotDone (c : Context) (slot : BitVec 4) : Context :=
  c.updFlow (fun f => f.updStrap (fun st => { st with done := st.done ||| (1 : BitVec 9) <<< slot.toNat }))

/-- An issue fault leaves what walks and record fetches of the slot did, and nothing else of it (R284, R357). -/
def State.keepWalks (s t : State) : State :=
  let k := t.myCore
  { s.updMyCore (fun c => { c with tlb := k.tlb, records := k.records }) with mem := t.mem }

/-- The device virtual address of an offset in the core window of the acting context. -/
def Context.windowVa (c : Context) (off : Nat) : Nat := windowBase + c.thread.toNat / 4 * 2 ^ 24 + off

/-- Bytes of the core's own scratchpad as KLD and MLDA consume them (R191, R243, R418): one with an uncorrectable error is a
free value, and fault 0x12 reaches the context before its next strap (R285; log entry 46). -/
def padBytes (off n : Nat) : Act (List Byte) := do
  let s ← get
  let k := padBase s.cur.core + off
  let b := memReadAll s.mem k n
  match (List.range n).find? (fun i => s.poisoned (k + i)) with
  | none => pure b
  | some i =>
    let f : FaultInfo := { code := 0x12, detail := 0, addr := BitVec.ofNat 64 (s.me.windowVa (off + i)) }
    set (s.draw.2.updMe (fun c => { c with pendingFaults := c.pendingFaults ++ [f] }))
    pure (b.zipIdx.map (fun (e : Byte × Nat) => if s.poisoned (k + e.2) then Config.badByte (s.draw.1 * 2 ^ 21 + e.2) else e.1))

/-- The faults that an operation's sources and its destination meet at the queues: pops one after another, and an overflow of a result
queue (R83, R293). -/
def queueFaults (s : State) (i : Instr) : List FaultInfo :=
  let pop (a : List FaultInfo × State) (sp : Spec) : List FaultInfo × State :=
    match (popQueue i sp).run a.2 with
    | (.error f, _) => (a.1 ++ [f], a.2)
    | (.ok _, t) => (a.1, t)
  let (pops, t) := (srcSpecs i).foldl pop ([], s)
  pops ++ (match dstSpec i with
    | some (.rq n) => if t.myCore.rqRoom t.me n 1 then [] else [{ code := 0x07, detail := 0, addr := 0 }]
    | _ => [])

/-- The faults that an operation's value checks find on an operand that it can read, whatever its other operand meets (R186, R188,
R284). -/
def valueFaults (s : State) (i : Instr) : List FaultInfo :=
  let bad (b x : Spec) (p : Word → Bool) : List FaultInfo :=
    let t := match (srcA i b).run s with | (.ok _, t) => t | (.error _, _) => s
    if (peek t (srcA i x)).any p then [{ code := 0x02, detail := 0, addr := 0 }] else []
  match i with
  | .skst b x c => bad b x (fun w => (shapeWordOf c.code.toNat w).isNone)
  | .skrtg b x _ => bad b x (fun w => w.extractLsb' 9 55 != 0)
  | _ => []

/-- The fault with the lowest code among some, the first of equals (R284). -/
def lowestOf (f : FaultInfo) (l : List FaultInfo) : FaultInfo := l.foldl (fun a b => if b.code.ult a.code then b else a) f

/-- One slot operation of the acting context: its decode faults, its wait where it is not part of a strap that has
begun, then its effect, or the issue fault that it meets (R79, R136, R283, R284). -/
def slotOp (i : Instr) (body : Act Unit) (s : State) : Host.Outcome State Fault Refusal :=
  let c := s.me
  let slot := opSlot i
  match decodeFault s c i with
  | some code =>
    .next (s.updMe (fun c => if c.st = .helper then c.endHelper
      else c.decodeFaultAt slot { code := code, detail := 0, addr := 0 } c.flow.strap.present))
  | none =>
    if !c.flow.strap.live && s.mustWait [i] then .next (s.block [i])
    else if c.st = .helper && helperSuppressed i then .next (s.updMe (fun c => c.slotDone slot))
    else
      match body.run s with
      | (.ok _, t) => .next (t.updMe (fun c => c.slotDone slot))
      | (.error f, t) =>
        .next ((s.keepWalks t).updMe (fun c => if c.st = .helper then c.endHelper else c.issueFault slot (lowestOf f (queueFaults s i ++ valueFaults s i))))

/-- The end of a strap that ends in a trap: what it leaves for the result queues enters them after its cycle (R292). -/
def State.endTrapped (s : State) : State :=
  s.updMyCore (fun k => (k.updCtx s.cur.ctx (fun c => c.endStrap k.cycle)).landIf s.cur.ctx (fun r => !r.eff.isRq))

/-- TRAP, SVC and BRK (R147): the strap is complete, and the strap that follows is the point of return. FPYR names the bundle that
holds the trap (R99). In a handler the trap is a nested fault (R277). -/
def trapOp (i : Instr) (code : BitVec 8) (arg : BitVec 18) (s : State) : Host.Outcome State Fault Refusal :=
  let c := s.me
  let f : FaultInfo := { code := code, detail := arg.setWidth 64, addr := 0 }
  match decodeFault s c i with
  | some code =>
    .next (s.updMe (fun c => if c.st = .helper then c.endHelper
      else c.decodeFaultAt 0 { code := code, detail := 0, addr := 0 } c.flow.strap.present))
  | none =>
    if c.st = .helper then .next (s.updMe (fun c => c.endHelper))
    else if c.priv then .next (s.updMe (fun c => c.takeFault f 0 0 0 0))
    else
      let bundle := c.flow.strap.offset
      .next ((s.updMe (fun c => c.slotDone 0)).endTrapped.updMe (fun c => { c with st := .ready }.wholeFault 0 f 0 bundle))

end Sys2Proof.Machine
end

