-- ==== Sys2Proof/Machine/Matrix.lean ====
section
/-! DEFINITION. The matrix slot (R231 to R244): operand tiles, the cell steps of R61 to R63, the configuration and its
states, draining, clearing and loading of accumulators. -/

namespace Sys2Proof.Machine

-- Operand tiles -------------------------------------------------------------------------------------------------

/-- An element of an operand tile: its value before any scale, and the flags that decoding it raises. -/
structure TileElem where
  val : FVal
  flags : Flags
  deriving DecidableEq, Repr

/-- A byte of a row; one that the fill did not write is free (log entry 12). -/
def rowByte (draw r : Nat) (row : List Byte) (b : Nat) : Byte := (row[b]?).getD (Config.unfilledByte (draw * 65536 + r * 256 + b))

/-- The 64 elements of a row read under a format (R233, R234). -/
def rowElems (draw r : Nat) (f : Fmt) (row : List Byte) : List TileElem :=
  let byte := rowByte draw r row
  match f with
  | .bf16 | .f16 => (List.range 64).map (fun k =>
      { val := decodeF f ((byte (2 * k)).toNat + 256 * (byte (2 * k + 1)).toNat), flags := 0 })
  | .e4m3 | .e5m2 => (List.range 64).map (fun k => { val := decodeF f (byte k).toNat, flags := 0 })
  | .s8 => (List.range 64).map (fun k => { val := ofInt (intVal .s8 (byte k).toNat) 0, flags := 0 })
  | .o4 => (List.range 2).flatMap (fun h =>
      (o4Decode ((List.range 20).map (fun b => byte (20 * h + b)))).map (fun e =>
        { val := e.val, flags := if e.marker then flInvalid else 0 }))
  | _ => []

/-- Whether an operand takes a scale in float mode (R61). -/
def scaledFmt : Fmt → Bool
  | .e4m3 | .e5m2 | .o4 => true
  | _ => false

/-- The operand values of a row in float mode, under the codes of its K register (R61, R234). -/
def floatRow (f : Fmt) (codes : VWord) (r : Nat) (es : List TileElem) : List TileElem :=
  es.zipIdx.map (fun (e, k) =>
    if scaledFmt f then
      let (v, fl) := e.val.scaleE8 (elemOf codes 8 (2 * r + k / 32))
      { val := v, flags := e.flags ||| fl }
    else e)

/-- The operand integers of a row in integer mode (R62): an outlier rounds toward zero, a NaN counts as 0. -/
def intRow (es : List TileElem) : List (Int × Flags) :=
  es.map (fun e =>
    match e.val with
    | .fin n m x => (roundInt .rz 0 n m x, e.flags)
    | _ => (0, e.flags ||| flInvalid))

/-- One step of an accumulator word in float mode (R61, R63). -/
def cellStep (code : Nat) (acc : Nat) (a b : FVal) : Nat × Flags :=
  match code with
  | 0 =>
    let (p, f1) := a.mul b
    let (v, f2) := (decodeF .f32 acc).add p
    let (r, f3) := roundNE .f32 v
    (r, f1 ||| f2 ||| f3)
  | 1 =>
    let (d, f1) := a.add b.neg
    let (v, f2) := (decodeF .f32 acc).add d.abs
    let (r, f3) := roundNE .f32 v
    (r, f1 ||| f2 ||| f3)
  | _ =>
    let (v, f1) := a.add b
    let (r, f2) := roundNE .f32 v
    (fminPat .f32 acc r, f1 ||| f2)

/-- An accumulator word after the 64 steps of one MMA in float mode, in order of rising k. -/
def floatWord (codes : Nat → Nat) (start : AWord) (a b : List FVal) : AWord × Flags :=
  let (r, fl) := ((a.zip b).zipIdx).foldl (fun (s : Nat × Flags) e =>
    let (r, fl) := cellStep (codes e.2) s.1 e.1.1 e.1.2
    (r, s.2 ||| fl)) (start.toNat, 0)
  (BitVec.ofNat 32 r, fl)

/-- An accumulator word after one MMA in integer mode. -/
def intWord (start : AWord) (a b : List Int) : AWord :=
  (a.zip b).foldl (fun r e => r + BitVec.ofInt 32 (e.1 * e.2)) start

/-- The 32-bit words of a row of .b1. -/
def bitWords (draw r : Nat) (row : List Byte) : List AWord :=
  (List.range 64).map (fun w => BitVec.ofNat 32 (bytesNat ((List.range 4).map (fun b => rowByte draw r row (4 * w + b)))))

/-- The one bits of a word. -/
def popc {n : Nat} (b : BitVec n) : Nat := ((List.range n).filter (fun i => bit b i)).length

/-- An accumulator word after one MMB (R63). -/
def binWord (and : Bool) (start : AWord) (a b : List AWord) : AWord :=
  (a.zip b).foldl (fun r e => r + BitVec.ofNat 32 (popc (if and then e.1 &&& e.2 else e.1 ^^^ e.2))) start

/-- The 4,096 words of an accumulator from its rows and columns. -/
def accOf {α : Type} (d : α) (word : Nat → α → α → AWord × Flags) (a b : List α) : List AWord × Flags :=
  let ws := (List.range 4096).map (fun n => word n (a.getD (n / 64) d) (b.getD (n % 64) d))
  (ws.map (·.1), ws.foldl (fun (f : Flags) w => f ||| w.2) 0)

-- Accumulators and the engine -----------------------------------------------------------------------------------

/-- Word n of an accumulator; one that nothing has written since the scrub is zero (R231). -/
def accWord (l : List AWord) (n : Nat) : AWord := l.getD n 0

def Core.accLanded (k : Core) (n : BitVec 3) : List AWord := k.acc[n.toNat]'n.isLt

/-- The writes into an accumulator that have not landed, oldest first. -/
def accPending (c : Context) (n : BitVec 3) : List (List AWord) :=
  (c.user.flight ++ c.user.held).filterMap (fun f =>
    match f.eff with
    | .acc m ws => if m = n then some ws else none
    | _ => none)

/-- The value that the latest earlier operation leaves in an accumulator (R239). Once it has landed, this is the landed value, also
where a copy unit has written the accumulator since: DESIGN CHOICE (log entry 81). -/
def accChain (k : Core) (c : Context) (n : BitVec 3) : List AWord := ((accPending c n).getLast?).getD (k.accLanded n)

/-- The mode of an allowed pair (R235), under the integer bit of MCFG. -/
def pairMode (fa fb : Fmt) (int : Bool) : Option MMode :=
  let fl (f : Fmt) : Bool := match f with | .bf16 | .f16 | .e4m3 | .e5m2 | .o4 => true | _ => false
  let it (f : Fmt) : Bool := match f with | .s8 | .o4 => true | _ => false
  if int then (if it fa && it fb then some .int else none)
  else if fa = .b1 && fb = .b1 then some .binary
  else if fl fa && fl fb then some .float
  else none

/-- The array ways of a pair (R235). -/
def waysOf (fa fb : Fmt) (mode : MMode) : Nat :=
  let either (f : Fmt → Bool) : Bool := f fa || f fb
  match mode with
  | .binary => 1
  | .int => if either (· == .s8) then 2 else 4
  | .float => if either (fun f => f == .bf16 || f == .f16) then 1 else if either (fun f => f == .e4m3 || f == .e5m2) then 2 else 4

/-- Ways that are still occupied at a tick (R236). -/
def waysBusy (ways : List Nat) (t : Nat) : List Nat := ways.filter (fun u => t < u + 64)

/-- The configuration that an MMA or MMB runs under, after the checks of R239 that come before the ways. -/
def mConfig (matches_ : MConfig → Bool) : Act MConfig := do
  match (← get).myCore.mstate with
  | .configured c => if matches_ c then return c else faultCode 0x06
  | _ => faultCode 0x06

/-- A way taken at this tick, or the array overruns (R236); Pyrino code is interlocked (R98). -/
def takeWay (n : Nat) : Act Unit := do
  let c ← getMe
  let t := c.user.tick
  let busy := waysBusy (← get).myCore.ways t
  require 0x05 (c.translated || busy.length < n)
  updCoreA (fun k => { k with ways := (if c.translated then [] else busy ++ [t])
                              mstate := match k.mstate with
                                | .configured m => .configured { m with used := true }
                                | m => m })

/-- The entries at the heads of fa and fb, taken unless held (R239). -/
def takeTiles (hla hlb : Bool) : Act (List (List Byte) × List (List Byte)) := do
  let k := (← get).myCore
  updCoreA (fun k => { k with fa := if hla then k.fa else k.fa.drop 1, fb := if hlb then k.fb else k.fb.drop 1 })
  return (k.fa.headD [], k.fb.headD [])

def drawA : Act Nat := do
  let s ← get
  set s.draw.2
  return s.draw.1

/-- The rows of a tile. -/
def tileRows (t : List (List Byte)) : List (Nat × List Byte) := (List.range 64).map (fun r => (r, t.getD r []))

-- MMA and MMB ---------------------------------------------------------------------------------------------------

/-- The accumulator that an MMA leaves (R239). -/
def mmaResult (m : MConfig) (d : Nat) (ka kb : VWord) (ta tb : List (List Byte)) (start : List AWord) : List AWord × Flags :=
  let ea := (tileRows ta).map (fun (r, row) => rowElems (2 * d) r m.fa row)
  let eb := (tileRows tb).map (fun (r, row) => rowElems (2 * d + 1) r m.fb row)
  let flagsOf (es : List (List TileElem)) : Flags := es.foldl (fun f row => row.foldl (fun f e => f ||| e.flags) f) 0
  match m.mode with
  | .float =>
    let a := ea.zipIdx.map (fun (es, r) => floatRow m.fa ka r es)
    let b := eb.zipIdx.map (fun (es, r) => floatRow m.fb kb r es)
    let (ws, fl) := accOf [] (fun n x y => floatWord (fun k => (m.cell.extractLsb' (2 * k) 2).toNat) (accWord start n)
      (x.map (·.val)) (y.map (·.val))) a b
    (ws, fl ||| flagsOf a ||| flagsOf b)
  | _ =>
    let a := ea.map intRow
    let b := eb.map intRow
    let (ws, _) := accOf [] (fun n x y => (intWord (accWord start n) (x.map (·.1)) (y.map (·.1)), 0)) a b
    (ws, (a ++ b).foldl (fun f row => row.foldl (fun f e => f ||| e.2) f) 0)

/-- MMA (R234 to R239). -/
def execMma (fa fb : Fmt) (acc : BitVec 3) (ka kb : BitVec 4) (hla hlb z : Bool) (s : State) :
    Host.Outcome State Fault Refusal :=
  let i := Instr.mma fa fb acc ka kb hla hlb z
  slotOp i (do
    let m ← mConfig (fun m => m.mode != .binary && m.fa == fa && m.fb == fb)
    require 0x02 (m.mode != .int || ((fa != .o4 || ka == 0) && (fb != .o4 || kb == 0)))
    takeWay (waysOf fa fb m.mode)
    let c ← getMe
    let core := (← get).myCore
    let start := if z then [] else accChain core c acc
    let (ta, tb) ← takeTiles hla hlb
    let (ws, fl) := mmaResult m (← drawA) (c.k.get ka) (c.k.get kb) ta tb start
    emit i 72 (.acc acc ws) fl) s

/-- MMB (R239). -/
def execMmb (fa fb : Fmt) (acc : BitVec 3) (hla hlb z : Bool) (and : Bool) (s : State) : Host.Outcome State Fault Refusal :=
  let i := Instr.mmb fa fb acc hla hlb z and
  slotOp i (do
    let m ← mConfig (fun m => m.mode == .binary && m.fa == fa && m.fb == fb)
    takeWay (waysOf fa fb m.mode)
    let c ← getMe
    let core := (← get).myCore
    let start := if z then [] else accChain core c acc
    let (ta, tb) ← takeTiles hla hlb
    let d ← drawA
    let a := (tileRows ta).map (fun (r, row) => bitWords (2 * d) r row)
    let b := (tileRows tb).map (fun (r, row) => bitWords (2 * d + 1) r row)
    let (ws, _) := accOf [] (fun n x y => (binWord and (accWord start n) x y, 0)) a b
    emit i 72 (.acc acc ws)) s

/-- MCFG (R235, R237, R241). -/
def execMcfg (fa fb : Fmt) (ka : BitVec 4) (cell int : Bool) (s : State) : Host.Outcome State Fault Refusal :=
  let i := Instr.mcfg fa fb ka cell int
  slotOp i (do
    let c ← getMe
    let codes : BitVec 128 := if cell then (c.k.get ka).setWidth 128 else 0
    match pairMode fa fb int with
    | none => faultCode 0x06
    | some mode => do
      let bad := (List.range 64).any (fun k => codes.extractLsb' (2 * k) 2 == 3)
      require 0x06 (!bad && (mode == .float || codes == 0))
      let core := (← get).myCore
      let ok := match core.mstate with
        | .unset => true
        | .configured m => !m.used
        | .draining t => c.translated || t + 72 ≤ c.user.tick
      require 0x06 ok
      updCoreA (fun k => { k with mstate := .configured { fa := fa, fb := fb, mode := mode, cell := codes, used := false } })) s

/-- MDRAIN (R237, R241). -/
def execMdrain (s : State) : Host.Outcome State Fault Refusal :=
  slotOp .mdrain (do
    let c ← getMe
    updCoreA (fun k => { k with mstate := .draining c.user.tick })) s

/-- Entry j of a drain, with its flags (R242). -/
def drainEntry (f : Fmt) (acc : List AWord) (j : Nat) : VWord × Flags :=
  if f = .bf16 then
    let ws := (List.range 64).map (fun n => roundNE .bf16 (decodeF .f32 (accWord acc (64 * j + n)).toNat))
    (BitVec.ofNat 1024 (packElems 16 (ws.map (·.1))), ws.foldl (fun (f : Flags) w => f ||| w.2) 0)
  else
    let base := 64 * (j / 2) + 32 * (j % 2)
    (BitVec.ofNat 1024 (packElems 32 ((List.range 32).map (fun n => (accWord acc (base + n)).toNat))), 0)

/-- MDRN (R240, R242). -/
def execMdrn (f : Fmt) (acc : BitVec 3) (rq : BitVec 3) (s : State) : Host.Outcome State Fault Refusal :=
  let i := Instr.mdrn f acc rq
  slotOp i (do
    let c ← getMe
    let k := (← get).myCore
    let n := if f = .bf16 then 64 else 128
    require 0x05 (c.translated || k.drainUntil ≤ c.user.tick)
    let ids ← oweRq rq n
    let ws := k.accLanded acc
    ids.zipIdx.forM (fun (id, j) => do
      let (v, fl) := drainEntry f ws j
      emit i (8 + j) (.rq rq id v) fl)
    updCoreA (fun k => { k with drainUntil := c.user.tick + 8 + (n - 1) })) s

/-- MCLR (R243). -/
def execMclr (acc : BitVec 3) (inf : Bool) (s : State) : Host.Outcome State Fault Refusal :=
  let i := Instr.mclr acc inf
  slotOp i (do
    let c ← getMe
    require 0x05 ((accPending c acc).isEmpty)
    emit i 1 (.acc acc (List.replicate 4096 (if inf then 0x7F800000 else 0)))) s

/-- The words that MLDA loads from the bytes of the scratchpad (R243). -/
def mldaWords (f : Fmt) (b : List Byte) : List AWord :=
  (List.range 4096).map (fun n =>
    if f = .bf16 then BitVec.ofNat 32 (65536 * fieldNat b (2 * n) 2) else BitVec.ofNat 32 (fieldNat b (4 * n) 4))

/-- MLDA (R191, R243). -/
def execMlda (f : Fmt) (acc : BitVec 3) (off : BitVec 14) (s : State) : Host.Outcome State Fault Refusal :=
  let i := Instr.mlda f acc off
  slotOp i (do
    let c ← getMe
    let s ← get
    require 0x05 ((accPending c acc).isEmpty)
    let base := padBase s.cur.core + off.toNat * 128
    let n := if f = .bf16 then 8192 else 16384
    match (List.range (n / 64)).find? (fun g => off.toNat * 128 + 64 * g < 0x200000 && s.kept (base + 64 * g)) with
    | some g =>
      throw { code := 0x09, detail := detailWord 0x05 0 0x10 5 0,
              addr := BitVec.ofNat 64 (c.windowVa (off.toNat * 128 + 64 * g)) }
    | none => do
      require 0x0C (off.toNat * 128 + n ≤ 0x200000)
      let b ← padBytes (off.toNat * 128) n
      emit i 8 (.acc acc (mldaWords f b))) s

end Sys2Proof.Machine
end

