-- ==== Sys2Proof/Machine/Copy.lean ====
section
/-! DEFINITION. The copy slot at issue (R245 to R271, R293, R295, R370 to R377): what each X-slot operation reads and
checks, and the command, collective part, trigger entry or fence that it enters. What the copy unit does with them
stands in Machine/CopyUnit.lean and Machine/Collect.lean. -/

namespace Sys2Proof.Machine

-- Checks --------------------------------------------------------------------------------------------------------

/-- The lowest code among some failed checks is raised (R284). -/
def checkAll (l : List (Bool × BitVec 8)) : Act Unit :=
  match (l.filter (fun e => e.1)).map (fun e => e.2.toNat) with
  | [] => pure ()
  | c :: r => faultCode (BitVec.ofNat 8 (r.foldl min c))

/-- A stamp operand's two words as they are read at issue (R246, R247). -/
def stampWords (t : XSpec) : Act (Option (Word × Word)) := do
  match t with
  | .none => return none
  | .x n => return some (← srcX n, ← srcX (n + 1))

/-- The checks of a stamp descriptor (R247). -/
def stampChecks : Option (Word × Word) → List (Bool × BitVec 8)
  | none => []
  | some (d, _) =>
    let sc := (d.extractLsb' 52 4).toNat
    [(d.extractLsb' 57 7 != 0 || sc == 0 || 8 < sc, 0x02), (d.extractLsb' 0 3 != 0, 0x0D)]

def stampOf : Option (Word × Word) → Option Stamp
  | none => none
  | some (d, w) => some { add := bit d 56, sc := (Scope.ofCode (d.extractLsb' 52 4)).getD .core,
                          addr := (d.extractLsb' 0 52).toNat, word := w }

-- Scopes between cores ------------------------------------------------------------------------------------------

/-- The core of a logical core number of a partition (R15, R404). -/
def State.logical (s : State) (p : BitVec 6) (n : Nat) : Option CoreId := (s.part p).harness[n]?

/-- The context that runs a thread of a partition: the one that is bound to it, which a restored image may have moved
(R278), or its own place (R15). -/
def State.threadCtx (s : State) (p : BitVec 6) (t : BitVec 13) : Option CtxId :=
  match s.allCtxs.find? (fun c => (s.ctx c).launch.isSome && (s.ctx c).part == p && (s.ctx c).thread == t) with
  | some c => some c
  | none => (s.logical p (t.toNat / 4)).map (fun c => { core := c, ctx := t.extractLsb' 0 2 })

/-- The context whose launch binds a thread number on its core. -/
def State.boundCtx (s : State) (p : BitVec 6) (t : BitVec 13) : Option CtxId :=
  match s.threadCtx p t with
  | some c => if (s.ctx c).launch.isSome then some c else none
  | none => none

-- Entering lanes ------------------------------------------------------------------------------------------------

/-- A number for a command, a load or a store of a core: lower numbers entered earlier. -/
def takeId : Act Nat := do
  let k := (← get).myCore
  updCoreA (fun k => { k with nextId := k.nextId + 1 })
  return k.nextId

def newCommand (id : Nat) (ctx : BitVec 2) (op : CmdOp) (stamp : Option Stamp) (trig : Option (BitVec 6)) : Command :=
  { id := id, ctx := ctx, op := op, stamp := stamp, st := .queued, delivered := 0, cursor := 0, buf := [], shapes := [],
    trig := trig, tile := none, parts := [], flags := 0, asked := false }

/-- A command enters its lane (R250). -/
def enterLane (lane : BitVec 3) (op : CmdOp) (stamp : Option Stamp) : Act Nat := do
  let id ← takeId
  let c := (← get).cur.ctx
  updCoreA (fun k => k.updLane lane (fun l => l ++ [.cmd (newCommand id c op stamp none)]))
  return id

/-- XCP (R257). -/
def execXcp (lane : BitVec 3) (d s' n : BitVec 4) (t : XSpec) (kept : Bool) (s : State) : Host.Outcome State Fault Refusal :=
  slotOp (.xcp lane d s' n t kept) (do
    let dst ← srcX d
    let src ← srcX s'
    let len := (← srcX n).extractLsb' 0 32
    let st ← stampWords t
    let odd := kept && (dst.extractLsb' 0 6 != 0 || src.extractLsb' 0 6 != 0 || len.extractLsb' 0 6 != 0)
    checkAll (stampChecks st ++ [(odd, 0x0D)])
    let _ ← enterLane lane (.xcp dst src len.toNat kept) (stampOf st)) s

/-- XCPZ (R258, R259). -/
def execXcpz (lane : BitVec 3) (d s' n t : BitVec 4) (dict : Bool) (s : State) : Host.Outcome State Fault Refusal :=
  slotOp (.xcpz lane d s' n t dict) (do
    let dst ← srcX d
    let src ← srcX s'
    let len ← srcX n
    let dw ← srcX (s' + 1)
    let st ← stampWords (.x t)
    let bound := (len.extractLsb' 32 32).toNat
    let size := (dw.extractLsb' 52 12).toNat
    checkAll (stampChecks st ++ [(bound == 0, 0x02), (dict && size == 0, 0x02)])
    let dd := if dict then some ((dw.extractLsb' 0 52).toNat, size * 1024) else none
    let _ ← enterLane lane (.xcpz dst src (len.extractLsb' 0 32).toNat bound dd) (stampOf st)) s

def IBits.width : IBits → Nat
  | .i2 => 2 | .i3 => 3 | .i4 => 4

/-- XCPC (R260). -/
def execXcpc (lane : BitVec 3) (f : Fmt) (d s' n t : BitVec 4) (ib : IBits) (flag : BitVec 5) (s : State) :
    Host.Outcome State Fault Refusal :=
  slotOp (.xcpc lane f d s' n t ib flag) (do
    let dst ← srcX d
    let src ← srcX s'
    let cnt := (← srcX n).extractLsb' 0 32
    let tab ← srcX (s' + 1)
    let st ← stampWords (.x t)
    let k := (← get).myCore
    let size := 2 ^ (IBits.width ib) * 2
    checkAll (stampChecks st ++
      [(cnt.toNat == 0 || 2 ^ 24 < cnt.toNat || tab.toNat % size != 0 || tab.extractLsb' 21 43 != 0, 0x02),
       (!k.owns flag, 0x0C), (src.extractLsb' 0 2 != 0 || dst.extractLsb' 0 1 != 0, 0x0D)])
    let _ ← enterLane lane (.xcpc dst src cnt.toNat tab.toNat ib flag) (stampOf st)) s

/-- XFILL (R261, R262). -/
def execXfill (lane : BitVec 3) (f : Fmt) (s' : BitVec 4) (n : XSpec) (t : XSpec) (kept fb tr : Bool) (s : State) :
    Host.Outcome State Fault Refusal :=
  slotOp (.xfill lane f s' n t kept fb tr) (do
    let src ← srcX s'
    let stride ← match n with | .x n => srcX n | .none => pure 0
    let scales := ((← srcX (s' + 1)).extractLsb' 0 21).toNat
    let st ← stampWords t
    checkAll (stampChecks st ++ [(kept && scales % 128 != 0, 0x0D)])
    let id ← enterLane lane (.xfill src (stride.extractLsb' 0 32).toNat f kept fb tr scales) (stampOf st)
    updCoreA (fun k => if fb then { k with fbOrder := k.fbOrder ++ [id] } else { k with faOrder := k.faOrder ++ [id] })) s

/-- The gather-index entries that XGATH and XSCAT take (R263). -/
def takeRows (c : Nat) : Act (List Word) := do
  let x ← getMe
  let q := x.flow.q
  let mine := (q.la.filter (fun o => o.kind == .gidx)).take c
  updMeA (fun x => x.updFlow (fun f => f.updQ (fun q => { q with la := q.la.filter (fun o => !mine.any (fun m => m.id == o.id)) })))
  return mine.map (·.ea)

/-- The checks of a row descriptor, with the entries that must be present (R263). -/
def rowChecks (desc : Word) (lq : Bool) : Act (List (Bool × BitVec 8)) := do
  let x ← getMe
  let rb := (desc.extractLsb' 0 16).toNat
  let c := (desc.extractLsb' 16 7).toNat
  let have_ := (x.flow.q.la.filter (fun o => o.kind == .gidx)).length
  return [(rb == 0 || c == 0 || 64 < c || (lq && 128 < rb), 0x02), (have_ < c, 0x08)]

/-- XGATH (R263). -/
def execXgath (lane : BitVec 3) (d : XSpec) (n : BitVec 4) (t : XSpec) (s : State) : Host.Outcome State Fault Refusal :=
  slotOp (.xgath lane d n t) (do
    let desc ← srcX n
    let st ← stampWords t
    let dst ← match d with | .x d => srcX d | .none => pure 0
    checkAll (stampChecks st ++ (← rowChecks desc (d == .none)))
    let rb := (desc.extractLsb' 0 16).toNat
    let rows ← takeRows (desc.extractLsb' 16 7).toNat
    match d with
    | .x _ => do let _ ← enterLane lane (.xgath dst rb rows) (stampOf st)
    | .none => do
      let id ← enterLane lane (.xgathLq rb rows) (stampOf st)
      updMeA (fun c => c.updFlow (fun f => f.updQ (fun q =>
        { q with lq := q.lq ++ (List.range rows.length).map (fun m => { id := id, part := m, st := .reserved }) })))) s

/-- XSCAT (R263). -/
def execXscat (lane : BitVec 3) (s' n : BitVec 4) (t : XSpec) (s : State) : Host.Outcome State Fault Refusal :=
  slotOp (.xscat lane s' n t) (do
    let src ← srcX s'
    let desc ← srcX n
    let st ← stampWords t
    checkAll (stampChecks st ++ (← rowChecks desc false))
    let rows ← takeRows (desc.extractLsb' 16 7).toNat
    let _ ← enterLane lane (.xscat src (desc.extractLsb' 0 16).toNat rows) (stampOf st)) s

/-- Some entries of a result queue claimed (R264). -/
def RQueue.claim (q : RQueue) (ids : List Nat) : RQueue :=
  let f (e : RqEntry) : RqEntry := if ids.contains e.id then { e with claimed := true } else e
  { present := q.present.map f, owed := q.owed.map f }

/-- XPOPQ (R264, R290). -/
def execXpopq (lane : BitVec 3) (d : BitVec 4) (rq : BitVec 3) (n : BitVec 4) (t : XSpec) (s : State) :
    Host.Outcome State Fault Refusal :=
  slotOp (.xpopq lane d rq n t) (do
    let dst ← srcX d
    let desc ← srcX n
    let st ← stampWords t
    let c := (desc.extractLsb' 0 8).toNat
    let k := (← get).myCore
    let q := k.rq[rq.toNat]'rq.isLt
    let free := (q.present ++ q.owed).filter (fun e => !e.claimed)
    checkAll (stampChecks st ++ [(c == 0 || 128 < c, 0x02), (free.length < c, 0x08)])
    let ids := (free.take c).map (·.id)
    updCoreA (fun k => k.updRq rq (fun q => q.claim ids))
    let _ ← enterLane lane (.xpopq dst rq ids (desc.extractLsb' 32 32).toNat) (stampOf st)) s

-- Channels ------------------------------------------------------------------------------------------------------

/-- The channel entry of a context's kernel (R370). -/
def State.chanEntry (s : State) (c : Context) (ch : BitVec 8) : Option ChanEntry :=
  (s.codeOf c).bind (fun k => k.chans[ch.toNat]?)

def Chan.fresh : Chan := { withdrawn := false, tiles := 0, filling := [], complete := [] }
def Context.chan (c : Context) (ch : BitVec 8) : Chan := Assoc.get Chan.fresh c.chans ch.toNat
def Context.setChan (c : Context) (ch : BitVec 8) (x : Chan) : Context := { c with chans := Assoc.put c.chans ch.toNat x }

/-- Whether an XSEND or XRECV on a channel faults at issue (R265). -/
def chanBad (s : State) (c : Context) (ch : BitVec 8) (receive : Bool) : Bool :=
  match s.chanEntry c ch with
  | none => true
  | some e => e.receive != receive || (c.chan ch).withdrawn

/-- XSEND (R265). -/
def execXsend (lane : BitVec 3) (ch : BitVec 8) (s' : BitVec 4) (t : XSpec) (s : State) : Host.Outcome State Fault Refusal :=
  slotOp (.xsend lane ch s' t) (do
    let src ← srcX s'
    let st ← stampWords t
    checkAll (stampChecks st ++ [(chanBad (← get) (← getMe) ch false, 0x0F)])
    let _ ← enterLane lane (.xsend ch src) (stampOf st)) s

/-- XRECV (R265). -/
def execXrecv (lane : BitVec 3) (ch : BitVec 8) (d : XSpec) (t : XSpec) (s : State) : Host.Outcome State Fault Refusal :=
  slotOp (.xrecv lane ch d t) (do
    let base ← match d with | .x d => srcX d | .none => pure 0
    let dst := if d = .none then none else some base
    let st ← stampWords t
    checkAll (stampChecks st ++ [(chanBad (← get) (← getMe) ch true, 0x0F)])
    let _ ← enterLane lane (.xrecv ch dst) (stampOf st)) s

-- Collectives ---------------------------------------------------------------------------------------------------

/-- The communicator template of a context's kernel (R374). -/
def State.commEntry (s : State) (c : Context) (comm : BitVec 8) : Option CommEntry :=
  (s.codeOf c).bind (fun k => k.comms.find? (fun e => e.num == comm))

/-- The bytes of an element: of a pair under affine, of one byte where no format is named (R377). -/
def collElem (kind : CollKind) (op f : BitVec 4) : Nat :=
  match kind with
  | .barrier | .bcast | .agath => 1
  | _ => (((Fmt.ofCode f).getD .n8).bits / 8) * (if op = 7 then 2 else 1)

/-- Whether a length breaks R377 for n contributors. -/
def collLenBad (kind : CollKind) (e len n : Nat) : Bool :=
  match kind with
  | .barrier => len != 0
  | .bcast => len == 0
  | .rscat => len % (max 1 n * e) != 0
  | _ => len % e != 0

/-- An open instance k of a communicator that counts a context among its contributors (R375). -/
def State.collOf (s : State) (c : CtxId) (comm : BitVec 8) (k : Nat) : Option Coll :=
  s.colls.find? (fun x => x.part == (s.ctx c).part && x.comm == comm && x.k == k &&
    x.members.any (fun m => m.far.isNone && m.thread == (s.ctx c).thread))

/-- The members that a group has in other modules of the pod (R24, R375; log entry 19). -/
def State.farMembers (s : State) (part g : BitVec 6) : List (BitVec 16 × BitVec 13) := Assoc.get [] (s.part part).farGroups g.toNat

/-- The place of a member in ascending order: by its thread number, and, of equal numbers, those of this module first (log entry
19). -/
def Member.key (m : Member) : Nat := m.thread.toNat * 2 ^ 17 + (match m.far with | none => 0 | some n => n.toNat + 1)

/-- The contributors of a new instance: the members of the group in the template's order (R375), those of other modules among
them. -/
def State.contributors (s : State) (part : BitVec 6) (e : CommEntry) : List Member :=
  let near := (s.group part e.group).members.filterMap (fun t => (s.threadCtx part t).map (fun c => ({ thread := t, far := none, at_ := c } : Member)))
  let far := (s.farMembers part e.group).map (fun f => ({ thread := f.2, far := some f.1, at_ := { core := 0, ctx := 0 } } : Member))
  let ms := (near ++ far).mergeSort (fun a b => a.key ≤ b.key)
  if e.desc then ms.reverse else ms

/-- Whether the kind may use a switch reduction slot (R385). -/
def kindReduces : CollKind → Bool
  | .rscat | .allred => true
  | _ => false

/-- The checks of a collective at issue, or of a step's descriptor at firing, in a context whose instance is the k-th (R266, R302,
R375, R377). -/
def collChecks (s : State) (c : CtxId) (kind : CollKind) (op f : BitVec 4) (desc : Word) (k : Nat) : List (Bool × BitVec 8) :=
  let x := s.ctx c
  let comm := desc.extractLsb' 0 8
  let root := (desc.extractLsb' 8 8).toNat
  let len := (desc.extractLsb' 16 32).toNat
  match s.commEntry x comm with
  | none => [(desc.extractLsb' 48 16 != 0 || (kind != .bcast && root != 0), 0x02), (true, 0x0F)]
  | some e =>
    let member := (s.group x.part e.group).members.contains x.thread
    let n := match s.collOf c comm k with
      | some i => i.members.length
      | none => (s.group x.part e.group).members.length + (s.farMembers x.part e.group).length
    [(desc.extractLsb' 48 16 != 0 || (kind != .bcast && root != 0) ||
        (e.alg == 2 && kindReduces kind && !bit (s.part x.part).features 6), 0x02),
     ((kind == .bcast && n ≤ root) || collLenBad kind (collElem kind op f) len n, 0x0F), (!member, 0x10)]

/-- A contributor's part enters its communicator's queue, and the instance opens with its first member (R266, R375). -/
def State.enterColl (s : State) (c : CtxId) (kind : CollKind) (op f : BitVec 4) (desc src dst : Word)
    (stamp : Option Stamp) (steps : Option Nat) (trig : Option (BitVec 6)) : State :=
  let x := s.ctx c
  let comm := desc.extractLsb' 0 8
  match s.commEntry x comm with
  | none => s
  | some e =>
    let k := Assoc.get 0 x.issued comm.toNat
    let s := match s.collOf c comm k with
      | some _ => s
      | none =>
        let useSlot := kindReduces kind && e.alg != 0 && bit (s.part x.part).features 6
        let coll : Coll := { uid := s.nextUid, part := x.part, comm := comm, group := e.group, k := k, members := s.contributors x.part e,
                             slot := if useSlot then none else some false, ended := false, why := 0, gone := [], seen := [] }
        { s with nextUid := s.nextUid + 1, colls := s.colls ++ [coll] }
    let seen := s.coverOf c
    let mine := (s.collOf c comm k).map (·.uid)
    let s : State := { s with colls := s.colls.map (fun i => if some i.uid = mine then { i with seen := (i.seen ++ seen).dedup } else i) }
    let id := (s.core c.core).nextId
    let part : CollPart :=
      { id := id, ctx := c.ctx, comm := comm, kind := kind, op := op, fmt := f, len := (desc.extractLsb' 16 32).toNat,
        root := (desc.extractLsb' 8 8).toNat, src := src, dst := dst, stamp := stamp, k := k, steps := steps, trig := trig,
        started := false, round := 0, sent := 0, work := 0, inbox := [], out := none, delivered := 0, suspended := false,
        shapes := [], flags := 0, status := 0, stampSent := false }
    let s := s.updCtx c (fun x => { x with issued := Assoc.put x.issued comm.toNat (k + 1) })
    s.updCore c.core (fun q => { q with
      nextId := id + 1, comms := Assoc.put q.comms comm.toNat (Assoc.get [] q.comms comm.toNat ++ [part]) })

/-- The kind of an XCOLL (R266). -/
def collKindOf (n : BitVec 3) : CollKind :=
  match n.toNat with
  | 0 => .barrier | 1 => .bcast | 2 => .rscat | 3 => .agath | _ => .allred

/-- The issue of a collective. -/
def collIssue (kind : CollKind) (op f : BitVec 4) (d s' n : BitVec 4) (t : XSpec) : Act Unit := do
  let dst ← srcX d
  let src ← srcX s'
  let desc ← srcX n
  let st ← stampWords t
  let s ← get
  checkAll (stampChecks st ++ collChecks s s.cur kind op f desc (Assoc.get 0 s.me.issued (desc.extractLsb' 0 8).toNat))
  modify (fun s => s.enterColl s.cur kind op f desc src dst (stampOf st) none none)

/-- XCOLL (R266, R375 to R377). -/
def execXcoll (f d s' n : BitVec 4) (t : XSpec) (op : BitVec 4) (kind : BitVec 3) (s : State) :
    Host.Outcome State Fault Refusal :=
  slotOp (.xcoll f d s' n t op kind) (collIssue (collKindOf kind) op f d s' n t) s

/-- XCAV (R266, R382). -/
def execXcav (f d s' n : BitVec 4) (t : XSpec) (op : BitVec 4) (s : State) : Host.Outcome State Fault Refusal :=
  slotOp (.xcav f d s' n t op) (collIssue .cavity op f d s' n t) s

-- Triggers, cancels and fences ----------------------------------------------------------------------------------

/-- The parts of a trigger's descriptor (R267). -/
def Trigger.watch (t : Trigger) : BitVec 5 := t.w0.extractLsb' 0 5
def Trigger.oper (t : Trigger) : Nat := (t.w0.extractLsb' 5 3).toNat
def Trigger.done1 (t : Trigger) : Option (BitVec 5) := if bit t.w0 13 then some (t.w0.extractLsb' 8 5) else none
def Trigger.done2 (t : Trigger) : Option (BitVec 5) := if bit t.w0 19 then some (t.w0.extractLsb' 14 5) else none
def Trigger.step (t : Trigger) : Nat := (t.w0.extractLsb' 20 8).toNat
def Trigger.take (t : Trigger) : Bool := bit t.w0 31
def Trigger.threshold (t : Trigger) : BitVec 32 := t.w0.extractLsb' 32 32

/-- The kind, operator and format of a step (R267). -/
def Trigger.stepKind (t : Trigger) : CollKind := if t.oper = 4 then .cavity else collKindOf (t.w1.extractLsb' 52 3)
def Trigger.stepOp (t : Trigger) : BitVec 4 := t.w1.extractLsb' 48 4
def Trigger.stepFmt (t : Trigger) : BitVec 4 := t.w1.extractLsb' 55 4
def Trigger.stepDesc (t : Trigger) : Word := (t.w1.extractLsb' 0 48).setWidth 64

/-- Whether a step's operator, kind and format break R266. -/
def stepValuesBad (t : Trigger) : Bool :=
  if t.oper = 4 then t.w1.extractLsb' 52 3 != 0 || !collOpWf t.stepOp.toNat t.stepFmt
  else
    match (t.w1.extractLsb' 52 3).toNat with
    | 0 | 1 | 3 => t.stepOp != 0 || t.stepFmt != 0
    | 2 | 4 => !collOpWf t.stepOp.toNat t.stepFmt
    | _ => true

/-- The checks of XTRIG at issue (R267). -/
def trigChecks (s : State) (c : CtxId) (n : BitVec 6) (t : Trigger) : List (Bool × BitVec 8) :=
  let k := s.core c.core
  let x := s.ctx c
  let op := t.oper
  let sc := t.w1.extractLsb' 18 4
  let own := sc.toNat ≤ 1
  let reserved := t.w0.extractLsb' 28 3 != 0 || (op < 3 && t.step != 0) || 5 ≤ op ||
    (op == 0 && t.w3.extractLsb' 35 29 != 0) ||
    (op == 1 && (t.w1.extractLsb' 11 53 != 0 || t.w3 != 0)) ||
    (op == 2 && (t.w1.extractLsb' 22 42 != 0 || 8 < sc.toNat || t.w2.extractLsb' 32 32 != 0 || t.w2 == 0 || t.w3 != 0 ||
      (own && t.w1.extractLsb' 0 13 != 0))) ||
    ((op == 3 || op == 4) && (t.w1.extractLsb' 59 5 != 0 || stepValuesBad t))
  let undeclared (f : Option (BitVec 5)) : Bool := match f with | some f => !k.owns f | none => false
  let remoteBad := op == 2 && !own &&
    (match s.logical x.part (t.w1.extractLsb' 0 13).toNat with
     | some g => !s.inScope ((Scope.ofCode sc).getD .ctx) c.core g
     | none => true)
  [(reserved, 0x02),
   (!k.owns t.watch || undeclared t.done1 || undeclared t.done2 || (op == 2 && own && !k.owns (t.w1.extractLsb' 13 5)) ||
      remoteBad || (Assoc.find k.triggers n.toNat).isSome, 0x0C)]

/-- XTRIG (R267, R295). -/
def execXtrig (n : BitVec 6) (s' : BitVec 4) (s : State) : Host.Outcome State Fault Refusal :=
  slotOp (.xtrig n s') (do
    let s ← get
    let t : Trigger := { st := .armed, cancel := false, id := s.myCore.nextId, ctx := s.cur.ctx, w0 := ← srcX s', w1 := ← srcX (s' + 1), w2 := ← srcX (s' + 2),
                         w3 := ← srcX (s' + 3) }
    checkAll (trigChecks s s.cur n t)
    let _ ← takeId
    updCoreA (fun k => { k with triggers := Assoc.put k.triggers n.toNat t })) s

/-- The commands of a trigger entry leave their lane: one not started at once, one being performed at its next chunk
boundary, which is where it stands (R269). -/
def Core.dropTrig (k : Core) (n : BitVec 6) : Core :=
  { k with
    lanes := k.lanes.map (fun l => l.filter (fun e => match e with | .cmd c => c.trig != some n | .fence _ _ => true))
    comms := k.comms.map (fun q => (q.1, q.2.map (fun p =>
      if p.trig = some n then { p with trig := none, steps := p.steps.map (fun m => m - 1) } else p)))
    triggers := Assoc.drop k.triggers n.toNat }

/-- Whether XCAN.lane cancels a command: one that is queued or, up to the performance of its stamp, being performed (R269, R294). A
stamp on its way to another module is not called back. -/
def Command.cancels (c : Command) (ctx : BitVec 2) : Bool :=
  c.ctx == ctx && (match c.st with | .queued | .performing | .stamping _ _ => true | _ => false)

/-- The commands of a context in a lane cancelled (R269, R294): each has its stamp still to write, with status 0x08, and without a
stamp it is gone. -/
def cancelLane (ctx : BitVec 2) (l : List LaneEntry) : List LaneEntry :=
  l.flatMap (fun e =>
    match e with
    | .cmd c => if c.cancels ctx then (if c.stamp.isSome then [.cmd { c with st := .stamping 0x08 0 }] else []) else [e]
    | .fence _ _ => [e])

/-- The commands that a cancel of a context's commands in a lane cancels. -/
def cancelledCmds (ctx : BitVec 2) (l : List LaneEntry) : List Command :=
  l.filterMap (fun e => match e with | .cmd c => if c.cancels ctx then some c else none | .fence _ _ => none)

/-- A context's commands of one lane cancelled, with the fills they would have pushed and the trigger entries that fired them. -/
def Core.cancelLane (k : Core) (ctx : BitVec 2) (lane : BitVec 3) : Core :=
  let l := k.lane lane
  let ids := (cancelledCmds ctx l).map (·.id)
  let trigs := (cancelledCmds ctx l).filterMap (fun c => c.trig.map (·.toNat))
  { k.updLane lane (fun l => Sys2Proof.Machine.cancelLane ctx l) with
    faOrder := k.faOrder.filter (fun i => !ids.contains i), fbOrder := k.fbOrder.filter (fun i => !ids.contains i)
    triggers := k.triggers.filter (fun t => !trigs.contains t.1) }

/-- XQFENCE (R270, R294). -/
def execXqfence (s' : BitVec 4) (s : State) : Host.Outcome State Fault Refusal :=
  slotOp (.xqfence s') (do
    let m ← srcX s'
    require 0x02 (m != 0 && m.extractLsb' 8 56 == 0)
    let id ← takeId
    let c := (← get).cur.ctx
    updCoreA (fun k => laneNums.foldl (fun k l =>
      if bit m l.toNat then k.updLane l (fun q => q ++ [.fence id c]) else k) k)) s

-- Storage -------------------------------------------------------------------------------------------------------

/-- A registration's fields (R413). -/
def regField (r : BitVec 256) (byte n : Nat) : Nat := r.toNat / 2 ^ (8 * byte) % 2 ^ (8 * n)

/-- The commands of a core. -/
def Core.commands (k : Core) : List Command :=
  k.lanes.toList.flatMap (fun l => l.filterMap (fun e => match e with | .cmd c => some c | .fence _ _ => none))

/-- Whether a storage read under a registration has not written its stamp. -/
def State.storing (s : State) (r : Nat) : Bool :=
  s.cores.any (fun e => e.2.commands.any (fun c => match c.op with | .xstor _ _ _ reg _ _ => reg.toNat == r | _ => false))

/-- A registration as it stands, zero where the host has written none: a write that clears valid takes effect once every storage read in
flight on it has written its stamp (R413). -/
def State.registration (s : State) (r : Nat) : BitVec 256 :=
  match Assoc.find s.regPending r with
  | some e => if s.storing r then Assoc.get 0 s.registrations r else e
  | none => Assoc.get 0 s.registrations r

/-- Whether a registration is valid and grants a namespace to a virtual function (R413). -/
def State.grants (s : State) (r : BitVec 12) (vf : BitVec 10) (nsid : BitVec 32) : Bool :=
  let e := s.registration r.toNat
  regField e 0 1 % 2 == 1 && regField e 1 1 == 0 && regField e 8 8 == 0 && regField e 6 2 == vf.toNat &&
    (regField e 24 8 == 0 || regField e 24 8 == nsid.toNat)

/-- XSTOR (R271). -/
def execXstor (lane : BitVec 3) (d s' n t : BitVec 4) (s : State) : Host.Outcome State Fault Refusal :=
  slotOp (.xstor lane d s' n t) (do
    let dst ← srcX d
    let lba ← srcX s'
    let desc ← srcX n
    let st ← stampWords (.x t)
    let c ← getMe
    let s ← get
    let reg := desc.extractLsb' 16 12
    let nsid := desc.extractLsb' 32 32
    checkAll (stampChecks st ++ [(desc.extractLsb' 28 4 != 0, 0x02), (!s.grants reg (s.vfOf c.part) nsid, 0x0C),
      (dst.extractLsb' 0 6 != 0, 0x0D)])
    let log := regField (s.registration reg.toNat) 5 1
    let _ ← enterLane lane (.xstor dst lba ((desc.extractLsb' 0 16).toNat) reg nsid log) (stampOf st)) s

end Sys2Proof.Machine
end

