-- ==== Sys2Proof/Machine/Fetch.lean ====
section
/-! DEFINITION. Fetching a strap: tokens, dictionary entries and literals (R71 to R78), handler sections (R286), Pyrino
bundles (R97, R98), the decode of its slots in order (R79), and the beginning of its issue. -/

namespace Sys2Proof.Machine

/-- A bundle as fetched: its header, its slot encodings, its stop bit and the offset after it. -/
structure Bundle where
  header : BitVec 16
  ops : List OpWord
  stop : Bool
  next : Nat
  deriving DecidableEq, Repr

/-- The bundles of a strap; `bad` says that a dictionary index fault was met (R71, R72), `long` that the section ended before the strap
did. -/
structure Fetched where
  bundles : List Bundle
  bad : Bool
  long : Bool
  deriving DecidableEq, Repr

/-- A strap ready to issue: the slots present, the offset after it, its operations in slot order and the lane groups
of its vector operations. -/
structure StrapInfo where
  present : BitVec 9
  next : BitVec 32
  ops : List OpWord
  groups : Nat
  deriving DecidableEq, Repr

/-- Some words from an offset, where the section holds them all. -/
def wordsAt (tok : Nat → Option (BitVec 16)) (off : Nat) : Nat → Option (List (BitVec 16))
  | 0 => some []
  | n + 1 =>
    match tok off, wordsAt tok (off + 1) n with
    | some w, some r => some (w :: r)
    | _, _ => none

/-- The bundle of the token at an offset (R71 to R73, R75); none is a dictionary index fault. -/
def fetchBundle (tok : Nat → Option (BitVec 16)) (dict : List (BitVec 384)) (off : Nat) : Option Bundle :=
  match tok off with
  | none => none
  | some t =>
    let stop := bit t 15
    let idx := (t.extractLsb' 0 15).toNat
    if idx = 0x7FFF then
      match tok (off + 1) with
      | none => none
      | some h =>
        match wordsAt tok (off + 2) (headerWords h) with
        | none => none
        | some ws => some { header := h, ops := literalOps h ws, stop := stop, next := off + 2 + headerWords h }
    else if idx ≤ 0x7FF then
      match dict[idx]? with
      | none => none
      | some e => some { header := (entryOps e).1, ops := (entryOps e).2, stop := stop, next := off + 1 }
    else none

/-- The bundles of the strap that starts at an offset, at most `fuel` of them; a section has no more tokens than that. -/
def fetchBundles (tok : Nat → Option (BitVec 16)) (dict : List (BitVec 384)) : Nat → Nat → Fetched
  | 0, _ => { bundles := [], bad := false, long := true }
  | fuel + 1, off =>
    match fetchBundle tok dict off with
    | none => { bundles := [], bad := true, long := false }
    | some b =>
      if b.stop then { bundles := [b], bad := false, long := false }
      else
        let r := fetchBundles tok dict fuel b.next
        { r with bundles := b :: r.bundles }

/-- More tokens than any section holds: offsets have 16 bits (R75). -/
def sectionTokens : Nat := 65537

/-- The 16-bit word of the handler section at an offset (R286, R288): from the device address in HENTRY (log entry
20). -/
def handlerWord (s : State) (p : Partition) (off : Nat) : Option (BitVec 16) :=
  if off < p.hlen.toNat then some (BitVec.ofNat 16 (bytesNat (memReadAll s.mem (p.hentry.toNat + 2 * off) 2))) else none

/-- The tokens of a code object's section. -/
def Code.section (k : Code) : Section → List (BitVec 16)
  | .main => k.tokens
  | .slice n => ((k.slices[n]?).map (·.tokens)).getD []

/-- The word at an offset of the section a context fetches from, and the dictionary it fetches through (R75, R286). -/
def State.tokens (s : State) (c : Context) : (Nat → Option (BitVec 16)) × List (BitVec 384) :=
  if c.priv then (handlerWord s (s.part c.part), [])
  else
    match s.codeOf c with
    | none => (fun _ => none, [])
    | some k => (fun off => (k.section c.flow.sect)[off]?, k.dict)

/-- Slots present in some encodings. -/
def presentOf (ops : List OpWord) : BitVec 9 :=
  ops.foldl (fun (m : BitVec 9) o => m ||| (1 : BitVec 9) <<< o.slot.num) 0

/-- Lane groups of some encodings (R78). -/
def groupsOf (ops : List OpWord) : Nat :=
  (ops.map (fun o => match o.slot with | .v0 | .v1 => o.width.groups | _ => 0)).sum

/-- Encodings in slot order. -/
def inSlotOrder (ops : List OpWord) : List OpWord := slotOrder.flatMap (fun sl => ops.filter (fun o => o.slot == sl))

/-- ERET shares its strap with no slot (R148). -/
def eretCrowded (ops : List OpWord) : Bool :=
  1 < ops.length && ops.any (fun o => o.slot == .c && o.word.extractLsb' 24 8 == 0x30)

/-- The strap of fetched bundles, or its fault: 0x03 before 0x01 (R78, R79). -/
def strapOfBundles (f : Fetched) : Except (BitVec 8) StrapInfo :=
  let ops := f.bundles.flatMap (·.ops)
  let dup := slotOrder.any (fun sl => 1 < (ops.filter (fun o => o.slot == sl)).length)
  if f.bad then .error 0x03
  else if f.long || 9 < f.bundles.length || dup || 6 < groupsOf ops || f.bundles.any (fun b => !headerLegal b.header) || eretCrowded ops then .error 0x01
  else .ok { present := presentOf ops, next := BitVec.ofNat 32 ((f.bundles.getLast?.map (·.next)).getD 0),
             ops := inSlotOrder ops, groups := groupsOf ops }

/-- The native slots that a Pyrino word may carry (R97). -/
def pyrinoSlot (p kind : Nat) : Option Slot :=
  match p, kind with
  | 0, 1 => some .c
  | 0, 8 => some .y
  | 1, 2 => some .s
  | 1, 3 => some .a
  | 1, 6 => some .k
  | 2, 4 => some .v0
  | 3, 5 => some .m
  | 3, 7 => some .x
  | _, _ => none

/-- One word of a Pyrino bundle: none where it is empty, and an error where the translator refuses the image. -/
def pyrinoWord (p : Nat) (w : BitVec 64) : Except Unit (Option OpWord) :=
  if w = 0 then .ok none
  else
    match pyrinoSlot p (w.extractLsb' 60 4).toNat with
    | none => .error ()
    | some sl =>
      let bits := 16 * sl.words
      if (w.extractLsb' 0 60).toNat / 2 ^ bits ≠ 0 then .error ()
      else .ok (some { slot := sl, width := if sl = .v0 then .w1024 else .w256, word := w.setWidth 48 })

/-- The four words of a Pyrino bundle. -/
def pyrinoOps (b : BitVec 256) : Except Unit (List OpWord) :=
  match pyrinoWord 0 (b.extractLsb' 0 64), pyrinoWord 1 (b.extractLsb' 64 64), pyrinoWord 2 (b.extractLsb' 128 64),
      pyrinoWord 3 (b.extractLsb' 192 64) with
  | .ok p0, .ok p1, .ok p2, .ok p3 => .ok ([p0, p1, p2, p3].filterMap id)
  | _, _, _, _ => .error ()

/-- The strap that a context would issue next, or the fault of its fetch (R79, R98). -/
def State.fetchAt (s : State) (c : Context) (off : Nat) : Except (BitVec 8) StrapInfo :=
  if c.translated then
    match ((s.codeOf c).bind (fun k => k.bundles[off]?)) with
    | none => .error 0x03
    | some b =>
      match pyrinoOps b with
      | .error _ => .error 0x02
      | .ok ops =>
        if eretCrowded ops then .error 0x01
        else .ok { present := presentOf ops, next := BitVec.ofNat 32 (off + 1), ops := ops, groups := groupsOf ops }
  else
    let (tok, dict) := s.tokens c
    strapOfBundles (fetchBundles tok dict sectionTokens off)

/-- Whether an encoding holds a privileged opcode or system register number (R95, R111). -/
def privWord (o : OpWord) : Bool :=
  let op := o.word.extractLsb' 24 8
  match o.slot with
  | .c => op == 0x30
  | .s => (op == 0x38 || op == 0x39) && bit o.word 11
  | _ => false

/-- The operations of a strap decoded in order, or the first slot that faults and its code (R79). R97 keeps VMOVX out of a Pyrino V
word, but does not list it among what the translator refuses and names no fault: the image loads, and the slot takes fault 0x02 at
decode: DESIGN CHOICE (log entry 80). -/
def decodeOps (s : State) (c : Context) : List OpWord → Except (BitVec 4 × BitVec 8) (List Instr)
  | [] => .ok []
  | o :: r =>
    let slot := BitVec.ofNat 4 o.slot.num
    if privWord o && !c.priv then .error (slot, 0x04)
    else
      match decodeOp o with
      | .error _ => .error (slot, 0x02)
      | .ok i =>
        match decodeFault s c i with
        | some code => .error (slot, code)
        | none =>
          if c.translated && (match i with | .vmovx _ _ _ _ => true | _ => false) then .error (slot, 0x02)
          else
            match decodeOps s c r with
            | .error e => .error e
            | .ok is => .ok (i :: is)

/-- The next strap of a context with its decoded operations, or the fault of its decode: the slot field of FCAUSE, the
code, and the slots that were to issue: those present for a fault of a slot's decode, and none for one of a whole bundle or of a section
(DESIGN CHOICE, log entry 105). -/
def State.nextStrap (s : State) (c : Context) : Except (BitVec 4 × BitVec 8 × BitVec 9) (StrapInfo × List Instr) :=
  match s.fetchAt c c.flow.pc.toNat with
  | .error code => .error (if code = 0x02 then 0 else 0xF, code, 0)
  | .ok info =>
    let ops := match c.resume with
      | none => info.ops
      | some r => info.ops.filter (fun o => bit r.mask o.slot.num)
    match decodeOps s c ops with
    | .error (slot, code) => .error (slot, code, info.present)
    | .ok is => .ok (info, is)

/-- The offset after the last token of the strap that starts at an offset, whether it may issue or not: at most `fuel` bundles, each a
token or a literal (R71, R73, R75); none where the section ends first. -/
def strapEnd (tok : Nat → Option (BitVec 16)) : Nat → Nat → Option Nat
  | 0, _ => none
  | fuel + 1, off =>
    match tok off with
    | none => none
    | some t =>
      let next := if t.extractLsb' 0 15 = 0x7FFF then (tok (off + 1)).map (fun h => off + 2 + headerWords h) else some (off + 1)
      match next with
      | none => none
      | some n => if bit t 15 then some n else strapEnd tok fuel n

/-- The offset of the first token after the native strap that starts at an offset (R138); where the section ends before that strap
does, the offset after its own first token (log entry 21). -/
def State.afterStrap (s : State) (c : Context) (off : BitVec 32) : BitVec 32 :=
  match strapEnd (s.tokens c).1 sectionTokens off.toNat with
  | some n => BitVec.ofNat 32 n
  | none => off + 1

/-- A strap begins to issue (R78, R287): what ERET left of a strap that had partly issued goes on from what it took. -/
def Context.beginStrap (c : Context) (info : StrapInfo) (ops : List Instr) : Context :=
  c.updFlow (fun f =>
    { f with strap :=
        { live := true, offset := f.pc, next := info.next,
          present := match c.resume with | none => info.present | some r => info.present &&& r.mask
          done := 0
          mark := if c.resume.any (·.part) then f.strap.mark else f.flight.length
          taken := c.resume.bind (·.taken), skip := (c.resume.map (·.skip)).getD f.squash
          exits := (c.resume.map (·.exits)).getD false, away := c.resume.bind (·.away),
          rqPops := ops.flatMap rqPopsOf } })

end Sys2Proof.Machine
end

