-- ==== Sys2Proof/Machine/Control.lean ====
section
/-! DEFINITION. The C slot (R137 to R148, R310, R323, R324): transfers, loops, the walker, exit and yielding, groups,
traps and return. -/

namespace Sys2Proof.Machine

-- Transfers -----------------------------------------------------------------------------------------------------

/-- A transfer is taken (R137). -/
def takeTransfer (dest : BitVec 16) : Act Unit :=
  updMeA (fun c => c.updFlow (fun f => f.updStrap (fun st => { st with taken := some dest })))

/-- The condition of BRP and SKIP (R138, R139). -/
def condOf (p : BitVec 4) (n : Bool) : Act Bool := do return anyBit ((← getMe).p.get p) n

/-- BR (R138). -/
def execBr (t : BitVec 16) (s : State) : Host.Outcome State Fault Refusal := slotOp (.br t) (takeTransfer t) s

/-- BRP (R138). -/
def execBrp (p : BitVec 4) (n : Bool) (t : BitVec 16) (s : State) : Host.Outcome State Fault Refusal :=
  slotOp (.brp p n t) (do if (← condOf p n) then takeTransfer t) s

/-- BRI (R138). -/
def execBri (l : BitVec 3) (s : State) : Host.Outcome State Fault Refusal :=
  slotOp (.bri l) (do takeTransfer (((← getMe).l.get l).extractLsb' 0 16)) s

/-- CALL (R138): the link is the offset after the delay strap; Pyrino code has none (R98). -/
def execCall (l : BitVec 3) (t : BitVec 16) (s : State) : Host.Outcome State Fault Refusal :=
  slotOp (.call l t) (do
    let c ← getMe
    let next := c.flow.strap.next
    let s ← get
    let link := if c.translated then next else s.afterStrap c next
    takeTransfer t
    emit (.call l t) 1 (.l l (link.setWidth 64))) s

/-- RET (R138). -/
def execRet (l : BitVec 3) (s : State) : Host.Outcome State Fault Refusal :=
  slotOp (.ret l) (do takeTransfer (((← getMe).l.get l).extractLsb' 0 16)) s

/-- SKIP (R139). -/
def execSkip (p : BitVec 4) (n : Bool) (k : BitVec 16) (s : State) : Host.Outcome State Fault Refusal :=
  slotOp (.skip p n k) (do
    if (← condOf p n) then
      updMeA (fun c => c.updFlow (fun f => f.updStrap (fun st => { st with skip := k.setWidth 5 })))) s

-- Loops ---------------------------------------------------------------------------------------------------------

def pAll (b : Bool) : PWord := if b then BitVec.allOnes 128 else 0

/-- The effects of LOOP and LSET for n entering iterations (R141). -/
def startLoop (i : Instr) (l : BitVec 3) (ring drain : BitVec 3) (n : BitVec 32) : Act Unit := do
  let c := n + drain.setWidth 32
  emit i 1 (.l l ((0 : BitVec 29) ++ drain ++ c))
  emit i 1 (.ring ring 0)
  emit i 1 (.p 8 (pAll (drain.toNat < c.toNat)) (BitVec.allOnes 128))
  (List.range 7).forM (fun j => emit i 1 (.p (BitVec.ofNat 4 (9 + j)) 0 (BitVec.allOnes 128)))

/-- LOOP (R141). -/
def execLoop (l : BitVec 3) (ring drain : BitVec 3) (n : BitVec 15) (s : State) : Host.Outcome State Fault Refusal :=
  slotOp (.loop l ring drain n) (startLoop (.loop l ring drain n) l ring drain (n.setWidth 32)) s

/-- LSET (R141). -/
def execLset (l : BitVec 3) (ring drain : BitVec 3) (s : State) : Host.Outcome State Fault Refusal :=
  slotOp (.lset l ring drain) (do
    let n := ((← getMe).l.get l).extractLsb' 0 32
    startLoop (.lset l ring drain) l ring drain n) s

/-- LBR (R142). -/
def execLbr (l : BitVec 3) (t : BitVec 16) (s : State) : Host.Outcome State Fault Refusal :=
  slotOp (.lbr l t) (do
    let v := (← getMe).l.get l
    let c := v.extractLsb' 0 32
    let d := v.extractLsb' 32 3
    if c = 0 then pure ()
    else do
      let c := c - 1
      emit (.lbr l t) 1 (.lLow l c)
      if c = 0 then pure ()
      else do
        takeTransfer t
        emit (.lbr l t) 1 (.shift (pAll (d.toNat < c.toNat)))) s

-- The walker ----------------------------------------------------------------------------------------------------

/-- The launch that a context serves, changed. -/
def State.updLaunch (s : State) (c : Context) (f : Launch → Launch) : State :=
  match c.launch, (s.part c.part).running with
  | some u, some v =>
    s.updVdev v (fun d => { d with graphs := modAt d.graphs 0 (fun g =>
      { g with launches := modFirst g.launches (fun l => l.uid == u) f }) })
  | _, _ => s

/-- A point in its place among those that wait to be placed again (R310). -/
def insertPoint (p : Point) : List Point → List Point
  | [] => [p]
  | q :: r => if p.lt q then p :: q :: r else q :: insertPoint p r

/-- The contexts that a launch binds and that have not exited. -/
def State.launchCtxs (s : State) (uid : Nat) : List CtxId :=
  s.allCtxs.filter (fun c => (s.ctx c).launch == some uid)

/-- The buffered points of a core that no bound context of it can take go back to the walker, and returned points that
no context of the launch can take are unserved: the walker drops them (R310). -/
def State.returnPoints (s : State) (core : CoreId) : State :=
  let k := s.core core
  match k.bound with
  | none => s
  | some uid =>
    let mine := (k.ctxs.toList).filter (fun c => c.launch == some uid)
    let stay := k.points.filter (fun p => mine.any (fun c => c.mayDraw p))
    let back := k.points.filter (fun p => !mine.any (fun c => c.mayDraw p))
    let s := s.updCore core (fun k => { k with points := stay })
    let all := (s.launchCtxs uid).map s.ctx
    let ghost : Context := { Context.reset with launch := some uid, part := k.boundPart }
    s.updLaunch ghost (fun l =>
      let ret := back.foldl (fun r p => insertPoint p r) l.returned
      { l with returned := ret.filter (fun p => all.any (fun c => c.mayDraw p)) })

/-- NEXT (R143, R310): where the strap issues with no point in the buffer, the walker is exhausted. -/
def execNextPoint (l : BitVec 3) (t : BitVec 16) (s : State) : Host.Outcome State Fault Refusal :=
  slotOp (.nextPoint l t) (do
    let c ← getMe
    let k := (← get).myCore
    match k.points.find? c.mayDraw with
    | none => takeTransfer t
    | some p => do
      updCoreA (fun k => { k with points := k.points.erase p })
      updMeA (fun c => { c with lastPoint := some p })
      modify (fun s => s.updLaunch c (fun l => { l with drawnCount := l.drawnCount + 1 }))
      modify (fun s => s.returnPoints s.cur.core)
      let i := Instr.nextPoint l t
      emit i 1 (.l l (p.i0.setWidth 64))
      emit i 1 (.l (l + 1) (p.i1.setWidth 64))
      emit i 1 (.l (l + 2) (p.i2.setWidth 64))) s

-- Exit, yielding, groups ----------------------------------------------------------------------------------------

/-- EXIT (R144); in a handler section it ends the context's last strap like any other (log entry 22). -/
def execExit (s : State) : Host.Outcome State Fault Refusal :=
  slotOp .exit (updMeA (fun c => c.updFlow (fun f => f.updStrap (fun st => { st with exits := true })))) s

/-- YIELD (R145). -/
def execYield (n : BitVec 18) (s : State) : Host.Outcome State Fault Refusal :=
  slotOp (.yield n) (updMeA (fun c => c.updFlow (fun f => f.updStrap (fun st => { st with away := some n })))) s

/-- Whether a strap of the acting context holds a GBAR of a group (R323). -/
def strapHasGbar (s : State) (g : BitVec 6) : Bool :=
  let c := s.me
  match s.fetchAt c c.flow.strap.offset.toNat with
  | .ok i => c.flow.strap.live && i.ops.any (fun o => o.slot == .y && bit c.flow.strap.present 8 &&
      (match decodeOp o with | .ok (.gbar g' _) => g' == g | _ => false))
  | .error _ => false

/-- A thread's part of an instance over a group that is not complete (R323). -/
def openPartOf (s : State) (c : CtxId) (g : BitVec 6) : Bool :=
  (s.core c.core).comms.any (fun q => q.2.any (fun p => p.ctx == c.ctx &&
    ((s.commEntry (s.ctx c) p.comm).map (·.group)) == some g))

/-- JOIN (R146, R322, R323, R375). -/
def execJoin (g : BitVec 18) (s : State) : Host.Outcome State Fault Refusal :=
  slotOp (.join g) (do
    let s ← get
    let c ← getMe
    let n := g.setWidth 6
    let x := s.group c.part n
    require 0x10 (!x.members.contains c.thread && !strapHasGbar s n &&
      !s.colls.any (fun i => i.part == c.part && i.group == n))
    modify (fun s => s.setGroup c.part n { x with members := x.members ++ [c.thread] })) s

/-- A thread leaves a group (R322, R325). -/
def Group.leave (x : Group) (t : BitVec 13) : Group :=
  { members := x.members.filter (· != t), coming := x.coming.filter (· != t), arrived := x.arrived.filter (· != t), passed := x.passed.filter (· != t) }

/-- LEAVE (R146, R322, R323). -/
def execLeave (g : BitVec 18) (s : State) : Host.Outcome State Fault Refusal :=
  slotOp (.leave g) (do
    let s ← get
    let c ← getMe
    let n := g.setWidth 6
    let x := s.group c.part n
    require 0x10 (x.members.contains c.thread && !strapHasGbar s n && !openPartOf s s.cur n)
    modify (fun s => s.setGroup c.part n (x.leave c.thread))) s

-- Traps and return ----------------------------------------------------------------------------------------------

/-- TRAP (R147). -/
def execTrap (c : BitVec 18) (s : State) : Host.Outcome State Fault Refusal := trapOp (.trap c) 0x13 c s
/-- SVC (R147). -/
def execSvc (c : BitVec 18) (s : State) : Host.Outcome State Fault Refusal := trapOp (.svc c) 0x14 c s
/-- BRK (R147). -/
def execBrk (c : BitVec 18) (s : State) : Host.Outcome State Fault Refusal := trapOp (.brk c) 0x15 c s

/-- Whether an lq entry is marked. -/
def LqEntry.isMarked (e : LqEntry) : Bool := match e.st with | .marked _ => true | _ => false

/-- Whether a kq entry is the mark of an LDK, which ERET performs again. -/
def Queues.stuckMark (q : Queues) (e : KqEntry) : Bool := e.mark.isSome && q.la.any (fun o => o.stuck && o.id == e.id)

/-- The loads whose lq entries are marked. -/
def Queues.markedIds (q : Queues) : List Nat := (q.lq.filter LqEntry.isMarked).map (·.id)

/-- The marked entries of a context are awaited again and their loads are to be performed anew from their recorded addresses: those of lq
are reserved again, and the mark of an LDK leaves kq, whose place its entries take (R123, R174). -/
def redoMarks (q : Queues) : Queues :=
  let ids := q.markedIds
  { q with lq := q.lq.map (fun e => if e.isMarked then { e with st := .reserved } else e)
           kq := q.kq.filter (fun e => !q.stuckMark e)
           la := q.la.map (fun o =>
             if o.stuck then { o with stuck := false, redo := true, got := [] }
             else if ids.contains o.id && (match o.kind with | .ldk _ | .gidx => false | _ => true) then { o with pushed := 0, redo := true }
             else o) }

/-- An LDT that is performed anew takes its shape record as it stands now (R174, R365). -/
def State.retakeShapes (s : State) (c : CtxId) : State :=
  let q := (s.ctx c).user.q
  q.la.foldl (fun s o =>
    match o.kind with
    | .ldt offs _ =>
      if !q.markedIds.contains o.id then s
      else
        let (r, s) := s.takeRecord c.core (s.ctx c).part (o.ea.extractLsb' 0 20).toNat
        s.updCtx c (fun x => { x with user := x.user.updQ (fun q =>
          { q with la := q.la.map (fun p => if p.id = o.id then { p with kind := .ldt offs r } else p) }) })
    | _ => s) s

/-- What a command starts anew with after a fault (R255): XCPZ, XCPC and XSTOR from their first byte. -/
def Command.restart (c : Command) : Command :=
  match c.op with
  | .xcpz _ _ _ _ _ | .xcpc _ _ _ _ _ _ | .xstor _ _ _ _ _ _ => { c with delivered := 0, cursor := 0, buf := [], tile := none, parts := [] }
  | _ => c

/-- The shape records that could not be taken, taken anew; the others stand (R358, R365). -/
def State.retryShapes (s : State) (c : CtxId) (shapes : List (Nat × RecordOr)) : List (Nat × RecordOr) × State :=
  shapes.foldl (fun (a : List (Nat × RecordOr) × State) e =>
    match e.2 with
    | .bytes _ => (a.1 ++ [e], a.2)
    | .fault _ =>
      let (r, s) := a.2.takeRecord c.core (s.ctx c).part e.1
      (a.1 ++ [(e.1, r)], s)) ([], s)

/-- The lane entries of a context's commands that a fault has suspended go on: a stamp alone, or the command with the records it lacked
(R255, R358, R365, R421). -/
def State.unsuspendLane (s : State) (c : CtxId) (lane : BitVec 3) : State :=
  let (l, s) := ((s.core c.core).lane lane).foldl (fun (a : List LaneEntry × State) e =>
    match e with
    | .cmd q =>
      if q.ctx != c.ctx then (a.1 ++ [e], a.2)
      else
        match q.st with
        | .suspendedStamp x y => (a.1 ++ [.cmd { q with st := .stamping x y }], a.2)
        | .suspended =>
          let (sh, s) := a.2.retryShapes c q.shapes
          (a.1 ++ [.cmd { q.restart with st := .performing, shapes := sh }], s)
        | _ => (a.1 ++ [e], a.2)
    | .fence _ _ => (a.1 ++ [e], a.2)) ([], s)
  s.updCore c.core (fun k => k.updLane lane (fun _ => l))

/-- The commands and collective parts of a context that a fault has suspended go on (R255, R266, R421). -/
def State.unsuspend (s : State) (c : CtxId) : State :=
  let s := laneNums.foldl (fun s l => s.unsuspendLane c l) s
  let (comms, s) := (s.core c.core).comms.foldl (fun (a : Assoc (List CollPart) × State) q =>
    let (ps, s) := q.2.foldl (fun (b : List CollPart × State) p =>
      if p.ctx != c.ctx then (b.1 ++ [p], b.2)
      else
        let (sh, s) := b.2.retryShapes c p.shapes
        (b.1 ++ [{ p with suspended := false, shapes := sh }], s)) ([], a.2)
    (a.1 ++ [(q.1, ps)], s)) ([], s)
  s.updCore c.core (fun k => { k with comms := comms })

/-- ERET (R148, R174, R255, R279, R287): it waits until the handler's results have landed and its queues are empty; then what is due
at the tick of FTICK lands, the context is back in user mode, its marked entries are performed again and its suspended commands
go on. -/
def execEret (s : State) : Host.Outcome State Fault Refusal :=
  slotOp .eret (do
    let cur := (← get).cur
    modify (fun s => s.retakeShapes cur)
    updCoreA (fun k => (k.eret cur.ctx).updCtx cur.ctx (fun c => { c with user := c.user.updQ redoMarks }))
    modify (fun s => s.unsuspend cur)) s

end Sys2Proof.Machine
end

