-- ==== Sys2Proof/Machine/Vector.lean ====
section
/-! DEFINITION. The template of the vector slots (R193 to R196, R199): sources read whole, one result for each enabled
element, and the results that land in vector registers, queues and predicate registers. -/

namespace Sys2Proof.Machine

/-- A vector result of one value and some flags for each enabled element of e bits (R196, R215). -/
def vOut (i : Instr) (h : VHdr) (e lat : Nat) (d : Spec) (r : Nat → Nat × Flags) : Act Unit := do
  let p ← predOf h
  let rs := (List.range (h.width.bits / e)).map (fun k => if enabled h p e k then r k else (0, 0))
  dstV i h e lat d (rs.map (·.1)) (rs.foldl (fun f x => f ||| x.2) 0)

/-- Element by element from one source. -/
def vMap1 (i : Instr) (h : VHdr) (e lat : Nat) (d a : Spec) (F : Nat → Nat × Flags) : Act Unit := do
  let a ← srcV i h.slot a
  vOut i h e lat d (fun k => F (elemOf a e k))

/-- Element by element from two sources. -/
def vMap2 (i : Instr) (h : VHdr) (e lat : Nat) (d a b : Spec) (F : Nat → Nat → Nat × Flags) : Act Unit := do
  let a ← srcV i h.slot a
  let b ← srcV i h.slot b
  vOut i h e lat d (fun k => F (elemOf a e k) (elemOf b e k))

/-- Element by element from three sources. -/
def vMap3 (i : Instr) (h : VHdr) (e lat : Nat) (d a b c : Spec) (F : Nat → Nat → Nat → Nat × Flags) : Act Unit := do
  let a ← srcV i h.slot a
  let b ← srcV i h.slot b
  let c ← srcV i h.slot c
  vOut i h e lat d (fun k => F (elemOf a e k) (elemOf b e k) (elemOf c e k))

/-- From one source whole: element k of the result from all of it. -/
def vWhole1 (i : Instr) (h : VHdr) (e lat : Nat) (d a : Spec) (F : VWord → Nat → Nat × Flags) : Act Unit := do
  let a ← srcV i h.slot a
  vOut i h e lat d (F a)

/-- From two sources whole. -/
def vWhole2 (i : Instr) (h : VHdr) (e lat : Nat) (d a b : Spec) (F : VWord → VWord → Nat → Nat × Flags) : Act Unit := do
  let a ← srcV i h.slot a
  let b ← srcV i h.slot b
  vOut i h e lat d (F a b)

/-- From three sources whole. -/
def vWhole3 (i : Instr) (h : VHdr) (e lat : Nat) (d a b c : Spec) (F : VWord → VWord → VWord → Nat → Nat × Flags) :
    Act Unit := do
  let a ← srcV i h.slot a
  let b ← srcV i h.slot b
  let c ← srcV i h.slot c
  vOut i h e lat d (F a b c)

/-- Byte-lane bits of some elements of e bits. -/
def laneBits (e : Nat) (l : List (Nat × Bool)) : PWord :=
  BitVec.ofNat 128 (l.foldl (fun a x => if x.2 then a + (2 ^ (e / 8) - 1) * 2 ^ (x.1 * (e / 8)) else a) 0)

/-- A comparison's result in a predicate register (R199). -/
def vCompare (i : Instr) (h : VHdr) (e : Nat) (pd : BitVec 4) (a b : Spec) (F : Nat → Nat → Bool) : Act Unit := do
  let a ← srcV i h.slot a
  let b ← srcV i h.slot b
  let p ← predOf h
  let ks := List.range (h.width.bits / e)
  let mask := laneBits e (ks.map (fun k => (k, enabled h p e k)))
  let val := laneBits e (ks.map (fun k => (k, F (elemOf a e k) (elemOf b e k))))
  dstP i 2 pd val mask h.width.bits

/-- A result without flags. -/
def plain (n : Nat) : Nat × Flags := (n, 0)

end Sys2Proof.Machine
end

