-- ==== Sys2Proof/Machine/VecFloat.lean ====
section
/-! DEFINITION. Floating arithmetic, comparison, classification, conversion and the transcendentals of the vector slots
(R214 to R221, R67, R68). -/

namespace Sys2Proof.Machine

/-- VFADD (R216). -/
def execVfadd (h : VHdr) (f : Fmt) (d a b : Spec) (s : State) : Host.Outcome State Fault Refusal :=
  slotOp (.vfadd h f d a b) (vMap2 (.vfadd h f d a b) h f.bits 4 d a b (faddPat f)) s

/-- The rounded difference of two patterns. -/
def fsubPat (f : Fmt) (a b : Nat) : Nat × Flags :=
  let (v, fl) := (decodeF f a).add (decodeF f b).neg
  let (p, fl') := roundNE f v
  (p, fl ||| fl')

/-- VFSUB (R216). -/
def execVfsub (h : VHdr) (f : Fmt) (d a b : Spec) (s : State) : Host.Outcome State Fault Refusal :=
  slotOp (.vfsub h f d a b) (vMap2 (.vfsub h f d a b) h f.bits 4 d a b (fsubPat f)) s

/-- VFMUL (R216). -/
def execVfmul (h : VHdr) (f : Fmt) (d a b : Spec) (s : State) : Host.Outcome State Fault Refusal :=
  slotOp (.vfmul h f d a b) (vMap2 (.vfmul h f d a b) h f.bits 4 d a b (fmulPat f)) s

/-- VFMA (R216). -/
def execVfma (h : VHdr) (f : Fmt) (d a b c : Spec) (np nc : Bool) (s : State) : Host.Outcome State Fault Refusal :=
  slotOp (.vfma h f d a b c np nc) (vMap3 (.vfma h f d a b c np nc) h f.bits 4 d a b c (fun x y z =>
    let x := decodeF f x
    let z := decodeF f z
    ffma f (if np then x.neg else x) (decodeF f y) (if nc then z.neg else z))) s

/-- VFMIN (R65, R216). -/
def execVfmin (h : VHdr) (f : Fmt) (d a b : Spec) (s : State) : Host.Outcome State Fault Refusal :=
  slotOp (.vfmin h f d a b) (vMap2 (.vfmin h f d a b) h f.bits 2 d a b (fun x y => plain (fminPat f x y))) s

/-- VFMAX (R65, R216). -/
def execVfmax (h : VHdr) (f : Fmt) (d a b : Spec) (s : State) : Host.Outcome State Fault Refusal :=
  slotOp (.vfmax h f d a b) (vMap2 (.vfmax h f d a b) h f.bits 2 d a b (fun x y => plain (fmaxPat f x y))) s

/-- The sign that a pattern supplies: a NaN supplies 0 (R216). -/
def signSupplied (f : Fmt) (b : Nat) : Bool := !(decodeF f b).isNaN && b.testBit (f.bits - 1)

/-- VFSGN (R216). -/
def execVfsgn (h : VHdr) (f : Fmt) (d a b : Spec) (m : BitVec 2) (s : State) : Host.Outcome State Fault Refusal :=
  slotOp (.vfsgn h f d a b m) (vMap2 (.vfsgn h f d a b m) h f.bits 2 d a b (fun x y =>
    let sb := signSupplied f y
    let sign := match m.toNat with
      | 0 => sb
      | 1 => !sb
      | _ => x.testBit (f.bits - 1) != sb
    plain (if (decodeF f x).isNaN then f.nanPat else x % 2 ^ (f.bits - 1) + f.signPat sign))) s

/-- VFCMP (R217). -/
def execVfcmp (h : VHdr) (f : Fmt) (pd : BitVec 4) (a b : Spec) (c : FCond) (s : State) : Host.Outcome State Fault Refusal :=
  slotOp (.vfcmp h f pd a b c) (vCompare (.vfcmp h f pd a b c) h f.bits pd a b
    (fun x y => c.holds (decodeF f x) (decodeF f y))) s

/-- The class code of a pattern (R218). -/
def classOf (f : Fmt) (x : Nat) : Nat :=
  match decodeF f x with
  | .nan => 8
  | .inf neg => if neg then 0 else 7
  | .fin neg m _ =>
    let sub := x / 2 ^ f.fbits % 2 ^ f.ebits == 0
    if m = 0 then (if neg then 3 else 4)
    else if sub then (if neg then 2 else 5)
    else (if neg then 1 else 6)

/-- VFCLASS (R218). -/
def execVfclass (h : VHdr) (f : Fmt) (d a : Spec) (s : State) : Host.Outcome State Fault Refusal :=
  slotOp (.vfclass h f d a) (vMap1 (.vfclass h f d a) h f.bits 2 d a (fun x => plain (classOf f x))) s

/-- A draw of the context's generator, taken at issue (R52, R54). -/
def drawStochastic : Act (BitVec 32) := do
  let (g, r) := drawStep (← getMe).seed
  updMeA (fun c => { c with seed := g })
  return r

/-- One value converted (R42, R43, R55, R56, R219). -/
def cvtElem (dst src : Fmt) (rm : Rounding) (draw : BitVec 32) (x : Nat) : Nat × Flags :=
  let v := if src.isInt then ofInt (intVal src x) 0 else decodeF src x
  if dst.isInt then floatToInt dst rm draw v else roundF dst rm draw v

/-- What position j of a VFCVT takes: a source element to convert, or the element of b (R220). -/
def cvtFrom (w : Nat) (dst src : Fmt) (q j : Nat) : Option Nat :=
  let e := w / max src.bits dst.bits
  if src.bits ≤ dst.bits then some (j + q * e)
  else if q * e ≤ j && j < q * e + e then some (j - q * e)
  else none

/-- Draws for some positions in ascending order, under the stochastic mode alone (R54). -/
def drawsFor (rm : Rounding) (takes : List Bool) : Act (List (BitVec 32)) :=
  takes.mapM (fun t => if t && rm == .rs then drawStochastic else pure 0)

/-- VFCVT (R219, R220). -/
def execVfcvt (h : VHdr) (dst src : Fmt) (d a b : Spec) (q : BitVec 6) (rm : Rounding) (s : State) :
    Host.Outcome State Fault Refusal :=
  let i := Instr.vfcvt h dst src d a b q rm
  slotOp i (do
    let a ← srcV i h.slot a
    let b ← srcV i h.slot b
    let p ← predOf h
    let w := h.width.bits
    let ks := List.range (w / dst.bits)
    let ds ← drawsFor rm (ks.map (fun k => enabled h p dst.bits k && (cvtFrom w dst src q.toNat k).isSome))
    vOut i h dst.bits 3 d (fun k =>
      match cvtFrom w dst src q.toNat k with
      | some n => cvtElem dst src rm (ds.getD k 0) (elemOf a src.bits n)
      | none => plain (elemOf b dst.bits k))) s

-- Transcendentals -----------------------------------------------------------------------------------------------

/-- 2^a or e^a with the special operands of R68. -/
def expPat (op : Nat) (f : Fmt) (base2 : Bool) (x : Nat) : Nat × Flags :=
  match decodeF f x with
  | .nan => plain f.nanPat
  | .inf neg => plain (if neg then 0 else f.infPat false)
  | .fin neg m e => expOf op f base2 neg m e

/-- VFEXP2 (R67, R68, R221). -/
def execVfexp2 (h : VHdr) (f : Fmt) (d a : Spec) (s : State) : Host.Outcome State Fault Refusal :=
  slotOp (.vfexp2 h f d a) (vMap1 (.vfexp2 h f d a) h f.bits 8 d a (expPat 0 f true)) s

/-- VFEXP (R67, R68, R221). -/
def execVfexp (h : VHdr) (f : Fmt) (d a : Spec) (s : State) : Host.Outcome State Fault Refusal :=
  slotOp (.vfexp h f d a) (vMap1 (.vfexp h f d a) h f.bits 8 d a (expPat 1 f false)) s

/-- log2 a or ln a with the special operands of R68; an infinite result of a finite operand sets overflow (R57). -/
def logPat (op : Nat) (f : Fmt) (base2 : Bool) (x : Nat) : Nat × Flags :=
  match decodeF f x with
  | .nan => plain f.nanPat
  | .inf neg => if neg then (f.nanPat, flInvalid) else plain (f.infPat false)
  | .fin neg m e =>
    if m = 0 then (f.infPat true, flOverflow)
    else if neg then (f.nanPat, flInvalid)
    else logOf op f base2 m e

/-- VFLOG2 (R67, R68, R221). -/
def execVflog2 (h : VHdr) (f : Fmt) (d a : Spec) (s : State) : Host.Outcome State Fault Refusal :=
  slotOp (.vflog2 h f d a) (vMap1 (.vflog2 h f d a) h f.bits 8 d a (logPat 2 f true)) s

/-- VFLOG (R67, R68, R221). -/
def execVflog (h : VHdr) (f : Fmt) (d a : Spec) (s : State) : Host.Outcome State Fault Refusal :=
  slotOp (.vflog h f d a) (vMap1 (.vflog h f d a) h f.bits 8 d a (logPat 3 f false)) s

/-- VFRCP (R57, R67, R68, R221). -/
def execVfrcp (h : VHdr) (f : Fmt) (d a : Spec) (s : State) : Host.Outcome State Fault Refusal :=
  slotOp (.vfrcp h f d a) (vMap1 (.vfrcp h f d a) h f.bits 8 d a (fun x =>
    match decodeF f x with
    | .nan => plain f.nanPat
    | .inf neg => plain (f.signPat neg)
    | .fin neg m e => if m = 0 then (f.infPat neg, flOverflow) else rcpOf 4 f neg m e)) s

/-- VFRSQ (R57, R67, R68, R221). -/
def execVfrsq (h : VHdr) (f : Fmt) (d a : Spec) (s : State) : Host.Outcome State Fault Refusal :=
  slotOp (.vfrsq h f d a) (vMap1 (.vfrsq h f d a) h f.bits 8 d a (fun x =>
    match decodeF f x with
    | .nan => plain f.nanPat
    | .inf neg => if neg then (f.nanPat, flInvalid) else plain 0
    | .fin neg m e =>
      if m = 0 then (f.infPat neg, flOverflow)
      else if neg then (f.nanPat, flInvalid)
      else rsqOf 5 f m e)) s

/-- VFTANH (R67, R68, R221). -/
def execVftanh (h : VHdr) (f : Fmt) (d a : Spec) (s : State) : Host.Outcome State Fault Refusal :=
  slotOp (.vftanh h f d a) (vMap1 (.vftanh h f d a) h f.bits 8 d a (fun x =>
    match decodeF f x with
    | .nan => plain f.nanPat
    | .inf neg => plain (f.signPat neg + (roundNE f (.fin false 1 0)).1)
    | .fin neg m e => plain (if m = 0 then x else f.signPat neg + tanhOf f (x % 2 ^ (f.bits - 1)) m e))) s

end Sys2Proof.Machine
end

