-- ==== Sys2Proof/Machine/Quant.lean ====
section
/-! DEFINITION. Quantisation (R222 to R226), the skive readers (R227), and the tree unit (R64 to R66, R228, R229). -/

namespace Sys2Proof.Machine

/-- Elements of a block and the number of blocks of an operation (R222). -/
def blockLen (n : Nat) : Nat := min 32 n
def blocksOf (n : Nat) : Nat := max 1 (n / 32)

/-- The element numbers of block j. -/
def blockIdx (n j : Nat) : List Nat := (List.range (blockLen n)).map (32 * j + ·)

/-- The values of a block's elements; one that is off counts as +0. -/
def blockVals (h : VHdr) (p : PWord) (f : Fmt) (v : VWord) (j : Nat) : List FVal :=
  (blockIdx (h.elems f) j).map (fun k => if enabled h p f.bits k then decodeF f (elemOf v f.bits k) else .fin false 0 0)

/-- The largest magnitude of some values; a NaN among them gives a NaN. -/
def amaxOf (l : List FVal) : FVal := l.foldl maxMag (.fin false 0 0)

/-- VAMAX (R223). -/
def execVamax (h : VHdr) (f : Fmt) (d a c : Spec) (s : State) : Host.Outcome State Fault Refusal :=
  let i := Instr.vamax h f d a c
  slotOp i (do
    let a ← srcV i h.slot a
    let c ← srcV i h.slot c
    let p ← predOf h
    vOut i h f.bits 4 d (fun k =>
      plain (fmaxPat f (elemOf c f.bits k) (roundNE f (amaxOf (blockVals h p f a (k / 32)))).1))) s

/-- The third-largest and the largest magnitude as the .ol form uses them (R224). -/
def olAmax (l : List FVal) : FVal :=
  let sorted := (l.map FVal.abs).mergeSort (fun a b => !a.lt b)
  if l.any FVal.isNaN then .nan
  else maxMag (sorted.getD 2 (.fin false 0 0)) ((sorted.getD 0 (.fin false 0 0)).scale (-6))

/-- The enabled values of a block. -/
def blockOn (h : VHdr) (p : PWord) (f : Fmt) (v : VWord) (j : Nat) : List FVal :=
  ((blockIdx (h.elems f) j).filter (fun k => enabled h p f.bits k)).map (fun k => decodeF f (elemOf v f.bits k))

/-- VSCL (R69, R224). -/
def execVscl (h : VHdr) (f : Fmt) (d a : Spec) (t : QTarget) (ol : Bool) (s : State) : Host.Outcome State Fault Refusal :=
  let i := Instr.vscl h f d a t ol
  slotOp i (do
    let a ← srcV i h.slot a
    let p ← predOf h
    let cs := (List.range (blocksOf (h.elems f))).map (fun j =>
      let l := blockOn h p f a j
      scaleCode t.bound (if ol then olAmax l else amaxOf l))
    dstWhole i h 3 d (BitVec.ofNat 1024 (packElems 8 (cs.map (·.1)))) (cs.foldl (fun fl c => fl ||| c.2) 0)) s

/-- One element quantised to a byte under a scale code (R225). -/
def quantByte (t : QTarget) (rm : Rounding) (draw : BitVec 32) (c : Nat) (on : Bool) (v : FVal) : Nat × Flags :=
  let fmt : Fmt := match t with | .e5m2 => .e5m2 | _ => .e4m3
  if c = 0xFF then (match t with | .s8 => plain 0 | _ => plain fmt.nanPat)
  else
    let q := if on then v.scale (-(e8Exp c)) else .fin false 0 0
    match t with
    | .s8 =>
      match q with
      | .nan => (0, flInvalid)
      | .inf neg => plain (wrapTo 8 (if neg then -127 else 127))
      | .fin n m e => plain (wrapTo 8 (clampInt (-127) 127 (roundInt rm draw n m e)))
    | _ => roundF fmt rm draw q

/-- A block quantised as O4 under a scale code (R50, R225): an element that is off is +0 and no candidate. -/
def quantO4 (rm : Rounding) (c : Nat) (xs : List (Bool × FVal × BitVec 32)) : List Byte × Flags :=
  if c = 0xFF then (List.replicate 18 0 ++ [0xFF, 0], flInvalid)
  else o4Pack rm c (xs.map (fun x => { q := if x.1 then x.2.1.scale (-(e8Exp c)) else .fin false 0 0, draw := if x.1 then x.2.2 else 0 }))

/-- VQNT (R225). -/
def execVqnt (h : VHdr) (f : Fmt) (d a b : Spec) (t : QTarget) (rm : Rounding) (s : State) :
    Host.Outcome State Fault Refusal :=
  let i := Instr.vqnt h f d a b t rm
  slotOp i (do
    let a ← srcV i h.slot a
    let b ← srcV i h.slot b
    let p ← predOf h
    let n := h.elems f
    let ds ← drawsFor rm ((List.range n).map (fun k => enabled h p f.bits k))
    let val (k : Nat) : FVal := decodeF f (elemOf a f.bits k)
    if t = .o4 then
      let bs := (List.range (n / 32)).map (fun j =>
        quantO4 rm (elemOf b 8 j) ((blockIdx n j).map (fun k => (enabled h p f.bits k, val k, ds.getD k 0))))
      dstWhole i h 4 d (BitVec.ofNat 1024 (bytesNat (bs.flatMap (·.1)))) (bs.foldl (fun fl x => fl ||| x.2) 0)
    else
      let rs := (List.range n).map (fun k => quantByte t rm (ds.getD k 0) (elemOf b 8 (k / 32)) (enabled h p f.bits k) (val k))
      let nanBlock := (List.range (blocksOf n)).any (fun j => elemOf b 8 j == 0xFF)
      dstWhole i h 4 d (BitVec.ofNat 1024 (packElems 8 (rs.map (·.1))))
        (rs.foldl (fun fl x => fl ||| x.2) (if nanBlock then flInvalid else 0))) s

/-- The exact value of packed element k under its scale, with the flags of its decode (R48, R226). -/
def dequantElem (t : QTarget) (a b : VWord) (k : Nat) : FVal × Flags :=
  let byteA (n : Nat) : Nat := elemOf a 8 n
  match t with
  | .o4 =>
    let blk := (List.range 20).map (fun n => BitVec.ofNat 8 (byteA (20 * (k / 32) + n)))
    match (o4Decode blk)[k % 32]? with
    | some e =>
      let (v, fl) := e.scaled (byteA (20 * (k / 32) + 18))
      (v, fl ||| (if e.marker then flInvalid else 0))
    | none => (.fin false 0 0, 0)
  | .s8 => (ofInt (intVal .s8 (byteA k)) 0).scaleE8 (elemOf b 8 (k / 32))
  | .e4m3 => (decodeF .e4m3 (byteA k)).scaleE8 (elemOf b 8 (k / 32))
  | .e5m2 => (decodeF .e5m2 (byteA k)).scaleE8 (elemOf b 8 (k / 32))

/-- VDQNT (R226). -/
def execVdqnt (h : VHdr) (f : Fmt) (d a b : Spec) (t : QTarget) (s : State) : Host.Outcome State Fault Refusal :=
  slotOp (.vdqnt h f d a b t) (vWhole2 (.vdqnt h f d a b t) h f.bits 4 d a b (fun a b k =>
    let (v, fl) := dequantElem t a b k
    let (r, fl2) := roundNE f v
    (r, fl ||| fl2))) s

-- Skive readers -------------------------------------------------------------------------------------------------

/-- A floating element moved: a NaN becomes the canonical one (R215). -/
def canonF (f : Fmt) (x : Nat) : Nat := if f.isFF && (decodeF f x).isNaN then f.nanPat else x

/-- VRELUB (R227). -/
def execVrelub (h : VHdr) (f : Fmt) (d b : Spec) (s : State) : Host.Outcome State Fault Refusal :=
  slotOp (.vrelub h f d b) (vWhole2 (.vrelub h f d b) h f.bits 2 d .kq b
    (fun q b k => plain (if bit q k then canonF f (elemOf b f.bits k) else 0))) s

/-- VMAXB (R227). -/
def execVmaxb (h : VHdr) (f : Fmt) (d b : Spec) (w : BitVec 4) (s : State) : Host.Outcome State Fault Refusal :=
  slotOp (.vmaxb h f d b w) (vWhole2 (.vmaxb h f d b w) h f.bits 3 d .kq b
    (fun q b k => plain (if bit q k then canonF f (elemOf b f.bits (k / (w.toNat + 1))) else 0))) s

/-- VMSKB (R227). -/
def execVmskb (h : VHdr) (f : Fmt) (d b : Spec) (s : State) : Host.Outcome State Fault Refusal :=
  slotOp (.vmskb h f d b) (vWhole2 (.vmskb h f d b) h f.bits 2 d .kq b
    (fun q b k => plain (if bit q k then canonF f (elemOf b f.bits k) else 0))) s

/-- VKFULL (R227). -/
def execVkfull (h : VHdr) (f : Fmt) (d : Spec) (s : State) : Host.Outcome State Fault Refusal :=
  slotOp (.vkfull h f d) (vMap1 (.vkfull h f d) h f.bits 2 d .kq plain) s

-- The tree unit -------------------------------------------------------------------------------------------------

/-- One level of the balanced tree: adjacent values combined, the lower on the left (R64). -/
def treeLevel {α : Type} (op : α → α → α) : List α → List α
  | x :: y :: r => op x y :: treeLevel op r
  | l => l

/-- The balanced tree over the levels that n bounds. -/
def treeReduce {α : Type} (op : α → α → α) (d : α) : Nat → List α → α
  | 0, l => l.headD d
  | n + 1, l => treeReduce op d n (treeLevel op l)

/-- The tree over 2^levels values; 10 levels cover every operation. -/
def treeOf {α : Type} (op : α → α → α) (d : α) (l : List α) : α := treeReduce op d 10 l

/-- The aligned blocks that cover lanes 0 to i, the largest first, as first lane and length (R66). -/
def scanBlocks : Nat → Nat → Nat → List (Nat × Nat)
  | 0, _, _ => []
  | b + 1, base, n => if 2 ^ b ≤ n then (base, 2 ^ b) :: scanBlocks b (base + 2 ^ b) (n - 2 ^ b) else scanBlocks b base n

/-- The prefix of lane i. -/
def scanPrefix {α : Type} (op : α → α → α) (d : α) (l : List α) (i : Nat) : α :=
  match (scanBlocks 11 0 (i + 1)).map (fun b => treeOf op d ((l.drop b.1).take b.2)) with
  | [] => d
  | x :: r => r.foldl op x

/-- The combination of the tree unit: a 64-bit pattern, the FP32 value in its low half for a floating format, and the
flags so far (R64, R228). -/
def treeOp (op : TreeOp) (f : Fmt) (x y : Nat × Flags) : Nat × Flags :=
  let fl := x.2 ||| y.2
  if f.isFA then
    match op with
    | .sum => let (r, g) := faddPat .f32 x.1 y.1; (r, fl ||| g)
    | .max => (fmaxPat .f32 x.1 y.1, fl)
    | _ => (fminPat .f32 x.1 y.1, fl)
  else
    match op with
    | .sum => ((x.1 + y.1) % 2 ^ 64, fl)
    | .max => (if f.isSigned then (if intVal .s64 x.1 < intVal .s64 y.1 then y.1 else x.1) else max x.1 y.1, fl)
    | .min => (if f.isSigned then (if intVal .s64 y.1 < intVal .s64 x.1 then y.1 else x.1) else min x.1 y.1, fl)
    | .and => (x.1 &&& y.1, fl)
    | .or => (x.1 ||| y.1, fl)
    | .xor => (x.1 ^^^ y.1, fl)

/-- The identity of an operator (R64). R64 says of `and` only "all ones" and no width, which shows where every lane is off: all
64 bits of the result, DESIGN CHOICE (log entry 75). -/
def treeIdentity (op : TreeOp) (f : Fmt) : Nat :=
  if f.isFA then
    match op with
    | .sum => 0x80000000
    | .max => 0xFF800000
    | _ => 0x7F800000
  else
    match op with
    | .sum | .or | .xor => 0
    | .max => wrapTo 64 (intMin f.isSigned f.bits)
    | .min => wrapTo 64 (intMax f.isSigned f.bits)
    | .and => 2 ^ 64 - 1

/-- A lane as the tree takes it: extended to 64 bits, or widened to FP32 (R64, R228). -/
def treeLane (f : Fmt) (x : Nat) : Nat :=
  if f.isFA then (roundNE .f32 (decodeF f x)).1 else wrapTo 64 (intVal f x)

/-- The lanes of an operation; an inactive lane gives the identity. -/
def treeLanes (h : VHdr) (p : PWord) (f : Fmt) (op : TreeOp) (v : VWord) : List (Nat × Flags) :=
  (List.range (h.elems f)).map (fun k =>
    plain (if enabled h p f.bits k then treeLane f (elemOf v f.bits k) else treeIdentity op f))

/-- The S-file destination of the tree unit (R228). -/
def dstTree (i : Instr) (sp : Spec) (v : Word) (flags : Flags) : Act Unit := do
  let c ← getMe
  match sp with
  | .reg n => emit i 9 (c.effS n v) flags
  | .rel n => emit i 9 (c.effS (relReg c.bs n) v) flags
  | _ => emit i 9 .flagsOnly flags

/-- VRED (R64, R65, R228). -/
def execVred (h : VHdr) (f : Fmt) (d a : Spec) (op : TreeOp) (s : State) : Host.Outcome State Fault Refusal :=
  let i := Instr.vred h f d a op
  slotOp i (do
    let a ← srcV i h.slot a
    let p ← predOf h
    let (r, fl) := treeOf (treeOp op f) (0, 0) (treeLanes h p f op a)
    dstTree i d (BitVec.ofNat 64 r) fl) s

/-- The element that a prefix gives (R229). -/
def scanElem (f : Fmt) (r : Nat × Flags) : Nat × Flags :=
  if f.isFA then let (x, fl) := roundNE f (decodeF .f32 r.1); (x, r.2 ||| fl) else (r.1 % 2 ^ f.bits, r.2)

/-- VSCAN (R66, R229): the flags are those of every prefix that is formed. -/
def execVscan (h : VHdr) (f : Fmt) (d a sd : Spec) (op : TreeOp) (s : State) : Host.Outcome State Fault Refusal :=
  let i := Instr.vscan h f d a sd op
  slotOp i (do
    let a ← srcV i h.slot a
    let p ← predOf h
    let lanes := treeLanes h p f op a
    let pre := (List.range (h.elems f)).map (scanPrefix (treeOp op f) (0, 0) lanes)
    let es := pre.map (scanElem f)
    let all := pre.foldl (fun fl r => fl ||| r.2) 0
    vOut i h f.bits 9 d (fun k => es.getD k (0, 0))
    dstTree i sd (BitVec.ofNat 64 ((pre.getLast?.getD (0, 0)).1)) all) s

end Sys2Proof.Machine
end

