-- ==== Sys2Proof/Machine/Windows.lean ====
section
/-! DEFINITION. The parts of a core window that are not memory: register files (R109), accumulators (R232) and counting flags
(R327, R419), byte by byte. -/

namespace Sys2Proof.Machine

-- The register window -------------------------------------------------------------------------------------------

/-- A register of the register window (R109). -/
inductive RegLoc where
  | s (n : BitVec 5) | a (n : BitVec 5) | l (n : BitVec 3) | x (n : BitVec 4) | y (n : BitVec 3) | p (n : BitVec 4)
  | base (b : Base) | ring | sticky | seed
  | v (n : BitVec 5) | w (n : BitVec 5) | k (n : BitVec 4)
  deriving DecidableEq, Repr

/-- The register at an offset of a context's window and the byte of it; none is reserved. -/
def regLoc (o : Nat) : Option (RegLoc × Nat) :=
  if o < 0x100 then some (.s (BitVec.ofNat 5 (o / 8)), o % 8)
  else if o < 0x200 then some (.a (BitVec.ofNat 5 ((o - 0x100) / 8)), o % 8)
  else if o < 0x240 then some (.l (BitVec.ofNat 3 ((o - 0x200) / 8)), o % 8)
  else if o < 0x2C0 then some (.x (BitVec.ofNat 4 ((o - 0x240) / 8)), o % 8)
  else if o < 0x300 then some (.y (BitVec.ofNat 3 ((o - 0x2C0) / 8)), o % 8)
  else if o < 0x400 then some (.p (BitVec.ofNat 4 ((o - 0x300) / 16)), o % 16)
  else if o < 0x420 then
    some (.base (match (o - 0x400) / 8 with | 0 => .bs | 1 => .ba | 2 => .bv | _ => .bw), o % 8)
  else if o < 0x428 then some (.ring, o % 8)
  else if o < 0x430 then some (.sticky, o % 8)
  else if o < 0x438 then some (.seed, o % 8)
  else if 0x1000 ≤ o && o < 0x2000 then some (.v (BitVec.ofNat 5 ((o - 0x1000) / 128)), o % 128)
  else if 0x2000 ≤ o && o < 0x3000 then some (.w (BitVec.ofNat 5 ((o - 0x2000) / 128)), o % 128)
  else if 0x3000 ≤ o && o < 0x3800 then some (.k (BitVec.ofNat 4 ((o - 0x3000) / 128)), o % 128)
  else none

/-- A register's landed value (R280). -/
def Context.getLoc (c : Context) : RegLoc → Nat
  | .s n => (c.s.get n).toNat | .a n => (c.readA n).toNat | .l n => (c.l.get n).toNat | .x n => (c.readX n).toNat
  | .y n => (c.y.get n).toNat | .p n => (c.p.get n).toNat
  | .base .bs => c.bs.toNat | .base .ba => c.ba.toNat | .base .bv => c.bv.toNat | .base .bw => c.bw.toNat
  | .ring => (c.ringOff ++ c.ringLen).toNat | .sticky => c.sticky.toNat | .seed => c.seed.toNat
  | .v n => (c.v.get n).toNat | .w n => (c.w.get n).toNat | .k n => (c.k.get n).toNat

/-- A register written through the window (R280). -/
def Context.setLoc (c : Context) (r : RegLoc) (v : Nat) : Context :=
  match r with
  | .s n => { c with s := c.s.put n (BitVec.ofNat 64 v) }
  | .a n => if n.toNat < 24 then { c with a := c.a.put n (BitVec.ofNat 64 v) }
    else { c with d := c.d.put (c.ringCell (n.extractLsb' 0 3)) (BitVec.ofNat 64 v) }
  | .l n => { c with l := c.l.put n (BitVec.ofNat 64 v) }
  | .x n => if n.toNat < 8 then { c with x := c.x.put (n.extractLsb' 0 3) (BitVec.ofNat 64 v) }
    else { c with d := c.d.put (c.ringCell (n.extractLsb' 0 3)) (BitVec.ofNat 64 v) }
  | .y n => { c with y := c.y.put n (BitVec.ofNat 64 v) }
  | .p n => { c with p := c.p.put n (BitVec.ofNat 128 v) }
  | .base .bs => { c with bs := BitVec.ofNat 5 v } | .base .ba => { c with ba := BitVec.ofNat 5 v }
  | .base .bv => { c with bv := BitVec.ofNat 5 v } | .base .bw => { c with bw := BitVec.ofNat 5 v }
  | .ring => c.writeSys 4 (BitVec.ofNat 64 v)
  | .sticky => c.writeSys 0 (BitVec.ofNat 64 v)
  | .seed => { c with seed := BitVec.ofNat 64 v }
  | .v n => { c with v := c.v.put n (BitVec.ofNat 1024 v) }
  | .w n => { c with w := c.w.put n (BitVec.ofNat 1024 v) }
  | .k n => { c with k := c.k.put n (BitVec.ofNat 1024 v) }

/-- A byte of a number, and the number with a byte replaced. -/
def natByte (v b : Nat) : Byte := BitVec.ofNat 8 (v / 2 ^ (8 * b) % 256)
def setNatByte (v b : Nat) (x : Byte) : Nat := v - (v / 2 ^ (8 * b) % 256) * 2 ^ (8 * b) + x.toNat * 2 ^ (8 * b)

/-- A byte of the register part of a core window; reserved bytes read zero (R7, R109). -/
def State.regByte (s : State) (core : CoreId) (o : Nat) : Byte :=
  match regLoc (o % 0x4000) with
  | some (r, b) => natByte (((s.core core).ctx (BitVec.ofNat 2 (o / 0x4000))).getLoc r) b
  | none => 0
def State.setRegByte (s : State) (core : CoreId) (o : Nat) (x : Byte) : State :=
  match regLoc (o % 0x4000) with
  | some (r, b) => s.updCtx { core := core, ctx := BitVec.ofNat 2 (o / 0x4000) } (fun c => c.setLoc r (setNatByte (c.getLoc r) b x))
  | none => s

/-- A byte of the accumulator part: landed words (R232, R240). -/
def State.accByte (s : State) (core : CoreId) (o : Nat) : Byte :=
  natByte (accWord ((s.core core).accLanded (BitVec.ofNat 3 (o / 0x4000))) (o % 0x4000 / 4)).toNat (o % 4)
def State.setAccByte (s : State) (core : CoreId) (o : Nat) (x : Byte) : State :=
  let n := BitVec.ofNat 3 (o / 0x4000)
  let w := o % 0x4000 / 4
  s.updCore core (fun k =>
    let ws := (List.range 4096).map (accWord (k.accLanded n))
    let v := BitVec.ofNat 32 (setNatByte (ws.getD w 0).toNat (o % 4) x)
    { k with acc := k.acc.set n.toNat (ws.set w v) n.isLt })

/-- A byte of the flag part: flag n stands at offset 4n (R327, R419). -/
def State.flagByte (s : State) (core : CoreId) (o : Nat) : Byte := natByte ((s.core core).flag (BitVec.ofNat 5 (o / 4))).toNat (o % 4)

/-- The core and the offset of an address in the flag part of a window (R419). -/
def State.flagPart (s : State) (part : BitVec 6) (va : Nat) : Option (CoreId × Nat) :=
  let off := va % 2 ^ 24
  if windowBase ≤ va && va < windowEnd && 0xC00000 ≤ off && off < 0xC00080 then
    ((s.part part).harness[(va - windowBase) / 2 ^ 24]?).map (fun g => (g, off - 0xC00000))
  else none

end Sys2Proof.Machine
end

