-- ==== Sys2Proof/Machine/Records.lean ====
section
/-! DEFINITION. Skived records: header and its checks (R116 to R118, R123), what a store derives from its elements (R119,
R120), what an entry of kq holds and draws on (R123, R124), sufficiency (R127), retagging (R128) and the debug port's
view (R130, R366, R367). -/

namespace Sys2Proof.Machine

/-- A record header (R117). -/
structure Header where
  rev : Nat
  cls : Nat
  form : Nat
  fmtCode : Nat
  rows : Nat
  cols : Nat
  window : Nat
  flags : Nat
  payload : Nat
  reserved : Nat
  deriving DecidableEq, Repr

/-- The header of 16 bytes. -/
def headerOf (b : List Byte) : Header :=
  { rev := fieldNat b 0 1, cls := fieldNat b 1 1, form := fieldNat b 2 1 % 16, fmtCode := fieldNat b 2 1 / 16,
    rows := fieldNat b 3 2, cols := fieldNat b 5 2, window := fieldNat b 7 1, flags := fieldNat b 8 1,
    payload := fieldNat b 9 4, reserved := fieldNat b 13 3 }

/-- The 16 bytes of a header. -/
def Header.bytes (h : Header) : List Byte :=
  natBytes 1 h.rev ++ natBytes 1 h.cls ++ natBytes 1 (h.form + 16 * h.fmtCode) ++ natBytes 2 h.rows ++
    natBytes 2 h.cols ++ natBytes 1 h.window ++ natBytes 1 h.flags ++ natBytes 4 h.payload ++ natBytes 3 h.reserved

/-- The form of a class (R118). -/
def formOf (cls : Nat) (e4 : Bool) : Nat :=
  match cls with
  | 1 => 1 | 2 => 2 | 3 => if e4 then 4 else 3 | 4 => 5 | 5 => 6 | _ => 0

def Header.fmt? (h : Header) : Option Fmt := Fmt.ofCode (BitVec.ofNat 4 h.fmtCode)
def Header.fmt (h : Header) : Fmt := h.fmt?.getD .f32
def Header.e4 (h : Header) : Bool := h.form == 4
def Header.n (h : Header) : Nat := h.rows * h.cols

/-- The consistency checks of R123 but for the revision and the class expected. -/
def Header.consistent (h : Header) : Bool :=
  match h.fmt? with
  | none => false
  | some f =>
    1 ≤ h.cls && h.cls ≤ 5 && h.form == formOf h.cls h.e4 && classTakes h.cls f && 1 ≤ h.rows && h.rows ≤ 4096 &&
      1 ≤ h.cols && h.cols ≤ 4096 && h.n ≤ 4096 &&
      (if h.cls = 2 then 1 ≤ h.window && h.window ≤ 16 else h.window == 0) && h.reserved == 0 && h.flags < 2 &&
      h.payload == payloadBytes h.cls h.e4 f h.rows h.cols h.window

/-- The reason of R126 for which a header fails, in the order of R123: `kept` is the tag of its granule, `expected` the
class that LDK names. -/
def headerReason (kept : Bool) (h : Header) (expected : Option Nat) : Option (BitVec 8) :=
  if !kept then some 0x04
  else if h.rev ≠ 1 then some 0x03
  else if !h.consistent then some 0x02
  else
    match expected with
    | some c => if c = h.cls then none else some 0x01
    | none => none

/-- The recorded class that a detail word gives (R126). -/
def recordedClass (reason : BitVec 8) (h : Header) : BitVec 8 :=
  if 4 ≤ reason.toNat && reason.toNat ≤ 6 then 0 else BitVec.ofNat 8 h.cls

-- What a store derives ------------------------------------------------------------------------------------------

/-- Whether an element is greater than zero (R119, R120). -/
def positive (f : Fmt) (x : Nat) : Bool :=
  if f.isInt then decide (0 < intVal f x)
  else
    match decodeF f x with
    | .nan => false
    | .inf neg => !neg
    | .fin neg m _ => !neg && m != 0

/-- Whether an element is not zero, as the keep mask takes it (R119). -/
def nonZero (f : Fmt) (x : Nat) : Bool := if f.isFF then !(decodeF f x).isZero else x != 0

/-- Whether element a is less than b in the order of the window maximum (R120): a NaN is above every number. -/
def windowLt (f : Fmt) (a b : Nat) : Bool :=
  if f.isFF then
    if (decodeF f a).isNaN then false else if (decodeF f b).isNaN then true else decide (fkey f a < fkey f b)
  else decide (intVal f a < intVal f b)

/-- The index of the maximum of a window, the lower of equals. -/
def windowMax (f : Fmt) (xs : List Nat) : Nat :=
  ((List.range xs.length).foldl (fun best i => if windowLt f (xs.getD best 0) (xs.getD i 0) then i else best) 0)

/-- Bits laid from bit 0 of byte 0 upward. -/
def bitsBytes (l : List Bool) : List Byte :=
  natBytes ((l.length + 7) / 8) (l.zipIdx.foldl (fun a b => if b.1 then a + 2 ^ b.2 else a) 0)

/-- The nibbles of the window-index form, row by row (R119). -/
def windowNibbles (f : Fmt) (rows cols window : Nat) (xs : List Nat) : List Nat :=
  (List.range rows).flatMap (fun r =>
    (List.range ((cols + window - 1) / window)).map (fun w =>
      windowMax f ((xs.drop (r * cols + w * window)).take (min window (cols - w * window)))))

/-- The values of block b of a narrow form; positions at and beyond N count as +0. -/
def narrowBlock (f : Fmt) (xs : List Nat) (b : Nat) : List FVal :=
  (List.range 32).map (fun i =>
    match xs[32 * b + i]? with | some x => decodeF f x | none => .fin false 0 0)

/-- The payload that R119 derives from N elements, with the flags it raises. -/
def payloadOf (cls : Nat) (e4 : Bool) (f : Fmt) (rows cols window : Nat) (xs : List Nat) : List Byte × Flags :=
  let n := rows * cols
  match cls with
  | 1 => (bitsBytes (xs.map (positive f)), 0)
  | 2 => (natBytes (payloadBytes 2 false f rows cols window) (packElems 4 (windowNibbles f rows cols window xs)), 0)
  | 3 =>
    let bs := (List.range ((n + 31) / 32)).map (fun b =>
      let vs := narrowBlock f xs b
      let (c, fl) := scaleCode (if e4 then QTarget.e4m3.bound else QTarget.o4.bound) (amaxOf vs)
      if e4 then
        let qs := vs.zipIdx.map (fun (v : FVal × Nat) => if 32 * b + v.2 < n then quantByte .e4m3 .rne 0 c true v.1 else plain 0)
        (natBytes 32 (packElems 8 (qs.map (·.1))), c, qs.foldl (fun (a : Flags) (q : Nat × Flags) => a ||| q.2) fl)
      else
        let (bytes, fl2) := quantO4 .rne c (vs.map (fun v => (true, v, 0)))
        (bytes, c, fl ||| fl2))
    let codes := bs.flatMap (·.1)
    let scales := if e4 then bs.map (fun b => BitVec.ofNat 8 b.2.1) else []
    (codes ++ scales, bs.foldl (fun (a : Flags) (b : List Byte × Nat × Flags) => a ||| b.2.2) 0)
  | 4 => (bitsBytes (xs.map (nonZero f)), 0)
  | _ => (natBytes ((n * f.bits + 7) / 8) (packElems f.bits xs), 0)

/-- The granules of a record: its header and payload padded with zeros to whole granules (R116). -/
def recordBytes (h : Header) (payload : List Byte) : List Byte :=
  let all := h.bytes ++ payload
  all ++ List.replicate (64 * recordGranules payload.length - all.length) 0

/-- Element n of a full payload. -/
def payloadElem (f : Fmt) (p : List Byte) (n : Nat) : Nat :=
  if f.bits < 8 then (p.getD (n / 8) 0).toNat / 2 ^ (n % 8) % 2 else fieldNat p (n * (f.bits / 8)) (f.bits / 8)

-- Entries of kq -------------------------------------------------------------------------------------------------

/-- Elements of one kq entry (R124). -/
def Header.per (h : Header) : Nat := if h.cls = 3 then 64 else perEntry h.fmt
/-- The entries that LDK pushes. -/
def Header.entries (h : Header) : Nat := (h.n + h.per - 1) / h.per

/-- The window nibble of an element, and its index in its window. -/
def Header.nibbleOf (h : Header) (n : Nat) : Nat :=
  n / h.cols * ((h.cols + h.window - 1) / h.window) + n % h.cols / h.window
def nibbleAt (p : List Byte) (m : Nat) : Nat :=
  let b := (p.getD (m / 2) 0).toNat
  if m % 2 = 0 then b % 16 else b / 16

/-- Whether element n is the maximum of its window. -/
def Header.isMax (h : Header) (p : List Byte) (n : Nat) : Bool := nibbleAt p (h.nibbleOf n) == n % h.cols % h.window

/-- The highest granule of the record that entry k draws on (R123). -/
def Header.topGranule (h : Header) (k : Nat) : Nat :=
  let last := min h.n ((k + 1) * h.per) - 1
  let b := (h.n + 31) / 32
  let byte := match h.cls with
    | 1 | 4 => last / 8
    | 2 => h.nibbleOf last / 2
    | 3 => if h.e4 then 32 * b + last / 32 else 20 * (last / 32) + 19
    | _ => (last * h.fmt.bits + h.fmt.bits - 1) / 8
  (16 + byte) / 64

/-- The data of entry k (R124), from the payload bytes read so far. -/
def Header.entryData (h : Header) (p : List Byte) (k : Nat) : VWord :=
  let first := k * h.per
  let live := min h.per (h.n - first)
  let ofBits (g : Nat → Bool) : Nat := (List.range live).foldl (fun a i => if g (first + i) then a + 2 ^ i else a) 0
  let blocks := min 2 ((h.n + 31) / 32 - 2 * k)
  BitVec.ofNat 1024 (match h.cls with
    | 1 | 4 => ofBits (fun n => (p.getD (n / 8) 0).toNat.testBit (n % 8))
    | 2 => ofBits (h.isMax p)
    | 3 =>
      if h.e4 then
        packElems 8 ((List.range live).map (fun i => (p.getD (first + i) 0).toNat)) +
          2 ^ 512 * packElems 8 ((List.range blocks).map (fun j => (p.getD (32 * ((h.n + 31) / 32) + 2 * k + j) 0).toNat))
      else bytesNat ((p.drop (40 * k)).take (20 * blocks))
    | _ => packElems h.fmt.bits ((List.range live).map (fun i => payloadElem h.fmt p (first + i))))

-- Sufficiency and retagging -------------------------------------------------------------------------------------

/-- The sufficiency table (R127). -/
def sufficient (recorded target : Nat) : Bool := recorded == target || (recorded == 5 && target != 4)

/-- What a retag comes to (R128): a fault code with the reason, or the new header, payload and flags. -/
inductive Retag where
  | fault (code reason : BitVec 8)
  | same
  | rewrite (h : Header) (payload : List Byte) (flags : Flags)
  deriving DecidableEq, Repr

/-- The decision of SKRTG on a record that passed its checks, from its header and payload (R128). -/
def retagOf (h : Header) (p : List Byte) (target window : Nat) (e4 : Bool) : Retag :=
  if !sufficient h.cls target then .fault 0x0A 0x07
  else if target = h.cls then .same
  else if target = 2 && !(1 ≤ window && window ≤ 16) then .fault 0x02 0
  else if !classTakes target h.fmt then .fault 0x0A 0x07
  else
    let w := if target = 2 then window else 0
    let xs := (List.range h.n).map (payloadElem h.fmt p)
    let (np, fl) := payloadOf target e4 h.fmt h.rows h.cols w xs
    if recordGranules p.length < recordGranules np.length then .fault 0x0A 0x08
    else
      .rewrite { h with cls := target, form := formOf target e4, window := w, payload := np.length, flags := 1 } np fl

-- The debug port ------------------------------------------------------------------------------------------------

/-- The never-kept pattern (R130). -/
def neverKept (f : Fmt) : Nat := if f.isFF then f.nanPat else if f = .b1 then 1 else 2 ^ f.bits - 1

/-- The decoded value of element n of a narrow record, rounded to nearest even into the source format (R130). -/
def Header.narrowValue (h : Header) (p : List Byte) (n : Nat) : Nat :=
  let b := n / 32
  let v : FVal :=
    if h.e4 then ((decodeF .e4m3 (p.getD n 0).toNat).scaleE8 (p.getD (32 * ((h.n + 31) / 32) + b) 0).toNat).1
    else (((o4Decode ((p.drop (20 * b)).take 20))[n % 32]?).map (fun e => (e.scaled (p.getD (20 * b + 18) 0).toNat).1)).getD (.fin false 0 0)
  (roundNE h.fmt v).1

/-- View entry n as 16 bytes (R130). -/
def Header.view (h : Header) (p : List Byte) (n : Nat) : Nat :=
  let (value, fact, kept) : Nat × Bool × Bool :=
    match h.cls with
    | 1 | 4 => (neverKept h.fmt, (p.getD (n / 8) 0).toNat.testBit (n % 8), false)
    | 2 => (neverKept h.fmt, h.isMax p n, false)
    | 3 => (h.narrowValue p n, false, true)
    | _ => (payloadElem h.fmt p n, false, true)
  value + (if fact then 2 ^ 64 else 0) + (if kept then 2 ^ 72 else 0)

/-- Bytes and tag of a granule as performed at its home, as the debug port reads it (R130, R327, R367, R419): whatever its page permits,
and in every part of a window. Memory of another module it does not reach (log entry 85). -/
def State.homeGranule (s : State) (core : CoreId) (part : BitVec 6) (va : Nat) : Option (List Byte × Bool) :=
  let bytes (f : Nat → Byte) : Option (List Byte × Bool) := some ((List.range 64).map f, false)
  match s.flagPart part va with
  | some (g, o) => bytes (fun i => s.flagByte g (o + i))
  | none =>
    match (s.place core part va false false).1 with
    | .ok (.mem k) => some (memReadAll s.mem k 64, s.kept k)
    | .ok (.acc g o) => bytes (fun i => s.accByte g (o + i))
    | .ok (.regs g o) => bytes (fun i => s.regByte g (o + i))
    | .ok (.far _) | .error _ => none

/-- The selected word of the debug port (R366, R367). -/
def State.debugWord (s : State) (c : Context) : Word :=
  let base := (c.dvbase.extractLsb' 0 52).toNat
  let sel := (c.dvsel.extractLsb' 13 3).toNat
  let idx := (c.dvsel.extractLsb' 0 13).toNat
  let core := s.cur.core
  match s.homeGranule core c.part base with
  | none => 0
  | some (g0, kept) =>
    if base % 64 ≠ 0 then 0
    else
      let h := headerOf g0
      let good := headerReason kept h none == none
      let gs := (List.range (if good then recordGranules h.payload else 0)).map (fun n => s.homeGranule core c.part (base + 64 * n))
      let raw (m : Nat) : Nat :=
        match s.homeGranule core c.part (base + (16 + m) / 64 * 64) with
        | some (b, _) => fieldNat b ((16 + m) % 64) 8
        | none => 0
      let ok := good && gs.all (fun g => match g with | some (_, k) => k | none => false)
      let p := (gs.flatMap (fun g => match g with | some (b, _) => b | none => [])).drop 16 |>.take h.payload
      BitVec.ofNat 64 (match sel with
        | 0 => if idx < 2 then fieldNat g0 (8 * idx) 8 else 0
        | 1 => if 8 * idx < h.payload then raw (8 * idx) else 0
        | 2 => if ok && idx / 2 < h.n then h.view p (idx / 2) / 2 ^ (64 * (idx % 2)) % 2 ^ 64 else 0
        | 3 => if ok && idx = 0 then 2 ^ 13 + h.n else 0
        | _ => 0)

end Sys2Proof.Machine
end

