-- ==== Sys2Proof/Machine/TileCache.lean ====
section
/-! DEFINITION. The tile cache of a core (R337, R361, R362): the lines that it holds, the write-back of dirty bytes, and what a
line that leaves it writes back. -/

namespace Sys2Proof.Machine

/-- How many lines a tile cache holds (R18, R361). -/
def tileLines : Nat := 768

/-- The line of a device virtual address outside the tensor range (R362). -/
def plainLine (va : Nat) : LineTag := .plain (va / 1024 * 1024)

/-- The lines of some device virtual addresses; core windows are direct storage and have none. -/
def linesOf (vas : List Nat) : List LineTag :=
  ((vas.filter (fun va => va < vaEnd && !(windowBase ≤ va && va < windowEnd))).map plainLine).dedup

/-- The line that a tile descriptor and its offsets name (R177, R361). -/
def tileLine (desc offs : Word) : LineTag := .tensor (tensorOf desc) (tilePlane desc) (tileRow desc offs) (tileCol desc offs)

/-- The device virtual addresses of a line's bytes, those of a tensor by its shape record as it stands (R361, R362). -/
def State.lineVas (s : State) (core : CoreId) (part : BitVec 6) : LineTag → List Nat
  | .plain va => vaRange va 1024
  | .tensor n p r c =>
    match (s.takeRecord core part n).1 with
    | .fault _ => []
    | .bytes b =>
      match shapeOf b with
      | none => []
      | some h => (List.range 8).flatMap (fun j => (List.range 128).filterMap (fun i => h.byteVa p (8 * r + j) (128 * c + i)))

/-- The keys of a line's bytes and of their tags. -/
def State.lineKeys (s : State) (core : CoreId) (part : BitVec 6) (l : LineTag) : List Nat :=
  let ks := ((s.keysOf core part false false (s.lineVas core part l)).1).filterMap (fun k =>
    match k.2 with | .ok k => if isDirect k then none else some k | .error _ => none)
  ks ++ (ks.map tagKey).dedup

/-- Bytes of a context reach their homes (R337, R339); one that meets an uncorrectable error is reported (R175). The
core's published copies of them are brought up to date. -/
def State.writeBack (s : State) (c : CtxId) (bs : ByteMap) : State :=
  if bs.isEmpty then s
  else
    let bad := bs.any (fun e => s.poisoned e.1)
    let s := s.updCore c.core (fun k => { k with pub := bs.foldl (fun m e => if (bmGet m e.1).isSome then bmPut m e.1 e.2 else m) k.pub })
    let s := s.homeWrite bs
    if bad then s.reportFault c { code := 0x12, detail := 0, addr := 0 } 0 else s

/-- What PHASE.core has published of some bytes and not yet written back, as the tile cache holds it now. -/
def State.publishedNow (s : State) (c : CtxId) (bs : ByteMap) : ByteMap :=
  bs.map (fun e => (e.1, (bmGet (s.core c.core).pub e.1).getD e.2))

/-- Some keys with everything that an STI ties to them (R337): as often as there are ties, each tie that touches them joins. -/
def tieClosure (ties : List (List Nat)) : Nat → List Nat → List Nat
  | 0, ks => ks
  | n + 1, ks => tieClosure ties n (ties.foldl (fun ks t => if t.any (fun k => ks.contains k) then ks ++ t.filter (fun k => !ks.contains k) else ks) ks)

/-- The dirty bytes of a context at some keys, and at those tied to them, reach their homes (R337). -/
def State.evictKeys (s : State) (c : CtxId) (keys : List Nat) : State :=
  let x := s.ctx c
  let ks := tieClosure x.tied x.tied.length keys
  let s := s.writeBack c (s.publishedNow c (x.pubDirty.filter (fun e => ks.contains e.1)))
  let s := s.writeBack c (x.dirty.filter (fun e => ks.contains e.1))
  s.updCtx c (fun y => { y with
    dirty := y.dirty.filter (fun e => !ks.contains e.1), pubDirty := y.pubDirty.filter (fun e => !ks.contains e.1)
    tied := y.tied.filter (fun t => !t.any (fun k => ks.contains k)) })

/-- A line leaves the tile cache of a core: the dirty bytes that its contexts have in it are written back (R337). -/
def State.evictLine (s : State) (core : CoreId) (part : BitVec 6) (l : LineTag) : State :=
  let keys := s.lineKeys core part l
  let s := ctxNums.foldl (fun s n => s.evictKeys { core := core, ctx := n } keys) s
  s.updCore core (fun k => { k with pub := k.pub.filter (fun e => !keys.contains e.1), lines := k.lines.filter (· != l) })

/-- A core's tile cache takes a line; where it is full, one of its lines leaves it, by a free choice (R337, R361; log entry 83). -/
def State.takeLine (s : State) (c : CtxId) (l : LineTag) : State :=
  let k := s.core c.core
  if k.lines.contains l then s
  else
    let s :=
      if k.lines.length < tileLines then s
      else
        let (n, s) := s.draw
        match k.lines[Config.victimLine n % tileLines]? with
        | some v => s.evictLine c.core (s.ctx c).part v
        | none => s
    s.updCore c.core (fun k => { k with lines := k.lines ++ [l] })

/-- A core's tile cache takes some lines. -/
def State.takeLines (s : State) (c : CtxId) (ls : List LineTag) : State := ls.foldl (fun s l => s.takeLine c l) s

/-- A thread's tile cache takes a line of plain addresses: the snapshot of each of its bytes and tags that is not yet fixed is fixed
(R178, R338). -/
def State.fetchLine (s : State) (c : CtxId) (va : Nat) : State :=
  let keys := s.lineKeys c.core (s.ctx c).part (plainLine va)
  if keys.isEmpty then s
  else keys.foldl (fun s k => s.fixSnap c k) (s.takeLine c (plainLine va))

end Sys2Proof.Machine
end

