-- ==== Sys2Proof/Machine/Memory.lean ====
section
/-! DEFINITION. The A slot (R165 to R189): address arithmetic, the issue of loads, atomics and gather indices, and the
checks and the issue of stores and record operations (R122, R174, R175, R177, R181, R186, R188, R189, R420). -/

namespace Sys2Proof.Machine

-- Arithmetic ----------------------------------------------------------------------------------------------------

/-- AADD (R166). -/
def execAadd (d a b : Spec) (s : State) : Host.Outcome State Fault Refusal :=
  slotOp (.aadd d a b) (do
    let x ← srcA (.aadd d a b) a
    let y ← srcA (.aadd d a b) b
    dstA (.aadd d a b) 1 d (x + y)) s

/-- AADDI (R166). -/
def execAaddi (d a : Spec) (imm : BitVec 12) (s : State) : Host.Outcome State Fault Refusal :=
  slotOp (.aaddi d a imm) (do
    let x ← srcA (.aaddi d a imm) a
    dstA (.aaddi d a imm) 1 d (x + imm.signExtend 64)) s

/-- AMADD (R166). -/
def execAmadd (d a b c : Spec) (s : State) : Host.Outcome State Fault Refusal :=
  slotOp (.amadd d a b c) (do
    let x ← srcA (.amadd d a b c) a
    let y ← srcA (.amadd d a b c) b
    let z ← srcA (.amadd d a b c) c
    dstA (.amadd d a b c) 1 d (x * y + z)) s

/-- ALI (R166). -/
def execAli (d : Spec) (imm : BitVec 12) (s : State) : Host.Outcome State Fault Refusal :=
  slotOp (.ali d imm) (dstA (.ali d imm) 1 d (imm.signExtend 64)) s

-- Checks --------------------------------------------------------------------------------------------------------

/-- An access that is a multiple of its width (R169). -/
def aligned (va w : Nat) : Bool := va % w == 0

/-- The alignment check of one access. -/
def requireAligned (ea : Word) (w : Nat) : Act Unit :=
  if aligned ea.toNat w then pure () else faultAt 0x0D ea.toNat

/-- The alignment faults of some accesses of one width. -/
def misaligned (vas : List Nat) (w : Nat) : List (Nat × BitVec 8) :=
  (vas.filter (fun a => !aligned a w)).map (fun a => (a, 0x0D))

/-- The frames of some pages: each page number with the page number of its key, or its fault. -/
def State.framesOf (s : State) (c : CtxId) (rd wr : Bool) (pages : List Nat) : List (Nat × Except (BitVec 8) Nat) × State :=
  let (ks, s) := s.keysOf c.core (s.ctx c).part rd wr (pages.map (· * 2 ^ 16))
  (ks.map (fun k => (k.1 / 2 ^ 16, k.2.map (· / 2 ^ 16))), s)

/-- The key of an address under some frames. -/
def frameKey (fr : List (Nat × Nat)) (va : Nat) : Option Nat :=
  (Assoc.find fr (va / 2 ^ 16)).map (fun p => p * 2 ^ 16 + va % 2 ^ 16)

/-- The frames that were found, and the faults of addresses on the others. -/
def foundFrames (fs : List (Nat × Except (BitVec 8) Nat)) : List (Nat × Nat) :=
  fs.filterMap (fun f => match f.2 with | .ok p => some (f.1, p) | .error _ => none)
def frameFaults (fs : List (Nat × Except (BitVec 8) Nat)) (vas : List Nat) : List (Nat × BitVec 8) :=
  vas.filterMap (fun va =>
    match Assoc.find fs (va / 2 ^ 16) with
    | some (.error c) => some (va, c)
    | _ => none)

/-- The kept granules that some addresses touch, as the accesses of a thread see them (R121, R122). -/
def keptAt (s : State) (c : CtxId) (strong : Bool) (fr : List (Nat × Nat)) (vas : List Nat) : List (Nat × BitVec 8) :=
  (granulesOf vas).filterMap (fun g =>
    match frameKey fr g with
    | some k => if (if strong then s.kept k else s.ordKept c k) then some (g, 0x0E) else none
    | none => none)

/-- The fault that R126 and R174 give for the lowest of some faulting addresses of a writing operation: of code 0x0E the kept
granule. -/
def writeFault (opcode : BitVec 8) (f : Nat × BitVec 8) : FaultInfo :=
  if f.2 = 0x0E then { code := 0x0E, detail := detailWord 0x06 0 opcode 2 0, addr := BitVec.ofNat 64 (f.1 / 64 * 64) }
  else { code := f.2, detail := 0, addr := BitVec.ofNat 64 f.1 }

/-- Translation, protection and, where asked, the kept tags of the bytes that a store or a record operation is to write
(R175): the frames found, or the fault at issue, the lowest of these and of the operation's other faults (R284). -/
def checkTargets (i : Instr) (rd strong tags : Bool) (vas : List Nat) (others : List (Nat × BitVec 8)) :
    Act (List (Nat × Nat)) := do
  let s ← get
  let c := s.cur
  let (fs, s) := s.framesOf c rd true (pagesOf vas)
  let fr := foundFrames fs
  let keys := if strong then [] else (granulesOf vas).filterMap (frameKey fr)
  let s := keys.foldl (fun s k => s.fixSnap c (tagKey k)) s
  set s
  let kept := if tags then keptAt s c strong fr vas else []
  match lowestFault (others ++ frameFaults fs vas ++ kept) with
  | none => return fr
  | some f => throw (writeFault (opCode i) f)

-- Loads ---------------------------------------------------------------------------------------------------------

/-- An entry of the load-address queue with its reserved lq entries (R170). -/
def pushLoad (ea : Word) (kind : LoadKind) (entries : Nat) : Act Unit := do
  let id ← takeId
  updMeA (fun c => c.updFlow (fun f => f.updQ (fun q =>
    { q with la := q.la ++ [{ id := id, ea := ea, kind := kind, got := [], pushed := 0, stuck := false, redo := false }]
             lq := q.lq ++ (List.range entries).map (fun n => { id := id, part := n, st := .reserved }) })))

/-- Whether a PF meets a translation miss, a kept granule or a scratchpad address (R178). -/
def State.pfBlocked (s : State) (c : CtxId) (vas : List Nat) : Bool :=
  vas.any (fun va =>
    match (s.core c.core).tlb.find? (fun e => e.covers va) with
    | none => true
    | some e => windowBase ≤ va || !e.read || s.ordKept c (e.pa + (va - e.va)))

/-- A prefetch of some bytes: by a free choice the tile cache takes the lines that hold them, or nothing happens (R178; log entry 67). -/
def prefetch (vas : List Nat) : Act Unit := do
  let (n, s) := (← get).draw
  let lines := (vas.map (· / 1024 * 1024)).dedup
  set (if Config.coin n && !s.pfBlocked s.cur vas then lines.foldl (fun s va => s.fetchLine s.cur va) s else s)

/-- A load, which in a helper is performed as a PF of the same bytes and takes no queue entry (R178, R283). -/
def loadOr (vas : State → List Nat) (a : Act Unit) : Act Unit := do
  if (← getMe).st = .helper then prefetch (vas (← get)) else a

/-- LDA (R167, R170, R176, R180). -/
def execLda (base idx : Spec) (w : BitVec 3) (sc : Scope) (o : Order) (s : State) : Host.Outcome State Fault Refusal :=
  slotOp (.lda base idx w sc o) (do
    let (b, x) ← eaOf (.lda base idx w sc o) base idx
    loadOr (fun _ => vaRange (b + x).toNat (2 ^ w.toNat)) (do
      requireAligned (b + x) (2 ^ w.toNat)
      pushLoad (b + x) (.lda w sc o) 1)) s

/-- LDS (R169, R176). -/
def execLds (base stride : Spec) (w : BitVec 3) (s : State) : Host.Outcome State Fault Refusal :=
  slotOp (.lds base stride w) (do
    let (b, x) ← eaOf (.lds base stride w) base stride
    loadOr (fun _ => (strideVas b x (2 ^ w.toNat)).flatMap (fun a => vaRange a (2 ^ w.toNat))) (do
      (strideVas b x (2 ^ w.toNat)).forM (fun a => requireAligned (BitVec.ofNat 64 a) (2 ^ w.toNat))
      pushLoad b (.lds x w) 1)) s

/-- The shape record of a tile descriptor, as it stands at issue (R177, R365). -/
def takeShape (desc : Word) : Act RecordOr := do
  let s ← get
  let (r, s) := s.takeRecord s.cur.core s.me.part (tensorOf desc)
  set s
  return r

/-- LDT (R177). -/
def execLdt (base offs : Spec) (s : State) : Host.Outcome State Fault Refusal :=
  slotOp (.ldt base offs) (do
    let (b, x) ← eaOf (.ldt base offs) base offs
    loadOr (fun s => tileTargets s (.ldt base offs) base offs) (do
      let r ← takeShape b
      pushLoad b (.ldt x r) 8)) s

/-- LDK (R169, R187); in a helper it prefetches the granule that holds the record's header, whose content says what else there is. -/
def execLdk (base idx : Spec) (c : RClass) (s : State) : Host.Outcome State Fault Refusal :=
  slotOp (.ldk base idx c) (do
    let (b, x) ← eaOf (.ldk base idx c) base idx
    loadOr (fun _ => vaRange (b + x).toNat 64) (do
      requireAligned (b + x) 64
      pushLoad (b + x) (.ldk c) 0)) s

/-- ATOM (R170, R182). -/
def execAtom (base data : Spec) (w : BitVec 3) (sc : Scope) (o : Order) (op : AtomOp) (s : State) :
    Host.Outcome State Fault Refusal :=
  slotOp (.atom base data w sc o op) (do
    let (b, v) ← eaOf (.atom base data w sc o op) base data
    requireAligned b (2 ^ w.toNat)
    pushLoad b (.atom w sc o op v) 1) s

/-- The register pair of CAS (R183). -/
def casPair (c : Context) (sp : Spec) : Word × Word :=
  let n := (specReg c.ba sp).getD 0
  (c.readA n, c.readA (n + 1))

/-- CAS (R170, R183). -/
def execCas (base data : Spec) (w : BitVec 3) (sc : Scope) (o : Order) (s : State) : Host.Outcome State Fault Refusal :=
  slotOp (.cas base data w sc o) (do
    let b ← srcA (.cas base data w sc o) base
    let (e, n) := casPair (← getMe) data
    requireAligned b (2 ^ w.toNat)
    pushLoad b (.cas w sc o e n) 1) s

/-- GIDX (R185). -/
def execGidx (base idx : Spec) (s : State) : Host.Outcome State Fault Refusal :=
  slotOp (.gidx base idx) (do
    let (b, x) ← eaOf (.gidx base idx) base idx
    pushLoad (b + x) .gidx 0) s

-- Stores --------------------------------------------------------------------------------------------------------

/-- An entry of the store-address queue (R171). -/
def pushStore (ea : Word) (kind : StoreKind) (frames : List (Nat × Nat)) : Act Unit := do
  let id ← takeId
  updMeA (fun c => c.updFlow (fun f => f.updQ (fun q =>
    { q with sa := q.sa ++ [{ id := id, ea := ea, kind := kind, frames := frames, held := false, data := [], plan := none, bad := [], flags := 0 }] })))

/-- STA (R171, R175, R179, R180). -/
def execSta (base idx : Spec) (w : BitVec 3) (sc : Scope) (o : Order) (s : State) : Host.Outcome State Fault Refusal :=
  slotOp (.sta base idx w sc o) (do
    let (b, x) ← eaOf (.sta base idx w sc o) base idx
    let ea := (b + x).toNat
    let fr ← checkTargets (.sta base idx w sc o) false (o != .ordinary) true (vaRange ea (2 ^ w.toNat))
      (misaligned [ea] (2 ^ w.toNat))
    pushStore (b + x) (.sta w sc o) fr) s

/-- STS (R169, R171, R175, R179). -/
def execSts (base stride : Spec) (w : BitVec 3) (s : State) : Host.Outcome State Fault Refusal :=
  slotOp (.sts base stride w) (do
    let (b, x) ← eaOf (.sts base stride w) base stride
    let es := strideVas b x (2 ^ w.toNat)
    let fr ← checkTargets (.sts base stride w) false false true (es.flatMap (fun a => vaRange a (2 ^ w.toNat)))
      (misaligned es (2 ^ w.toNat))
    pushStore b (.sts x w) fr) s

/-- The checks that STT and STI make at issue: the record, its no-write flag, a format that the operation refuses, and
the bytes of the tile (R175, R363, R365). -/
def checkTile (i : Instr) (desc offs : Word) (refused : Fmt → Bool) : Act (List Byte × Shape × List (Nat × Nat)) := do
  match ← takeShape desc with
  | .fault f => throw f
  | .bytes b =>
    match shapeOf b with
    | none => faultCode 0x0C
    | some h =>
      let vas := tileVas h desc offs
      let fr ← checkTargets i false false true vas
        (if h.noWrite || refused h.fmt then [(vas.foldl min (vas.headD 0), 0x0C)] else [])
      return (b, h, fr)

/-- STT (R175, R181). -/
def execStt (base offs : Spec) (s : State) : Host.Outcome State Fault Refusal :=
  slotOp (.stt base offs) (do
    let (b, x) ← eaOf (.stt base offs) base offs
    let (bytes, _, fr) ← checkTile (.stt base offs) b x (fun _ => false)
    pushStore b (.stt x bytes) fr) s

/-- Whether the launch of a context declares a symmetry group (R181, R316). -/
def State.symmetric (s : State) (c : Context) : Bool := ((s.codeOf c).bind (·.symm)).isSome

/-- STI (R175, R181, R316). -/
def execSti (base offs : Spec) (neg : Bool) (s : State) : Host.Outcome State Fault Refusal :=
  slotOp (.sti base offs neg) (do
    let (b, x) ← eaOf (.sti base offs neg) base offs
    let s ← get
    let (bytes, _, fr) ← checkTile (.sti base offs neg) b x (fun f => f == .o4 && s.symmetric s.me)
    pushStore b (.sti x neg bytes) fr) s

/-- The granule addresses of the record that a shape word describes. -/
def recordVas (base : Nat) (payload : Nat) : List Nat := (List.range (recordGranules payload)).map (fun n => base + 64 * n)

def ShapeWord.payload (w : ShapeWord) (cls : Nat) : Nat := payloadBytes cls w.e4 w.fmt w.rows w.cols w.window

/-- A record operation issues: what its thread's earlier ones set in these granules' tags before now is no longer told from what others
set, but where one of them has still to be performed on the page (R420). -/
def ownTags (vas : List Nat) (fr : List (Nat × Nat)) : Act Unit :=
  updMeA (fun c =>
    let frames := c.stores.flatMap (fun o => match o.kind with | .skst _ _ => o.frames | _ => []) ++ c.tileOps.flatMap (·.frames)
    let keys := (vas.filterMap (frameKey fr)).filter (fun k => !frames.any (fun f => f.2 == k / 2 ^ 16))
    { c with tagsSet := if frames.isEmpty then [] else keys.foldl (fun m k => bmErase m (tagKey k)) c.tagsSet })

/-- SKST (R116, R171, R175, R186). -/
def execSkst (base shape : Spec) (c : RClass) (s : State) : Host.Outcome State Fault Refusal :=
  slotOp (.skst base shape c) (do
    let (b, w) ← eaOf (.skst base shape c) base shape
    match shapeWordOf c.code.toNat w with
    | none => faultCode 0x02
    | some sw => do
      let fr ← checkTargets (.skst base shape c) false false true (recordVas b.toNat (sw.payload c.code.toNat))
        (misaligned [b.toNat] 64)
      ownTags (recordVas b.toNat (sw.payload c.code.toNat)) fr
      pushStore b (.skst c w) fr) s

-- Records at issue ----------------------------------------------------------------------------------------------

/-- Whether an ordinary read of a granule meets an uncorrectable error in its bytes or its tag (R121, R418); what the thread has
written, and what its snapshot holds, it does not read again. -/
def State.granuleBad (s : State) (c : CtxId) (k : Nat) : Bool :=
  let x := s.ctx c
  (List.range 64).any (fun i => s.poisoned (k + i) && (isDirect k || ((bmGet x.own (k + i)).isNone && (bmGet x.snap (k + i)).isNone)))

/-- A granule as an ordinary read of the thread takes it: its bytes, its tag, and whether it meets an uncorrectable error (R121,
R336). -/
def readGranule (fr : List (Nat × Nat)) (va : Nat) : Act (List Byte × Bool × Bool) := do
  let s ← get
  match frameKey fr va with
  | none => return (List.replicate 64 0, false, false)
  | some k =>
    let bad := s.granuleBad s.cur k
    let s := s.takeLines s.cur (linesOf [va])
    let s := (List.range 64).foldl (fun s i => s.fixSnap s.cur (k + i)) (s.fixSnap s.cur (tagKey k))
    set s
    return ((List.range 64).map (fun i => s.ordByte s.cur (k + i)), s.ordKept s.cur k, bad)

/-- A record operation that has read an uncorrectable error leaves the record as it is, and fault 0x12 reaches the context before
its next strap (R175, R285, R418; log entry 46). -/
def recordError (va : Nat) : Act Unit :=
  updMeA (fun c => { c with pendingFaults := c.pendingFaults ++ [{ code := 0x12, detail := 0, addr := BitVec.ofNat 64 va }] })

/-- The fault of a record's check (R126). -/
def recordFault (code reason target opcode : BitVec 8) (h : Header) (base : Word) : FaultInfo :=
  { code := code, detail := detailWord reason target opcode 2 (recordedClass reason h), addr := base }

/-- The rewrite of a record by R128: payload granules in ascending order, the granules no longer needed, and the header
granule last. -/
def rewritePlan (base : Nat) (old : Nat) (h : Header) (p : List Byte) : List GranuleWrite :=
  let bytes := recordBytes h p
  let new := recordGranules p.length
  let keep (n : Nat) : GranuleWrite := { va := base + 64 * n, bytes := some ((bytes.drop (64 * n)).take 64), tag := true }
  let clear (n : Nat) : GranuleWrite := { va := base + 64 * n, bytes := some (List.replicate 64 0), tag := false }
  ((List.range new).drop 1).map keep ++ ((List.range old).drop new).map clear ++ [keep 0]

/-- A record operation enters the background (R172, R188, R189). -/
def pushTile (drop : Bool) (fr : List (Nat × Nat)) (plan : List GranuleWrite) (flags : Flags) : Act Unit := do
  let id ← takeId
  updMeA (fun c => { c with tileOps := c.tileOps ++ [{ id := id, drop := drop, frames := fr, plan := plan, bad := [], flags := flags }] })

/-- SKRTG (R128, R188): the record is read and its checks are decided before anything changes. -/
def execSkrtg (base param : Spec) (c : RClass) (s : State) : Host.Outcome State Fault Refusal :=
  let i := Instr.skrtg base param c
  slotOp i (do
    let (b, w) ← eaOf i base param
    require 0x02 (w.extractLsb' 9 55 == 0)
    let target : Nat := c.code.toNat
    let tgt : BitVec 8 := BitVec.ofNat 8 target
    let fr0 ← checkTargets i true false false [b.toNat] (misaligned [b.toNat] 64)
    let (g0, kept, bad) ← readGranule fr0 b.toNat
    if bad then recordError b.toNat
    else
      let h := headerOf g0
      match headerReason kept h none with
      | some r => throw (recordFault 0x09 r tgt 0x1D h b)
      | none => do
        let vas := recordVas b.toNat h.payload
        let fr ← checkTargets i true false false vas []
        let gs ← vas.mapM (readGranule fr)
        match (vas.zip gs).find? (fun g => g.2.2.2) with
        | some g => recordError g.1
        | none =>
          if gs.any (fun g => !g.2.1) then throw (recordFault 0x09 0x04 tgt 0x1D h b)
          else
            let p := ((gs.flatMap (·.1)).drop 16).take h.payload
            match retagOf h p target (w.extractLsb' 0 8).toNat (bit w 8) with
            | .fault code r => if code = 0x02 then faultCode 0x02 else throw (recordFault code r tgt 0x1D h b)
            | .same => pure ()
            | .rewrite nh np fl =>
              ownTags vas fr
              pushTile false fr (rewritePlan b.toNat (recordGranules h.payload) nh np) fl) s

/-- SKDROP (R121, R189). -/
def execSkdrop (base idx : Spec) (s : State) : Host.Outcome State Fault Refusal :=
  let i := Instr.skdrop base idx
  slotOp i (do
    let (b, x) ← eaOf i base idx
    let ea := b + x
    let fr0 ← checkTargets i true false false [ea.toNat] (misaligned [ea.toNat] 64)
    let (g0, kept, bad) ← readGranule fr0 ea.toNat
    if bad then recordError ea.toNat
    else if !kept then pure ()
    else do
      let vas := recordVas ea.toNat (headerOf g0).payload
      let fr ← checkTargets i true false false vas []
      let clear (va : Nat) : GranuleWrite := { va := va, bytes := none, tag := false }
      pushTile true fr ((vas.drop 1).map clear ++ [clear ea.toNat]) 0) s

end Sys2Proof.Machine
end

