-- ==== Sys2Proof/Machine/Engine.lean ====
section
/-! DEFINITION. Where a copy unit's addresses lead (R254, R354, R365) and what it reads and writes there: memory, register
windows, accumulators (R232) and memory of other modules. -/

namespace Sys2Proof.Machine

-- Places --------------------------------------------------------------------------------------------------------

/-- A fault that a copy unit meets: the address and the code. -/
abbrev EngFault := Nat × BitVec 8

/-- A place, and the device virtual address outside the tensor range that leads there. -/
abbrev Spot := Place × Nat

/-- Where a byte of a command's address lies, with the shape records that the command took when it started; none is a
byte outside a tensor's extents, which reads zero and is not written (R254, R354, R364, R365). -/
def State.engPlace (s : State) (core : CoreId) (part : BitVec 6) (shapes : List (Nat × RecordOr)) (va : Nat) (rd wr : Bool) :
    Except EngFault (Option Spot) × State :=
  let page (s : State) (va : Nat) : Except EngFault (Option Spot) × State :=
    match s.place core part va rd wr with
    | (.ok p, s) => (.ok (some (p, va)), s)
    | (.error c, s) => (.error (va, c), s)
  if tensorBase ≤ va && va < vaEnd then
    match Assoc.find shapes (va / 2 ^ 28 % 2 ^ 20) with
    | some (.bytes b) =>
      match shapeOf b with
      | none => (.error (va, 0x0C), s)
      | some h =>
        if wr && h.noWrite then (.error (va, 0x0C), s)
        else
          match h.offsetVa (va % 2 ^ 28) with
          | none => (.ok none, s)
          | some v => if tensorBase ≤ v && v < vaEnd then (.error (v, 0x0C), s) else page s v
    | some (.fault f) => (.error (f.addr.toNat, f.code), s)
    | none => (.error (va, 0x0C), s)
  else page s va

/-- A byte as a copy unit reads it for a context (R122, R251, R254); with `tags`, kept granules are no fault. -/
def State.engRead (s : State) (c : CtxId) (shapes : List (Nat × RecordOr)) (tags : Bool) (va : Nat) :
    Except EngFault Byte × State :=
  match s.engPlace c.core (s.ctx c).part shapes va true false with
  | (.error e, s) => (.error e, s)
  | (.ok none, s) => (.ok 0, s)
  | (.ok (some (p, v)), s) =>
    match p with
    | .mem k =>
      if !tags && s.engineByte c (tagKey k) != 0 then (.error (v, 0x09), s)
      else if s.poisoned k then (.error (v, 0x12), s)
      else (.ok (s.engineByte c k), s.sawHome c [k])
    | .acc g o => (.ok (s.accByte g o), s)
    | .regs g o => (.ok (s.regByte g o), s)
    | .far pa =>
      let (n, s) := s.draw
      (.ok (Config.farByte pa n), s)

/-- Some bytes in order, with the first fault of each that has one. -/
def State.engReadAll (s : State) (c : CtxId) (shapes : List (Nat × RecordOr)) (tags : Bool) :
    List Nat → (List Byte × List EngFault) × State
  | [] => (([], []), s)
  | va :: r =>
    let (b, s) := s.engRead c shapes tags va
    let ((bs, es), s) := s.engReadAll c shapes tags r
    match b with
    | .ok b => ((b :: bs, es), s)
    | .error e => ((0 :: bs, e :: es), s)

/-- Whether a chunk may be written into the registers or accumulators of a core now (R232, R254, R277): in a HELPER context it may
not. -/
def Context.filesOpen (c : Context) : Bool :=
  match c.st with
  | .blocked | .stopped | .free => true
  | _ => false

/-- Results into an accumulator that have not landed (R232). -/
def accBusy (k : Core) (n : BitVec 3) : Bool :=
  k.ctxs.toList.any (fun c => (c.user.flight ++ c.user.held ++ c.hand.flight).any (fun f =>
    match f.eff with | .acc m _ => m == n | _ => false))

/-- The matrix owner of a core, if a context is. -/
def matOwner (k : Core) : Option Context := k.ctxs.toList.find? (fun c => c.mat && c.launch.isSome)

/-- Whether a place takes a write of a copy unit, or the code of its fault (R121, R122, R232, R254). -/
def State.engWritable (s : State) (c : CtxId) (tags : Bool) (p : Place) : Option (BitVec 8) :=
  match p with
  | .mem k =>
    if !tags && s.engineByte c (tagKey k) != 0 then some 0x0E
    else if s.poison.contains (tagKey k) then some 0x12
    else none
  | .acc g o =>
    let k := s.core g
    let opened := match matOwner k with | some x => x.filesOpen | none => true
    if opened && !accBusy k (BitVec.ofNat 3 (o / 0x4000)) then none else some 0x0C
  | .regs g o => if ((s.core g).ctx (BitVec.ofNat 2 (o / 0x4000))).filesOpen then none else some 0x0C
  | .far _ => none

/-- The places of a chunk's bytes and its faults; no byte of a chunk with a fault is written (R122, R252). -/
def State.engTargets (s : State) (c : CtxId) (shapes : List (Nat × RecordOr)) (tags rd : Bool) :
    List Nat → (List (Option Spot) × List EngFault) × State
  | [] => (([], []), s)
  | va :: r =>
    let (p, s) := s.engPlace c.core (s.ctx c).part shapes va rd true
    let ((ps, es), s) := s.engTargets c shapes tags rd r
    match p with
    | .error e => ((none :: ps, e :: es), s)
    | .ok none => ((none :: ps, es), s)
    | .ok (some q) =>
      match s.engWritable c tags q.1 with
      | some code => ((some q :: ps, (q.2, code) :: es), s)
      | none => ((some q :: ps, es), s)

/-- Bytes written at places: memory at its home and in the tile cache of the context's core, which takes their lines (R347, R361),
windows, and memory of other modules, which the model does not hold (log entry 10). A write at a tensor address takes and updates the
plain line, that of no tensor, of the address it resolves to: DESIGN CHOICE (log entry 106). -/
def State.engWriteAt (s : State) (c : CtxId) (ws : List (Option Spot × Byte)) : State :=
  let mem := ws.foldl (fun (m : ByteMap) w => match w.1 with | some (.mem k, _) => bmPut m k w.2 | _ => m) []
  let vas := ws.filterMap (fun w => match w.1 with | some (.mem k, v) => if isDirect k then none else some v | _ => none)
  let s := if mem.isEmpty then s else (s.takeLines c (linesOf vas)).engineWrite c.core mem
  ws.foldl (fun s w =>
    match w.1 with
    | some (.regs g o, _) => s.setRegByte g o w.2
    | some (.acc g o, _) => s.setAccByte g o w.2
    | _ => s) s

/-- The fault of a chunk as its context receives it (R255): that of the lowest faulting byte address, for codes 0x09 and 0x0E with the
address of the kept granule and the detail of R126 (log entry 39). -/
def engFaultInfo (es : List EngFault) (opcode : BitVec 8) (delivered : Nat) (lane : BitVec 3) : Option FaultInfo :=
  match firstFault es with
  | none => none
  | some (va, code) =>
    some { code := code
           detail := if code == 0x09 then detailWord 0x05 0 0x10 7 0
             else if code == 0x0E then detailWord 0x06 0 opcode 7 0
             else BitVec.ofNat 32 delivered ++ opcode ++ (0 : BitVec 1) ++ lane ++ (0 : BitVec 20)
           addr := BitVec.ofNat 64 (if code == 0x09 || code == 0x0E then va / 64 * 64 else va) }

end Sys2Proof.Machine
end

