-- ==== Sys2Proof/Machine/Symmetry.lean ====
section
/-! DEFINITION. Symmetric launches (R311 to R316): element lists, orbits of points, and the images that the reflecting
pool writes. -/

namespace Sys2Proof.Machine

/-- Elements along dimension d: B_d × E_d (R312). -/
def dimSize (extents blocks : List Nat) (d : Nat) : Nat := extents.getD d 1 * blocks.getD d 1

/-- The identity. -/
def identityMaps : List AxisMap := (List.range 3).map (fun d => { axis := d, neg := false, off := 0 })

/-- A generator word (R311). -/
def genKind (g : BitVec 32) : Nat := (g.extractLsb' 28 4).toNat
def genD1 (g : BitVec 32) : Nat := (g.extractLsb' 26 2).toNat
def genD2 (g : BitVec 32) : Nat := (g.extractLsb' 24 2).toNat
def genS (g : BitVec 32) : Nat := (g.extractLsb' 0 24).toNat

/-- Entry d of some maps. -/
def mapAt (m : List AxisMap) (d : Nat) : AxisMap := m.getD d { axis := d, neg := false, off := 0 }

/-- A generator applied after an element (R312, R313). -/
def applyGen (extents blocks : List Nat) (g : BitVec 32) (m : List AxisMap) : List AxisMap :=
  let d1 := genD1 g
  let n := dimSize extents blocks d1
  match genKind g with
  | 1 => (m.set d1 (mapAt m (genD2 g))).set (genD2 g) (mapAt m d1)
  | 2 => modAt m d1 (fun a => { a with neg := !a.neg, off := (n - 1 + n - a.off % n) % n })
  | 3 => modAt m d1 (fun a => { a with off := (a.off + genS g * blocks.getD d1 1) % n })
  | _ => m

/-- An element map as it acts on the coordinates of the index space: of a dimension of one element every map is the
same, and of one of two elements a reflection is a shift. -/
def canonMap (extents blocks : List Nat) (d : Nat) (a : AxisMap) : AxisMap :=
  let n := dimSize extents blocks d
  if n ≤ 1 then { axis := d, neg := false, off := 0 } else if n = 2 then { a with neg := false } else a
def sameElement (extents blocks : List Nat) (x y : List AxisMap) : Bool :=
  (List.range 3).all (fun d => canonMap extents blocks d (mapAt x d) == canonMap extents blocks d (mapAt y d))

/-- The element list as it grows while it is walked, up to nine elements (R313, R314). -/
def growElements (extents blocks : List Nat) (gens : List (BitVec 32)) : Nat → Nat → List (List AxisMap) → List (List AxisMap)
  | 0, _, l => l
  | fuel + 1, k, l =>
    match l[k]? with
    | none => l
    | some g =>
      let l := gens.foldl (fun l h =>
        let x := applyGen extents blocks h g
        if 8 < l.length || l.any (fun y => sameElement extents blocks x y) then l else l ++ [x]) l
      growElements extents blocks gens fuel (k + 1) l

/-- The element list of a launch (R313); more than eight elements reject it. -/
def elementList (extents : List Nat) (y : Symmetry) : List (List AxisMap) :=
  let gens := [y.gen0, y.gen1].filter (· != 0)
  growElements extents y.block gens 9 0 [identityMaps]

/-- Whether the sequencer rejects a symmetry at BINDING but for the feature bit (R314). -/
def symmetryBad (rank : Nat) (extents : List Nat) (y : Symmetry) : Bool :=
  let bad (g : BitVec 32) : Bool :=
    let d1 := genD1 g
    let d2 := genD2 g
    let n := extents.getD d1 1
    match genKind g with
    | 1 => rank ≤ d1 || rank ≤ d2 || d1 == d2 || n != extents.getD d2 1 || y.block.getD d1 1 != y.block.getD d2 1
    | 2 => rank ≤ d1
    | 3 => rank ≤ d1 || n ≤ genS g
    | _ => false
  bad y.gen0 || bad y.gen1 || (y.gen0 == 0 && y.gen1 != 0) || 8 < (elementList extents y).length

/-- A map on an element coordinate (R312); none is a coordinate below zero. -/
def AxisMap.onElement (a : AxisMap) (n x : Nat) : Option Nat :=
  if a.neg then
    if a.off = n - 1 then (if x ≤ n - 1 then some (n - 1 - x) else none)
    else some (((a.off : Int) - x) % (n : Int)).toNat
  else if a.off = 0 then some x
  else some ((x + a.off) % n)

/-- A map on a point coordinate (R312). -/
def AxisMap.onPoint (a : AxisMap) (e block x : Nat) : Nat :=
  if a.neg then ((((a.off + 1) / max 1 block : Nat) : Int) - 1 - x) % (e : Int) |>.toNat
  else (x + a.off / max 1 block) % max 1 e

/-- The image of a point (R312). -/
def imagePoint (extents blocks : List Nat) (m : List AxisMap) (p : Point) : Point :=
  let c : List Nat := [p.i0.toNat, p.i1.toNat, p.i2.toNat]
  let f (d : Nat) : BitVec 24 :=
    let a := mapAt m d
    BitVec.ofNat 24 (a.onPoint (extents.getD d 1) (blocks.getD d 1) (c.getD a.axis 0))
  { i0 := f 0, i1 := f 1, i2 := f 2 }

/-- Whether a point is the least of its orbit (R315). -/
def Launch.representative (l : Launch) (p : Point) : Bool :=
  !l.elems.any (fun m => (imagePoint l.extents l.blocks m p).lt p)

/-- The representatives of the points numbered from n on, at most `fuel` of them (R310, R315). -/
def Launch.representatives (l : Launch) (n : Nat) : Nat := ((List.range n).filter (fun k => l.representative (l.pointAt k))).length

/-- The image of element coordinates (row, column, plane) (R312). -/
def imageElement (extents blocks : List Nat) (m : List AxisMap) (c : List Nat) : Option (List Nat) :=
  (List.range 3).mapM (fun d =>
    let a := mapAt m d
    a.onElement (dimSize extents blocks d) (c.getD a.axis 0))

/-- Bytes of memory that an operation writes: an address, the bits of the byte that it writes, and their value. -/
structure ByteWrite where
  va : Nat
  mask : Byte
  val : Byte
  deriving DecidableEq, Repr

/-- An element negated (R316). -/
def negElem (f : Fmt) (x : Nat) : Nat :=
  if f = .b1 then x
  else if f.isInt then wrapTo f.bits (-(x : Int))
  else if (decodeF f x).isNaN then f.nanPat
  else (x + 2 ^ (f.bits - 1)) % 2 ^ f.bits

/-- The rows of a tile as an STT or STI has them: data entries with their masks. -/
abbrev TileRows := List SqEntry

/-- Whether byte b of row j is to be written. -/
def rowMask (rows : TileRows) (j b : Nat) : Bool := match rows[j]? with | some e => bit e.mask b | none => false
def rowByteOf (rows : TileRows) (j b : Nat) : Byte := match rows[j]? with | some e => BitVec.ofNat 8 (elemOf e.data 8 b) | none => 0

/-- The bytes of the tile itself (R181). -/
def tileWrites (h : Shape) (desc offs : Word) (rows : TileRows) : List ByteWrite :=
  (List.range 8).flatMap (fun j => (List.range 128).filterMap (fun b =>
    if rowMask rows j b then (tileVa h desc offs j b).map (fun va => { va := va, mask := 0xFF, val := rowByteOf rows j b })
    else none))

/-- Bits of an element that a tile's row holds, as element bits. -/
def elemsPerRow (f : Fmt) : Nat := 1024 / f.bits

/-- Element e of row j of a tile, and whether any of its bytes is written. -/
def tileElem (f : Fmt) (rows : TileRows) (j e : Nat) : Nat := match rows[j]? with | some r => elemOf r.data f.bits e | none => 0
def elemBytes (f : Fmt) (e : Nat) : List Nat := if f = .b1 then [e / 8] else (List.range (f.bits / 8)).map (fun b => e * (f.bits / 8) + b)
def elemLive (f : Fmt) (rows : TileRows) (j e : Nat) : Bool := (elemBytes f e).any (rowMask rows j)

/-- The coordinates (row, column, plane) of element e of row j of a tile, where they lie within the extents. -/
def elemCoord (h : Shape) (desc offs : Word) (j e : Nat) : Option (List Nat) :=
  let row := 8 * tileRow desc offs + j
  let col := tileCol desc offs * elemsPerRow h.fmt + e
  if row < h.e1 && col < h.e0 && tilePlane desc < h.e2 * h.e3 then some [row, col, tilePlane desc] else none

/-- Whether an image coordinate lies in the original's tile at a masked byte. -/
def maskedInTile (h : Shape) (desc offs : Word) (rows : TileRows) (c : List Nat) : Bool :=
  let row := c.getD 0 0
  let col := c.getD 1 0
  let per := elemsPerRow h.fmt
  row / 8 == tileRow desc offs && col / per == tileCol desc offs && c.getD 2 0 == tilePlane desc &&
    !((elemBytes h.fmt (col % per)).all (rowMask rows (row % 8)))

/-- The bytes of one image of one element (R316). -/
def imageWrites (h : Shape) (neg : Bool) (rows : TileRows) (j e : Nat) (c : List Nat) : List ByteWrite :=
  let x := tileElem h.fmt rows j e
  let x := if neg then negElem h.fmt x else x
  let row := c.getD 0 0
  let col := c.getD 1 0
  if h.fmt = .b1 then
    match h.byteVa (c.getD 2 0) row (col / 8) with
    | some va => [{ va := va, mask := (1 : Byte) <<< (col % 8), val := BitVec.ofNat 8 (x % 2) <<< (col % 8) }]
    | none => []
  else
    (elemBytes h.fmt e).zipIdx.filterMap (fun b =>
      if rowMask rows j b.1 then
        (h.byteVa (c.getD 2 0) row (col * (h.fmt.bits / 8) + b.2)).map (fun va =>
          { va := va, mask := 0xFF, val := BitVec.ofNat 8 (x / 2 ^ (8 * b.2) % 256) })
      else none)

/-- The images of one element map: each element of the tile in order, unless its image coordinate is already written
(R316). The accumulator holds the coordinates written so far. -/
def mapImages (l : Launch) (h : Shape) (neg : Bool) (desc offs : Word) (rows : TileRows) (m : List AxisMap)
    (acc : List (List Nat) × List ByteWrite) : List (List Nat) × List ByteWrite :=
  (List.range 8).foldl (fun acc j => (List.range (elemsPerRow h.fmt)).foldl (fun (acc : List (List Nat) × List ByteWrite) e =>
    match elemCoord h desc offs j e with
    | none => acc
    | some c =>
      if !elemLive h.fmt rows j e then acc
      else
        match imageElement l.extents l.blocks m c with
        | none => acc
        | some c' =>
          let inside := c'.getD 0 0 < h.e1 && c'.getD 1 0 < h.e0 && c'.getD 2 0 < h.e2 * h.e3
          let barred := h.fmt = .b1 && maskedInTile h desc offs rows c'
          if !inside || barred || acc.1.contains c' then acc
          else (c' :: acc.1, acc.2 ++ imageWrites h neg rows j e c')) acc) acc

/-- Every image that an STI writes, in group-element order (R316). -/
def stiImages (l : Launch) (h : Shape) (neg : Bool) (desc offs : Word) (rows : TileRows) : List ByteWrite :=
  let own := (List.range 8).flatMap (fun j => (List.range (elemsPerRow h.fmt)).filterMap (fun e =>
    if elemLive h.fmt rows j e then elemCoord h desc offs j e else none))
  ((l.elems.drop 1).foldl (fun acc m => mapImages l h neg desc offs rows m acc) (own, [])).2

end Sys2Proof.Machine
end

