-- ==== Sys2Proof/Machine/Sync.lean ====
section
/-! DEFINITION. The Y slot (R157 to R164, R324, R327, R329, R339, R343, R344): waits that hold when the strap issues,
posts, phases and fences. -/

namespace Sys2Proof.Machine

/-- The object at which releases and acquires of a word meet. -/
def wordObj (k : Nat) : Nat := k / 8 * 8

/-- A flag that the launch of this core does not declare faults (R158, R327). -/
def requireFlag (f : BitVec 5) : Act Unit := do require 0x0C ((← get).myCore.owns f)

/-- WAITF (R158): its strap issues with the condition met. -/
def execWaitf (ya : BitVec 3) (f : BitVec 5) (sc : Scope) (take : Bool) (s : State) : Host.Outcome State Fault Refusal :=
  slotOp (.waitf ya f sc take) (do
    requireFlag f
    let n := ((← getMe).y.get ya).setWidth 32
    modify (fun s => s.takeCover s.cur sc (flagObj s.cur.core f))
    if take then updCoreA (fun k => if n ≤ k.flag f then k.setFlag f (k.flag f - n) else k)) s

/-- The core that a post is for, or its fault (R159). -/
def postTarget (ya : BitVec 3) (sc : Scope) : Act CoreId := do
  let s ← get
  if sc.rank ≤ 1 then return s.cur.core
  else
    match s.logical s.me.part ((s.me.y.get ya).extractLsb' 0 13).toNat with
    | none => faultCode 0x0C
    | some c => if s.inScope sc s.cur.core c then return c else faultCode 0x0C

/-- POSTF (R159, R327, R329): at scope 0 it is performed at issue, otherwise it is on its way. -/
def execPostf (ya yb : BitVec 3) (f : BitVec 5) (sc : Scope) (k : BitVec 6) (s : State) :
    Host.Outcome State Fault Refusal :=
  slotOp (.postf ya yb f sc k) (do
    let target ← postTarget ya sc
    let c ← getMe
    let there := (← get).core target
    require 0x0C (there.owns f)
    let add : BitVec 32 := if k = 0 then (c.y.get yb).setWidth 32 else k.setWidth 32
    if sc = .ctx then updCoreA (fun k => k.setFlag f (k.flag f + add))
    else do
      let id ← takeId
      updMeA (fun c => { c with posts := c.posts ++
        [{ id := id, core := target, flag := f, add := add, sc := sc, uid := there.bound.getD 0, trig := none }] })) s

/-- WAITW (R160, R331, R422): a satisfied wait is an acquire. -/
def execWaitw (ya yb : BitVec 3) (sc : Scope) (cond : WCond) (s : State) : Host.Outcome State Fault Refusal :=
  slotOp (.waitw ya yb sc cond) (do
    let s ← get
    let (w, s) := watchOf s ya yb sc cond
    set s
    match w with
    | .error f => throw f
    | .ok w =>
      set ((if s.watchHome s.cur w then s.sawHome s.cur w.keys else s).takeCover s.cur sc (wordObj w.key))) s

/-- WAITC (R161). -/
def execWaitc (loads stores copies tiles : BitVec 6) (s : State) : Host.Outcome State Fault Refusal :=
  slotOp (.waitc loads stores copies tiles) (pure ()) s

/-- GBAR (R162, R324, R325): the departure of a member whose instance has completed. -/
def execGbar (g : BitVec 6) (sc : Scope) (s : State) : Host.Outcome State Fault Refusal :=
  slotOp (.gbar g sc) (do
    let s ← get
    let c := s.me
    let x := s.group c.part g
    require 0x10 (x.members.contains c.thread)
    set ((s.setGroup c.part g { x with passed := x.passed.filter (· != c.thread) }).takeCover s.cur sc (groupObj c.part g))) s

/-- PHASE (R163, R339): the thread's data is written back, and its snapshot is dropped. -/
def execPhase (sc : Scope) (s : State) : Host.Outcome State Fault Refusal :=
  slotOp (.phase sc) (if sc = .ctx then pure ()
    else updMeA (fun c => { c with own := [], snap := [], snapScope := sc })) s

/-- FENCE (R344). -/
def execFence (sc : Scope) (o : FenceOrd) (s : State) : Host.Outcome State Fault Refusal :=
  slotOp (.fence sc o) (if sc = .ctx then pure ()
    else match o with
      | .sc => updMeA (fun c => { c with fenceSc := some sc })
      | _ => pure ()) s

/-- The cores of the partition within a scope of the acting core (R164). -/
def State.scopeCores (s : State) (sc : Scope) : List CoreId :=
  if sc.rank ≤ 1 then [s.cur.core] else (s.part s.me.part).harness.filter (fun c => s.inScope sc s.cur.core c)

/-- RFENCE of one record (R164). -/
def execRfence (ya : BitVec 3) (sc : Scope) (s : State) : Host.Outcome State Fault Refusal :=
  slotOp (.rfence ya sc) (do
    let n := (((← getMe).y.get ya).extractLsb' 0 20).toNat
    modify (fun s => (s.scopeCores sc).foldl (fun s c => s.updCore c (fun k => { k with records := Assoc.drop k.records n })) s)) s

/-- RFENCE of every record (R164). -/
def execRfenceAll (sc : Scope) (s : State) : Host.Outcome State Fault Refusal :=
  slotOp (.rfenceAll sc) (modify (fun s =>
    (s.scopeCores sc).foldl (fun s c => s.updCore c (fun k => { k with records := [] })) s)) s

end Sys2Proof.Machine
end

