-- ==== Sys2Proof/Machine/Loads.lean ====
section
/-! DEFINITION. Loads, kept reads and atomics as they are performed (R122, R123, R173, R174, R176, R177, R182 to R184,
R187, R338, R341 to R345, R350 to R353). -/

namespace Sys2Proof.Machine

-- Queues of both modes ------------------------------------------------------------------------------------------

/-- The queues that hold load `id`, changed. -/
def Context.updLoadQ (c : Context) (id : Nat) (g : Queues → Queues) : Context :=
  if c.user.q.la.any (fun o => o.id == id) then { c with user := c.user.updQ g } else { c with hand := c.hand.updQ g }

-- Orders --------------------------------------------------------------------------------------------------------

def LoadKind.isAtomic : LoadKind → Bool
  | .atom _ _ _ _ _ | .cas _ _ _ _ _ => true
  | _ => false
def LoadKind.scope : LoadKind → Scope
  | .lda _ sc _ | .atom _ sc _ _ _ | .cas _ sc _ _ _ => sc
  | _ => .ctx
def StoreKind.scope : StoreKind → Scope
  | .sta _ sc _ => sc
  | _ => .ctx

def atomReleases (c : Context) (k : LoadKind) : Bool := k.isAtomic && loadAcquires c k
/-- Whether a load is performed as a release: an atomic, or a sequentially consistent load (R343, R345). -/
def loadReleases (c : Context) (k : LoadKind) : Bool := atomReleases c k || k.order == .seqCst

-- Bytes of an operation -----------------------------------------------------------------------------------------

/-- The addresses of a load, lq entry by lq entry; none is a byte outside a tensor's extents. -/
def LoadOp.parts (o : LoadOp) : List (Nat × List (Option Nat)) :=
  let one (w : BitVec 3) : List (Nat × List (Option Nat)) := [(0, (vaRange o.ea.toNat (2 ^ w.toNat)).map some)]
  match o.kind with
  | .lda w _ _ | .atom w _ _ _ _ | .cas w _ _ _ _ => one w
  | .lds st w => [(0, ((strideVas o.ea st (2 ^ w.toNat)).flatMap (fun a => vaRange a (2 ^ w.toNat))).map some)]
  | .ldt offs (.bytes b) =>
    match shapeOf b with
    | some h => (List.range 8).map (fun j => (j, (List.range 128).map (tileVa h o.ea offs j)))
    | none => []
  | .row m n => [(m, (vaRange o.ea.toNat n).map some)]
  | _ => []

/-- The addresses of a load; LDK's are its record's granules as far as its header is known. -/
def LoadOp.vas (o : LoadOp) : List Nat :=
  match o.kind with
  | .ldk _ => vaRange o.ea.toNat (64 * (if o.got.length < 64 then 1 else recordGranules (headerOf o.got).payload))
  | _ => o.parts.flatMap (fun p => p.2.filterMap (fun x => x))

/-- The keys that some addresses translate to, page by page. -/
def State.keysFor (s : State) (c : CtxId) (vas : List Nat) : List Nat :=
  let fr := foundFrames (s.framesOf c true false (pagesOf vas)).1
  vas.filterMap (frameKey fr)

/-- The addresses that a store writes, but for images; a record's granules count whole. -/
def StoreOp.vas (o : StoreOp) : List Nat :=
  match o.kind with
  | .sta w _ _ => vaRange o.ea.toNat (2 ^ w.toNat)
  | .sts st w => (strideVas o.ea st (2 ^ w.toNat)).flatMap (fun a => vaRange a (2 ^ w.toNat))
  | .stt offs b | .sti offs _ b => match shapeOf b with | some h => tileVas h o.ea offs | none => []
  | .skst c w =>
    match shapeWordOf c.code.toNat w with
    | some sw => vaRange o.ea.toNat (64 * recordGranules (sw.payload c.code.toNat))
    | none => []

/-- The addresses of the images of a pending STI, were every byte of its tile unmasked. -/
def State.imageVas (s : State) (c : Context) (o : StoreOp) : List Nat :=
  match o.kind, s.imageLaunch c with
  | .sti offs neg b, some l =>
    match shapeOf b with
    | some h => (stiImages l h neg o.ea offs (List.replicate 8 { data := 0, mask := BitVec.allOnes 128 })).map (·.va)
    | none => []
  | _, _ => []

/-- The keys that a pending store or record operation writes. -/
def State.storeKeys (s : State) (c : CtxId) (o : StoreOp) : List Nat :=
  o.vas.filterMap (frameKey o.frames) ++ s.keysFor c (s.imageVas (s.ctx c) o)
def TileOp.keys (o : TileOp) : List Nat := o.plan.flatMap (fun g => (vaRange g.va 64).filterMap (frameKey o.frames))

def overlaps (a b : List Nat) : Bool := a.any (fun k => b.contains k)

-- When a load may be performed ----------------------------------------------------------------------------------

/-- Everything a release waits for within the module (R343, R346): every earlier access and post of its thread, and at .quad and wider
what PHASE.core has left owing. -/
def releaseDone (c : Context) (id : Nat) (sc : Scope) : Bool :=
  !c.loads.any (fun o => o.id < id && o.isLive) && !c.stores.any (fun o => o.id < id) &&
    !c.tileOps.any (fun o => o.id < id) && !c.posts.any (fun p => p.id < id) && (sc.rank ≤ 1 || c.pubDirty.isEmpty)

/-- Whether every write of a thread that leaves the module has been reported by its remote home: the weirs of the link ports, which hold
releases at .pod and .sys (R346). -/
def State.linksClear (s : State) (c : CtxId) (sc : Scope) : Bool :=
  sc.rank < 7 || s.links.toList.all (fun l => l.flits.all (fun f => f.src != c))

/-- Whether a release of a thread may be performed: its own earlier accesses and its writes over the links are done (R343, R346). -/
def State.released (s : State) (c : CtxId) (id : Nat) (sc : Scope) : Bool := releaseDone (s.ctx c) id sc && s.linksClear c sc

/-- Whether a load may be performed now but for older strong loads: after every earlier store of its context to the same bytes
(R173), after every earlier acquire but those that `passed` says it may pass (R343), for an atomic or a sequentially consistent load
after every earlier strong store (R345, R350), and not while another thread's later access stands before an older load (R351). -/
def State.mayLoadAlone (s : State) (c : CtxId) (passed : LoadOp → Bool) (o : LoadOp) : Bool :=
  let x := s.ctx c
  let keys := s.keysFor c o.vas
  let storeBlocks := x.stores.any (fun t => t.id < o.id && overlaps (s.storeKeys c t) keys) ||
    x.tileOps.any (fun t => t.id < o.id && overlaps t.keys keys)
  let orderBlocks := x.stores.any (fun t => t.id < o.id && t.kind.isStrong && (o.kind.isAtomic || t.kind.order == .seqCst))
  o.isLive && !storeBlocks && !acquirePending x passed o.id &&
    !((o.kind.isAtomic || o.kind.order == .seqCst) && orderBlocks) &&
    !(loadReleases x o.kind && !s.released c o.id o.kind.scope) && !s.aheadHolds c o.kind.isAtomic keys

/-- Whether a strong access of a thread to some keys may pass an older strong load: the load is no atomic and not sequentially
consistent, its bytes are others, it waits for nothing of another thread, and where it acquires, a load that a later store passes,
its scope is no wider than the partition, so that the pair stays in order for all it binds (R335, R350, R351; log entry 84). -/
def State.passable (s : State) (c : CtxId) (write : Bool) (keys : List Nat) (t : LoadOp) : Bool :=
  !t.kind.isAtomic && t.kind.order != .seqCst && !overlaps (s.keysFor c t.vas) keys &&
    (!loadAcquires (s.ctx c) t.kind || (write && t.kind.scope.rank ≤ 5)) && s.mayLoadAlone c (fun _ => true) t

/-- The region in which a pass of some older loads does not show: the terrace, and what the scopes of the acquires passed, and of the
release that passes, bind (R335, R350, R351). -/
def passRegion (c : Context) (passed : List LoadOp) (rel : Option Scope) : Scope :=
  let ranks := (passed.filter (fun t => loadAcquires c t.kind)).map (fun t => t.kind.scope.rank) ++ (rel.map Scope.rank).toList
  if ranks.any (· == 5) then .part else if ranks.any (· == 4) then .cas else .ter

/-- Whether another thread of a core's cascade or partition stands with a write before its older loads: two such threads could wait for
each other. -/
def State.aheadWriter (s : State) (c : CtxId) : Bool :=
  s.allCtxs.any (fun d => d != c && s.inScope .part d.core c.core && (s.ctx d).aheadNow.any (·.write))

/-- Whether a load may be performed now: with every older strong load performed where it is strong itself (R350), or, as a relaxed
load, before those that it may pass, which the threads of its own terrace do not see (R351). -/
def State.mayLoad (s : State) (c : CtxId) (o : LoadOp) : Bool :=
  let x := s.ctx c
  let passed := strongBefore x o.id
  s.mayLoadAlone c (fun _ => false) o &&
    (!o.kind.isStrong || passed.isEmpty ||
      (!o.kind.isAtomic && o.kind.order == .relaxed && !loadAcquires x o.kind &&
        passed.all (s.passable c false (s.keysFor c o.vas))))

/-- A strong access that passes older strong loads of its thread is noted until they are performed (R351). -/
def State.noteAhead (s : State) (c : CtxId) (id : Nat) (write : Bool) (keys : List Nat) (rel : Option Scope) : State :=
  let x := s.ctx c
  let passed := strongBefore x id
  if passed.isEmpty then s
  else s.updCtx c (fun x => { x with ahead := x.aheadNow ++ [{ id := id, write := write, keys := keys, sc := passRegion x passed rel }] })

-- Ordinary and strong bytes -------------------------------------------------------------------------------------

/-- A byte of an ordinary load (R122, R338, R340). -/
def State.ordLoad (s : State) (c : CtxId) (k : Nat) : Except (BitVec 8) Byte × State :=
  let s := s.fixSnap c (tagKey k)
  if s.ordKept c k then (.error 0x09, s)
  else
    let x := s.ctx c
    let fresh := (bmGet x.own k).isNone && (bmGet x.snap k).isNone
    if (isDirect k || fresh) && s.poisoned k then (.error 0x12, s)
    else
      let s := s.fixSnap c k
      (.ok (s.ordByte c k), s)

/-- A byte of a strong load (R341 to R345), which goes to the homes as a whole where one of its bytes does (R341). -/
def State.strongLoad (s : State) (c : CtxId) (sc : Scope) (home : Bool) (k : Nat) : Except (BitVec 8) Byte × State :=
  if s.kept k then (.error 0x09, s)
  else if s.poisoned k then (.error 0x12, s)
  else
    let v := s.strongByte c sc home k
    (.ok v, if s.readsHome c sc home k then s.sawHome c [k] else s)

/-- Some bytes of a load in order, zero where none is given, with the faults met. -/
def State.loadBytes (s : State) (c : CtxId) (read : State → Nat → Except (BitVec 8) Byte × State) :
    List (Option Nat) → (List Byte × List (Nat × BitVec 8)) × State
  | [] => (([], []), s)
  | none :: r =>
    let ((bs, es), s) := s.loadBytes c read r
    ((0 :: bs, es), s)
  | some va :: r =>
    let (v, s) := match s.keyOf c.core (s.ctx c).part va true false with
      | (.ok k, s) => read s k
      | (.error e, s) => (.error e, s)
    let ((bs, es), s) := s.loadBytes c read r
    match v with
    | .ok b => ((b :: bs, es), s)
    | .error e => ((0 :: bs, (va, e) :: es), s)

/-- The fault that marks an entry (R126, R174): the one at the lowest faulting byte address. -/
def loadFault (slot : BitVec 4) (es : List (Nat × BitVec 8)) : Option FaultInfo :=
  (firstFault es).map (fun f =>
    if f.2 == 0x09 then { code := 0x09, detail := detailWord 0x05 0 0x10 slot 0, addr := BitVec.ofNat 64 (f.1 / 64 * 64) }
    else { code := f.2, detail := 0, addr := BitVec.ofNat 64 f.1 })

/-- The same for LDS: the first faulting element in element order (R174). -/
def ldsFault (ea st : Word) (w : Nat) (es : List (Nat × BitVec 8)) : Option FaultInfo :=
  match (strideVas ea st w).find? (fun a => es.any (fun e => a ≤ e.1 && e.1 < a + w)) with
  | none => none
  | some a =>
    match loadFault 2 (es.filter (fun e => a ≤ e.1 && e.1 < a + w)) with
    | some f => if f.code == 0x09 then loadFault 2 (es.filter (fun e => e.2 == 0x09)) else some { f with addr := BitVec.ofNat 64 a }
    | none => none

/-- Shape records taken now for the tensor addresses among some addresses. -/
def State.takeShapes (s : State) (c : CtxId) (vas : List Nat) : List (Nat × RecordOr) × State :=
  let ns := ((vas.filter (fun va => tensorBase ≤ va && va < vaEnd)).map (fun va => va / 2 ^ 28 % 2 ^ 20)).dedup
  ns.foldl (fun (a : List (Nat × RecordOr) × State) n =>
    let (r, s) := a.2.takeRecord c.core (s.ctx c).part n
    (a.1 ++ [(n, r)], s)) ([], s)

/-- The state of one lq entry that a load gives: its data, or its mark. -/
def State.loadEntry (s : State) (c : CtxId) (o : LoadOp) (vas : List (Option Nat)) : EntryState × State :=
  let data (bs : List Byte) : EntryState := .present (BitVec.ofNat 1024 (bytesNat bs))
  let marked (f : Option FaultInfo) (bs : List Byte) : EntryState := match f with | some f => .marked f | none => data bs
  match o.kind with
  | .row _ _ =>
    let (sh, s) := s.takeShapes c (vas.filterMap (fun x => x))
    let ((bs, es), s) := s.engReadAll c sh false (vas.filterMap (fun x => x))
    (marked (loadFault 7 es) bs, s)
  | .lds st w =>
    let ((bs, es), s) := s.loadBytes c (fun s k => s.ordLoad c k) vas
    (marked (ldsFault o.ea st (2 ^ w.toNat) es) bs, s)
  | .lda _ sc ord =>
    let x := s.ctx c
    let home := ord == .seqCst || (x.mmr1 && 3 ≤ sc.rank) || (s.keysFor c o.vas).any (s.readsHome c sc false)
    let ((bs, es), s) := s.loadBytes c (fun s k => if ord == .ordinary then s.ordLoad c k else s.strongLoad c sc home k) vas
    (marked (loadFault 2 es) bs, s)
  | _ =>
    let ((bs, es), s) := s.loadBytes c (fun s k => s.ordLoad c k) vas
    (marked (loadFault 2 es) bs, s)

/-- An lq entry that awaits its data receives it (R290). -/
def Queues.fill (q : Queues) (id part : Nat) (st : EntryState) : Queues :=
  { q with lq := modFirst q.lq (fun e => e.id == id && e.part == part && e.st == .reserved) (fun e => { e with st := st }) }

/-- The loads that are over leave the load-address queue: performed, with every lq entry up to their last one pushed and none of
their own marked (R170, R173, R174). -/
def Queues.prune (q : Queues) : Queues :=
  { q with la := q.la.filter (fun o =>
      match o.kind with
      | .gidx | .ldk _ => true
      | _ => o.pushed == 0 || q.reservedUpTo o.id || q.markedIds.contains o.id) }

/-- The load is performed. -/
def Queues.performed (q : Queues) (id : Nat) : Queues :=
  let done : Queues := { q with la := q.la.map (fun (o : LoadOp) => if o.id = id then { o with pushed := 1, redo := false } else o) }
  done.prune

/-- Whether an lq entry awaits its data. -/
def awaits (q : Queues) (id part : Nat) : Bool := q.lq.any (fun e => e.id == id && e.part == part && e.st == .reserved)

/-- An acquire takes the cover of the word that it reads (R343). -/
def State.acquireAt (s : State) (c : CtxId) (o : LoadOp) : State :=
  if loadAcquires (s.ctx c) o.kind then
    match (s.keysFor c [o.ea.toNat]).head? with
    | some k => s.takeCover c o.kind.scope (wordObj k)
    | none => s
  else s

/-- The tile-cache lines that an ordinary load of device memory takes (R177, R338, R361). -/
def LoadOp.lines (o : LoadOp) : List LineTag :=
  match o.kind with
  | .lda _ _ .ordinary | .lds _ _ => linesOf o.vas
  | .ldt offs (.bytes _) => [tileLine o.ea offs]
  | _ => []

/-- A load but an LDK, an atomic or a gather index is performed. -/
def State.performLoad (s : State) (c : CtxId) (o : LoadOp) : State :=
  let s := if o.kind.isStrong then s.noteAhead c o.id false (s.keysFor c o.vas) none else s.takeLines c o.lines
  let q := if (s.ctx c).user.q.la.any (fun p => p.id == o.id) then (s.ctx c).user.q else (s.ctx c).hand.q
  let s := match o.kind with
    | .ldt _ (.fault f) =>
      s.updCtx c (fun x => x.updLoadQ o.id (fun q => (List.range 8).foldl (fun q j => q.fill o.id j (.marked f)) q))
    | _ =>
      (o.parts.filter (fun (p : Nat × List (Option Nat)) => awaits q o.id p.1)).foldl (fun (s : State) (p : Nat × List (Option Nat)) =>
        let (st, s) := s.loadEntry c o p.2
        s.updCtx c (fun x => x.updLoadQ o.id (fun q => q.fill o.id p.1 st))) s
  let s := s.acquireAt c o
  s.updCtx c (fun x => x.updLoadQ o.id (fun q => q.performed o.id))

-- Kept reads ----------------------------------------------------------------------------------------------------

/-- A marked or good kq entry enters, where there is room, before those of later LDKs (R170, R174, R289, R291). -/
def Context.pushKq (c : Context) (id : Nat) (e : KqEntry) : Context :=
  c.updLoadQ id (fun q => { q with kq := q.kq.filter (fun x => x.id ≤ e.id) ++ e :: q.kq.filter (fun x => e.id < x.id) })
def Context.kqOf (c : Context) (id : Nat) : List KqEntry :=
  if c.user.q.la.any (fun o => o.id == id) then c.user.q.kq else c.hand.q.kq

/-- A granule of a record as an ordinary read takes it: bytes and tag, or the code of the fault (R121, R123). -/
def State.recordGranule (s : State) (c : CtxId) (va : Nat) : Except (BitVec 8) (List Byte × Bool) × State :=
  match s.keyOf c.core (s.ctx c).part va true false with
  | (.error e, s) => (.error e, s)
  | (.ok k, s) =>
    let s := s.fixSnap c (tagKey k)
    if s.granuleBad c k then (.error 0x12, s)
    else
      let s := if isDirect k then s else s.takeLines c (linesOf [va])
      let s := (List.range 64).foldl (fun s i => s.fixSnap c (k + i)) s
      (.ok ((List.range 64).map (fun i => s.ordByte c (k + i)), s.ordKept c k), s)

/-- Whether an earlier LDK of the same queues has entries still to push: those of a later one follow them (R173, R291). -/
def Context.ldkBefore (c : Context) (o : LoadOp) : Bool :=
  let q := if c.user.q.la.any (fun p => p.id == o.id) then c.user.q else c.hand.q
  ldkAhead q.la o.id

/-- Whether kq takes an entry of an LDK now: it has room, or its context has exited and its data counts for nothing (R144, R170,
R289). -/
def Context.kqTakes (c : Context) (o : LoadOp) : Bool :=
  c.st == .retiring || (!c.ldkBefore o && (c.kqOf o.id).length < 32)

/-- An LDK ends in its one marked entry (R123), and stays on record so that ERET performs it again (R174). -/
def Context.ldkMark (c : Context) (o : LoadOp) (e : KqEntry) : Context :=
  (c.pushKq o.id e).updLoadQ o.id (fun q =>
    { q with la := q.la.map (fun p => if p.id = o.id then { p with stuck := true, redo := false } else p) })

/-- The next granule of an LDK is read, with the checks of R123; a check that fails ends it in one marked entry, once
kq has room for it. -/
def State.ldkRead (s : State) (c : CtxId) (o : LoadOp) (cls : RClass) : State :=
  let n := o.got.length / 64
  let va := o.ea.toNat + 64 * n
  let old := s
  let (g, s) := s.recordGranule c va
  let h := match g with
    | .ok (b, _) => headerOf (if n = 0 then b else o.got)
    | .error _ => headerOf o.got
  let fault : Option FaultInfo := match g with
    | .error e => some { code := e, detail := 0, addr := BitVec.ofNat 64 va }
    | .ok (_, kept) =>
      let reason := if n = 0 then headerReason kept h (some cls.code.toNat) else if kept then none else some 0x04
      reason.map (fun r => recordFault 0x09 r (BitVec.ofNat 8 cls.code.toNat) 0x13 h o.ea)
  match fault, g with
  | some f, _ =>
    if (s.ctx c).kqTakes o then
      s.updCtx c (fun x => x.ldkMark o { id := o.id, data := 0, cls := BitVec.ofNat 8 h.cls, base := o.ea, mark := some f })
    else old
  | none, .ok (b, _) =>
    s.updCtx c (fun x => x.updLoadQ o.id (fun q =>
      { q with la := q.la.map (fun p => if p.id = o.id then { p with got := p.got ++ b } else p) }))
  | none, .error _ => s

/-- Whether an LDK has a granule still to read. -/
def LoadOp.moreGranules (o : LoadOp) : Bool :=
  o.got.length < 64 || o.got.length / 64 < recordGranules (headerOf o.got).payload

/-- Whether the next kq entry of an LDK can be pushed: its granules are read and kq takes it (R123, R170, R291). -/
def ldkCanPush (c : Context) (o : LoadOp) : Bool :=
  !o.stuck && 64 ≤ o.got.length && (headerOf o.got).topGranule o.pushed < o.got.length / 64 && c.kqTakes o

/-- The next kq entry of an LDK is pushed; with the last one it leaves the load-address queue (R124, R170). -/
def Context.ldkPush (c : Context) (o : LoadOp) : Context :=
  let h := headerOf o.got
  let e : KqEntry := { id := o.id, data := h.entryData ((o.got.drop 16).take h.payload) o.pushed, cls := BitVec.ofNat 8 h.cls,
                       base := o.ea, mark := none }
  (c.pushKq o.id e).updLoadQ o.id (fun q =>
    if h.entries ≤ o.pushed + 1 then { q with la := q.la.filter (fun p => p.id != o.id) }
    else { q with la := q.la.map (fun p => if p.id = o.id then { p with pushed := p.pushed + 1, redo := false } else p) })

/-- Whether a LOAD_PERFORM of an entry can happen now. -/
def State.canPerform (s : State) (c : CtxId) (o : LoadOp) : Bool :=
  match o.kind with
  | .gidx | .atom _ _ _ _ _ | .cas _ _ _ _ _ => false
  | .ldk _ => o.moreGranules && s.mayLoad c o
  | _ => s.mayLoad c o

/-- LOAD_PERFORM (R123, R173, R174, R176, R177, R187, R338): a load of the load-address queue, or the tile cache taking
a line before any load asks for it. -/
def execLoadPerform (c : CtxId) (what : LoadWhat) (s : State) : Host.Outcome State Fault Refusal :=
  match what with
  | .fetch va => .next (if s.pfBlocked c [va] then s else s.fetchLine c va)
  | .entry n =>
    match (s.ctx c).loads[n]? with
    | none => .next s
    | some o =>
      if s.canPerform c o then
        .next (match o.kind with
          | .ldk cls => s.ldkRead c o cls
          | _ => s.performLoad c o)
      else .next s

/-- LDK_ENTRY_PUSH (R123, R124, R170). -/
def execLdkEntryPush (c : CtxId) (n : Nat) (s : State) : Host.Outcome State Fault Refusal :=
  match (s.ctx c).loads[n]? with
  | some o =>
    (match o.kind with
     | .ldk _ => .next (if ldkCanPush (s.ctx c) o then s.updCtx c (fun x => x.ldkPush o) else s)
     | _ => .next s)
  | none => .next s

-- Atomics -------------------------------------------------------------------------------------------------------

/-- The word that an atomic writes, if it writes, with its flags (R182, R183). -/
def atomNew (k : LoadKind) (old : Nat) : Option Nat × Flags :=
  match k with
  | .atom w _ _ op v =>
    let bits := 8 * 2 ^ w.toNat
    let v := v.toNat % 2 ^ bits
    let sg (x : Nat) : Int := if 2 ^ (bits - 1) ≤ x then (x : Int) - (2 ^ bits : Nat) else x
    match op with
    | .swap => (some v, 0)
    | .add => (some ((old + v) % 2 ^ bits), 0)
    | .and => (some (old &&& v), 0)
    | .or => (some (old ||| v), 0)
    | .xor => (some (old ^^^ v), 0)
    | .max => (some (if sg old < sg v then v else old), 0)
    | .min => (some (if sg v < sg old then v else old), 0)
    | .fadd =>
      let (r, fl) := faddPat .f32 old v
      (some r, fl)
  | .cas w _ _ e n =>
    let bits := 8 * 2 ^ w.toNat
    (if old = e.toNat % 2 ^ bits then some (n.toNat % 2 ^ bits) else none, 0)
  | _ => (none, 0)

/-- The width of an atomic in bytes. -/
def LoadKind.bytes : LoadKind → Nat
  | .lda w _ _ | .lds _ w | .atom w _ _ _ _ | .cas w _ _ _ _ => 2 ^ w.toNat
  | _ => 0

/-- The fault of an atomic (R122, R174). -/
def State.atomFault (s : State) (c : CtxId) (o : LoadOp) : Option FaultInfo × State :=
  let vas := vaRange o.ea.toNat o.kind.bytes
  let (fs, s) := s.framesOf c true true (pagesOf vas)
  let keys := vas.filterMap (frameKey (foundFrames fs))
  let opcode : BitVec 8 := match o.kind with | .atom _ _ _ _ _ => 0x20 | _ => 0x21
  let kept := if keys.any s.kept then [(o.ea.toNat / 64 * 64, (0x0E : BitVec 8))] else []
  let bad := if keys.any s.poisoned then [(o.ea.toNat, (0x12 : BitVec 8))] else []
  ((lowestFault (frameFaults fs vas ++ kept ++ bad)).map (writeFault opcode), s)

/-- One atomic is performed at the word's home, as one indivisible access (R182 to R184). -/
def State.performAtomic (s : State) (c : CtxId) (o : LoadOp) : State :=
  let finish (s : State) (st : EntryState) : State :=
    s.updCtx c (fun x => x.updLoadQ o.id (fun q => (q.fill o.id 0 st).performed o.id))
  match s.atomFault c o with
  | (some f, s) => finish s (.marked f)
  | (none, s) =>
    match (s.keysFor c [o.ea.toNat]).head? with
    | none => s
    | some k =>
      let n := o.kind.bytes
      let x := s.ctx c
      let old := bytesNat (memReadAll s.mem k n)
      let (new, fl) := atomNew o.kind old
      let s := s.sawHome c ((List.range n).map (k + ·))
      let s := if loadAcquires x o.kind then s.takeCover c o.kind.scope (wordObj k) else s
      let s := match new with
        | none => s
        | some v =>
          let bs : ByteMap := (natBytes n v).zipIdx.map (fun (b : Byte × Nat) => (k + b.2, b.1))
          let s := if o.kind.scope.rank ≤ 1 && !isDirect k then (s.takeLines c (linesOf [o.ea.toNat])).publish c.core bs else s
          let s := s.strongWrite c (atomReleases x o.kind) bs
          if atomReleases x o.kind then s.leaveCover c o.kind.scope (wordObj k) else s
      let s := s.updCtx c (fun x => { x with sticky := x.sticky ||| fl })
      finish s (.present (BitVec.ofNat 1024 old))

-- Prefetches ----------------------------------------------------------------------------------------------------

/-- PF (R173, R178, R283): it takes the lines or does nothing, by a free choice; nothing where an earlier store of its context to these bytes
is still queued. -/
def execPf (base idx : Spec) (w : BitVec 3) (s : State) : Host.Outcome State Fault Refusal :=
  slotOp (.pf base idx w) (do
    let (b, x) ← eaOf (.pf base idx w) base idx
    let s ← get
    let vas := vaRange (b + x).toNat (2 ^ w.toNat)
    let queued := s.me.stores.any (fun t => overlaps (s.storeKeys s.cur t) (s.keysFor s.cur vas)) ||
      s.me.tileOps.any (fun t => overlaps t.keys (s.keysFor s.cur vas))
    if queued then pure () else prefetch vas) s

end Sys2Proof.Machine
end

