-- ==== Sys2Proof/Machine/Stores.lean ====
section
/-! DEFINITION. Stores, record operations, posts and write-backs as they are performed (R121, R128, R129, R159, R171, R175,
R179 to R181, R186, R188, R189, R316, R329, R337 to R346, R420), and the events that fill a core's caches (R175, R331,
R360, R365). -/

namespace Sys2Proof.Machine

-- Where a store's bytes go --------------------------------------------------------------------------------------

/-- The key of a byte that a store writes (R420): by the frame that passed at issue, or, after a TINV took that frame, by
a fresh translation whose granule's kept tag is checked again. -/
def State.targetKey (s : State) (c : CtxId) (strong rd : Bool) (fr : List (Nat × Nat)) (va : Nat) :
    Except (BitVec 8) Nat × State :=
  match frameKey fr va with
  | some k => (.ok k, s)
  | none =>
    match s.keyOf c.core (s.ctx c).part va rd true with
    | (.error e, s) => (.error e, s)
    | (.ok k, s) =>
      let s := s.fixSnap c (tagKey k)
      if (if strong then s.kept k else s.ordKept c k) then (.error 0x0E, s) else (.ok k, s)

/-- The bytes of some writes by key, a later write over an earlier one, with the faults met; a write of a part of a byte
keeps the rest as the thread reads it (R181, R316). An uncorrectable error at a byte that is written where it is performed is reported
and the byte is written (R175; log entry 46). -/
def State.resolve (s : State) (c : CtxId) (strong : Bool) (fr : List (Nat × Nat)) :
    List ByteWrite → ByteMap → (ByteMap × List (Nat × BitVec 8)) × State
  | [], bm => ((bm, []), s)
  | w :: r, bm =>
    match s.targetKey c strong false fr w.va with
    | (.error e, s) =>
      let ((bm, es), s) := s.resolve c strong fr r bm
      ((bm, (w.va, e) :: es), s)
    | (.ok k, s) =>
      let s := if w.mask = 0xFF then s else s.fixSnap c k
      let old := (bmGet bm k).getD (s.ordByte c k)
      let bad : List (Nat × BitVec 8) := if (isDirect k || strong) && s.poisoned k then [(w.va, 0x12)] else []
      let ((bm, es), s) := s.resolve c strong fr r (bmPut bm k ((old &&& ~~~w.mask) ||| (w.val &&& w.mask)))
      ((bm, bad ++ es), s)

/-- The bytes of an STA or STS (R179). -/
def lineWrites (d : SqEntry) (vas : List Nat) : List ByteWrite :=
  vas.zipIdx.filterMap (fun (v : Nat × Nat) =>
    if v.2 < 128 && bit d.mask v.2 then some { va := v.1, mask := 0xFF, val := BitVec.ofNat 8 (elemOf d.data 8 v.2) } else none)

/-- What a store writes itself, and the images that follow it (R179, R181, R316). -/
def State.storeWrites (s : State) (c : CtxId) (o : StoreOp) (ds : List SqEntry) : List ByteWrite × List ByteWrite :=
  match o.kind with
  | .sta w _ _ => (lineWrites (ds.headD { data := 0, mask := 0 }) (vaRange o.ea.toNat (2 ^ w.toNat)), [])
  | .sts st w =>
    (lineWrites (ds.headD { data := 0, mask := 0 })
      ((strideVas o.ea st (2 ^ w.toNat)).flatMap (fun a => vaRange a (2 ^ w.toNat))), [])
  | .stt offs b => (match shapeOf b with | some h => tileWrites h o.ea offs ds | none => [], [])
  | .sti offs neg b =>
    (match shapeOf b with
     | some h =>
       (tileWrites h o.ea offs ds,
        match s.imageLaunch (s.ctx c) with
        | some l => if s.symmetric (s.ctx c) then stiImages l h neg o.ea offs ds else []
        | none => [])
     | none => ([], []))
  | .skst _ _ => ([], [])

/-- The opcode of a store (R165). -/
def StoreKind.opcode : StoreKind → BitVec 8
  | .sta _ _ _ => 0x18
  | .sts _ _ => 0x19
  | .stt _ _ => 0x1A
  | .sti _ _ _ => 0x1B
  | .skst _ _ => 0x1C

/-- The data entries that a store consumes (R171). -/
def StoreKind.entries : StoreKind → Nat
  | .sta _ _ _ | .sts _ _ => 1
  | .stt _ _ | .sti _ _ _ => 8
  | .skst c w =>
    match shapeWordOf c.code.toNat w with
    | some sw => (sw.rows * sw.cols + perEntry sw.fmt - 1) / perEntry sw.fmt
    | none => 0

-- A store -------------------------------------------------------------------------------------------------------

/-- The course that an event of one of a context's two store queues acts on. -/
def Context.qOf (c : Context) (hand : Bool) : Queues := if hand then c.hand.q else c.user.q
def Context.updQOf (c : Context) (hand : Bool) (g : Queues → Queues) : Context :=
  if hand then { c with hand := c.hand.updQ g } else { c with user := c.user.updQ g }

/-- The scope at which a store releases, where it does. -/
def StoreOp.release (c : Context) (o : StoreOp) : Option Scope := if storeReleases c o.kind then some o.kind.scope else none

/-- Whether a store may be performed now but for a release's own wait (R171, R343): as a strong store with every older strong load
performed (R350), or before those that it may pass, where the threads that its order binds do not see it (R335, R351). -/
def State.mayStore (s : State) (c : CtxId) (o : StoreOp) : Bool :=
  let x := s.ctx c
  let keys := s.storeKeys c o
  let passed := strongBefore x o.id
  if !o.kind.isStrong then !acquirePending x (fun _ => false) o.id
  else if s.aheadHolds c true keys then false
  else if passed.isEmpty then !acquirePending x (fun _ => false) o.id
  else (o.release x).all (fun sc => sc.rank ≤ 5) && o.kind.order != .seqCst && !acquirePending x (s.passable c true keys) o.id &&
    passed.all (s.passable c true keys) && !s.aheadWriter c

/-- The tile-cache lines that an ordinary store of device memory takes, the images' among them (R181, R337, R361). -/
def StoreOp.lines (o : StoreOp) (images : List ByteWrite) : List LineTag :=
  (match o.kind with
   | .stt offs _ | .sti offs _ _ => [tileLine o.ea offs]
   | _ => linesOf o.vas) ++ linesOf (images.map (·.va))

/-- The bytes of a store reach the place where it is performed: the tile cache, a bank or a home (R337, R340 to R342). -/
def State.putStore (s : State) (c : CtxId) (o : StoreOp) (images : List ByteWrite) (bs : ByteMap) : State :=
  if o.kind.isStrong then
    let s := s.noteAhead c o.id true (bs.map (·.1)) (o.release (s.ctx c))
    let s := if o.kind.scope.rank ≤ 1 && !(deviceBytes bs).isEmpty then (s.takeLines c (linesOf o.vas)).publish c.core bs else s
    s.strongWrite c (storeReleases (s.ctx c) o.kind) bs
  else
    let device := (deviceBytes bs).map (·.1)
    let s := if device.isEmpty then s else s.takeLines c (o.lines images)
    let s := s.ordWrite c bs
    match o.kind with
    | .sti _ _ _ => s.updCtx c (fun x => { x with tied := x.tied ++ [device] })
    | _ => s

/-- A release leaves its cover at the word that it writes, its own write among what it makes known (R343). -/
def State.releaseAt (s : State) (c : CtxId) (o : StoreOp) (bs : ByteMap) : State :=
  if storeReleases (s.ctx c) o.kind then
    match bs with
    | (k, _) :: _ => s.leaveCover c o.kind.scope (wordObj k)
    | [] => s
  else s

/-- A fault found at performance is reported: the one at the lowest faulting byte address (R420). -/
def State.reportStore (s : State) (c : CtxId) (opcode : BitVec 8) (es : List (Nat × BitVec 8)) : State :=
  match firstFault es with
  | none => s
  | some f => s.reportFault c (writeFault opcode f) 0

/-- The store at the head of a queue takes data entries as they are there (R171). -/
def Context.takeData (c : Context) (hand : Bool) : Context :=
  match (c.qOf hand).sa with
  | [] => c
  | o :: _ =>
    let n := o.kind.entries - o.data.length
    c.updQOf hand (fun q =>
      { q with sq := q.sq.drop n
               sa := modFirst q.sa (fun t => t.id == o.id) (fun t => { t with data := t.data ++ q.sq.take n }) })

/-- Whether the store at the head of a queue has data entries to take. -/
def Context.dataThere (c : Context) (hand : Bool) : Bool :=
  match (c.qOf hand).sa with
  | [] => false
  | o :: _ => o.data.length < o.kind.entries && !(c.qOf hand).sq.isEmpty

/-- The store at the head of a queue is performed: its bytes but for faulting ones are written, and its entries leave
their queues (R171, R420). Images are checked now. -/
def State.performStore (s : State) (c : CtxId) (hand : Bool) (o : StoreOp) : State :=
  let (own, images) := s.storeWrites c o o.data
  let ((bs, es), s) := s.resolve c o.kind.isStrong o.frames own []
  let ((bs, fs), s) := s.resolve c o.kind.isStrong [] images bs
  let s := s.putStore c o images bs
  let s := s.releaseAt c o bs
  let s := s.updCtx c (fun x => x.updQOf hand (fun q => { q with sa := q.sa.filter (fun t => t.id != o.id) }))
  s.reportStore c o.kind.opcode (es ++ fs)

/-- Whether a releasing store may be performed as far as its release goes (R343, R346): every earlier access is, but for strong loads
that it passes where its order binds nobody who sees that (R335, R351). -/
def State.storeReleased (s : State) (c : CtxId) (o : StoreOp) : Bool :=
  let x := s.ctx c
  let keys := s.storeKeys c o
  let passed := if s.mayStore c o then (strongBefore x o.id).filter (s.passable c true keys) else []
  releaseDone { x with user := x.user.updQ (fun q => { q with la := q.la.filter (fun t => !passed.contains t) }),
                       hand := x.hand.updQ (fun q => { q with la := q.la.filter (fun t => !passed.contains t) }) } o.id o.kind.scope &&
    s.linksClear c o.kind.scope

/-- What the store at the head of a queue, with its data there, can do now: be performed, or, as a release of .quad or wider that
must wait, be handed to its weir (R171, R343, R346). -/
def State.tryStore (s : State) (c : CtxId) (hand : Bool) : Option State :=
  let x := s.ctx c
  match (x.qOf hand).sa with
  | [] => none
  | o :: _ =>
    match o.kind with
    | .skst _ _ => none
    | _ =>
      if o.held || o.data.length < o.kind.entries || !s.mayStore c o then none
      else if storeReleases x o.kind && !s.storeReleased c o then
        if o.kind.scope.rank < 2 then none
        else some (s.updCtx c (fun x => x.updQOf hand (fun q =>
          { q with sa := modFirst q.sa (fun t => t.id == o.id) (fun t => { t with held := true }) })))
      else some (s.performStore c hand o)

/-- Data entries go to the store at the head of a queue, and then it does what it can; none where nothing of this is possible. -/
def State.headStep (s : State) (c : CtxId) (hand : Bool) (act : State → Option State) : Option State :=
  if (s.ctx c).dataThere hand then
    let t := s.updCtx c (fun x => x.takeData hand)
    some ((act t).getD t)
  else act s

/-- The step that a store at the head of a queue can take now. -/
def State.storeHead (s : State) (c : CtxId) (hand : Bool) : Option State :=
  s.headStep c hand (fun s => s.tryStore c hand)

/-- STORE_PERFORM (R171, R179 to R181, R316, R346). -/
def execStorePerform (c : CtxId) (s : State) : Host.Outcome State Fault Refusal :=
  match s.storeHead c false with
  | some t => .next t
  | none =>
    match s.storeHead c true with
    | some t => .next t
    | none => .next s

/-- The held release of a context, and the queue that it heads. -/
def heldRelease (c : Context) : Option (Bool × StoreOp) :=
  match c.user.q.sa, c.hand.q.sa with
  | o :: _, l => if o.held then some (false, o) else match l with | p :: _ => if p.held then some (true, p) else none | [] => none
  | [], p :: _ => if p.held then some (true, p) else none
  | [], [] => none

/-- RELEASE_WEIR_PASS (R346). -/
def execReleaseWeirPass (c : CtxId) (s : State) : Host.Outcome State Fault Refusal :=
  match heldRelease (s.ctx c) with
  | some (hand, o) =>
    .next (if s.storeReleased c o && s.mayStore c o then s.performStore c hand o else s)
  | none => .next s

-- Records -------------------------------------------------------------------------------------------------------

/-- Tags that a thread's own record operations and copies set, noted while a record operation of its own is waiting (R420). -/
def State.noteTags (s : State) (c : CtxId) (tags : ByteMap) : State :=
  let x := s.ctx c
  let waiting := (x.stores.filter (fun o => match o.kind with | .skst _ _ => true | _ => false)).length + x.tileOps.length
  if waiting = 0 then s else s.updCtx c (fun x => { x with tagsSet := bmUnion x.tagsSet tags })

/-- One granule of a record operation is written with its tag as one access (R129, R186); `keptNow` says what its tag
must be, where that is checked: a change that the thread's own record operations have made is none (R420). An uncorrectable error in a scratchpad granule is reported, and the granule is written (R121;
log entry 46). -/
def State.granuleWrite (s : State) (c : CtxId) (fr : List (Nat × Nat)) (keptNow : Option Bool) (g : GranuleWrite) :
    Option (BitVec 8) × State :=
  let key := match frameKey fr g.va with
    | some k => (Except.ok k, s)
    | none => s.keyOf c.core (s.ctx c).part g.va (keptNow != some false) true
  match key with
  | (.error e, s) => (some e, s)
  | (.ok k, s) =>
    let s := s.fixSnap c (tagKey k)
    let own := bmGet (s.ctx c).tagsSet (tagKey k) == some (s.ordByte c (tagKey k))
    if keptNow.any (fun b => b != s.ordKept c k) && !own then (some 0x0E, s)
    else
      let bytes : ByteMap := match g.bytes with
        | some b => b.zipIdx.map (fun (b : Byte × Nat) => (k + b.2, b.1))
        | none => []
      let bad := isDirect k && (List.range 64).any (fun i => s.poisoned (k + i))
      let s := if isDirect k then s else s.takeLines c (linesOf [g.va])
      let tag : ByteMap := [(tagKey k, if g.tag then 1 else 0)]
      (if bad then some 0x12 else none, (s.ordWrite c (bmUnion (bmUnion [] bytes) tag)).noteTags c tag)

/-- The record that an SKST builds from its data entries (R117, R119, R120, R186), and its flags. An element of which some bytes are
masked reads whole as zero, as a masked element does: DESIGN CHOICE (log entry 101). -/
def skstPlan (c : RClass) (w : ShapeWord) (base : Nat) (ds : List SqEntry) : List GranuleWrite × Flags :=
  let bits := w.fmt.bits
  let per := perEntry w.fmt
  let elem (n : Nat) : Nat :=
    match ds[n / per]? with
    | some d =>
      let e := n % per
      if (elemBytes w.fmt e).all (fun b => bit d.mask b) then elemOf d.data bits e else 0
    | none => 0
  let cls := c.code.toNat
  let (p, fl) := payloadOf cls w.e4 w.fmt w.rows w.cols w.window ((List.range (w.rows * w.cols)).map elem)
  let h : Header := { rev := 1, cls := cls, form := formOf cls w.e4, fmtCode := w.fmt.code.toNat, rows := w.rows,
                      cols := w.cols, window := w.window, flags := 0, payload := p.length, reserved := 0 }
  let bytes := recordBytes h p
  let one (n : Nat) : GranuleWrite := { va := base + 64 * n, bytes := some ((bytes.drop (64 * n)).take 64), tag := true }
  (((List.range (recordGranules p.length)).drop 1).map one ++ [one 0], fl)

/-- The SKST at the head of a queue, with its data entries there, forms its record. -/
def Context.skstForm (c : Context) (hand : Bool) (o : StoreOp) : Context :=
  match o.kind with
  | .skst cls w =>
    match shapeWordOf cls.code.toNat w with
    | none => c
    | some sw =>
      let (plan, fl) := skstPlan cls sw o.ea.toNat o.data
      c.updQOf hand (fun q => { q with sa := modFirst q.sa (fun t => t.id == o.id) (fun t => { t with plan := some plan, flags := fl }) })
  | _ => c

/-- One granule of an SKST, or its end: its flags rise, and what its granules met is reported (R186, R420). -/
def State.skstGranule (s : State) (c : CtxId) (hand : Bool) (o : StoreOp) : List GranuleWrite → State
  | [] => s
  | g :: r =>
    let (f, s) := s.granuleWrite c o.frames (some false) g
    let bad := match f with | some e => o.bad ++ [(g.va, e)] | none => o.bad
    if r.isEmpty then
      let s := s.updCtx c (fun x =>
        { x.updQOf hand (fun q => { q with sa := q.sa.filter (fun t => t.id != o.id) }) with sticky := x.sticky ||| o.flags })
      s.reportStore c 0x1C bad
    else
      s.updCtx c (fun x => x.updQOf hand (fun q =>
        { q with sa := modFirst q.sa (fun t => t.id == o.id) (fun t => { t with plan := some r, bad := bad }) }))

/-- The step that the SKST at the head of a queue, with its data there, can take now: to form its record, or to write the next
granule. -/
def State.trySkst (s : State) (c : CtxId) (hand : Bool) : Option State :=
  match ((s.ctx c).qOf hand).sa with
  | [] => none
  | o :: _ =>
    match o.kind with
    | .skst _ _ =>
      if acquirePending (s.ctx c) (fun _ => false) o.id || o.data.length < o.kind.entries then none
      else
        match o.plan with
        | some plan => some (s.skstGranule c hand o plan)
        | none => some (s.updCtx c (fun x => x.skstForm hand o))
    | _ => none

/-- The step that an SKST at the head of a queue can take now. -/
def State.skstHead (s : State) (c : CtxId) (hand : Bool) : Option State :=
  s.headStep c hand (fun s => s.trySkst c hand)

/-- SKST_RECORD_WRITE (R186): the data is taken, then each granule is written, the header's last. -/
def execSkstRecordWrite (c : CtxId) (s : State) : Host.Outcome State Fault Refusal :=
  match s.skstHead c false with
  | some t => .next t
  | none =>
    match s.skstHead c true with
    | some t => .next t
    | none => .next s

/-- One granule of a record operation in the background, or its end (R128, R129, R188, R189). -/
def State.tileGranule (s : State) (c : CtxId) (o : TileOp) : List GranuleWrite → State
  | [] => s.updCtx c (fun x => { x with tileOps := x.tileOps.filter (fun t => t.id != o.id) })
  | g :: r =>
    let (f, s) := s.granuleWrite c o.frames (if o.drop then none else some true) g
    let bad := match f with | some e => o.bad ++ [(g.va, e)] | none => o.bad
    if r.isEmpty then
      let s := s.updCtx c (fun x =>
        { x with tileOps := x.tileOps.filter (fun t => t.id != o.id), sticky := x.sticky ||| o.flags })
      s.reportStore c (if o.drop then 0x1E else 0x1D) bad
    else
      s.updCtx c (fun x =>
        { x with tileOps := modFirst x.tileOps (fun t => t.id == o.id) (fun t => { t with plan := r, bad := bad }) })

/-- The first record operation of a kind that may go on. -/
def State.tileStep (s : State) (c : CtxId) (drop : Bool) : State :=
  match (s.ctx c).tileOps.find? (fun o => o.drop == drop) with
  | some o => if acquirePending (s.ctx c) (fun _ => false) o.id then s else s.tileGranule c o o.plan
  | none => s

/-- SKRTG_REWRITE (R128, R188). -/
def execSkrtgRewrite (c : CtxId) (s : State) : Host.Outcome State Fault Refusal := .next (s.tileStep c false)
/-- SKDROP_CLEAR (R121, R189). -/
def execSkdropClear (c : CtxId) (s : State) : Host.Outcome State Fault Refusal := .next (s.tileStep c true)

-- Posts ---------------------------------------------------------------------------------------------------------

/-- Whether a post may be performed now: as a release at its scope, or at scope 0 with nothing to wait for (R159, R343). -/
def State.mayPost (s : State) (c : CtxId) (p : Post) : Bool := p.sc == .ctx || s.released c p.id p.sc

/-- A post is applied to its flag, or discarded where another launch, or none, holds the core and declares the flag (R327, R329). -/
def State.applyPost (s : State) (c : CtxId) (p : Post) : State :=
  let k := s.core p.core
  let s := if k.bound == some p.uid && k.owns p.flag then
      (if p.sc = .ctx then s else s.leaveCover c p.sc (flagObj p.core p.flag)).updCore p.core (fun k => k.setFlag p.flag (k.flag p.flag + p.add))
    else s
  s.updCtx c (fun x => { x with posts := x.posts.filter (fun q => q.id != p.id) })

/-- POSTF_PERFORM (R159, R329). -/
def execPostfPerform (c : CtxId) (s : State) : Host.Outcome State Fault Refusal :=
  match (s.ctx c).posts.find? (fun p => s.mayPost c p) with
  | some p => .next (s.applyPost c p)
  | none => .next s

/-- The posts at scope 0 of a core's contexts, which trigger entries have fired, are performed (R159, R268). -/
def State.ownPosts (s : State) (core : CoreId) : State :=
  ctxNums.foldl (fun s n =>
    let c : CtxId := { core := core, ctx := n }
    ((s.ctx c).posts.filter (fun p => p.sc == .ctx)).foldl (fun s p => s.applyPost c p) s) s

-- Waiting words -------------------------------------------------------------------------------------------------

/-- WAITW_PERIODIC_READ (R331, R422). -/
def execWaitwPeriodicRead (c : CtxId) (s : State) : Host.Outcome State Fault Refusal :=
  match (s.ctx c).watch with
  | some w => .next (if s.watchHolds c w then s.updCtx c (fun x => { x with waitOk := true }) else s)
  | none => .next s

-- Caches --------------------------------------------------------------------------------------------------------

/-- The operations of a context's next strap, where it decodes. -/
def State.nextOps (s : State) (c : CtxId) : List Instr :=
  let s : State := { s with cur := c }
  match s.nextStrap s.me with
  | .ok (_, ops) => ops
  | .error _ => []

/-- The addresses that a context's next strap names in its A slot. -/
def State.nextVas (s : State) (c : CtxId) : List Nat :=
  let t : State := { s with cur := c }
  (s.nextOps c).flatMap (storeTargets t)

/-- The addresses of a command. -/
def CmdOp.words : CmdOp → List Word
  | .xcp d s' _ _ => [d, s']
  | .xcpz d s' _ _ dict => [d, s'] ++ (dict.map (fun d => BitVec.ofNat 64 d.1)).toList
  | .xcpc d s' _ _ _ _ => [d, s']
  | .xfill s' _ _ _ _ _ _ => [s']
  | .xgath d _ rows => d :: rows
  | .xgathLq _ rows => rows
  | .xscat s' _ rows => s' :: rows
  | .xpopq d _ _ _ => [d]
  | .xsend _ s' => [s']
  | .xrecv _ d => d.toList
  | .xstor d _ _ _ _ _ => [d]

/-- Whether something on a core is about to translate an address of the page that holds `va` (R360). -/
def State.wantsPage (s : State) (core : CoreId) (va : Nat) : Bool :=
  let k := s.core core
  !k.commands.isEmpty || !k.comms.isEmpty || ctxNums.any (fun n =>
    let c : CtxId := { core := core, ctx := n }
    let x := s.ctx c
    let vas := x.loads.flatMap LoadOp.vas ++ x.stores.flatMap StoreOp.vas ++ s.nextVas c
    vas.any (fun v => v / 2 ^ 16 == va / 2 ^ 16))

/-- The cores of a core's cascade, of its partition, that wait for the page that holds `va` (R360). -/
def State.pageSharers (s : State) (core : CoreId) (va : Nat) : List CoreId :=
  (s.cores.map (fun e => BitVec.ofNat 11 e.1)).filter (fun d =>
    terraceOf d / 4 == terraceOf core / 4 && (s.core d).bound.isSome && (s.core d).boundPart == (s.core core).boundPart &&
      s.wantsPage d va)

/-- A walk has come back to a core: a translation enters its cache, and the stores that wait for the page issue (R175, R360). -/
def State.walkBack (s : State) (va : Nat) (e : Except (BitVec 8) TlbEntry) (core : CoreId) : State :=
  let s := match e with
    | .ok e => s.updCore core (fun k => { k with tlb := ((e :: k.tlb.filter (fun x => x.va != e.va || x.size != e.size)).take 1024) })
    | .error _ => s
  ctxNums.foldl (fun s n =>
    let c : CtxId := { core := core, ctx := n }
    let waits := (missingPages { s with cur := c } (s.nextVas c)).contains (va / 2 ^ 16)
    if waits then s.updCtx c (fun x => { x with walked := setAdd x.walked (va / 2 ^ 16) }) else s) s

/-- TRANSLATION_WALK (R356, R357, R360): a walk for a waiting access ends and fills the cache of every core of the cascade that asks
for the page; in the cache of the core it replaces an entry. A fault that it found is not cached. -/
def execTranslationWalk (core : CoreId) (va : Nat) (drop : Nat) (s : State) : Host.Outcome State Fault Refusal :=
  if (s.core core).bound.isSome && va < tensorBase && !(windowBase ≤ va && va < windowEnd) && s.wantsPage core va then
    let sharers := s.pageSharers core va
    let (e, s) := s.walkLeaf (s.core core).boundPart va false false
    let fault := match e with | .ok e => s.physFault (e.pa + (va - e.va)) | .error _ => false
    let e := if fault then .error 0x0B else e
    .next (sharers.foldl (fun s d => s.walkBack va e d) (s.updCore core (fun k => { k with tlb := k.tlb.eraseIdx drop })))
  else .next s

/-- TAG_PROBE (R175): the kept tag of a granule of another core's scratchpad comes back to a blocked store. -/
def execTagProbe (c : CtxId) (va : Nat) (s : State) : Host.Outcome State Fault Refusal :=
  let g := va / 64 * 64
  let t : State := { s with cur := c }
  .next (if (remoteGranules t (s.nextVas c)).contains g then
      s.updCtx c (fun x => { x with probes := setAdd x.probes g })
    else s)

/-- Whether something on a core is about to take shape record n. -/
def State.wantsRecord (s : State) (core : CoreId) (n : Nat) : Bool :=
  let k := s.core core
  k.commands.any (fun c => c.op.words.any (fun w => w.toNat / 2 ^ 28 == tensorBase / 2 ^ 28 + n)) ||
    !k.comms.isEmpty || ctxNums.any (fun m =>
      let c : CtxId := { core := core, ctx := m }
      let t : State := { s with cur := c }
      (s.nextOps c).any (fun i =>
        match i with
        | .ldt b x | .stt b x | .sti b x _ => ((peek t (eaOf i b x)).map (fun e => tensorOf e.1 == n)).getD false
        | _ => false))

/-- SHAPE_RECORD_FETCH (R365): a record comes into the record cache, where it replaces an entry. -/
def execShapeRecordFetch (core : CoreId) (n : Nat) (drop : Nat) (s : State) : Host.Outcome State Fault Refusal :=
  if (s.core core).bound.isSome && s.wantsRecord core n then
    let s := s.updCore core (fun k => { k with records := (k.records : List (Nat × List Byte)).eraseIdx drop })
    .next (s.takeRecord core (s.core core).boundPart n).2
  else .next s

-- Write-backs ---------------------------------------------------------------------------------------------------

/-- The dirty bytes of a PHASE at a scope are performed at its point of coherence (R339). -/
def State.phaseWrite (s : State) (c : CtxId) (sc : Scope) : State :=
  let x := s.ctx c
  if sc = .core then
    let s := s.updCore c.core (fun k => { k with pub := bmUnion k.pub x.dirty })
    let s := s.updCtx c (fun y => { y with pubDirty := bmUnion y.pubDirty x.dirty, dirty := [] })
    s.wake (x.dirty.map (·.1))
  else
    let s := s.writeBack c (s.publishedNow c x.pubDirty)
    let s := s.writeBack c x.dirty
    s.updCtx c (fun y => { y with dirty := [], pubDirty := [], tied := [] })

/-- The PHASE that a context's next strap holds. -/
def State.waitingPhase (s : State) (c : CtxId) : Option Scope :=
  (s.nextOps c).findSome? (fun i => match i with | .phase sc => if sc = .ctx then none else some sc | _ => none)

/-- PHASE_WRITE_BACK (R339, R346). -/
def execPhaseWriteBack (c : CtxId) (s : State) : Host.Outcome State Fault Refusal :=
  match s.waitingPhase c with
  | some sc => .next (s.phaseWrite c sc)
  | none => .next s

/-- TILE_CACHE_EVICTION (R337): the n-th line of a core's tile cache leaves it. -/
def execTileCacheEviction (core : CoreId) (line : Nat) (s : State) : Host.Outcome State Fault Refusal :=
  match (s.core core).lines[line]? with
  | some l => .next (s.evictLine core (s.core core).boundPart l)
  | none => .next s

-- Relay copies --------------------------------------------------------------------------------------------------

/-- Whether an update may be applied at its terrace now: a release's only after the earlier ones of its source to that terrace
(R346). -/
def State.mayRelay (s : State) (n : Nat) (u : RelayUpdate) : Bool :=
  !(u.rel && (s.relayPend.take n).any (fun v => v.src == u.src && v.terrace == u.terrace))

/-- The relay copy of a terrace takes an update (R341, R342): older updates of the same bytes are overtaken, and a byte
whose last update has come reads as its home. -/
def State.relay (s : State) (n : Nat) (u : RelayUpdate) : State :=
  let t := u.terrace.toNat
  let strip (v : RelayUpdate) : RelayUpdate :=
    if v.terrace = u.terrace then { v with bytes := v.bytes.filter (fun e => (bmGet u.bytes e.1).isNone) } else v
  let before := ((s.relayPend.take n).map strip).filter (fun v => !v.bytes.isEmpty)
  let after := s.relayPend.drop (n + 1)
  let later (k : Nat) : Bool := after.any (fun v => v.terrace == u.terrace && (bmGet v.bytes k).isSome)
  let s : State := { s with relayPend := before ++ after }
  s.updTerrace t (fun x =>
    { x with relay := u.bytes.foldl (fun m e => if later e.1 then bmPut m e.1 e.2 else bmErase m e.1) x.relay })

/-- The place among all pending updates of the n-th that is bound for a terrace. -/
def relayIndex (l : List RelayUpdate) (t : BitVec 4) (n : Nat) : Option Nat :=
  ((l.zipIdx.filter (fun u => u.1.terrace == t))[n]?).map (·.2)

/-- RELAY_COPY_UPDATE (R342). -/
def execRelayCopyUpdate (t : BitVec 4) (n : Nat) (s : State) : Host.Outcome State Fault Refusal :=
  match relayIndex s.relayPend t n with
  | none => .next s
  | some i =>
    match s.relayPend[i]? with
    | none => .next s
    | some u =>
      if s.mayRelay i u then
        .next ((s.relay i u).wake (u.bytes.map (·.1)))
      else .next s

-- Accesses of one cycle -----------------------------------------------------------------------------------------

/-- Contexts in ascending global thread number (R15, R184). -/
def insertByThread (s : State) {α : Type} (a : CtxId × α) : List (CtxId × α) → List (CtxId × α)
  | [] => [a]
  | b :: r => if (s.ctx b.1).thread.ult (s.ctx a.1).thread then b :: insertByThread s a r else a :: b :: r

/-- An access of a thread among those of one cycle is performed, where it may be now: the load of a number, or the store at the head of
its queue. -/
def State.performAccess (s : State) (c : CtxId) : Option Nat → State
  | some id =>
    match (s.ctx c).loads.find? (fun o => o.id == id) with
    | some o =>
      match o.kind with
      | .ldk cls => if o.moreGranules && s.mayLoad c o then s.ldkRead c o cls else s
      | .gidx => s
      | .atom _ _ _ _ _ | .cas _ _ _ _ _ => if s.mayLoad c o then s.performAtomic c o else s
      | _ => if s.mayLoad c o then s.performLoad c o else s
    | none => s
  | none => (s.storeHead c false).getD ((s.storeHead c true).getD s)

end Sys2Proof.Machine
end

