-- ==== Sys2Proof/Machine/Contexts.lean ====
section
/-! DEFINITION. What happens to a context from outside its own straps (R136, R144, R145, R277 to R285): release, landing,
stops, saving and restoring, faults from engines, retirement, the helper, and the group barrier's side of GBAR (R322 to
R325). -/

namespace Sys2Proof.Machine

-- What a context's next strap would do ---------------------------------------------------------------------------

/-- What a context's next strap would do now. -/
inductive Verdict where
  /-- Its decode faults. -/
  | fault (slot : BitVec 4) (code : BitVec 8) (present : BitVec 9)
  /-- It waits. -/
  | wait (ops : List Instr)
  /-- It can issue; a squashed strap issues nothing (R139). -/
  | issue (info : StrapInfo) (ops : List Instr) (squashed : Bool)
  deriving DecidableEq, Repr

/-- The next strap of a context, judged (R79, R136, R139, R277). -/
def State.verdict (s : State) (c : CtxId) : Verdict :=
  let s : State := { s with cur := c }
  match s.nextStrap s.me with
  | .error (slot, code, present) => .fault slot code present
  | .ok (info, ops) =>
    if 0 < s.me.flow.squash.toNat && !s.me.resume.any (·.part) then .issue info ops true
    else if s.mustWait ops then .wait ops
    else .issue info ops false

/-- The contexts of a core that the merge stage ranks: READY, BLOCKED or in their handlers, and not away for a YIELD (R145). -/
def Context.ranked (c : Context) (cycle : Nat) : Bool :=
  match c.st with
  | .ready | .blocked => true
  | .trapped => c.wake ≤ cycle
  | _ => false

/-- Context numbers in rank order (R281). -/
def Core.ranking (k : Core) : List (BitVec 2) :=
  (List.range 4).flatMap (fun p => ctxNums.filter (fun n => (k.ctx n).ranked k.cycle && (k.ctx n).prio.toNat == p))

/-- The flag and the amount that a strap which can issue would take by WAITF (R158). -/
def Verdict.take (v : Verdict) (x : Context) : Option (BitVec 5 × Nat) :=
  match v with
  | .issue _ ops false => ops.findSome? (fun i => match i with | .waitf ya f _ true => some (f, ((x.y.get ya).setWidth 32).toNat) | _ => none)
  | _ => none

/-- Context numbers in ascending order of their threads. -/
def Core.placeThread (k : Core) (a : BitVec 2) : List (BitVec 2) → List (BitVec 2)
  | [] => [a]
  | b :: r => if (k.ctx b).thread.toNat < (k.ctx a).thread.toNat then b :: k.placeThread a r else a :: b :: r
def Core.byThread (k : Core) (l : List (BitVec 2)) : List (BitVec 2) := l.foldr k.placeThread []

/-- The takes of one cycle are served in ascending thread number, whatever the ranks, and each tests what the one before it leaves
(R158, R282, R328): what is taken of each flag, and the contexts that wait on. -/
def Core.serveTakes (k : Core) (vs : List (BitVec 2 × Verdict)) : List (Nat × Nat) × List (BitVec 2) :=
  (k.byThread (vs.map (·.1))).foldl (fun (a : List (Nat × Nat) × List (BitVec 2)) n =>
    match (Assoc.find (vs.map (fun v => (v.1.toNat, v.2))) n.toNat).bind (fun v => v.take (k.ctx n)) with
    | none => a
    | some (f, m) =>
      let taken := Assoc.get 0 a.1 f.toNat
      if k.owns f && (k.flag f).toNat < taken + m then (a.1, n :: a.2) else (Assoc.put a.1 f.toNat (taken + m), a.2)) ([], [])

/-- The ranked contexts of a core with what their next straps would do, a WAITF whose flag another takes first among those that wait. -/
def State.verdicts (s : State) (core : CoreId) : List (BitVec 2 × Verdict) :=
  let vs := (s.core core).ranking.map (fun n => (n, s.verdict { core := core, ctx := n }))
  let late := ((s.core core).serveTakes vs).2
  vs.map (fun v => match v.2 with | .issue _ ops _ => if late.contains v.1 then (v.1, .wait ops) else v | _ => v)

/-- What the WAITF that can issue now are to take of a flag of a core. -/
def State.pledged (s : State) (core : CoreId) (f : BitVec 5) : Nat :=
  Assoc.get 0 ((s.core core).serveTakes ((s.core core).ranking.map (fun n => (n, s.verdict { core := core, ctx := n })))).1 f.toNat

-- Waiting and landing -------------------------------------------------------------------------------------------

/-- Whether the next strap of a context decodes and can issue now (R136, R139, R277). -/
def State.canIssue (s : State) (c : CtxId) : Bool :=
  match s.verdict c with
  | .issue _ _ _ => true
  | _ => false

/-- WAITING_STRAP_RELEASE (R136, R277): the strap is eligible. -/
def execWaitingStrapRelease (c : CtxId) (s : State) : Host.Outcome State Fault Refusal :=
  .next (if (s.ctx c).st = .blocked && s.canIssue c then s.updCtx c (fun x => { x with st := .ready }) else s)

/-- RESULT_LANDING (R5, R279): what is due at the context's tick lands. A context whose user results are held, or that is
stopped or saved, lands nothing. -/
def execResultLanding (c : CtxId) (s : State) : Host.Outcome State Fault Refusal :=
  match (s.ctx c).st with
  | .stopped | .saved => .next s
  | _ => .next (s.updCore c.core (fun k => k.land c.ctx))

/-- YIELD_EXPIRY (R145). -/
def execYieldExpiry (c : CtxId) (s : State) : Host.Outcome State Fault Refusal :=
  .next (if (s.ctx c).st = .away && (s.ctx c).wake ≤ (s.core c.core).cycle then
      s.updCtx c (fun x => { x with st := .ready })
    else s)

/-- MATRIX_WAY_RELEASE (R236). -/
def execMatrixWayRelease (core : CoreId) (s : State) : Host.Outcome State Fault Refusal :=
  .next (match matOwner (s.core core) with
    | some o => s.updCore core (fun k => { k with ways := waysBusy k.ways o.user.tick })
    | none => s)

-- Faults from outside -------------------------------------------------------------------------------------------

/-- The codes that an engine, a trigger or a write-back may report (R268, R285). -/
def asyncCode (c : BitVec 8) : Bool :=
  c == 0x02 || c == 0x09 || c == 0x0B || c == 0x0C || c == 0x0E || c == 0x0F || c == 0x10 || c == 0x12

/-- ASYNCHRONOUS_FAULT (R285). -/
def execAsynchronousFault (c : CtxId) (f : AsyncFault) (s : State) : Host.Outcome State Fault Refusal :=
  .next (if asyncCode f.code && (s.ctx c).launch.isSome then
      s.reportFault c { code := f.code, detail := f.detail, addr := f.addr } 0
    else s)

-- Stops ---------------------------------------------------------------------------------------------------------

/-- A stop request (R277): the context issues no further strap, and its results in flight stay where they are. -/
def Context.stop (c : Context) (why : StopWhy) : Context :=
  match c.st with
  | .ready | .blocked | .away | .trapped => { c with before := c.st, st := .stopped, stopWhy := why }
  | _ => c

/-- STOP_REQUEST (R277): from the debug port. -/
def execStopRequest (c : CtxId) (s : State) : Host.Outcome State Fault Refusal := .next (s.updCtx c (fun x => x.stop .debug))

/-- CONTEXT_RESUME (R277, R279, R285): held faults are delivered before its next strap. A context that a nested fault stopped issues the
faulting handler strap again, whole: DESIGN CHOICE (log entry 90). -/
def execContextResume (c : CtxId) (s : State) : Host.Outcome State Fault Refusal :=
  .next (s.updCtx c (fun x => if x.st = .stopped then { x with st := x.before } else x))

/-- The results of a context that result queues owe it: the queue and the number of each (R290). -/
def Context.owedRq (c : Context) : List (BitVec 3 × Nat) :=
  (c.user.flight ++ c.user.held).filterMap (fun f => match f.eff with | .rq q id _ => some (q, id) | _ => none)

/-- The image of a context (R278). -/
def Core.image (k : Core) (c : Context) : Image :=
  { acc := k.acc, mstate := k.mstate, ways := k.ways, drainUntil := k.drainUntil
    owed := c.owedRq.filterMap (fun o => ((k.rq[o.1.toNat]'o.1.isLt).owed.find? (fun e => e.id == o.2)).map (fun e => (o.1, e))) }

/-- CONTEXT_SAVE (R277, R278). -/
def execContextSave (c : CtxId) (s : State) : Host.Outcome State Fault Refusal :=
  .next (if (s.ctx c).st = .stopped then
      let s := s.updCtx c (fun x => { x with st := .saved })
      { s with images := Assoc.put s.images (c.core.toNat * 4 + c.ctx.toNat) ((s.core c.core).image (s.ctx c)) }
    else s)

/-- The matrix engine of a core takes what an image holds (R242, R278). -/
def Core.loadImage (k : Core) (i : Image) : Core :=
  { k with acc := i.acc, mstate := i.mstate, ways := i.ways, drainUntil := i.drainUntil }

/-- The numbers of a context's operations moved up, so that they are new to another core. -/
def Flight.shift (n : Nat) (f : Flight) : Flight :=
  match f.eff with | .rq q id v => { f with eff := .rq q (id + n) v } | _ => f
def Queues.shift (n : Nat) (q : Queues) : Queues :=
  { q with lq := q.lq.map (fun e => { e with id := e.id + n }), kq := q.kq.map (fun e => { e with id := e.id + n }), la := q.la.map (fun o => { o with id := o.id + n })
           sa := q.sa.map (fun o => { o with id := o.id + n }) }
def Flow.shift (n : Nat) (f : Flow) : Flow :=
  { f with flight := f.flight.map (Flight.shift n), held := f.held.map (Flight.shift n), q := f.q.shift n }
def Context.shift (n : Nat) (c : Context) : Context :=
  { c with user := c.user.shift n, hand := c.hand.shift n, posts := c.posts.map (fun p => { p with id := p.id + n })
           tileOps := c.tileOps.map (fun o => { o with id := o.id + n }), ahead := c.ahead.map (fun a => { a with id := a.id + n }) }

/-- Whether the result queues of a core have room for some entries. -/
def Core.owedFits (k : Core) (owed : List (BitVec 3 × RqEntry)) : Bool :=
  ([0, 1, 2, 3, 4, 5, 6, 7] : List (BitVec 3)).all (fun q =>
    (k.rq[q.toNat]'q.isLt).used + (owed.filter (fun e => e.1 == q)).length ≤ 128)

/-- The entries of result queues that the commands of a context have claimed and not yet taken (R264, R272). -/
def Core.claimsOf (k : Core) (n : BitVec 2) : List (BitVec 3 × Nat) :=
  (k.commands.filter (fun c => c.ctx == n)).flatMap (fun c =>
    match c.op with | .xpopq _ q ids _ => (ids.drop (c.delivered / 128)).map (fun i => (q, i)) | _ => [])

/-- Those of them that have landed. -/
def Core.claimedOf (k : Core) (n : BitVec 2) : List (BitVec 3 × RqEntry) :=
  (k.claimsOf n).filterMap (fun o => ((k.rq[o.1.toNat]'o.1.isLt).present.find? (fun e => e.id == o.2)).map (fun e => (o.1, e)))

/-- The lane entries of a context in a lane. -/
def Core.laneOfCtx (k : Core) (n : BitVec 2) (l : BitVec 3) : List LaneEntry := (k.lane l).filter (fun e => e.owner == n)

/-- Whether what a context has in its core's copy unit has a place in another core's: room in the lanes and communicator queues, its
trigger entries FREE there, every claim of its own, and no fill of an engine that it does not own (log entry 16). -/
def Core.unitMoves (old k : Core) (n : BitVec 2) (mat : Bool) (owed : List (BitVec 3 × RqEntry)) : Bool :=
  laneNums.all (fun l => (k.lane l).length + (old.laneOfCtx n l).length ≤ 16) &&
    (mat || (old.commands.filter (fun c => c.ctx == n)).all (fun c => match c.op with | .xfill _ _ _ _ _ _ _ => false | _ => true)) &&
    (old.triggers.filter (fun t => t.2.ctx == n)).all (fun t => (Assoc.find k.triggers t.1).isNone) &&
    old.comms.all (fun q => (Assoc.get [] k.comms q.1).length + (q.2.filter (fun p => p.ctx == n)).length ≤ 8) &&
    (old.claimsOf n).all (fun o => (old.claimedOf n).any (fun e => e.1 == o.1 && e.2.id == o.2) || owed.any (fun e => e.1 == o.1 && e.2.id == o.2))

/-- Whether a terrace's cores bind and take restored contexts: in the COMPUTE role (R20, R396). -/
def State.coreComputes (s : State) (c : CoreId) : Bool := (s.terrace (terraceOf c)).st == .compute

/-- Whether a core issues straps: in the COMPUTE role, and while its terrace drains; the cores of a terrace in another state issue none
(R20, R396, R400). -/
def State.coreIssues (s : State) (c : CoreId) : Bool :=
  match (s.terrace (terraceOf c)).st with
  | .compute | .draining => true
  | _ => false

/-- Whether an image may be loaded onto a context: its own place, another FREE context of its core, or a FREE context of another core
of the partition that no other launch holds (R277, R278, R307). What its copy unit still does for the context goes with it, where it has
a place there (log entry 16). -/
def State.mayRestore (s : State) (src dst : CtxId) : Bool :=
  let x := s.ctx src
  let k := s.core dst.core
  let old := s.core src.core
  let img := old.image x
  x.st == .saved && (src == dst ||
    ((s.part x.part).harness.contains dst.core && s.coreComputes dst.core && ((s.ctx dst).st == .free || (s.ctx dst).st == .helper) &&
      (src.core == dst.core ||
        ((k.bound.isNone || k.bound == x.launch) && (!x.mat || (matOwner k).isNone) && old.unitMoves k src.ctx x.mat img.owed &&
          k.owedFits (img.owed ++ old.claimedOf src.ctx)))))

/-- What a context has in its core's copy unit is its own under another context number. -/
def Core.rename (k : Core) (a b : BitVec 2) : Core :=
  { k with
    lanes := k.lanes.map (fun l => l.map (fun e =>
      match e with
      | .cmd c => if c.ctx = a then .cmd { c with ctx := b } else e
      | .fence id x => if x = a then .fence id b else e))
    triggers := k.triggers.map (fun t => if t.2.ctx = a then (t.1, { t.2 with ctx := b }) else t)
    comms := k.comms.map (fun q => (q.1, q.2.map (fun p => if p.ctx = a then { p with ctx := b } else p))) }

/-- What names a context by its place names it by another one, and its operations by numbers n higher. -/
def State.renameCtx (s : State) (a b : CtxId) (n : Nat) : State :=
  let f (c : CtxId) : CtxId := if c = a then b else c
  { s with
    words := s.words.map (fun w => { w with src := f w.src, dst := f w.dst, cmd := if w.src = a then w.cmd + n else w.cmd })
    relayPend := s.relayPend.map (fun u => { u with src := f u.src })
    cover := s.cover.map (fun e => (e.1, e.2.map (fun v => { v with src := f v.src })))
    colls := s.colls.map (fun i => { i with members := i.members.map (fun m => if m.far.isNone then { m with at_ := f m.at_ } else m) })
    links := s.links.map (fun l => { l with flits := l.flits.map (fun w =>
      { w with src := f w.src, owner := if w.src = a then w.owner + n else w.owner }) }) }

/-- Entries of result queues pass from one core to another (R244, R291). -/
def Core.dropOwed (k : Core) (owed : List (BitVec 3 × RqEntry)) : Core :=
  owed.foldl (fun k e => k.updRq e.1 (fun q => { present := q.present.filter (fun x => x.id != e.2.id), owed := q.owed.filter (fun x => x.id != e.2.id) })) k
def Core.takeOwed (k : Core) (n : Nat) (owed : List (BitVec 3 × RqEntry)) : Core :=
  owed.foldl (fun k e => k.updRq e.1 (fun q => { q with owed := q.owed ++ [{ e.2 with id := e.2.id + n }] })) k
def Core.takeClaimed (k : Core) (n : Nat) (l : List (BitVec 3 × RqEntry)) : Core :=
  l.foldl (fun k e => k.updRq e.1 (fun q => { q with present := q.present ++ [{ e.2 with id := e.2.id + n }] })) k

/-- A lane entry under another context's number and with numbers n higher. -/
def LaneEntry.move (n : Nat) (b : BitVec 2) (e : LaneEntry) : LaneEntry :=
  match e with
  | .fence id _ => .fence (id + n) b
  | .cmd c =>
    let op : CmdOp := match c.op with | .xpopq d q ids st => .xpopq d q (ids.map (· + n)) st | o => o
    -- an XRECV's cursor names its credit post
    let cursor := match c.op with | .xrecv _ _ => if 2 ^ 17 < c.cursor then c.cursor + n else c.cursor | _ => c.cursor
    .cmd { c with id := c.id + n, ctx := b, op := op, cursor := cursor }

/-- What a core's copy unit does for a context is done by another's (R278). -/
def Core.takeUnit (k old : Core) (a b : BitVec 2) (n : Nat) : Core :=
  let mine := ((old.commands.filter (fun c => c.ctx == a)).map (·.id))
  let move (l : List Nat) : List Nat := (l.filter mine.contains).map (· + n)
  let k := laneNums.foldl (fun k l => k.updLane l (fun q => q ++ (old.laneOfCtx a l).map (LaneEntry.move n b))) k
  { k with
    triggers := (old.triggers.filter (fun t => t.2.ctx == a)).foldl (fun m t => Assoc.put m t.1 { t.2 with id := t.2.id + n, ctx := b }) k.triggers
    comms := old.comms.foldl (fun m q =>
      match q.2.filter (fun p => p.ctx == a) with
      | [] => m
      | ps => Assoc.put m q.1 (Assoc.get [] m q.1 ++ ps.map (fun p => { p with id := p.id + n, ctx := b }))) k.comms
    faOrder := k.faOrder ++ move old.faOrder, fbOrder := k.fbOrder ++ move old.fbOrder }

/-- The copy unit that a context has left. -/
def Core.leaveUnit (k : Core) (a : BitVec 2) : Core :=
  let mine := ((k.commands.filter (fun c => c.ctx == a)).map (·.id))
  { k with
    lanes := k.lanes.map (fun l => l.filter (fun e => e.owner != a)), triggers := k.triggers.filter (fun t => t.2.ctx != a)
    comms := (k.comms.map (fun q => (q.1, q.2.filter (fun p => p.ctx != a)))).filter (fun q => !q.2.isEmpty)
    faOrder := k.faOrder.filter (fun i => !mine.contains i), fbOrder := k.fbOrder.filter (fun i => !mine.contains i) }

/-- A thread comes to a core and a terrace that are not those where it stopped: what it must see it sees there too. What its old core's
tile cache held as published when it ran PHASE.core it keeps in its snapshot (R338), and its own strong stores it must see through any
relay copy (R341, R343). -/
def Context.arriveFrom (x : Context) (old : Core) (stores : List Nat) : Context :=
  let held := if x.snapScope = .core then old.pub.filter (fun e => (bmGet x.snap e.1).isNone) else []
  { x with snap := bmUnion x.snap held, must := (x.must ++ stores).dedup }

/-- A core takes a context of a launch that it did not hold: it is bound, and owns the flags of its kernel, with what they held (R278,
R327; log entry 16). -/
def Core.joinLaunch (k old : Core) (x : Context) : Core :=
  let k := if k.bound.isSome then k else { k with flagsOwned := old.flagsOwned, flags := old.flags }
  { k with bound := x.launch, boundPart := x.part, dict := old.dict, dictOf := old.dictOf, pub := bmUnion k.pub x.pubDirty }

/-- CONTEXT_RESTORE (R277, R278): the context is as if it had stayed STOPPED. Its thread number stays the saved one, and points that its
old core's buffer holds stay there: DESIGN CHOICE (log entry 16). -/
def execContextRestore (src dst : CtxId) (s : State) : Host.Outcome State Fault Refusal :=
  if s.mayRestore src dst then
    let x := s.ctx src
    let old := s.core src.core
    let img := old.image x
    let saved := (Assoc.find s.images (src.core.toNat * 4 + src.ctx.toNat)).getD img
    let s : State := { s with images := Assoc.drop s.images (src.core.toNat * 4 + src.ctx.toNat) }
    if src = dst then .next (s.setCtx dst { x with st := .stopped })
    else if src.core = dst.core then
      let s := (s.setCtx src Context.reset).renameCtx src dst 0
      .next ((s.setCtx dst { x with st := .stopped }).updCore dst.core (fun k => k.rename src.ctx dst.ctx))
    else
      let n := (s.core dst.core).nextId
      let stores := ((s.relayPend.filter (fun u => u.src == src)).map (·.store)).dedup
      let claimed := old.claimedOf src.ctx
      let s := (s.setCtx src Context.reset).renameCtx src dst n
      let s := s.updCore src.core (fun k =>
        let k := (k.leaveUnit src.ctx).dropOwed (img.owed ++ claimed)
        if x.mat then { k with fa := [], fb := [] } else k)
      let s := s.setCtx dst { (x.arriveFrom old stores).shift n with st := .stopped }
      .next (s.updCore dst.core (fun k =>
        let k := if x.mat then { k.loadImage saved with fa := old.fa, fb := old.fb } else k
        let k := ((k.takeOwed n img.owed).takeClaimed n claimed).takeUnit old src.ctx dst.ctx n
        { k.joinLaunch old x with nextId := k.nextId + old.nextId }))
  else .next s

-- Freeing -------------------------------------------------------------------------------------------------------

/-- A thread leaves every group of its partition, as if by LEAVE (R323). -/
def State.leaveGroups (s : State) (part : BitVec 6) (t : BitVec 13) : State :=
  s.updPart part (fun p => { p with groups := p.groups.map (fun g => (g.1, g.2.leave t)) })

/-- What a context that becomes FREE keeps until the next scrub: its register files and its system registers (R102, R277), and
the stores that what is released after its end makes known (R306, R343). -/
def Context.freed (x : Context) : Context :=
  { Context.reset with
    l := x.l, s := x.s, a := x.a, x := x.x, d := x.d, y := x.y, v := x.v, w := x.w, k := x.k, p := x.p, bs := x.bs, ba := x.ba, bv := x.bv
    bw := x.bw, ringLen := x.ringLen, ringOff := x.ringOff, sticky := x.sticky, seed := x.seed, fcause := x.fcause, fdetail := x.fdetail
    faddr := x.faddr, fret := x.fret, ftick := x.ftick, fpyr := x.fpyr, dvbase := x.dvbase, dvsel := x.dvsel, h := x.h
    must := x.must }

/-- A context becomes FREE (R277, R310, R323). Its dirty bytes are written back by the eviction that R337 allows at any
time (log entry 17). -/
def State.freeCtx (s : State) (c : CtxId) : State :=
  let x := s.ctx c
  let s := s.phaseWrite c .sys
  let s := s.leaveGroups x.part x.thread
  let s : State := { s with images := Assoc.drop s.images (c.core.toNat * 4 + c.ctx.toNat) }
  (s.setCtx c x.freed).returnPoints c.core

/-- Whether every access of a thread has been performed (R144, R277). -/
def State.drained (s : State) (c : CtxId) : Bool :=
  let x := s.ctx c
  let k := s.core c.core
  !x.loads.any LoadOp.isLive && x.stores.isEmpty && x.tileOps.isEmpty && x.posts.isEmpty && outCopies k c.ctx == 0 &&
    !k.commands.any (fun q => q.ctx == c.ctx) && !k.comms.any (fun q => q.2.any (fun p => p.ctx == c.ctx))

/-- RETIRE_COMPLETE (R144, R277). -/
def execRetireComplete (c : CtxId) (s : State) : Host.Outcome State Fault Refusal :=
  .next (if (s.ctx c).st = .retiring && s.drained c then s.freeCtx c else s)

-- The helper ----------------------------------------------------------------------------------------------------

/-- Whether a context is blocked on a pop of lq (R283). -/
def State.blockedOnLq (s : State) (c : CtxId) : Bool :=
  let x := s.ctx c
  x.st == .blocked && !x.priv && x.launch.isSome &&
    !lqReady x.user.q.lq (((s.nextOps c).map (fun i => popCount i .lq)).sum)

/-- The slice that covers the strap at an offset (R39, R283). -/
def Code.sliceAt (k : Code) (pc : BitVec 32) : Option Nat :=
  k.slices.findIdx? (fun l => l.from_.toNat ≤ pc.toNat && pc.toNat < l.to_.toNat)

/-- The helper's own context, number f of its core: landed copies of the blocked context's files but v, w and k (R283), and its own
thread number (R15). -/
def helperOf (x : Context) (n f : BitVec 2) (slice : Nat) : Context :=
  { Context.reset with
    st := .helper, thread := x.thread.extractLsb' 2 11 ++ f, part := x.part, code := x.code, half := x.half, user := { Flow.reset with sect := .slice slice },
    s := x.s, a := x.a, l := x.l, x := x.x, y := x.y, p := x.p, d := x.d, bs := x.bs, ba := x.ba, bv := x.bv, bw := x.bw,
    ringLen := x.ringLen, ringOff := x.ringOff, helps := some n }

/-- HELPER_START (R283). -/
def execHelperStart (core : CoreId) (s : State) : Host.Outcome State Fault Refusal :=
  let k := s.core core
  let at_ (n : BitVec 2) : CtxId := { core := core, ctx := n }
  let bound (n : BitVec 2) : Bool := (k.ctx n).launch.isSome
  let busy := ctxNums.any (fun n => bound n && (k.ctx n).ranked k.cycle && s.canIssue (at_ n))
  let free := ctxNums.find? (fun n => (k.ctx n).st == .free)
  let target := ctxNums.findSome? (fun n =>
    if s.blockedOnLq (at_ n) then
      ((s.codeOf (k.ctx n)).bind (fun code => code.sliceAt (k.ctx n).user.pc)).map (fun sl => (n, sl))
    else none)
  match free, target with
  | some f, some (n, sl) =>
    .next (if busy || ctxNums.any (fun n => (k.ctx n).st == .helper) then s else s.setCtx (at_ f) (helperOf (k.ctx n) n f sl))
  | _, _ => .next s

-- Group barriers ------------------------------------------------------------------------------------------------

/-- The GBAR of a strap that a context would issue in a mode; a squashed strap arrives nowhere (R139). -/
def State.gbarIn (s : State) (c : CtxId) (priv : Bool) : Option (BitVec 6 × Scope × List Instr) :=
  let s := s.updCtx c (fun x => { x with priv := priv })
  let x := s.ctx c
  if 0 < x.flow.squash.toNat && !x.resume.any (·.part) then none
  else (s.nextOps c).findSome? (fun i => match i with | .gbar g sc => some (g, sc, s.nextOps c) | _ => none)

/-- The GBAR of a context's next strap. -/
def State.waitingGbar (s : State) (c : CtxId) : Option (BitVec 6 × Scope × List Instr) := s.gbarIn c (s.ctx c).priv

/-- A member arrives, in the first cycle in which its GBAR strap is its context's next strap and every other waiting condition of it
holds (R324). -/
def State.arrive (s : State) (c : CtxId) : State :=
  let x := s.ctx c
  match s.waitingGbar c with
  | none => s
  | some (g, _, ops) =>
    let q := s.group x.part g
    let awake := x.launch.isSome && (match x.st with | .ready | .blocked | .trapped => true | _ => false)
    let here : State := { s with cur := c }
    if awake && q.members.contains x.thread && !q.coming.contains x.thread && !q.arrived.contains x.thread &&
        !q.passed.contains x.thread && !here.mustWait (ops.filter (fun i => match i with | .gbar _ _ => false | _ => true)) then
      s.setGroup x.part g { q with coming := q.coming ++ [x.thread] }
    else s

/-- Whether an arrival counts: the thread's earlier accesses are performed, as for a post of the scope (R159, R324, R343). -/
def State.arrivalReady (s : State) (c : CtxId) (sc : Scope) : Bool :=
  sc == .ctx || s.released c (s.core c.core).nextId sc

/-- An arrival that counts now is counted, as a release at its scope (R324, R343). A fault may have taken the context into its handler
meanwhile. -/
def State.countArrival (s : State) (c : CtxId) (priv : Bool) : State :=
  let x := s.ctx c
  match s.gbarIn c priv with
  | none => s
  | some (g, sc, _) =>
    let q := s.group x.part g
    if x.launch.isSome && q.coming.contains x.thread && s.arrivalReady c sc then
      (s.setGroup x.part g { q with coming := q.coming.filter (· != x.thread), arrived := q.arrived ++ [x.thread] }).leaveCover c sc
        (groupObj x.part g)
    else s

/-- What the group controller does in a cycle for a context: its arrival, and the counting of it. -/
def State.gbarCycle (s : State) (c : CtxId) : State := ((s.arrive c).countArrival c (s.ctx c).priv).countArrival c false

/-- GBAR_ARRIVAL (R324, R325). -/
def execGbarArrival (c : CtxId) (s : State) : Host.Outcome State Fault Refusal := .next (s.gbarCycle c)

/-- The test of a group's open instance: it completes when every member has arrived, and they depart (R322, R324). -/
def Group.test (q : Group) : Group :=
  if !q.arrived.isEmpty && q.members.all (fun t => q.arrived.contains t) then { q with arrived := [], passed := q.passed ++ q.arrived }
  else q

/-- GROUP_BARRIER_COMPLETE (R322, R324). -/
def execGroupBarrierComplete (part : BitVec 6) (g : BitVec 6) (s : State) : Host.Outcome State Fault Refusal :=
  let q := s.group part g
  .next (if q.test = q then s else s.setGroup part g q.test)

/-- Every group of a partition is tested (R322). -/
def State.testGroups (s : State) (part : BitVec 6) : State :=
  if (s.part part).groups.all (fun g => g.2.test == g.2) then s
  else s.updPart part (fun p => { p with groups := p.groups.map (fun g => (g.1, g.2.test)) })

end Sys2Proof.Machine
end

