-- ==== Sys2Proof/Machine/Inflate.lean ====
section
/-! DEFINITION. The inflate path (R258, R259): frames of RFC 8878 as the manual limits them. The manual names the RFC and
does not repeat it: what the RFC lays down (blocks, literals, Huffman and FSE coding, sequences, dictionaries, XXH64) is
taken from the RFC itself (log entry 8). -/

namespace Sys2Proof.Machine

/-- How an inflation ends: well, with an engine status (R249), or at a source byte that cannot be read. -/
inductive InflateEnd where
  | ok
  | err (status : BitVec 8)
  | short
  deriving DecidableEq, Repr

/-- What an inflation gives. -/
structure Inflated where
  out : List Byte
  fin : InflateEnd
  deriving DecidableEq, Repr

/-- A frame header as far as it matters. -/
structure FrameHead where
  bytes : Nat
  single : Bool
  window : Nat
  windowLog : Nat
  dictId : Nat
  content : Option Nat
  checksum : Bool
  reserved : Bool
  deriving DecidableEq, Repr

/-- The frame header that follows a magic number; none where the source ends in it. -/
def frameHead (b : List Byte) : Option FrameHead :=
  match b with
  | [] => none
  | d :: _ =>
    let single := bit d 5
    let fcs := (d.extractLsb' 6 2).toNat
    let did := match (d.extractLsb' 0 2).toNat with | 0 => 0 | 1 => 1 | 2 => 2 | _ => 4
    let w := if single then 0 else 1
    let fl := match fcs with | 0 => if single then 1 else 0 | 1 => 2 | 2 => 4 | _ => 8
    let total := 1 + w + did + fl
    if b.length < total then none
    else
      let wd := (b.getD 1 0).toNat
      let log := 10 + wd / 8
      let content := if fl = 0 then none else some (fieldNat b (1 + w + did) fl + (if fl = 2 then 256 else 0))
      some { bytes := total, single := single, windowLog := log, window := 2 ^ log + 2 ^ log / 8 * (wd % 8),
             dictId := fieldNat b (1 + w) did, content := content, checksum := bit d 2, reserved := bit d 3 }

/-! ### Bit streams -/

/-- A bit stream that is read from its last bit to its first: its bits as a number, and how many are left. -/
structure BackBits where
  bits : Nat
  left : Int
  deriving DecidableEq, Repr

/-- The stream of some bytes: the last byte's highest set bit ends it and is no part of it. -/
def backBits (b : List Byte) : Option BackBits :=
  match b.getLast? with
  | none => none
  | some l =>
    if l = 0 then none
    else
      let n := (bytesNat b).log2
      some { bits := bytesNat b % 2 ^ n, left := (n : Int) }

/-- The next `k` bits without taking them; past the start of the stream they read as zero. -/
def BackBits.peek (s : BackBits) (k : Nat) : Nat :=
  let p := s.left - (k : Int)
  if 0 ≤ p then (s.bits >>> p.toNat) % 2 ^ k else (s.bits <<< (-p).toNat) % 2 ^ k

/-- The stream after `k` bits. -/
def BackBits.skip (s : BackBits) (k : Nat) : BackBits := { s with left := s.left - (k : Int) }

/-! ### FSE tables -/

/-- A cell of an FSE table: the symbol, and the bits and the base of the state that follows it. -/
structure FseCell where
  sym : Nat
  bits : Nat
  base : Nat
  deriving DecidableEq, Repr

/-- An FSE decoding table of 2^`log` cells. -/
structure Fse where
  log : Nat
  cells : List FseCell
  deriving DecidableEq, Repr

/-- The cell of a state. -/
def Fse.cell (t : Fse) (state : Nat) : FseCell := t.cells.getD state { sym := 0, bits := 0, base := 0 }

/-- The state after a cell, and the stream after its bits. -/
def FseCell.next (c : FseCell) (s : BackBits) : Nat × BackBits := (c.base + s.peek c.bits, s.skip c.bits)

/-- The first state of a table. -/
def Fse.start (t : Fse) (s : BackBits) : Nat × BackBits := (s.peek t.log, s.skip t.log)

/-- The table in which one symbol takes no bits. -/
def fseOne (sym : Nat) : Fse := { log := 0, cells := [{ sym := sym, bits := 0, base := 0 }] }

/-- The symbol of each cell: those of less than one share take the last cells, one each; the others are spread. A count of
-1 is a share of less than one. -/
def fseSymbols (log : Nat) (counts : List Int) : List Nat :=
  let size := 2 ^ log
  let named := counts.zipIdx
  let low := (named.filter (fun p => p.1 == -1)).map (·.2)
  let high := size - low.length
  let spread := ((List.range size).map (fun i => i * (size / 2 + size / 8 + 3) % size)).filter (fun p => p < high)
  let placed := spread.zip (named.flatMap (fun p => List.replicate p.1.toNat p.2))
  (List.range high).map (fun i => (placed.lookup i).getD 0) ++ low.reverse

/-- The table of a distribution. -/
def fseTable (log : Nat) (counts : List Int) : Fse :=
  let size := 2 ^ log
  let next := counts.map (fun c => if c = -1 then 1 else c.toNat)
  let step := fun (acc : List FseCell × List Nat) (sym : Nat) =>
    let n := acc.2.getD sym 1
    let k := log - n.log2
    (acc.1 ++ [{ sym := sym, bits := k, base := n * 2 ^ k - size }], acc.2.set sym (n + 1))
  { log := log, cells := ((fseSymbols log counts).foldl step ([], next)).1 }

/-- How many zero counts follow one: groups of two bits, each 3 going on. The result is the count and the next bit. -/
def fseZeros (v : Nat) : Nat → Nat → Nat × Nat
  | 0, at_ => (0, at_)
  | fuel + 1, at_ =>
    let k := v / 2 ^ at_ % 4
    if k = 3 then
      let (n, e) := fseZeros v fuel (at_ + 2)
      (n + 3, e)
    else (k, at_ + 2)

/-- The counts of a distribution from bit `at_` on, `remaining` shares being left, and the bit after them. -/
def fseCounts (v maxSym : Nat) : Nat → Nat → Nat → List Int → Option (List Int × Nat)
  | 0, _, _, _ => none
  | fuel + 1, remaining, at_, acc =>
    if remaining = 0 then (if acc.length ≤ maxSym + 1 then some (acc, at_) else none)
    else if maxSym < acc.length then none
    else
      let bits := (remaining + 1).log2
      let threshold := 2 ^ bits
      let max := 2 * threshold - 2 - remaining
      let low := v / 2 ^ at_ % threshold
      let all := v / 2 ^ at_ % (2 * threshold)
      let (value, e) := if low < max then (low, at_ + bits) else (if threshold ≤ all then all - max else all, at_ + bits + 1)
      let count : Int := (value : Int) - 1
      if remaining < count.natAbs then none
      else if count = 0 then
        let (n, e) := fseZeros v 255 e
        fseCounts v maxSym fuel remaining e (acc ++ List.replicate (n + 1) 0)
      else fseCounts v maxSym fuel (remaining - count.natAbs) e (acc ++ [count])

/-- The table that a description gives, and the bytes after the description. -/
def fseRead (maxLog maxSym : Nat) (b : List Byte) : Option (Fse × List Byte) :=
  let log := fieldNat b 0 1 % 16 + 5
  if b.isEmpty || maxLog < log then none
  else
    match fseCounts (bytesNat (b.take 256)) maxSym 512 (2 ^ log) 4 [] with
    | none => none
    | some (counts, e) =>
      let n := (e + 7) / 8
      if b.length < n then none else some (fseTable log counts, b.drop n)

/-! ### Huffman tables -/

/-- A Huffman table: each of 2^`log` cells has its symbol and its code's length. -/
structure Huff where
  log : Nat
  cells : List (Nat × Nat)
  deriving DecidableEq, Repr

/-- The weights that two interleaved FSE states give until the stream is used up. -/
def huffWeights (t : Fse) : Nat → Nat → Nat → BackBits → List Nat → Option (List Nat)
  | 0, _, _, _, _ => none
  | fuel + 1, s1, s2, bits, acc =>
    let c := t.cell s1
    let (s1', bits) := c.next bits
    if bits.left < 0 then some (acc ++ [c.sym, (t.cell s2).sym])
    else huffWeights t fuel s2 s1' bits (acc ++ [c.sym])

/-- The table of the weights of all symbols but the last, whose weight completes the code. -/
def huffTable (ws : List Nat) : Option Huff :=
  let share := fun (w : Nat) => if w = 0 then 0 else 2 ^ (w - 1)
  let sum := (ws.map share).sum
  let log := sum.log2 + 1
  let last := 2 ^ log - sum
  if sum = 0 || 11 < log || last != 2 ^ last.log2 || 255 < ws.length then none
  else
    let ws := ws ++ [last.log2 + 1]
    if (ws.filter (· == 1)).length < 2 then none
    else
      let cellsOf := fun (w : Nat) =>
        (ws.zipIdx.filter (fun p => p.1 == w)).flatMap (fun p => List.replicate (share w) (p.2, log + 1 - w))
      some { log := log, cells := (List.range log).flatMap (fun k => cellsOf (k + 1)) }

/-- The Huffman table that a description gives, and the bytes after it. -/
def huffRead (b : List Byte) : Option (Huff × List Byte) :=
  match b with
  | [] => none
  | h :: rest =>
    let n := h.toNat
    if 128 ≤ n then
      let count := n - 127
      let bytes := (count + 1) / 2
      if rest.length < bytes then none
      else
        let ws := ((rest.take bytes).flatMap (fun x => [x.toNat / 16, x.toNat % 16])).take count
        (huffTable ws).map (fun t => (t, rest.drop bytes))
    else if rest.length < n then none
    else do
      let (t, body) ← fseRead 6 255 (rest.take n)
      let bits ← backBits body
      let (s1, bits) := t.start bits
      let (s2, bits) := t.start bits
      if bits.left < 0 then none
      else
        let ws ← huffWeights t 256 s1 s2 bits []
        let h ← huffTable ws
        some (h, rest.drop n)

/-- `n` symbols of a stream, which they must use up. -/
def huffSymbols (t : Huff) : Nat → BackBits → List Byte → Option (List Byte)
  | 0, s, acc => if s.left = 0 then some acc.reverse else none
  | n + 1, s, acc =>
    let c := t.cells.getD (s.peek t.log) (0, 1)
    let s := s.skip c.2
    if s.left < 0 then none else huffSymbols t n s (BitVec.ofNat 8 c.1 :: acc)

/-- One Huffman stream of `n` bytes. -/
def huffStream (t : Huff) (n : Nat) (b : List Byte) : Option (List Byte) := (backBits b).bind (fun s => huffSymbols t n s [])

/-- Four streams behind their table of sizes. -/
def huffStreams (t : Huff) (n : Nat) (b : List Byte) : Option (List Byte) :=
  let s1 := fieldNat b 0 2
  let s2 := fieldNat b 2 2
  let s3 := fieldNat b 4 2
  let each := (n + 3) / 4
  if b.length < 6 + s1 + s2 + s3 || n < 3 * each then none
  else do
    let d := b.drop 6
    let o1 ← huffStream t each (d.take s1)
    let o2 ← huffStream t each ((d.drop s1).take s2)
    let o3 ← huffStream t each ((d.drop (s1 + s2)).take s3)
    let o4 ← huffStream t (n - 3 * each) (d.drop (s1 + s2 + s3))
    some (o1 ++ o2 ++ o3 ++ o4)

/-! ### Compressed blocks -/

/-- What one block of a frame leaves for the next: the tables, and the repeat offsets. -/
structure Entropy where
  huff : Option Huff
  ll : Option Fse
  off : Option Fse
  ml : Option Fse
  reps : Nat × Nat × Nat
  deriving DecidableEq, Repr

/-- What a frame begins with where no dictionary gives it more. -/
def Entropy.fresh : Entropy := { huff := none, ll := none, off := none, ml := none, reps := (1, 4, 8) }

/-- The distributions that a block may name without giving them. -/
def llDefault : Fse := fseTable 6 ([4, 3] ++ List.replicate 11 2 ++ [1, 1, 1] ++ List.replicate 9 2 ++ [3, 2, 1, 1, 1, 1, 1, -1, -1, -1, -1])
def mlDefault : Fse := fseTable 6 ([1, 4, 3] ++ List.replicate 6 2 ++ List.replicate 37 1 ++ List.replicate 7 (-1))
def offDefault : Fse := fseTable 5 (List.replicate 6 1 ++ [2, 2, 2] ++ List.replicate 15 1 ++ List.replicate 5 (-1))

/-- The base and the further bits of a literals-length code. -/
def llCode (c : Nat) : Nat × Nat :=
  if c < 16 then (c, 0)
  else [(16, 1), (18, 1), (20, 1), (22, 1), (24, 2), (28, 2), (32, 3), (40, 3), (48, 4), (64, 6), (128, 7), (256, 8), (512, 9),
    (1024, 10), (2048, 11), (4096, 12), (8192, 13), (16384, 14), (32768, 15), (65536, 16)].getD (c - 16) (0, 0)

/-- The base and the further bits of a match-length code. -/
def mlCode (c : Nat) : Nat × Nat :=
  if c < 32 then (c + 3, 0)
  else [(35, 1), (37, 1), (39, 1), (41, 1), (43, 2), (47, 2), (51, 3), (59, 3), (67, 4), (83, 4), (99, 5), (131, 7), (259, 8),
    (515, 9), (1027, 10), (2051, 11), (4099, 12), (8195, 13), (16387, 14), (32771, 15), (65539, 16)].getD (c - 32) (0, 0)

/-- The literals of a block, the Huffman table after them, and the bytes behind their section. -/
def blockLiterals (limit : Nat) (prev : Option Huff) (b : List Byte) : Option (List Byte × Option Huff × List Byte) :=
  match b with
  | [] => none
  | h :: _ =>
    let kind := h.toNat % 4
    let form := h.toNat / 4 % 4
    if kind < 2 then
      let head := if form % 2 = 0 then 1 else if form = 1 then 2 else 3
      let n := if form % 2 = 0 then h.toNat / 8 else fieldNat b 0 head / 16
      let need := head + (if kind = 0 then n else 1)
      if b.length < need || limit < n then none
      else some (if kind = 0 then (b.drop head).take n else List.replicate n (b.getD head 0), prev, b.drop need)
    else
      let head := if form < 2 then 3 else form + 2
      let w := if form < 2 then 10 else if form = 2 then 14 else 18
      let v := fieldNat b 0 head / 16
      let n := v % 2 ^ w
      let size := v / 2 ^ w
      if b.length < head + size || limit < n then none
      else do
        let body := (b.drop head).take size
        let (t, body) ← if kind = 2 then huffRead body else prev.map (fun t => (t, body))
        let out ← if form = 0 then huffStream t n body else huffStreams t n body
        some (out, some t, b.drop (head + size))

/-- The table of one of a block's three codes, and the bytes behind its description. -/
def seqTable (mode maxLog maxSym : Nat) (dflt : Fse) (prev : Option Fse) (b : List Byte) : Option (Fse × List Byte) :=
  match mode with
  | 0 => some (dflt, b)
  | 1 => match b with
    | [] => none
    | x :: rest => if maxSym < x.toNat then none else some (fseOne x.toNat, rest)
  | 2 => fseRead maxLog maxSym b
  | _ => prev.map (fun t => (t, b))

/-- The distance that an offset value names, and the repeat offsets after it. -/
def takeOffset (value ll : Nat) (reps : Nat × Nat × Nat) : Option (Nat × (Nat × Nat × Nat)) :=
  let (a, b, c) := reps
  if 3 < value then some (value - 3, (value - 3, a, b))
  else
    match value - 1 + (if ll = 0 then 1 else 0) with
    | 0 => some (a, (a, b, c))
    | 1 => some (b, (b, a, c))
    | 2 => some (c, (c, a, b))
    | _ => if a ≤ 1 then none else some (a - 1, (a - 1, a, b))

/-- What a frame has put out, the newest byte first, with the dictionary's content behind it. -/
structure History where
  back : List Byte
  made : Nat
  window : Nat
  deriving DecidableEq, Repr

/-- The history after more bytes. -/
def History.add (h : History) (b : List Byte) : History := { h with back := b.reverse ++ h.back, made := h.made + b.length }

/-- The history after a match; none where the distance reaches outside what the frame may use. -/
def History.copy (h : History) (off len : Nat) : Option History :=
  let ok := 0 < off && off ≤ h.back.length && (if off ≤ h.made then off ≤ h.window else h.made ≤ h.window)
  let seg := (h.back.take off).reverse
  if ok then some (h.add ((List.range len).map (fun i => seg.getD (i % off) 0))) else none

/-- The sequences of a block, done one after another: the history, the literals left and the repeat offsets after them. -/
def runSequences (ll off ml : Fse) (limit start : Nat) :
    Nat → (Nat × Nat × Nat) → BackBits → List Byte → (Nat × Nat × Nat) → History → Option (History × List Byte × (Nat × Nat × Nat))
  | 0, _, s, lits, reps, h => if s.left = 0 then some (h, lits, reps) else none
  | n + 1, (sl, so, sm), s, lits, reps, h =>
    let cl := ll.cell sl
    let co := off.cell so
    let cm := ml.cell sm
    let value := 2 ^ co.sym + s.peek co.sym
    let s := s.skip co.sym
    let (mb, mx) := mlCode cm.sym
    let len := mb + s.peek mx
    let s := s.skip mx
    let (lb, lx) := llCode cl.sym
    let run := lb + s.peek lx
    let s := s.skip lx
    let ((sl, so, sm), s) : (Nat × Nat × Nat) × BackBits :=
      if n = 0 then ((sl, so, sm), s)
      else
        let (sl, s) := cl.next s
        let (sm, s) := cm.next s
        let (so, s) := co.next s
        ((sl, so, sm), s)
    if s.left < 0 || lits.length < run || start + limit < h.made + run + len then none
    else do
      let (dist, reps) ← takeOffset value run reps
      let h ← (h.add (lits.take run)).copy dist len
      runSequences ll off ml limit start n (sl, so, sm) s (lits.drop run) reps h

/-- One compressed block: the tables and the history after it. -/
def compressedBlock (limit : Nat) (e : Entropy) (h : History) (b : List Byte) : Option (Entropy × History) := do
  let (lits, huff, b) ← blockLiterals limit e.huff b
  let b0 := fieldNat b 0 1
  let head := if b0 < 128 then 1 else if b0 < 255 then 2 else 3
  let n := if b0 < 128 then b0 else if b0 < 255 then (b0 - 128) * 256 + fieldNat b 1 1 else fieldNat b 1 2 + 0x7F00
  if b.length < head then none
  else if n = 0 then (if b.length = head then some ({ e with huff := huff }, h.add lits) else none)
  else
    let modes := fieldNat b head 1
    if b.length < head + 1 || modes % 4 != 0 then none
    else do
      let (ll, b) ← seqTable (modes / 64) 9 35 llDefault e.ll (b.drop (head + 1))
      let (off, b) ← seqTable (modes / 16 % 4) 8 31 offDefault e.off b
      let (ml, b) ← seqTable (modes / 4 % 4) 9 52 mlDefault e.ml b
      let s ← backBits b
      let (sl, s) := ll.start s
      let (so, s) := off.start s
      let (sm, s) := ml.start s
      let (h', lits, reps) ← runSequences ll off ml limit h.made n (sl, so, sm) s lits e.reps h
      if h.made + limit < h'.made + lits.length then none
      else some ({ huff := huff, ll := some ll, off := some off, ml := some ml, reps := reps }, h'.add lits)

/-! ### Dictionaries and the checksum -/

/-- A dictionary: its identity, the tables it begins a frame with, and its content. -/
structure ZDict where
  id : Nat
  entropy : Entropy
  content : List Byte
  deriving DecidableEq, Repr

/-- The dictionary that some bytes hold; none where they are not of the RFC's form. -/
def zdict (b : List Byte) : Option ZDict :=
  if b.length < 8 || fieldNat b 0 4 != 0xEC30A437 then none
  else do
    let (huff, r) ← huffRead (b.drop 8)
    let (off, r) ← fseRead 8 31 r
    let (ml, r) ← fseRead 9 52 r
    let (ll, r) ← fseRead 9 35 r
    let content := r.drop 12
    let reps := (fieldNat r 0 4, fieldNat r 4 4, fieldNat r 8 4)
    let good := fun (x : Nat) => 0 < x && x ≤ content.length
    if r.length < 12 || !good reps.1 || !good reps.2.1 || !good reps.2.2 then none
    else some { id := fieldNat b 4 4, entropy := { huff := some huff, ll := some ll, off := some off, ml := some ml, reps := reps },
                content := content }

/-- The five primes of XXH64. -/
def xxP1 : BitVec 64 := 0x9E3779B185EBCA87
def xxP2 : BitVec 64 := 0xC2B2AE3D27D4EB4F
def xxP3 : BitVec 64 := 0x165667B19E3779F9
def xxP4 : BitVec 64 := 0x85EBCA77C2B2AE63
def xxP5 : BitVec 64 := 0x27D4EB2F165667C5

/-- One round of XXH64. -/
def xxRound (acc v : BitVec 64) : BitVec 64 := (acc + v * xxP2).rotateLeft 31 * xxP1

/-- A lane folded into the hash. -/
def xxMerge (h v : BitVec 64) : BitVec 64 := (h ^^^ xxRound 0 v) * xxP1 + xxP4

/-- The whole stripes of 32 bytes, and what is left of the data. -/
def xxStripes : Nat → List (BitVec 64) → List Byte → List (BitVec 64) × List Byte
  | 0, v, b => (v, b)
  | fuel + 1, v, b =>
    if b.length < 32 then (v, b)
    else xxStripes fuel (v.zipIdx.map (fun p => xxRound p.1 (BitVec.ofNat 64 (fieldNat b (8 * p.2) 8)))) (b.drop 32)

/-- The last bytes: eight, four and one at a time. -/
def xxTail : Nat → BitVec 64 → List Byte → BitVec 64
  | 0, h, _ => h
  | fuel + 1, h, b =>
    if 8 ≤ b.length then
      xxTail fuel ((h ^^^ xxRound 0 (BitVec.ofNat 64 (fieldNat b 0 8))).rotateLeft 27 * xxP1 + xxP4) (b.drop 8)
    else if 4 ≤ b.length then
      xxTail fuel ((h ^^^ (BitVec.ofNat 64 (fieldNat b 0 4) * xxP1)).rotateLeft 23 * xxP2 + xxP3) (b.drop 4)
    else match b with
      | [] => h
      | x :: rest => xxTail fuel ((h ^^^ (x.setWidth 64 * xxP5)).rotateLeft 11 * xxP1) rest

/-- XXH64 with the seed 0. -/
def xxh64 (b : List Byte) : BitVec 64 :=
  let (h, rest) : BitVec 64 × List Byte :=
    if b.length < 32 then (xxP5, b)
    else
      let (v, rest) := xxStripes b.length [xxP1 + xxP2, xxP2, 0, 0 - xxP1] b
      let lanes := (v.zip [1, 7, 12, 18]).map (fun p => p.1.rotateLeft p.2)
      (v.foldl xxMerge (lanes.foldl (· + ·) 0), rest)
  let h := xxTail (rest.length + 1) (h + BitVec.ofNat 64 b.length) rest
  let h := (h ^^^ (h >>> 33)) * xxP2
  let h := (h ^^^ (h >>> 29)) * xxP3
  h ^^^ (h >>> 32)

/-! ### Frames -/

/-- The blocks of a frame. The result is the history, what is left of the source, and how the blocks end. A block that
fails puts nothing out, but the bytes of an uncompressed block that the source still holds are (log entry 8). -/
def frameBlocks (whole : Bool) (limit : Nat) : Nat → Entropy → History → List Byte → History × List Byte × InflateEnd
  | 0, _, h, b => (h, b, .err 0x03)
  | fuel + 1, e, h, b =>
    let short : InflateEnd := if whole then .err 0x03 else .short
    if b.length < 3 then (h, b, short)
    else
      let head := fieldNat b 0 3
      let kind := head / 2 % 4
      let size := head / 8
      let body := b.drop 3
      let need := if kind = 1 then 1 else size
      if kind = 3 || limit < size then (h, b, .err 0x03)
      else if body.length < need then (if kind = 0 then h.add body else h, [], short)
      else
        let rest := body.drop need
        let next : Option (Entropy × History) := match kind with
          | 0 => some (e, h.add (body.take size))
          | 1 => some (e, h.add (List.replicate size (body.getD 0 0)))
          | _ => compressedBlock limit e h (body.take size)
        match next with
        | none => (h, rest, .err 0x03)
        | some (e, h) => if head % 2 = 1 then (h, rest, .ok) else frameBlocks whole limit fuel e h rest

/-- The checks of a frame header (R258). -/
def frameBad (dict : Option ZDict) (h : FrameHead) : Option (BitVec 8) :=
  if h.reserved then some 0x01
  else if (!h.single && 22 < h.windowLog) || (h.single && 4 * 2 ^ 20 < h.content.getD 0) then some 0x02
  else if h.dictId != 0 && dict.all (fun d => d.id != h.dictId) then some 0x06
  else none

/-- One frame after its magic: its output, the rest of the source, and how it ends. -/
def inflateFrame (dict : Option ZDict) (whole : Bool) (b : List Byte) : List Byte × List Byte × InflateEnd :=
  match frameHead b with
  | none => ([], [], if whole then .err 0x01 else .short)
  | some h =>
    match frameBad dict h with
    | some st => ([], b, .err st)
    | none =>
      let window := if h.single then h.content.getD 0 else h.window
      let begin_ : History := { back := (dict.map (·.content.reverse)).getD [], made := 0, window := window }
      let entropy := (dict.map (·.entropy)).getD Entropy.fresh
      let (hist, rest, e) := frameBlocks whole (min (128 * 1024) window) (b.length + 1) entropy begin_ (b.drop h.bytes)
      let out := (hist.back.take hist.made).reverse
      match e with
      | .ok =>
        if h.content.any (fun n => n != out.length) then (out, rest, .err 0x03)
        else if !h.checksum then (out, rest, .ok)
        else if rest.length < 4 then (out, [], if whole then .err 0x01 else .short)
        else if BitVec.ofNat 32 (fieldNat rest 0 4) != (xxh64 out).setWidth 32 then (out, rest, .err 0x04)
        else (out, rest.drop 4, .ok)
      | e => (out, rest, e)

/-- Frames one after another. `whole` says that nothing of the source is missing. -/
def inflateFrames (dict : Option ZDict) (whole : Bool) : Nat → Bool → List Byte → Inflated
  | 0, _, _ => { out := [], fin := .ok }
  | fuel + 1, first, b =>
    if b.isEmpty && whole && !first then { out := [], fin := .ok }
    else if b.length < 4 then { out := [], fin := if whole then .err 0x01 else .short }
    else
      let m := fieldNat b 0 4
      if m = 0xFD2FB528 then
        let (out, rest, e) := inflateFrame dict whole (b.drop 4)
        match e with
        | .ok =>
          let r := inflateFrames dict whole fuel false rest
          { r with out := out ++ r.out }
        | e => { out := out, fin := e }
      else if 0x184D2A50 ≤ m && m ≤ 0x184D2A5F then
        if b.length < 8 || b.length < 8 + fieldNat b 4 4 then { out := [], fin := if whole then .err 0x01 else .short }
        else inflateFrames dict whole fuel false (b.drop (8 + fieldNat b 4 4))
      else { out := [], fin := .err 0x01 }

/-- An inflation under an expanded-size bound (R258, R259). -/
def inflate (dict : Option (List Byte)) (bound : Nat) (whole : Bool) (b : List Byte) : Inflated :=
  if dict.any (fun d => (zdict d).isNone) then { out := [], fin := .err 0x06 }
  else
    let r := inflateFrames (dict.bind zdict) whole (b.length + 1) true b
    if bound < r.out.length then { out := r.out.take bound, fin := .err 0x05 } else r

end Sys2Proof.Machine
end

