-- ==== Sys2Proof/Machine/CopyUnit.lean ====
section
/-! DEFINITION. What the copy unit does with the commands in its lanes (R248 to R265, R271, R294, R347, R365, R421), and the
reception of channel words (R297, R370 to R373), and what it gives to the links (R392, R393). -/

namespace Sys2Proof.Machine

-- The head of a lane --------------------------------------------------------------------------------------------

/-- The command at the head of a lane. -/
def State.cmdAt (s : State) (core : CoreId) (lane : BitVec 3) : Option Command :=
  match (s.core core).lane lane with
  | .cmd c :: _ => some c
  | _ => none

/-- Whether a lane entry is the command of a number. -/
def LaneEntry.isCmd (e : LaneEntry) (id : Nat) : Bool := match e with | .cmd c => c.id == id | .fence _ _ => false

/-- A command of a lane, changed; or gone. -/
def State.setCmd (s : State) (core : CoreId) (lane : BitVec 3) (c : Command) : State :=
  s.updCore core (fun k => k.updLane lane (fun l => l.map (fun e => if e.isCmd c.id then .cmd c else e)))
def State.popCmd (s : State) (core : CoreId) (lane : BitVec 3) (c : Command) : State :=
  s.updCore core (fun k => k.updLane lane (fun l => l.filter (fun e => !e.isCmd c.id)))

def Command.at (c : Command) (core : CoreId) : CtxId := { core := core, ctx := c.ctx }

/-- The opcode of a command (R245). -/
def CmdOp.opcode : CmdOp → BitVec 8
  | .xcp _ _ _ _ => 0x01
  | .xcpz _ _ _ _ _ => 0x02
  | .xcpc _ _ _ _ _ _ => 0x03
  | .xfill _ _ _ _ _ _ _ => 0x04
  | .xgath _ _ _ | .xgathLq _ _ => 0x08
  | .xscat _ _ _ => 0x09
  | .xpopq _ _ _ _ => 0x0A
  | .xsend _ _ => 0x10
  | .xrecv _ _ => 0x11
  | .xstor _ _ _ _ _ _ => 0x20

/-- A fill that will push nothing leaves its FIFO's order (R269). -/
def Core.dropFill (k : Core) (id : Nat) : Core :=
  { k with faOrder := k.faOrder.filter (· != id), fbOrder := k.fbOrder.filter (· != id) }

-- Links ---------------------------------------------------------------------------------------------------------

/-- Whether a link carries traffic, and whether some link of a module's route does (R389, R393). -/
def Link.usable (l : Link) : Bool := match l.st with | .up | .degraded => true | _ => false
def State.link (s : State) (n : BitVec 4) : Link := s.links[n.toNat]'n.isLt
def State.setLink (s : State) (n : BitVec 4) (l : Link) : State := { s with links := s.links.set n.toNat l n.isLt }
def State.usableRoute (s : State) (m : BitVec 16) : List (BitVec 4) := (Config.routeOf m.toNat).filter (fun n => (s.link n).usable)
def State.reaches (s : State) (m : BitVec 16) : Bool := !(s.usableRoute m).isEmpty

/-- The flits of a command or collective part that the far side has not acknowledged (R394). -/
def State.owing (s : State) (core : CoreId) (id : Nat) : List Flit :=
  s.links.toList.flatMap (fun l => l.flits.filter (fun f => f.src.core == core && f.owner == id))

/-- The bytes that some flits carry and their owners count as delivered. -/
def flitBytes (fs : List Flit) : Nat := (fs.map (fun f => if f.counts then f.data.length else 0)).sum

/-- Bytes given to the links for a module of the pod: one usable link of its route takes them, by a free choice, and they wait there
for the credits of their virtual channel (R392, R393; log entry 71). -/
def State.putFlit (s : State) (m : BitVec 16) (vc : BitVec 3) (src : CtxId) (owner : Nat) (counts : Bool)
    (data : List Host.Cell) : State :=
  let (d, s) := s.draw
  let ls := s.usableRoute m
  match ls[Config.linkChoice d % max 1 ls.length]? with
  | none => s
  | some n =>
    let l := s.link n
    s.setLink n { l with flits := l.flits ++ [{ vc := vc, src := src, owner := owner, data := data, counts := counts, sent := false }] }

/-- The bytes of a write that go to other modules are given to the links. -/
def State.sendFar (s : State) (vc : BitVec 3) (src : CtxId) (owner : Nat) (ws : List (Option Spot × Byte)) : State :=
  let far := ws.filterMap (fun w => match w.1 with
    | some (.far pa, _) => (Config.farModule (pa / 2 ^ 16)).map (fun m => (m, ((pa, w.2) : Host.Cell)))
    | _ => none)
  ((far.map (·.1)).dedup).foldl (fun s m => s.putFlit m vc src owner true ((far.filter (fun e => e.1 == m)).map (·.2))) s

/-- The virtual channels. -/
def vcNums : List (BitVec 3) := (List.range 8).map (BitVec.ofNat 3)

/-- The first waiting flit of a virtual channel is sent where a credit is there for it (R392). -/
def Link.send (l : Link) (vc : BitVec 3) : Link :=
  let n := l.credits[vc.toNat]'vc.isLt
  if n = 0 || !l.flits.any (fun f => f.vc == vc && !f.sent) then l
  else { l with credits := l.credits.set vc.toNat (n - 1) vc.isLt
                flits := modFirst l.flits (fun f => f.vc == vc && !f.sent) (fun f => { f with sent := true }) }

/-- The oldest flit of a virtual channel that is on its way is acknowledged, and its credit comes back (R392). -/
def Link.ack (l : Link) (vc : BitVec 3) : Link :=
  match l.flits.findIdx? (fun f => f.vc == vc) with
  | some i =>
    if (l.flits[i]?).any (·.sent) then
      { l with credits := l.credits.set vc.toNat ((l.credits[vc.toNat]'vc.isLt) + 1) vc.isLt, flits := l.flits.eraseIdx i }
    else l
  | none => l

/-- One link goes on: each virtual channel sends what it can, and by a free choice its oldest flit is acknowledged (R392; log
entry 71). -/
def State.linkStep (s : State) (n : BitVec 4) : State :=
  if (s.link n).flits.isEmpty then s
  else vcNums.foldl (fun s vc =>
    let (d, s) := s.draw
    let l := (s.link n).send vc
    s.setLink n (if Config.coin d then l.ack vc else l)) s

/-- The links go on. -/
def State.linkProgress (s : State) : State := ((List.range 16).map (BitVec.ofNat 4)).foldl (fun s n => s.linkStep n) s

-- The end of a command ------------------------------------------------------------------------------------------

/-- A flag that its core's launch declares rises; any other is not reached (R326, R327). -/
def Core.raise (k : Core) (f : BitVec 5) (add : BitVec 32) : Core := if k.owns f then k.setFlag f (k.flag f + add) else k

/-- A command of a lane ends with a status: its stamp is to be written, or it is gone. One that has moved every byte
waits for the far side's acknowledgements (R394). A fired command that ends in an error frees its entry with no done increment (R248,
R268; log entry 18). -/
def State.endCmd (s : State) (core : CoreId) (lane : BitVec 3) (c : Command) (status : BitVec 8) (detail : BitVec 15) : State :=
  if status = 0 && !(s.owing core c.id).isEmpty then s
  else
  let s := s.updCtx (c.at core) (fun x => { x with sticky := x.sticky ||| c.flags })
  let s := if status = 0 then s else s.updCore core (fun k =>
    { k.dropFill c.id with triggers := match c.trig with | some n => Assoc.drop k.triggers n.toNat | none => k.triggers })
  if c.stamp.isSome then s.setCmd core lane { c with st := .stamping status detail, flags := 0 } else s.popCmd core lane c

/-- A command suspends at a fault, or ends with status 0x0B where its thread has exited (R255). -/
def State.suspend (s : State) (core : CoreId) (lane : BitVec 3) (c : Command) (f : FaultInfo) : State :=
  let x := s.ctx (c.at core)
  let s := if x.alive then s.setCmd core lane { c with st := .suspended } else s.endCmd core lane c 0x0B 0
  s.reportFault (c.at core) f 0x0B

/-- Faults of a chunk: none is written, and the command suspends (R122, R255). -/
def State.chunkFault (s : State) (core : CoreId) (lane : BitVec 3) (c : Command) (es : List EngFault) : State :=
  match engFaultInfo es c.op.opcode (c.delivered - flitBytes (s.owing core c.id)) lane with
  | some f => s.suspend core lane c f
  | none => s

/-- The bytes up to the next 128-byte boundary of a destination, at most n of them (R252). -/
def chunkLen (dst n : Nat) : Nat := min n (128 - dst % 128)

/-- Consecutive addresses of a register operand, modulo 2^64. -/
def wordVas (w : Word) (off n : Nat) : List Nat := (List.range n).map (fun i => (w + BitVec.ofNat 64 (off + i)).toNat)

-- Start ---------------------------------------------------------------------------------------------------------

/-- Whether every earlier store and post of a command's context is performed (R251), and no acquire is pending (R343). -/
def State.mayStart (s : State) (c : CtxId) (id : Nat) : Bool :=
  let x := s.ctx c
  !x.stores.any (fun o => o.id < id) && !x.posts.any (fun p => p.id < id) && !acquirePending x (fun _ => false) id

/-- The addresses whose shape records a command takes when it starts (R365); a stamp is not among them (R354). -/
def Command.tensorVas (c : Command) : List Nat := c.op.words.map BitVec.toNat

/-- The places that some addresses of a command lead to; the translation is looked at, and not made. -/
def State.lookPlaces (s : State) (core : CoreId) (c : Command) (vas : List Nat) : List Place :=
  vas.filterMap (fun va =>
    match (s.engPlace core (s.ctx (c.at core)).part c.shapes va false false).1 with
    | .ok (some (p, _)) => some p
    | _ => none)

/-- The other modules among some places, and the keys of memory among them (R254, R393). -/
def farsOf (ps : List Place) : List (BitVec 16) :=
  (ps.filterMap (fun p => match p with | .far pa => Config.farModule (pa / 2 ^ 16) | _ => none)).dedup
def memKeys (ps : List Place) : List Nat := ps.filterMap (fun p => match p with | .mem k => some k | _ => none)

/-- The other modules that some addresses of a command lead to (R254, R393). -/
def State.farModules (s : State) (core : CoreId) (c : Command) (ws : List Word) : List (BitVec 16) :=
  farsOf (s.lookPlaces core c (ws.map BitVec.toNat))

/-- LANE_COMMAND_START (R251, R294, R365, R393): one whose route has no usable link left ends with status 0x0A. -/
def execLaneCommandStart (core : CoreId) (lane : BitVec 3) (s : State) : Host.Outcome State Fault Refusal :=
  match s.cmdAt core lane with
  | none => .next s
  | some c =>
    if c.st = .queued && s.mayStart (c.at core) c.id then
      let (sh, s) := s.takeShapes (c.at core) c.tensorVas
      let c : Command := { c with st := .performing, shapes := sh }
      .next (if (s.farModules core c c.op.words).all s.reaches then s.setCmd core lane c else s.endCmd core lane c 0x0A 0)
    else .next s

-- Chunks --------------------------------------------------------------------------------------------------------

/-- Bytes read for a command. -/
def State.cmdRead (s : State) (core : CoreId) (c : Command) (tags : Bool) (vas : List Nat) :
    (List Byte × List EngFault) × State := s.engReadAll (c.at core) c.shapes tags vas

/-- A chunk of a command reaches its places, those of other modules by the links (R252, R392). -/
def State.putChunk (s : State) (core : CoreId) (c : Command) (ws : List (Option Spot × Byte)) : State :=
  (s.engWriteAt (c.at core) ws).sendFar 7 (c.at core) c.id ws

/-- Bytes written for a command as one chunk, or the faults for which none is (R122, R252). -/
def State.cmdWrite (s : State) (core : CoreId) (c : Command) (tags rd : Bool) (vas : List Nat) (bs : List Byte) :
    List EngFault × State :=
  let ((ps, es), s) := s.engTargets (c.at core) c.shapes tags rd vas
  if es.isEmpty then ([], s.putChunk core c (ps.zip bs)) else (es, s)

/-- The bytes of a chunk in the byte order of R257: a source byte that an earlier byte of the chunk has written is the
written one. -/
def forward (src dst : List (Option Place)) : List Byte → List Byte → List Byte
  | done, [] => done
  | done, b :: r =>
    let i := done.length
    let p := (src[i]?).join
    let v := match p with
      | some _ => match (List.range i).reverse.find? (fun j => (dst[j]?).join == p) with | some j => done.getD j b | none => b
      | none => b
    forward src dst (done ++ [v]) r

/-- The places of source bytes. -/
def State.sourcePlaces (s : State) (core : CoreId) (c : Command) : List Nat → List (Option Place) × State
  | [] => ([], s)
  | va :: r =>
    let (p, s) := s.engPlace core (s.ctx (c.at core)).part c.shapes va true false
    let (ps, s) := s.sourcePlaces core c r
    ((match p with | .ok q => q.map (·.1) | .error _ => none) :: ps, s)

/-- The tag writes of a kept chunk in the byte order of R257: a source granule that an earlier byte of the chunk has written has the
tag written there. The tag of a granule of another module is a free value, one for each granule (R131; log entry 10). -/
def State.tagMoves (s : State) (c : CtxId) (src dst : List (Option Place)) : ByteMap × State :=
  let step (a : (ByteMap × List (Nat × Byte)) × State) (p : Option Place × Option Place) : (ByteMap × List (Nat × Byte)) × State :=
    let ((m, far), s) := a
    let put (m : ByteMap) (b : Byte) : ByteMap := match p.2 with | some (.mem d) => bmPut m (tagKey d) b | _ => m
    match p.1 with
    | some (.mem k) => ((put m ((bmGet m (tagKey k)).getD (s.engineByte c (tagKey k))), far), s)
    | some (.far pa) =>
      match Assoc.find far (pa / 64) with
      | some b => ((put m b, far), s)
      | none =>
        let (d, s) := s.draw
        let b : Byte := if Config.coin d then 1 else 0
        ((put m b, (pa / 64, b) :: far), s)
    | _ => ((put m 0, far), s)
  let ((m, _), s) := (src.zip dst).foldl step (([], []), s)
  (m, s)

/-- The next chunk of an XCP (R257). -/
def State.xcpChunk (s : State) (core : CoreId) (lane : BitVec 3) (c : Command) (dst src : Word) (len : Nat) (kept : Bool) : State :=
  let o := c.delivered
  if len ≤ o then s.endCmd core lane c 0 0
  else
    let n := chunkLen (dst + BitVec.ofNat 64 o).toNat (len - o)
    let ((bs, es), s) := s.cmdRead core c kept (wordVas src o n)
    let ((ps, fs), s) := s.engTargets (c.at core) c.shapes kept false (wordVas dst o n)
    if !(es ++ fs).isEmpty then s.chunkFault core lane c (es ++ fs)
    else
      let (qs, s) := s.sourcePlaces core c (wordVas src o n)
      let ds := ps.map (fun p => p.map (·.1))
      let (tags, s) := if kept then s.tagMoves (c.at core) qs ds else ([], s)
      let s := s.putChunk core c (ps.zip (forward qs ds [] bs))
      let s := if tags.isEmpty then s else (s.engineWrite core tags).noteTags (c.at core) tags
      s.setCmd core lane { c with delivered := o + n }

/-- What can be read of some bytes before the first that faults. -/
def State.readUpTo (s : State) (core : CoreId) (c : Command) (vas : List Nat) : List Byte × List EngFault × State :=
  let ((bs, es), s) := s.cmdRead core c false vas
  match firstFault es with
  | none => (bs, [], s)
  | some f => (bs.take (vas.findIdx (· == f.1)), es, s)

/-- The next chunk of an XCPZ (R258, R259): what it expands to is settled at its first chunk. The cursor says how the
output ends: 0 not settled, 1 well, 2 at a source byte that faults, 3 + status in an error. -/
def State.xcpzChunk (s : State) (core : CoreId) (lane : BitVec 3) (c : Command) (dst src : Word) (len bound : Nat)
    (dict : Option (Nat × Nat)) : State :=
  if c.cursor = 0 then
    let (db, des, s) := match dict with
      | some (a, n) => let (b, e, s) := s.readUpTo core c (vaRange a n); (some b, e, s)
      | none => (none, [], s)
    if !des.isEmpty then s.chunkFault core lane c des
    else
      let (b, es, s) := s.readUpTo core c (wordVas src 0 len)
      let r := inflate db bound es.isEmpty b
      let fin := match r.fin with | .ok => 1 | .short => 2 | .err st => 3 + st.toNat
      s.setCmd core lane { c with cursor := fin, buf := r.out }
  else if c.delivered < c.buf.length then
    let o := c.delivered
    let n := chunkLen (dst + BitVec.ofNat 64 o).toNat (c.buf.length - o)
    let (es, s) := s.cmdWrite core c false false (wordVas dst o n) ((c.buf.drop o).take n)
    if es.isEmpty then s.setCmd core lane { c with delivered := o + n } else s.chunkFault core lane c es
  else if c.cursor = 1 then s.endCmd core lane { c with buf := [] } 0 0
  else if c.cursor = 2 then
    let (_, es, s) := s.readUpTo core c (wordVas src 0 len)
    if es.isEmpty then s.setCmd core lane c.restart else s.chunkFault core lane c es
  else s.endCmd core lane { c with buf := [] } (BitVec.ofNat 8 (c.cursor - 3)) 0

/-- Bits of an index stream (R260). -/
def streamIndex (words : List Nat) (first ib i : Nat) : Nat :=
  (List.range ib).foldl (fun (a : Nat) m =>
    let k := ib * i + m
    if (words.getD (k / 32 - first) 0).testBit (k % 32) then a + 2 ^ m else a) 0

/-- How many elements the next chunk of an XCPC writes: up to the end of its block and of its chunk (R252, R260). -/
def Command.blockRun (c : Command) (dst : Word) (count : Nat) : Nat :=
  let i := c.cursor
  chunkLen (dst + BitVec.ofNat 64 (2 * i)).toNat (2 * (min count (128 * (i / 128) + 128) - i)) / 2

/-- The first and last 32-bit words that hold n indices of w bits from the i-th on (R260). -/
def indexWords (w i n : Nat) : Nat × Nat := (w * i / 32, (w * (i + n) - 1) / 32)

/-- The next chunk of an XCPC whose block's table has been read (R260). -/
def State.xcpcChunk (s : State) (core : CoreId) (lane : BitVec 3) (c : Command) (dst src : Word) (count : Nat) (ib : IBits) : State :=
  let i := c.cursor
  if count ≤ i then s.endCmd core lane { c with buf := [] } 0 0
  else if c.tile != some (i / 128) then s
  else
    let n := c.blockRun dst count
    let w := IBits.width ib
    let (first, last) := indexWords w i n
    let ((bs, es), s) := s.cmdRead core c false (wordVas src (4 * first) (4 * (last - first + 1)))
    if !es.isEmpty then s.chunkFault core lane c es
    else
      let words := (List.range (last - first + 1)).map (fun q => fieldNat bs (4 * q) 4)
      let out := (List.range n).flatMap (fun e => (c.buf.drop (2 * streamIndex words first w (i + e))).take 2)
      let (es, s) := s.cmdWrite core c false false (wordVas dst (2 * i) (2 * n)) out
      if es.isEmpty then s.setCmd core lane { c with cursor := i + n, delivered := 2 * (i + n) } else s.chunkFault core lane c es

/-- The device virtual address of a scratchpad offset of a core, by its logical number (R109). -/
def State.windowVa (s : State) (part : BitVec 6) (core : CoreId) (off : Nat) : Nat :=
  windowBase + ((s.part part).harness.findIdx (· == core)) * 2 ^ 24 + off

/-- The block of an XCPC at the head of a lane goes on where the flag has reached its number, and its table is read once. A table that runs
past the scratchpad has no bytes there: the block takes 0x0C, as an access beyond the scratchpad part does (DESIGN CHOICE, log entry 82). -/
def State.resumeBlock (s : State) (core : CoreId) (lane : BitVec 3) : State :=
  match s.cmdAt core lane with
  | none => s
  | some c =>
    match c.op, c.st with
    | .xcpc _ _ count tab ib flag, .performing =>
      let b := c.cursor / 128
      let size := 2 ^ IBits.width ib * 2
      let off := tab + b * size
      let va := s.windowVa (s.ctx (c.at core)).part core off
      if count ≤ c.cursor || c.tile == some b || ((s.core core).flag flag).toNat < b + 1 then s
      else if 0x200000 < off + size then s.chunkFault core lane c [(va, 0x0C)]
      else
        let ((bs, es), s) := s.cmdRead core c false (vaRange va size)
        if es.isEmpty then s.setCmd core lane { c with tile := some b, buf := bs } else s.chunkFault core lane c es
    | _, _ => s

/-- XCPC_BLOCK_RESUME (R260, R328). -/
def execXcpcBlockResume (core : CoreId) (lane : BitVec 3) (s : State) : Host.Outcome State Fault Refusal := .next (s.resumeBlock core lane)

-- Fills ---------------------------------------------------------------------------------------------------------

/-- Bytes of a row of an operand tile (R233). -/
def fillRowBytes : Fmt → Nat
  | .o4 => 40
  | .b1 => 256
  | f => 8 * f.bits

/-- The addresses of row r of a fill (R261). -/
def fillRowVas (src : Word) (stride : Nat) (f : Fmt) (tr : Bool) (r : Nat) : List Nat :=
  let e := f.bits / 8
  if tr then (List.range 64).flatMap (fun k => wordVas src (k * stride + r * e) e)
  else wordVas src (r * stride) (fillRowBytes f)

/-- The granules of a kept fill's record (R262). -/
def keptGranules (f : Fmt) : Nat := recordGranules (payloadBytes 3 (f != .o4) .f32 64 64 0)

/-- The reason for which a granule of a kept fill's record fails (R123, R262). -/
def keptReason (f : Fmt) (n : Nat) (kept : Bool) (h : Header) : Option (BitVec 8) :=
  if n = 0 then
    match headerReason kept h (some 3) with
    | some r => some r
    | none => if h.rows = 64 && h.cols = 64 && ((f == .o4 && !h.e4) || (f == .e4m3 && h.e4)) then none else some 0x02
  else if kept then none else some 0x04

/-- Whether the tag of every granule that some addresses touch is set, as the copy unit reads it. -/
def State.tagsSet (s : State) (core : CoreId) (c : Command) (vas : List Nat) : Bool × State :=
  let (ps, s) := s.sourcePlaces core c vas
  (ps.all (fun p => match p with | some (.mem k) => s.engineByte (c.at core) (tagKey k) != 0 | _ => false), s)

/-- The next granule of a kept fill, or, once all are read, its scales into the scratchpad (R262). -/
def State.keptFillStep (s : State) (core : CoreId) (lane : BitVec 3) (c : Command) (src : Word) (f : Fmt) (scales : Nat) : State :=
  let n := c.cursor
  if n < keptGranules f then
    let vas := wordVas src (64 * n) 64
    let ((bs, es), s) := s.cmdRead core c true vas
    if !es.isEmpty then s.chunkFault core lane c es
    else
      let (kept, s) := s.tagsSet core c vas
      let h := headerOf (c.buf ++ bs)
      match keptReason f n kept h with
      | some r =>
        s.suspend core lane c { code := 0x09, detail := detailWord r 0 0x04 7 (recordedClass r h), addr := src }
      | none => s.setCmd core lane { c with cursor := n + 1, buf := c.buf ++ bs }
  else
    let p := c.buf.drop 16
    let codes := (List.range 128).map (fun b => if f = .o4 then p.getD (20 * b + 18) 0 else p.getD (4096 + b) 0)
    let va := s.windowVa (s.ctx (c.at core)).part core scales
    let (es, s) := s.cmdWrite core c false false (vaRange va 128) codes
    if es.isEmpty then s.setCmd core lane { c with tile := some 0, buf := p.take (64 * fillRowBytes f) } else s.chunkFault core lane c es

/-- The next row of a fill (R261). -/
def State.fillStep (s : State) (core : CoreId) (lane : BitVec 3) (c : Command) (src : Word) (stride : Nat) (f : Fmt) (tr : Bool) : State :=
  if 64 ≤ c.cursor then s.setCmd core lane { c with tile := some 0 }
  else
    let ((bs, es), s) := s.cmdRead core c false (fillRowVas src stride f tr c.cursor)
    if es.isEmpty then s.setCmd core lane { c with cursor := c.cursor + 1, buf := c.buf ++ bs } else s.chunkFault core lane c es

/-- The rows of an entry. -/
def entryRows (rb : Nat) (b : List Byte) : List (List Byte) := (List.range 64).map (fun r => (b.drop (r * rb)).take rb)

/-- FIFO_FILL_PUSH (R261): the entry is ready, the FIFO has room, and no earlier fill of it is left. -/
def execFifoFillPush (core : CoreId) (lane : BitVec 3) (s : State) : Host.Outcome State Fault Refusal :=
  match s.cmdAt core lane with
  | none => .next s
  | some c =>
    match c.op, c.st, c.tile with
    | .xfill _ _ f _ fb _ _, .performing, some _ =>
      let k := s.core core
      let order := if fb then k.fbOrder else k.faOrder
      let fifo := if fb then k.fb else k.fa
      if order.head? == some c.id && fifo.length < 4 then
        let e := entryRows (fillRowBytes f) c.buf
        let s := s.updCore core (fun k =>
          if fb then { k with fb := k.fb ++ [e], fbOrder := k.fbOrder.drop 1 } else { k with fa := k.fa ++ [e], faOrder := k.faOrder.drop 1 })
        .next (s.endCmd core lane { c with buf := [], delivered := 64 * fillRowBytes f } 0 0)
      else .next s
    | _, _, _ => .next s

-- Rows and result queues ----------------------------------------------------------------------------------------

/-- The next chunk of an XGATH or XSCAT, bytes of one row: its source, its destination and its length; none where every row is done
(R263). -/
def Command.rowRun (c : Command) (base : Word) (rb : Nat) (rows : List Word) (scatter : Bool) : Option (Word × Word × Nat) :=
  let o := c.delivered
  (rows[o / max 1 rb]?).map (fun row =>
    let inRow := row + BitVec.ofNat 64 (o % rb)
    let dense := base + BitVec.ofNat 64 o
    let dst := if scatter then inRow else dense
    (if scatter then dense else inRow, dst, chunkLen dst.toNat (rb - o % rb)))

/-- The next chunk of an XGATH or XSCAT (R263). -/
def State.rowChunk (s : State) (core : CoreId) (lane : BitVec 3) (c : Command) (base : Word) (rb : Nat) (rows : List Word)
    (scatter : Bool) : State :=
  let o := c.delivered
  match c.rowRun base rb rows scatter with
  | none => s.endCmd core lane c 0 0
  | some (src, dst, n) =>
    let ((bs, es), s) := s.cmdRead core c false (wordVas src 0 n)
    if !es.isEmpty then s.chunkFault core lane c es
    else
      let (es, s) := s.cmdWrite core c false scatter (wordVas dst 0 n) bs
      if es.isEmpty then s.setCmd core lane { c with delivered := o + n } else s.chunkFault core lane c es

/-- The next row of an XGATH.lq (R263): a row that faults marks its entry (R174). -/
def State.lqRow (s : State) (core : CoreId) (lane : BitVec 3) (c : Command) (rb : Nat) (rows : List Word) : State :=
  match rows[c.cursor]? with
  | none => s.endCmd core lane c 0 0
  | some row =>
    let ((bs, es), s) := s.cmdRead core c false (wordVas row 0 rb)
    let st : EntryState := match loadFault 7 es with
      | some f => .marked f
      | none => .present (BitVec.ofNat 1024 (bytesNat bs))
    let op : LoadOp := { id := c.id, ea := row, kind := .row c.cursor rb, got := [], pushed := 1, stuck := false, redo := false }
    let s := s.updCtx (c.at core) (fun x => { x with user := x.user.updQ (fun q =>
      let q := q.fill c.id c.cursor st
      if es.isEmpty then q else { q with la := q.la ++ [op] }) })
    s.setCmd core lane { c with cursor := c.cursor + 1, delivered := c.delivered + (if es.isEmpty then rb else 0) }

/-- A result that a context which is not issuing holds in its shadow result buffer for a result-queue entry (R244, R279). -/
def Context.shadowed (c : Context) (q : BitVec 3) (id : Nat) : Option VWord :=
  if c.st = .ready then none
  else c.user.flight.findSome? (fun f => match f.eff with | .rq p i v => if p = q && i = id then some v else none | _ => none)

/-- The data of a claimed entry, once it is there for the copy unit: it has landed, or its result has completed while its context
is not issuing (R264, R272; log entry 32). -/
def Core.claimedData (k : Core) (q : BitVec 3) (id : Nat) : Option VWord :=
  match (k.rq[q.toNat]'q.isLt).present.find? (fun e => e.id == id) with
  | some e => some e.data
  | none => ctxNums.findSome? (fun n => (k.ctx n).shadowed q id)

/-- An entry leaves a result queue, whether it has landed or is owed. -/
def RQueue.without (q : RQueue) (id : Nat) : RQueue :=
  { present := q.present.filter (fun e => e.id != id), owed := q.owed.filter (fun e => e.id != id) }

/-- The next chunk of an XPOPQ: its entries in the order of their claims, each once it has arrived (R264). -/
def State.popqChunk (s : State) (core : CoreId) (lane : BitVec 3) (c : Command) (dst : Word) (q : BitVec 3) (ids : List Nat)
    (stride : Nat) : State :=
  let j := c.delivered / 128
  match ids[j]? with
  | none => s.endCmd core lane c 0 0
  | some id =>
    match (s.core core).claimedData q id with
    | none => s
    | some v =>
      let b := c.delivered % 128
      let d := dst + BitVec.ofNat 64 (j * stride + b)
      let n := chunkLen d.toNat (128 - b)
      let (es, s) := s.cmdWrite core c false false (wordVas d 0 n) (((natBytes 128 v.toNat).drop b).take n)
      if !es.isEmpty then s.chunkFault core lane c es
      else
        let s := if b + n < 128 then s else s.updCore core (fun k => k.updRq q (fun q => q.without id))
        s.setCmd core lane { c with delivered := c.delivered + n }

-- Channels ------------------------------------------------------------------------------------------------------

/-- The size of a tile (R370), and of a receive slot. -/
def ChanEntry.tileBytes (e : ChanEntry) : Nat := e.rows * e.cols * e.fmt.bits / 8
def ChanEntry.slotBytes (e : ChanEntry) : Nat := (e.tileBytes + 127) / 128 * 128

/-- Whether the peer of a channel lies on this module. -/
def ChanEntry.here (e : ChanEntry) : Bool := e.peerModule == 0xFFFF

/-- The context at the other end of a channel of a context. -/
def State.peerOf (s : State) (c : CtxId) (e : ChanEntry) : Option CtxId := s.threadCtx (s.ctx c).part e.peer

/-- A channel is withdrawn at both ends (R386, R389): here and, where it lies on this module, at its peer. An entry that is withdrawn
already has no other end: it was matched with none, or both ends are withdrawn (R371). -/
def State.withdraw (s : State) (c : CtxId) (ch : BitVec 8) : State :=
  let mark (s : State) (c : CtxId) : State :=
    s.updCtx c (fun x => x.setChan ch { x.chan ch with withdrawn := true })
  match s.chanEntry (s.ctx c) ch with
  | none => s
  | some e =>
    if ((s.ctx c).chan ch).withdrawn then s
    else
      match e.here, s.peerOf c e with
      | true, some p => if (s.ctx p).launch == (s.ctx c).launch then mark (mark s c) p else mark s c
      | _, _ => mark s c

/-- The XSEND at the head of a lane takes its credit, or its channel's end (R265, R371, R373, R394). With the first tile for another module
the pair is checked: what this end shows of it, the declaration of its flag, and what the other end shows, which is a free choice
(R371; log entry 19). -/
def State.takeCredit (s : State) (core : CoreId) (lane : BitVec 3) : State :=
  match s.cmdAt core lane with
  | none => s
  | some c =>
    match c.op, c.st, c.tile with
    | .xsend ch _, .performing, none =>
      let x := s.ctx (c.at core)
      let n := x.chan ch
      match s.chanEntry x ch with
      | none => s
      | some e =>
        if !e.here && !s.reaches e.peerModule then s.endCmd core lane c 0x0A 0
        else if n.withdrawn then s.endCmd core lane c 0x09 0
        else
          let free := n.tiles < e.depth
          if !free && (s.core core).flag e.flag = 0 then s
          else
            let s := if free then s else s.updCore core (fun k => k.setFlag e.flag (k.flag e.flag - 1))
            let s := s.updCtx (c.at core) (fun x => x.setChan ch { n with tiles := n.tiles + 1 })
            let (d, s) := s.draw
            if !e.here && n.tiles = 0 && (!(s.core core).owns e.flag || Config.coin d) then (s.withdraw (c.at core) ch).endCmd core lane c 0x09 0
            else s.setCmd core lane { c with tile := some n.tiles, cursor := 0, delivered := 0 }
    | _, _, _ => s

/-- XSEND_CREDIT_TAKE (R265, R371, R373). -/
def execXsendCreditTake (core : CoreId) (lane : BitVec 3) (s : State) : Host.Outcome State Fault Refusal := .next (s.takeCredit core lane)

/-- The next chunk of a tile leaves for the receiver, or, with every word performed there, the send ends (R265, R372). -/
def State.sendChunk (s : State) (core : CoreId) (lane : BitVec 3) (c : Command) (ch : BitVec 8) (src : Word) (tile : Nat) : State :=
  let me := c.at core
  match s.chanEntry (s.ctx me) ch with
  | none => s
  | some e =>
    if !e.here && !s.reaches e.peerModule then s.endCmd core lane c 0x0A 0
    else if ((s.ctx me).chan ch).withdrawn then s.endCmd core lane c 0x09 0
    else if c.cursor < e.tileBytes then
      let n := min 128 (e.tileBytes - c.cursor)
      let ((bs, es), s) := s.cmdRead core c false (wordVas src c.cursor n)
      if !es.isEmpty then s.chunkFault core lane c es
      else if !e.here then
        let s := s.putFlit e.peerModule e.vc me c.id true (bs.zipIdx.map (fun b => ((c.cursor + b.2, b.1) : Host.Cell)))
        s.setCmd core lane { c with cursor := c.cursor + n, delivered := c.delivered + n }
      else
        match s.peerOf me e with
        | none => s
        | some p =>
          let ws := (List.range (n / 8)).map (fun i =>
            { src := me, cmd := c.id, dst := p, chan := ch, tile := tile, word := c.cursor / 8 + i
              data := bytesWord ((bs.drop (8 * i)).take 8) : FlightWord })
          let s : State := { s with words := s.words ++ ws }
          s.setCmd core lane { c with cursor := c.cursor + n }
    else if c.delivered < e.tileBytes then s
    else s.endCmd core lane c 0 0

/-- The identity of an accumulating mode (R378). -/
def modeIdentity (mode : BitVec 2) (f : Fmt) : Nat :=
  match mode.toNat with
  | 1 => if f.isFF then f.signPat true else 0
  | 2 => if f.isFF then f.infPat true else wrapTo f.bits (intMin f.isSigned f.bits)
  | _ => if f.isFF then f.infPat false else wrapTo f.bits (intMax f.isSigned f.bits)

/-- An arriving element combined with the one in the slot (R372). -/
def modeCombine (mode : BitVec 2) (f : Fmt) (old new : Nat) : Nat :=
  match mode.toNat with
  | 0 => new
  | 1 => if f.isFF then (faddPat f old new).1 else wrapTo f.bits (intVal f old + intVal f new)
  | 2 => if f.isFF then fmaxPat f old new else if intVal f old < intVal f new then new else old
  | _ => if f.isFF then fminPat f old new else if intVal f new < intVal f old then new else old

/-- The word that the slot holds after an arrival. -/
def combineWord (mode : BitVec 2) (f : Fmt) (old new : Word) : Word :=
  if mode = 0 then new
  else
    let e := f.bits
    BitVec.ofNat 64 (packElems e ((List.range (64 / e)).map (fun i =>
      modeCombine mode f (old.toNat / 2 ^ (e * i) % 2 ^ e) (new.toNat / 2 ^ (e * i) % 2 ^ e))))

/-- The scratchpad offset of a word of a tile (R370, R372). -/
def ChanEntry.wordOff (e : ChanEntry) (tile word : Nat) : Nat := e.base + tile % max 1 e.slots * e.slotBytes + 8 * word

/-- One more word of a tile is performed: a slot whose words are all there completes in the order of the tiles, and the
ready flag rises (R297, R372). -/
def Chan.count (n : Chan) (tile : Nat) : Chan :=
  let have_ := (Assoc.find n.filling tile).getD 0
  { n with filling := Assoc.put n.filling tile (have_ + 1) }

/-- The tiles from `next` on that are whole, in order. -/
def completeRun (filling : List (Nat × Nat)) (words : Nat) : Nat → Nat → List Nat
  | 0, _ => []
  | fuel + 1, next =>
    match Assoc.find filling next with
    | some w => if words ≤ w then next :: completeRun filling words fuel (next + 1) else []
    | none => []

/-- Whole slots become COMPLETE; the number of them is how far the ready flag rises. -/
def Chan.settle (n : Chan) (words : Nat) : Chan × Nat :=
  let next := n.tiles + n.complete.length
  let run := completeRun n.filling words (n.filling.length + 1) next
  ({ n with filling := n.filling.filter (fun e => !run.contains e.1), complete := n.complete ++ run }, run.length)

/-- A word is performed in a receive slot, or meets a kept granule there or an error of its tag or of the bytes that it combines with
(R121, R372); the code. -/
def State.receiveWord (s : State) (dst : CtxId) (ch : BitVec 8) (e : ChanEntry) (tile word : Nat) (data : Word) : Option (BitVec 8) × State :=
  let off := e.wordOff tile word
  let key := padBase dst.core + off
  if s.kept key then (some 0x0E, s)
  else if s.poison.contains (tagKey key) || (e.mode != 0 && (List.range 8).any (fun i => s.poisoned (key + i))) then (some 0x12, s)
  else
    let old := bytesWord (memReadAll s.mem key 8)
    let v := combineWord e.mode e.fmt old data
    let s := s.homeWrite ((wordBytes v).zipIdx.map (fun (b : Byte × Nat) => (key + b.2, b.1)))
    let (n, up) := (((s.ctx dst).chan ch).count tile).settle (e.tileBytes / 8)
    let s := s.updCtx dst (fun x => x.setChan ch n)
    (none, if up = 0 then s
      else (s.leaveCover dst .core (flagObj dst.core e.flag)).updCore dst.core (fun k => k.raise e.flag (BitVec.ofNat 32 up)))

/-- The lane that holds command `id` of a core. -/
def State.laneOf (s : State) (core : CoreId) (id : Nat) : Option (BitVec 3 × Command) :=
  laneNums.findSome? (fun l =>
    ((s.core core).lane l).findSome? (fun e => match e with | .cmd c => if c.id = id then some (l, c) else none | .fence _ _ => none))

/-- Whether a thread's channel to another module is in use: declared in this direction, not withdrawn, and its route usable. -/
def State.farChan (s : State) (c : CtxId) (ch : BitVec 8) (receive : Bool) : Option ChanEntry :=
  match s.chanEntry (s.ctx c) ch with
  | some e =>
    if (s.ctx c).launch.isSome && e.receive == receive && !e.here && !((s.ctx c).chan ch).withdrawn && s.reaches e.peerModule then some e
    else none
  | none => none

/-- CHANNEL_WORD_ARRIVAL (R297, R371 to R373): a word that was on its way, a word from another module, a far sender's first tile that
finds the ends of the channel unequal and withdraws it, or a far receiver's credit post. -/
def execChannelWordArrival (w : WordFrom) (s : State) : Host.Outcome State Fault Refusal :=
  match w with
  | .flight n =>
    match s.words[n]? with
    | none => .next s
    | some f =>
      match s.laneOf f.src.core f.cmd, s.chanEntry (s.ctx f.dst) f.chan with
      | some (lane, c), some e =>
        let gone : State := { s with words := s.words.eraseIdx n }
        if c.st != .performing then .next s
        else if ((s.ctx f.dst).chan f.chan).withdrawn then .next gone
        else
          match s.receiveWord f.dst f.chan e f.tile f.word f.data with
          | (none, t) =>
            let t : State := { t with words := t.words.eraseIdx n }
            .next (t.setCmd f.src.core lane { c with delivered := c.delivered + 8 })
          | (some code, t) =>
            let va := t.windowVa (t.ctx f.dst).part f.dst.core (e.wordOff f.tile f.word)
            .next (t.chunkFault f.src.core lane c [(va, code)])
      | _, _ => .next { s with words := s.words.eraseIdx n }
  | .remote dst ch word data =>
    match s.farChan dst ch true with
    | none => .next s
    | some e =>
      if !(s.core dst.core).owns e.flag then .next (s.withdraw dst ch)
      else
      let n := (s.ctx dst).chan ch
      let words := e.tileBytes / 8
      let tile := word / max 1 words
      let full := words ≤ (Assoc.find n.filling tile).getD 0
      if n.tiles + n.complete.length ≤ tile && tile < n.tiles + e.slots && !full then
        .next (s.receiveWord dst ch e tile (word % max 1 words) data).2
      else .next s
  | .mismatch dst ch =>
    let n := (s.ctx dst).chan ch
    .next (if (s.farChan dst ch true).isSome && n.tiles = 0 && n.complete.isEmpty && n.filling.isEmpty then s.withdraw dst ch else s)
  | .credit src ch =>
    match s.farChan src ch false with
    | none => .next s
    | some e =>
      let n := (s.ctx src).chan ch
      let k := s.core src.core
      .next (if (k.flag e.flag).toNat + (n.tiles - e.depth) < n.tiles then s.updCore src.core (fun k => k.raise e.flag 1) else s)

/-- The narrowest scope whose region holds both of two threads (R335). -/
def State.commonScope (s : State) (a b : CoreId) : Scope :=
  (([.core, .quad, .ter, .cas] : List Scope).find? (fun sc => s.inScope sc a b)).getD .part

/-- The XRECV at the head of a lane takes its slot, or its channel's end (R265, R297, R328). Where its flag holds 1 or more and no slot
is COMPLETE, it waits and takes nothing from the flag: DESIGN CHOICE (log entry 102). -/
def State.takeSlot (s : State) (core : CoreId) (lane : BitVec 3) : State :=
  match s.cmdAt core lane with
  | none => s
  | some c =>
    match c.op, c.st, c.tile with
    | .xrecv ch _, .performing, none =>
      let x := s.ctx (c.at core)
      let n := x.chan ch
      match s.chanEntry x ch with
      | none => s
      | some e =>
        if !e.here && !s.reaches e.peerModule then s.endCmd core lane c 0x0A 0
        else if n.withdrawn then s.endCmd core lane c 0x09 0
        else
          match n.complete with
          | [] => s
          | t :: r =>
            if (s.core core).flag e.flag = 0 then s
            else
              let s := s.updCore core (fun k => k.setFlag e.flag (k.flag e.flag - 1))
              let s := s.updCtx (c.at core) (fun x => x.setChan ch { n with complete := r, tiles := n.tiles + 1 })
              s.setCmd core lane { c with tile := some t, cursor := 0, delivered := 0 }
    | _, _, _ => s

/-- XRECV_SLOT_TAKE (R265, R297, R328). -/
def execXrecvSlotTake (core : CoreId) (lane : BitVec 3) (s : State) : Host.Outcome State Fault Refusal := .next (s.takeSlot core lane)

/-- The credit post of an XRECV (R373): its number in the stores of its context, and the state with the post on its way;
none where the sender lies on another module. -/
def State.creditPost (s : State) (c : CtxId) (ch : BitVec 8) (e : ChanEntry) : Option Nat × State :=
  match s.peerOf c e with
  | none => (none, s)
  | some p =>
    match e.here, s.chanEntry (s.ctx p) ch with
    | true, some e' =>
      let k := s.core c.core
      let post : Post := { id := k.nextId, core := p.core, flag := e'.flag, add := 1, sc := s.commonScope c.core p.core,
                           uid := ((s.core p.core).bound).getD 0, trig := none }
      let s := s.updCore c.core (fun k => { k with nextId := k.nextId + 1 })
      (some k.nextId, s.updCtx c (fun x => { x with posts := x.posts ++ [post] }))
    | _, _ => (none, s)

/-- The cursor of an XRECV whose credit post is on its way: to a flag of this module by its number, or to another module. -/
def postCursor (id : Option Nat) : Nat := 2 ^ 17 + (match id with | none => 0 | some i => i + 1)

/-- The next step of an XRECV that has its slot (R373): the copy in chunks, then the identities in chunks, then the credit post, whose
performance its stamp waits for. The cursor is 0 while it copies and one more than the identity bytes written after it. -/
def State.recvChunk (s : State) (core : CoreId) (lane : BitVec 3) (c : Command) (ch : BitVec 8) (dst : Option Word) (tile : Nat) : State :=
  let me := c.at core
  match s.chanEntry (s.ctx me) ch with
  | none => s
  | some e =>
    let base := s.windowVa (s.ctx me).part core (e.wordOff tile 0)
    let o := c.delivered
    match dst with
    | some d =>
      if c.cursor = 0 && o < e.tileBytes then
        let n := chunkLen (d + BitVec.ofNat 64 o).toNat (e.tileBytes - o)
        let ((bs, es), s) := s.cmdRead core c false (vaRange (base + o) n)
        if !es.isEmpty then s.chunkFault core lane c es
        else
          let (es, s) := s.cmdWrite core c false false (wordVas d o n) bs
          if es.isEmpty then s.setCmd core lane { c with delivered := o + n } else s.chunkFault core lane c es
      else after s me e base
    | none => after s me e base
where
  after (s : State) (me : CtxId) (e : ChanEntry) (base : Nat) : State :=
    if 2 ^ 17 ≤ c.cursor then
      if (s.ctx me).posts.any (fun p => postCursor (some p.id) == c.cursor) then s else s.endCmd core lane c 0 0
    else
      let o := c.cursor - 1
      if e.mode != 0 && o < e.tileBytes then
        let n := chunkLen (base + o) (e.tileBytes - o)
        let one := natBytes (e.fmt.bits / 8) (modeIdentity e.mode e.fmt)
        let (es, s) := s.cmdWrite core c false false (vaRange (base + o) n) ((List.range n).map (fun i => one.getD ((o + i) % one.length) 0))
        if es.isEmpty then s.setCmd core lane { c with cursor := 1 + o + n } else s.chunkFault core lane c es
      else
        match s.creditPost me ch e with
        | (some id, s) => s.setCmd core lane { c with cursor := postCursor (some id) }
        | (none, s) =>
          let s := if e.here then s else s.putFlit e.peerModule e.vc me c.id false [(0, 1)]
          s.setCmd core lane { c with cursor := postCursor none }

-- Storage reads -------------------------------------------------------------------------------------------------

/-- The bytes of a storage read (R271). -/
def storBytes (nlb blockLog : Nat) : Nat := (nlb + 1) * 2 ^ blockLog

/-- XSTOR translates its whole destination before it asks for a block (R271). -/
def State.storCheck (s : State) (core : CoreId) (lane : BitVec 3) (c : Command) (dst : Word) (n : Nat) : State :=
  if c.cursor = 0 then
    let ((_, es), s) := s.engTargets (c.at core) c.shapes false false (wordVas dst 0 n)
    if es.isEmpty then s.setCmd core lane { c with cursor := 1 } else s.chunkFault core lane c es
  else s

/-- NVME_COMPLETION (R252, R271, R393): a chunk of the data is written, in whatever order the data comes in; or the read ends, well once all of
it has come, or with the error word in its stamp. -/
def execNvmeCompletion (core : CoreId) (lane : BitVec 3) (status : BitVec 15) (data : Option (Nat × List Byte)) (s : State) :
    Host.Outcome State Fault Refusal :=
  match s.cmdAt core lane with
  | none => .next s
  | some c =>
    match c.op, c.st with
    | .xstor dst _ nlb _ _ log, .performing =>
      let n := storBytes nlb log
      if c.cursor = 0 then .next s
      else
        match data with
        | some (off, bytes) =>
          let m := bytes.length
          let new := 0 < m && off + m ≤ n && chunkLen (dst + BitVec.ofNat 64 off).toNat m = m &&
            c.parts.all (fun p => off + m ≤ p.1 || p.1 + p.2 ≤ off)
          if !new then .next s
          else if !(farsOf (s.lookPlaces core c (wordVas dst off m))).all s.reaches then .next (s.endCmd core lane c 0x0A 0)
          else
            let (es, s) := s.cmdWrite core c false false (wordVas dst off m) bytes
            .next (if es.isEmpty then s.setCmd core lane { c with delivered := c.delivered + m, parts := c.parts ++ [(off, m)] }
              else s.chunkFault core lane c es)
        | none =>
          .next (if status != 0 then s.endCmd core lane c 0x07 status
            else if c.delivered = n then s.endCmd core lane c 0 0
            else s)
    | _, _ => .next s

-- One chunk -----------------------------------------------------------------------------------------------------

/-- The addresses that the next step of a command reads and those that it writes. -/
def State.nextSpan (s : State) (core : CoreId) (c : Command) : List Nat × List Nat :=
  let o := c.delivered
  let run (dst : Word) (total : Nat) : Nat := chunkLen (dst + BitVec.ofNat 64 o).toNat (total - o)
  match c.op with
  | .xcp dst src len _ => (wordVas src o (run dst len), wordVas dst o (run dst len))
  | .xcpz dst src len _ dict =>
    if c.cursor = 0 then ((dict.map (fun d => vaRange d.1 d.2)).getD [] ++ wordVas src 0 len, [])
    else ([], wordVas dst o (run dst c.buf.length))
  | .xcpc dst src count _ ib _ =>
    let n := c.blockRun dst count
    let (first, last) := indexWords (IBits.width ib) c.cursor n
    if n = 0 then ([], []) else (wordVas src (4 * first) (4 * (last - first + 1)), wordVas dst (2 * c.cursor) (2 * n))
  | .xfill src stride f kept _ tr _ =>
    if kept then (if c.cursor < keptGranules f then wordVas src (64 * c.cursor) 64 else [], [])
    else (if c.cursor < 64 then fillRowVas src stride f tr c.cursor else [], [])
  | .xgath dst rb rows => rows_ (c.rowRun dst rb rows false)
  | .xscat src rb rows => rows_ (c.rowRun src rb rows true)
  | .xgathLq rb rows => (((rows[c.cursor]?).map (fun row => wordVas row 0 rb)).getD [], [])
  | .xpopq dst _ ids stride =>
    let b := o % 128
    let d := dst + BitVec.ofNat 64 (o / 128 * stride + b)
    ([], if o / 128 < ids.length then wordVas d 0 (chunkLen d.toNat (128 - b)) else [])
  | .xsend ch src =>
    match s.chanEntry (s.ctx (c.at core)) ch with
    | some e => (wordVas src c.cursor (min 128 (e.tileBytes - c.cursor)), [])
    | none => ([], [])
  | .xrecv ch dst =>
    match s.chanEntry (s.ctx (c.at core)) ch, dst with
    | some e, some d => ([], if c.cursor = 0 then wordVas d o (run d e.tileBytes) else [])
    | _, _ => ([], [])
  | .xstor _ _ _ _ _ _ => ([], [])
where
  rows_ : Option (Word × Word × Nat) → List Nat × List Nat
    | some (src, dst, n) => (wordVas src 0 n, wordVas dst 0 n)
    | none => ([], [])

/-- What stands before the next step of a command, where something does: a module that it reads from or writes to has lost every usable
link, and the command ends with status 0x0A (R393); another thread's later access stands performed before an older strong load of it
(R351); or bytes of another module, which a flit on virtual channel 7 asks for, have not come (R392). -/
def State.chunkGate (s : State) (core : CoreId) (lane : BitVec 3) (c : Command) : Option State :=
  let (rd, wr) := s.nextSpan core c
  let from_ := s.lookPlaces core c rd
  let to_ := s.lookPlaces core c wr
  let far := farsOf from_
  if !(far ++ farsOf to_).all s.reaches then some (s.endCmd core lane c 0x0A 0)
  else if s.aheadHolds (c.at core) false (memKeys from_) || s.aheadHolds (c.at core) true (memKeys to_) then some s
  else if far.isEmpty then none
  else if !c.asked then
    some ((far.foldl (fun s m => s.putFlit m 7 (c.at core) c.id false []) s).setCmd core lane { c with asked := true })
  else if (s.owing core c.id).any (fun f => f.data.isEmpty) then some s
  else none

/-- The next step of a command at the head of its lane, with nothing before it (R252, R257 to R265, R271). -/
def State.commandStep (s : State) (core : CoreId) (lane : BitVec 3) (c : Command) : State :=
  match c.op, c.tile with
  | .xcp dst src len kept, _ => s.xcpChunk core lane c dst src len kept
  | .xcpz dst src len bound dict, _ => s.xcpzChunk core lane c dst src len bound dict
  | .xcpc dst src count _ ib _, _ => s.xcpcChunk core lane c dst src count ib
  | .xfill src stride f kept _ tr scales, none =>
    if kept then s.keptFillStep core lane c src f scales else s.fillStep core lane c src stride f tr
  | .xfill _ _ _ _ _ _ _, some _ => s
  | .xgath dst rb rows, _ => s.rowChunk core lane c dst rb rows false
  | .xgathLq rb rows, _ => s.lqRow core lane c rb rows
  | .xscat src rb rows, _ => s.rowChunk core lane c src rb rows true
  | .xpopq dst q ids stride, _ => s.popqChunk core lane c dst q ids stride
  | .xsend ch src, some t => s.sendChunk core lane c ch src t
  | .xsend _ _, none => s
  | .xrecv ch dst, some t => s.recvChunk core lane c ch dst t
  | .xrecv _ _, none => s
  | .xstor dst _ nlb _ _ log, _ => s.storCheck core lane c dst (storBytes nlb log)

/-- COPY_CHUNK (R252, R257 to R265, R271, R392, R393): the links go on, and the command at the head of a lane takes its next step. -/
def execCopyChunk (core : CoreId) (lane : BitVec 3) (s : State) : Host.Outcome State Fault Refusal :=
  let s := s.linkProgress
  match s.cmdAt core lane with
  | none => .next s
  | some c =>
    if c.st != .performing then .next s
    else
      .next (match s.chunkGate core lane c with
        | some t => t
        | none => s.commandStep core lane { c with asked := false })

-- Stamps --------------------------------------------------------------------------------------------------------

/-- The error word of a stamp (R248). -/
def errorWord (status : BitVec 8) (detail : BitVec 15) (delivered : Nat) : Word :=
  (1 : BitVec 1) ++ detail ++ status ++ (0 : BitVec 8) ++ BitVec.ofNat 32 delivered

/-- A stamp is written as a strong release at its home and in the core's tile cache, or meets a fault (R248, R330, R347, R354,
R421). What the issuing context has written to the word as ordinary bytes reaches its home first (R330). A stamp in another module goes
there on virtual channel 7 (R392). -/
def State.writeStamp (s : State) (c : CtxId) (owner : Nat) (t : Stamp) (status : BitVec 8) (detail : BitVec 15) (delivered : Nat) :
    List EngFault × State :=
  let vas := vaRange t.addr 8
  let ((ps, es), s) := if tensorBase ≤ t.addr && t.addr < vaEnd then (([], [(t.addr, (0x0C : BitVec 8))]), s)
    else s.engTargets c [] false false vas
  let bad := (ps.zipIdx).filterMap (fun (p : Option Spot × Nat) =>
    match p.1 with | some (.mem k, _) => if s.poisoned k then some (t.addr + p.2, (0x12 : BitVec 8)) else none | _ => none)
  if !(es ++ bad).isEmpty then (es ++ bad, s)
  else
    let keys := ps.filterMap (fun p => match p with | some (.mem k, _) => some k | _ => none)
    let s := s.evictKeys c keys
    let ((bs, fs), s) := s.engReadAll c [] true vas
    let old := match keys with
      | k :: _ => bytesWord (memReadAll s.mem k 8)
      | [] => if fs.isEmpty then bytesWord bs else 0
    let v := if status != 0 then errorWord status detail delivered else if t.add then old + t.word else t.word
    let out := ps.zip (wordBytes v)
    let mem := out.foldl (fun (m : ByteMap) w => match w.1 with | some (.mem k, _) => bmPut m k w.2 | _ => m) []
    match keys with
    | [] => ([], (s.engWriteAt c out).sendFar 7 c owner out)
    | k :: _ =>
      let s := (s.takeLines c (if isDirect k then [] else linesOf vas)).publish c.core mem
      ([], (s.strongWrite c true mem).leaveCover c t.sc (wordObj k))

/-- The fault of a stamp write: its address is the stamp's (R421). -/
def stampFault (es : List EngFault) (opcode : BitVec 8) (delivered : Nat) (lane : BitVec 3) (t : Stamp) : FaultInfo :=
  let f := (engFaultInfo es opcode delivered lane).getD { code := 0x0C, detail := 0, addr := 0 }
  { f with addr := BitVec.ofNat 64 t.addr }

/-- A stamp of a command of a lane (R248, R421). -/
def State.stampCmd (s : State) (core : CoreId) (lane : BitVec 3) (c : Command) (status : BitVec 8) (detail : BitVec 15) : State :=
  match c.stamp with
  | none => s.popCmd core lane c
  | some t =>
    match s.writeStamp (c.at core) c.id t status detail c.delivered with
    | ([], s) => if (s.owing core c.id).isEmpty then s.popCmd core lane c else s.setCmd core lane { c with st := .stampSent status }
    | (es, s) =>
      let f := stampFault es c.op.opcode c.delivered lane t
      if (s.ctx (c.at core)).alive then
        (s.setCmd core lane { c with st := .suspendedStamp status detail }).reportFault (c.at core) f status
      else (s.popCmd core lane c).reportFault (c.at core) f status

/-- Whether a command has its stamp to write: at the head of its lane, or where XCAN.lane has cancelled it (R248, R269). -/
def Command.stampsNow (c : Command) (head : Bool) : Bool :=
  match c.st with
  | .stamping st _ | .stampSent st => head || st == 0x08
  | _ => false

/-- The command of a lane that has a stamp to write: its head, or else the first that XCAN.lane has cancelled. -/
def State.stampAt (s : State) (core : CoreId) (lane : BitVec 3) : Option Command :=
  ((s.core core).lane lane).zipIdx.findSome? (fun e =>
    match e.1 with
    | .cmd c => if c.stampsNow (e.2 == 0) then some c else none
    | .fence _ _ => none)

/-- The stamp of a lane is written, or one that went to another module has come there (R248, R343, R346, R351, R394). -/
def State.stampStep (s : State) (core : CoreId) (lane : BitVec 3) : State :=
  match s.stampAt core lane with
  | none => s
  | some c =>
    if !(s.owing core c.id).isEmpty then s
    else
      match c.st, c.stamp with
      | .stamping status detail, some t =>
        if s.released (c.at core) c.id t.sc && !s.aheadHolds (c.at core) true (memKeys (s.lookPlaces core { c with shapes := [] } (vaRange t.addr 8)))
        then s.stampCmd core lane c status detail else s
      | .stamping _ _, none | .stampSent _, _ => s.popCmd core lane c
      | _, _ => s

/-- STAMP_WRITE (R248, R343, R421). -/
def execStampWrite (core : CoreId) (lane : BitVec 3) (s : State) : Host.Outcome State Fault Refusal :=
  .next (s.linkProgress.stampStep core lane)

-- Fences --------------------------------------------------------------------------------------------------------

/-- Whether the fence entries of one number all stand at the heads of their lanes. -/
def Core.fenceReady (k : Core) (id : Nat) : Bool :=
  laneNums.all (fun l =>
    match (k.lane l).findIdx? (fun e => match e with | .fence i _ => i == id | .cmd _ => false) with
    | some n => n == 0
    | none => true)

/-- LANE_FENCE_RELEASE (R270, R294): the fence entries of one XQFENCE leave their lanes in one cycle. -/
def execLaneFenceRelease (core : CoreId) (s : State) : Host.Outcome State Fault Refusal :=
  let k := s.core core
  let ids := k.lanes.toList.filterMap (fun l => match l with | .fence id _ :: _ => some id | _ => none)
  match ids.find? k.fenceReady with
  | none => .next s
  | some id =>
    .next (s.updCore core (fun k => { k with lanes := k.lanes.map (fun l =>
      l.filter (fun e => match e with | .fence i _ => i != id | .cmd _ => true)) }))

-- The end of an operator ----------------------------------------------------------------------------------------

/-- The command of a context whose thread is ended writes its stamp with status 0x08 at once (R277, R298, R421); a stamp on its way to
another module is written there and no other follows. -/
def State.cancelStamp (s : State) (core : CoreId) (c : Command) : State :=
  match c.stamp, c.st with
  | none, _ | _, .stampSent _ => s
  | some t, _ =>
    match s.writeStamp (c.at core) c.id t 0x08 0 (c.delivered - flitBytes (s.owing core c.id)) with
    | ([], s) => s
    | (es, s) =>
      match firstFault es with
      | some f => s.logError f.2 0x08 (BitVec.ofNat 64 t.addr) (s.ctx (c.at core)).part (s.vfOf (s.ctx (c.at core)).part) core c.ctx
      | none => s

/-- Every command, fence and trigger entry of a context is cancelled (R277, R295, R298). -/
def State.cancelCommands (s : State) (c : CtxId) : State :=
  let mine := (s.core c.core).commands.filter (fun q => q.ctx == c.ctx)
  let s := mine.foldl (fun s q => s.cancelStamp c.core q) s
  s.updCore c.core (fun k =>
    let k := mine.foldl (fun k q => k.dropFill q.id) k
    { k with
      lanes := k.lanes.map (fun l => l.filter (fun e => e.owner != c.ctx))
      triggers := k.triggers.filter (fun t => t.2.ctx != c.ctx) })

/-- Every channel of which a context's thread is an end is withdrawn at both ends, and the words on their way count for
nothing (R386). -/
def State.withdrawAll (s : State) (c : CtxId) : State :=
  let n := ((s.codeOf (s.ctx c)).map (fun k => k.chans.length)).getD 0
  let s := (List.range n).foldl (fun s ch => s.withdraw c (BitVec.ofNat 8 ch)) s
  { s with words := s.words.filter (fun w => w.src != c && w.dst != c) }

end Sys2Proof.Machine
end

