-- ==== Sys2Proof/Machine/Collect.lean ====
section
/-! DEFINITION. The collective sequencer (R266, R374 to R386), the trigger table (R268, R269, R295, R296) and the accesses that
are performed in one cycle (R330, R353). A contributor in another module takes part over the links; what it does there is free (R24,
R392; log entry 19). -/

namespace Sys2Proof.Machine

-- Elements ------------------------------------------------------------------------------------------------------

/-- A product of two elements (R378). -/
def collMul (f : Fmt) (x y : Nat) : Nat × Flags :=
  if f.isFF then fmulPat f x y else plain (wrapTo f.bits (intVal f x * intVal f y))

/-- One combination (R378); an affine element is a pair with its first component lowest. -/
def collCombine (op : Nat) (f : Fmt) (x y : Nat) : Nat × Flags :=
  match op with
  | 0 => if f.isFF then faddPat f x y else plain (wrapTo f.bits (intVal f x + intVal f y))
  | 1 => plain (if f.isFF then fmaxPat f x y else if intVal f x < intVal f y then y else x)
  | 2 => plain (if f.isFF then fminPat f x y else if intVal f y < intVal f x then y else x)
  | 3 => collMul f x y
  | 4 => plain (x &&& y)
  | 5 => plain (x ||| y)
  | 6 => plain (x ^^^ y)
  | _ =>
    let m := 2 ^ f.bits
    let (a, f1) := fmulPat f (x % m) (y % m)
    let (b, f2) := ffma f (decodeF f (x % m)) (decodeF f (y / m)) (decodeF f (x / m))
    (a + m * b, f1 ||| f2)

/-- The pattern of one in a format. -/
def onePat (f : Fmt) : Nat := if f.isFF then (roundNE f (.fin false 1 0)).1 else 1

/-- The identity of an operator (R378). -/
def collIdentity (op : Nat) (f : Fmt) : Nat :=
  match op with
  | 0 => if f.isFF then f.signPat true else 0
  | 1 => if f.isFF then f.infPat true else wrapTo f.bits (intMin f.isSigned f.bits)
  | 2 => if f.isFF then f.infPat false else wrapTo f.bits (intMax f.isSigned f.bits)
  | 3 => onePat f
  | 4 => 2 ^ f.bits - 1
  | 7 => onePat f
  | _ => 0

-- Instances -----------------------------------------------------------------------------------------------------

def CollPart.format (p : CollPart) : Fmt := (Fmt.ofCode p.fmt).getD .n8
/-- The bytes of one element of a part's buffers (R377). -/
def CollPart.elem (p : CollPart) : Nat := collElem p.kind p.op p.fmt

/-- Elements of bytes, and bytes of elements. -/
def splitElems (e : Nat) (b : List Byte) : List Nat := (List.range (b.length / max 1 e)).map (fun i => fieldNat b (i * e) e)
def joinElems (e : Nat) (l : List Nat) : List Byte := l.flatMap (natBytes e)

/-- Two buffers combined element by element. -/
def combineBytes (p : CollPart) (x y : List Byte) : List Byte × Flags :=
  let r := ((splitElems p.elem x).zip (splitElems p.elem y)).map (fun e => collCombine p.op.toNat p.format e.1 e.2)
  (joinElems p.elem (r.map (·.1)), r.foldl (fun (a : Flags) e => a ||| e.2) 0)

/-- The chain of R379 over the contributors' blocks in rank order. -/
def chainCombine (p : CollPart) : List (List Byte) → List Byte × Flags
  | [] => ([], 0)
  | x :: r => r.foldl (fun (a : List Byte × Flags) y => let (b, f) := combineBytes p a.1 y; (b, a.2 ||| f)) (x, 0)

/-- The least power of two that is not below n. -/
def ceilPow2 : Nat → Nat → Nat
  | 0, _ => 1
  | fuel + 1, n => if n ≤ 1 then 1 else 2 * ceilPow2 fuel ((n + 1) / 2)

/-- The balanced tree of a switch reduction slot (R64, R379). The identity stands for the positions above the last rank, and with it
nothing is combined (R378): the other operand goes on as it is. -/
def treeCombine (p : CollPart) (bs : List (List Byte)) : List Byte × Flags :=
  let join (x y : Option (List Byte × Flags)) : Option (List Byte × Flags) :=
    match x, y with
    | some x, some y => let (b, f) := combineBytes p x.1 y.1; some (b, x.2 ||| y.2 ||| f)
    | some x, none => some x
    | none, y => y
  let all := bs.map (fun b => some (b, (0 : Flags))) ++ List.replicate (ceilPow2 14 bs.length - bs.length) none
  (treeReduce join none 14 all).getD ([], 0)

/-- Block b of m elements in n blocks (R379): its first byte and its bytes. -/
def blockOf (e len n b : Nat) : Nat × Nat :=
  let m := len / max 1 e
  let lo := b * m / max 1 n
  (lo * e, ((b + 1) * m / max 1 n - lo) * e)

/-- Rounds of a kind (R381). -/
def roundsOf (kind : CollKind) (n : Nat) : Nat :=
  match kind with
  | .allred => 2 * (n - 1)
  | _ => n - 1

/-- What a message carries. -/
inductive MsgKind where
  | token | source | block | reduced | up | down
  deriving DecidableEq, Repr

/-- A message of a round: its receiver, what it carries, and its bytes. -/
structure Msg where
  dest : Nat
  what : MsgKind
  len : Nat
  deriving DecidableEq, Repr

/-- The messages that rank q of n sends in a round (R381, R383). -/
def CollPart.msgs (p : CollPart) (n q r : Nat) : List Msg :=
  let to_ := (q + r) % max 1 n
  if r = 0 || n ≤ 1 then []
  else
    match p.kind with
    | .barrier => [{ dest := to_, what := .token, len := 1 }]
    | .bcast => if q = p.root then [{ dest := to_, what := .source, len := p.len }] else []
    | .agath => [{ dest := to_, what := .source, len := p.len }]
    | .rscat => [{ dest := to_, what := .block, len := (blockOf p.elem p.len n to_).2 }]
    | .allred =>
      if r < n then [{ dest := to_, what := .block, len := (blockOf p.elem p.len n to_).2 }]
      else [{ dest := (q + (r - (n - 1))) % n, what := .reduced, len := (blockOf p.elem p.len n q).2 }]
    | .cavity =>
      (if q + 1 = r then [{ dest := r, what := .up, len := p.len : Msg }] else []) ++
        (if q = n - r then [{ dest := n - r - 1, what := .down, len := p.len : Msg }] else [])

/-- The messages that reach rank q in a round, with their senders. -/
def CollPart.incoming (p : CollPart) (n q r : Nat) : List (Nat × Msg) :=
  (List.range n).flatMap (fun w => ((p.msgs n w r).filter (fun m => m.dest == q)).map (fun m => (w, m)))

/-- Bytes of a message that have come in. -/
def CollPart.have (p : CollPart) (r w : Nat) : List Byte :=
  p.inbox.flatMap (fun e => if e.1 = r && e.2.1 = w then e.2.2 else [])

/-- Whether every message of a round is there. -/
def CollPart.whole (p : CollPart) (n q r : Nat) : Bool :=
  (p.incoming n q r).all (fun m => m.2.len ≤ (p.have r m.1).length)

-- Parts ---------------------------------------------------------------------------------------------------------

/-- The parts of a communicator queue; a part changed, or gone. -/
def Core.parts (k : Core) (comm : BitVec 8) : List CollPart := Assoc.get [] k.comms comm.toNat
def State.setPartOf (s : State) (core : CoreId) (p : CollPart) : State :=
  s.updCore core (fun k => { k with comms := Assoc.put k.comms p.comm.toNat ((k.parts p.comm).map (fun q => if q.id = p.id then p else q)) })
def State.dropPart (s : State) (core : CoreId) (p : CollPart) : State :=
  s.updCore core (fun k => { k with comms := Assoc.put k.comms p.comm.toNat ((k.parts p.comm).filter (fun q => q.id != p.id)) })

/-- The first part of each context in a communicator queue: the ones that may go on (R266). -/
def Core.activeParts (k : Core) (comm : BitVec 8) : List CollPart :=
  ctxNums.filterMap (fun n => (k.parts comm).find? (fun p => p.ctx == n))

/-- The part of a contributor in an instance, where it has issued it. -/
def State.partOf (s : State) (x : Coll) (c : CtxId) : Option CollPart :=
  ((s.core c.core).parts x.comm).find? (fun p => p.ctx == c.ctx && p.k == x.k)

def Coll.rank (x : Coll) (c : CtxId) : Nat := x.members.findIdx (fun m => m.far.isNone && m.at_ == c)

/-- The contributors of an instance that are threads of this module. -/
def Coll.near (x : Coll) : List Member := x.members.filter (fun m => m.far.isNone)

def State.updColl (s : State) (x : Coll) (f : Coll → Coll) : State :=
  { s with colls := s.colls.map (fun y => if y.uid = x.uid then f y else y) }

/-- An instance ends on every contributor with a status, but for the one that is named with its own; its switch reduction slot is free
(R266, R375, R386, R394). -/
def State.endInstance (s : State) (x : Coll) (others : BitVec 8) (mine : Option (CtxId × BitVec 8)) : State :=
  let s := s.updColl x (fun y => { y with ended := true, why := if y.ended then y.why else others, slot := some false })
  x.near.foldl (fun s m =>
    match s.partOf x m.at_ with
    | none => s
    | some p =>
      let st : BitVec 8 := match mine with | some (c, v) => if c = m.at_ then v else others | none => others
      if p.status = 0 then s.setPartOf m.at_.core { p with status := st, suspended := false } else s) s

/-- An instance is withdrawn, and with it the channels that its contributors' kernels tie to its communicator (R370, R386, R394). -/
def State.withdrawInstance (s : State) (x : Coll) (status : BitVec 8) : State :=
  x.near.foldl (fun s m =>
    match s.codeOf (s.ctx m.at_) with
    | none => s
    | some k => k.chans.zipIdx.foldl (fun s e => if e.1.comm = x.comm then s.withdraw m.at_ (BitVec.ofNat 8 e.2) else s) s)
    (s.endInstance x status none)

/-- The opcode of a collective. -/
def CollPart.opcode (p : CollPart) : BitVec 8 := if p.kind = .cavity then 0x13 else 0x12

/-- A part meets a fault in its own source or destination: it suspends, or ends its instance where its thread has exited
(R266). -/
def State.partFault (s : State) (core : CoreId) (x : Coll) (p : CollPart) (es : List EngFault) : State :=
  let c : CtxId := { core := core, ctx := p.ctx }
  match engFaultInfo es p.opcode (p.delivered - flitBytes (s.owing core p.id)) 0 with
  | none => s
  | some f =>
    let f : FaultInfo := { f with slot := 7 }
    if (s.ctx c).alive then (s.setPartOf core { p with suspended := true }).reportFault c f 0x0B
    else (s.endInstance x 0x09 (some (c, 0x0B))).reportFault c f 0x0B

/-- Bytes read from, and written to, a contributor's buffers. -/
def State.partRead (s : State) (c : CtxId) (p : CollPart) (w : Word) (off n : Nat) : (List Byte × List EngFault) × State :=
  s.engReadAll c p.shapes false (wordVas w off n)
def State.partWrite (s : State) (c : CtxId) (p : CollPart) (vc : BitVec 3) (off : Nat) (bs : List Byte) : List EngFault × State :=
  let ((ps, es), s) := s.engTargets c p.shapes false false (wordVas p.dst off bs.length)
  if es.isEmpty then ([], (s.engWriteAt c (ps.zip bs)).sendFar vc c p.id (ps.zip bs)) else (es, s)

/-- Whether a part's buffers, or a contributor of its instance, lie in a module whose route has no usable link left (R393, R394). -/
def State.partCut (s : State) (c : CtxId) (x : Coll) (p : CollPart) : Bool :=
  [p.src, p.dst].any (fun w =>
    match (s.engPlace c.core (s.ctx c).part p.shapes w.toNat false false).1 with
    | .ok (some (.far pa, _)) => (Config.farModule (pa / 2 ^ 16)).any (fun m => !s.reaches m)
    | _ => false) ||
  x.members.any (fun m => m.far.any (fun f => !s.reaches f))

-- Sending -------------------------------------------------------------------------------------------------------

/-- Bytes [off, off + n) of a message, from the sender's source, its reduced block or its sweeps, with the flags that
forming them raises (R378, R381, R383). -/
def State.msgBytes (s : State) (c : CtxId) (p : CollPart) (n q : Nat) (m : Msg) (off len : Nat) : (List Byte × Flags × List EngFault) × State :=
  let plainRead (w : Word) (o : Nat) : (List Byte × Flags × List EngFault) × State :=
    let ((bs, es), s) := s.partRead c p w o len
    ((bs, 0, es), s)
  match m.what with
  | .token => ((List.replicate len 0, 0, []), s)
  | .source => plainRead p.src off
  | .block => plainRead p.src ((blockOf p.elem p.len n m.dest).1 + off)
  | .reduced => plainRead p.dst ((blockOf p.elem p.len n q).1 + off)
  | .up =>
    let ((bs, es), s) := s.partRead c p p.src off len
    if q = 0 then ((bs, 0, es), s)
    else
      let (r, f) := combineBytes p (((p.have q (q - 1)).drop off).take len) bs
      ((r, f, es), s)
  | .down =>
    let ((bs, es), s) := s.partRead c p p.src off len
    if q + 1 = n then ((bs, 0, es), s)
    else
      let (r, f) := combineBytes p bs (((p.have (n - q - 1) (q + 1)).drop off).take len)
      ((r, f, es), s)

/-- Where the bytes of a message go in the receiver's buffers: an offset from its destination; none are only kept for a
combination (R377, R381, R383). -/
def placeOf (p : CollPart) (n w : Nat) (m : Msg) : Option Nat :=
  match m.what with
  | .token | .block => none
  | .source => some (if p.kind = .agath then w * p.len else 0)
  | .reduced => some (blockOf p.elem p.len n w).1
  | .up => some 0
  | .down => some p.len

/-- A message of a part, and the bytes of it that are sent. -/
def nextMsg : List Msg → Nat → Option (Msg × Nat)
  | [], _ => none
  | m :: r, sent => if sent < m.len then some (m, sent) else nextMsg r (sent - m.len)

/-- A mismatch of two contributors' descriptors (R375). -/
def mismatch (a b : CollPart) : Bool :=
  a.kind != b.kind || a.op != b.op || a.fmt != b.fmt || a.len != b.len || a.root != b.root

/-- The bytes of the next chunk of a message: whole elements, at most the communicator's chunk size (R380). -/
def chunkOf (p : CollPart) (e : CommEntry) (m : Msg) (off : Nat) : Nat := min (2 ^ e.chunk / max 1 p.elem * p.elem) (m.len - off)

/-- A chunk of a message from rank w is received by a part: it goes to its place in the destination, or is kept for a combination;
or it meets a fault there and is abandoned (R266, R377, R381). -/
def State.receivePart (s : State) (d : CtxId) (x : Coll) (o : CollPart) (e : CommEntry) (w round : Nat) (m : Msg) (off : Nat) (bs : List Byte)
    (fl : Flags) : Bool × State :=
  let (fs, s) := match placeOf o x.members.length w m with
    | some base => s.partWrite d o e.vc (base + off) bs
    | none => ([], s)
  if !fs.isEmpty then (false, s.partFault d.core x o fs)
  else
    let wrote := if (placeOf o x.members.length w m).isSome then bs.length else 0
    (true, s.setPartOf d.core { o with inbox := o.inbox ++ [(round, w, bs)], delivered := o.delivered + wrote, flags := o.flags ||| fl })

/-- A chunk of a message goes from its sender to its receiver as a whole, or is abandoned at a fault (R266, R380); to another module
it goes over a link on the communicator's virtual channel (R392), unless the contributor there has ended the instance, by a free choice
(R375; log entry 19). With the state, whether a chunk was sent. -/
def State.sendPart (s : State) (c : CtxId) (x : Coll) (p : CollPart) (e : CommEntry) (m : Msg) (off : Nat) : Option (Bool × State) :=
  let n := x.members.length
  let q := x.rank c
  let len := chunkOf p e m off
  match x.members[m.dest]? with
  | none => none
  | some d =>
    match d.far with
    | some far =>
      let (k, s) := s.draw
      if !s.reaches far then some (false, s.withdrawInstance x 0x0A)
      else if Config.coin k then some (false, s.endInstance x 0x09 none)
      else
        let ((bs, fl, es), s) := s.msgBytes c p n q m off len
        if !es.isEmpty then some (false, s.partFault c.core x p es)
        else
          let s := s.putFlit far e.vc c p.id false (bs.zipIdx.map (fun b => ((off + b.2, b.1) : Host.Cell)))
          some (true, s.setPartOf c.core { p with sent := p.sent + len, flags := p.flags ||| fl })
    | none =>
      match s.partOf x d.at_ with
      | none => none
      | some o =>
        if !o.started || o.suspended || o.status != 0 then none
        else
          let ((bs, fl, es), s) := s.msgBytes c p n q m off len
          if !es.isEmpty then some (false, s.partFault c.core x p es)
          else
            match s.receivePart d.at_ x o e q p.round m off bs (if m.what = .reduced && x.slot == some true then p.flags else 0) with
            | (false, s) => some (false, s)
            | (true, s) =>
              let p := (s.partOf x c).getD p
              some (true, s.setPartOf c.core { p with sent := p.sent + len, flags := p.flags ||| fl })

/-- The next chunk of a round's messages from other modules comes in, by a free choice and with free bytes (log entry 19). -/
def State.farArrival (s : State) (c : CtxId) (x : Coll) (p : CollPart) (e : CommEntry) : Option (Bool × State) :=
  let n := x.members.length
  let q := x.rank c
  let open_ := (p.incoming n q p.round).find? (fun m => ((x.members[m.1]?).bind (·.far)).any s.reaches && (p.have p.round m.1).length < m.2.len)
  match open_ with
  | none => none
  | some (w, m) =>
    let (d, s) := s.draw
    if !Config.coin d then none
    else
      let off := (p.have p.round w).length
      let bs := (List.range (chunkOf p e m off)).map (fun i => Config.farByte i d)
      let (k, s) := s.draw
      if Config.coin k then some (false, s.endInstance x 0x09 none)
      else some (false, (s.receivePart c x p e w p.round m off bs 0).2)

-- A contributor's own work --------------------------------------------------------------------------------------

/-- The blocks of every rank that rank q combines, its own from its source (R379). -/
def ownBlocks (p : CollPart) (n q : Nat) (mine : List Byte) : List (List Byte) :=
  (List.range n).map (fun w => if w = q then mine else p.have ((q + n - w) % n) w)

/-- What a part writes into its own destination at the end of a round, formed once: an offset and the bytes, with the flags they
raise and the faults of reading its source (R377, R379, R382, R383). -/
def State.ownWork (s : State) (c : CtxId) (x : Coll) (p : CollPart) : Option (Nat × List Byte × Flags × List EngFault) × State :=
  let n := x.members.length
  let q := x.rank c
  let copy (off : Nat) : Option (Nat × List Byte × Flags × List EngFault) × State :=
    let ((bs, es), s) := s.partRead c p p.src 0 p.len
    (some (off, bs, 0, es), s)
  let reduce (at_ : Nat) : Option (Nat × List Byte × Flags × List EngFault) × State :=
    let (lo, len) := blockOf p.elem p.len n q
    let ((bs, es), s) := s.partRead c p p.src lo len
    let (r, f) := if x.slot == some true then treeCombine p (ownBlocks p n q bs) else chainCombine p (ownBlocks p n q bs)
    (some (at_, r, f, es), s)
  match p.kind with
  | .barrier => (none, s)
  | .bcast => if p.round = 0 && q = p.root then copy 0 else (none, s)
  | .agath => if p.round = 0 then copy (q * p.len) else (none, s)
  | .rscat => if p.round = 0 && n = 1 then copy 0 else if p.round = n - 1 && 1 < n then reduce 0 else (none, s)
  | .allred =>
    if p.round = 0 && n = 1 then copy 0
    else if p.round = n - 1 && 1 < n then reduce (blockOf p.elem p.len n q).1 else (none, s)
  | .cavity =>
    if n = 1 then
      let one := natBytes p.elem (collIdentity p.op.toNat p.format)
      (if p.round = 0 then some (0, (List.replicate (p.len / max 1 p.elem) one).flatten, 0, []) else none, s)
    else if p.round = n - 1 then
      let up := p.have q (q - 1)
      let down := p.have (n - q - 1) (q + 1)
      let (r, f) : List Byte × Flags := if q = 0 then (down, 0) else if q + 1 = n then (up, 0) else combineBytes p up down
      (some (0, r, f, []), s)
    else (none, s)

/-- The next chunk of a part's own work, which is formed once (R379); none where there is none left. -/
def State.workPart (s : State) (c : CtxId) (x : Coll) (p : CollPart) (e : CommEntry) : Option State :=
  match p.out with
  | some (off, bs) =>
    if bs.length ≤ p.work then none
    else
      let part := (bs.drop p.work).take (2 ^ e.chunk)
      let (fs, s) := s.partWrite c p e.vc (off + p.work) part
      if fs.isEmpty then some (s.setPartOf c.core { p with work := p.work + part.length, delivered := p.delivered + part.length })
      else some (s.partFault c.core x p fs)
  | none =>
    let (w, s) := s.ownWork c x p
    match w with
    | none => none
    | some (off, bs, fl, es) =>
      if !es.isEmpty then some (s.partFault c.core x p es)
      else some (s.setPartOf c.core { p with out := some (off, bs), flags := p.flags ||| fl })

/-- Whether a round may be performed: of a chain of trigger steps, only the rounds that steps have released, what precedes the first
round with step 0 (R381). -/
def CollPart.released (p : CollPart) : Bool := match p.steps with | none => true | some m => 0 < m && p.round ≤ m

/-- Whether a part is over but for its stamp (R381). -/
def CollPart.atEnd (p : CollPart) (n : Nat) : Bool := p.status != 0 || roundsOf p.kind n < p.round

/-- Whether a part finds another contributor's descriptor unequal to its own (R375). -/
def State.mismatched (s : State) (x : Coll) (p : CollPart) : Bool := x.near.any (fun m => (s.partOf x m.at_).any (mismatch p))

/-- Whether a message of the round that carries no byte, to or from a thread of this module, waits for that thread to issue its part
(R375). -/
def State.unmet (s : State) (x : Coll) (p : CollPart) (n q : Nat) : Bool :=
  let out := ((p.msgs n q p.round).filter (fun m => m.len == 0)).map (·.dest)
  let in_ := ((p.incoming n q p.round).filter (fun m => m.2.len == 0)).map (·.1)
  (out ++ in_).any (fun r => (x.members[r]?).any (fun m => m.far.isNone && !x.gone.contains m.thread && (s.partOf x m.at_).isNone))

/-- A part starts: its shape records are taken, and a barrier counts the writes of its context that it now finds performed (R365,
R376). -/
def State.startPart (s : State) (c : CtxId) (x : Coll) (p : CollPart) : State :=
  let (sh, s) := s.takeShapes c [p.src.toNat, p.dst.toNat]
  let s := s.updColl x (fun y => { y with seen := (y.seen ++ s.coverOf c).dedup })
  s.setPartOf c.core { p with started := true, shapes := sh }

/-- The next step of a part, where it has one, and whether it sent a chunk (R375, R376, R380, R381, R385, R393). -/
def State.partStep (s : State) (core : CoreId) (p : CollPart) : Option (Bool × State) :=
  let c : CtxId := { core := core, ctx := p.ctx }
  match s.collOf c p.comm p.k, s.commEntry (s.ctx c) p.comm with
  | some x, some e =>
    let n := x.members.length
    let q := x.rank c
    if p.suspended || p.atEnd n then none
    else if x.ended then some (false, s.setPartOf core { p with status := x.why })
    else if !p.started then (if s.mayStart c p.id then some (false, s.startPart c x p) else none)
    else if s.mismatched x p then some (false, s.endInstance x 0x09 none)
    else if x.slot.isNone || !p.released then none
    else if s.partCut c x p then some (false, s.withdrawInstance x 0x0A)
    else
      match nextMsg (p.msgs n q p.round) p.sent with
      | some (m, off) => s.sendPart c x p e m off
      | none =>
        if !p.whole n q p.round then s.farArrival c x p e
        else if s.unmet x p n q then none
        else
          match s.workPart c x p e with
          | some t => some (false, t)
          | none => some (false, s.setPartOf core
              { p with round := p.round + 1, sent := 0, work := 0, out := none, trig := if p.round = 0 then p.trig else none })
  | _, _ => none

/-- The communicators of a core in the order in which the sequencer looks at them: by priority, and in round robin after
the one it served last (R380). -/
def State.commOrder (s : State) (core : CoreId) : List (BitVec 8) :=
  let k := s.core core
  let nums := (k.comms.filter (fun q => !q.2.isEmpty)).map (·.1)
  let after := (nums.filter (fun n => k.lastComm < n)).mergeSort (· ≤ ·) ++ (nums.filter (fun n => n ≤ k.lastComm)).mergeSort (· ≤ ·)
  let prio (n : Nat) : Nat :=
    ((k.parts (BitVec.ofNat 8 n)).head?.bind (fun p =>
      s.commEntry (s.ctx { core := core, ctx := p.ctx }) p.comm)).map (fun e => e.prio.toNat) |>.getD 0
  (List.range 4).flatMap (fun p => (after.filter (fun n => prio n == p)).map (BitVec.ofNat 8))

/-- COLLECTIVE_CHUNK (R376, R380, R381, R383, R392): the links go on, and the sequencer takes the first step that a part can take; the
communicator whose chunk it sends is the one it served last. -/
def execCollectiveChunk (core : CoreId) (s : State) : Host.Outcome State Fault Refusal :=
  let s := s.linkProgress
  let step (comm : BitVec 8) : Option State :=
    (((s.core core).activeParts comm).findSome? (s.partStep core)).map (fun t =>
      if t.1 then t.2.updCore core (fun k => { k with lastComm := comm.toNat }) else t.2)
  .next (((s.commOrder core).findSome? step).getD s)

-- Completion ----------------------------------------------------------------------------------------------------

/-- An instance in which the part of every contributor of this module is over closes, and its switch slot is free (R385). -/
def State.closeColls (s : State) : State :=
  { s with colls := s.colls.filter (fun x =>
      !x.near.all (fun m => x.gone.contains m.thread || (s.ctx m.at_).launch.isNone)) }

/-- A part is over: its flags rise, and it leaves its queue (R58, R381). A step that ended in an error frees its entry with
no done increment (R295). -/
def State.partOver (s : State) (c : CtxId) (x : Coll) (p : CollPart) : State :=
  let s := s.updCtx c (fun y => { y with sticky := y.sticky ||| p.flags })
  let s := s.dropPart c.core p
  let s := match p.trig with
    | some n => if p.status = 0 then s else s.updCore c.core (fun k => { k with triggers := Assoc.drop k.triggers n.toNat })
    | none => s
  (s.updColl x (fun y => { y with gone := (s.ctx c).thread :: y.gone })).closeColls

/-- The stamp of a part, at which the writes that any contributor of a barrier saw when it issued are released with its own (R248,
R266, R376, R421). -/
def State.partStamp (s : State) (c : CtxId) (x : Coll) (p : CollPart) (t : Stamp) : State :=
  match s.writeStamp c p.id t p.status 0 p.delivered with
  | ([], s) =>
    let s := match p.kind, (s.keysFor c [t.addr]).head? with
      | .barrier, some k => s.addCover c t.sc (wordObj k) x.seen
      | _, _ => s
    if (s.owing c.core p.id).isEmpty then s.partOver c x p else s.setPartOf c.core { p with stampSent := true }
  | (es, s) =>
    let f : FaultInfo := { stampFault es p.opcode p.delivered 0 t with slot := 7 }
    if (s.ctx c).alive then (s.setPartOf c.core { p with suspended := true }).reportFault c f p.status
    else (s.partOver c x p).reportFault c f p.status

/-- A part of a communicator queue that is over writes its stamp, and is gone (R266, R381, R394). -/
def State.finishPart (s : State) (core : CoreId) (comm : BitVec 8) : State :=
  let ready := ((s.core core).activeParts comm).findSome? (fun p =>
    let c : CtxId := { core := core, ctx := p.ctx }
    match s.collOf c comm p.k with
    | some x => if p.atEnd x.members.length && !p.suspended && (s.owing core p.id).isEmpty then some (c, x, p) else none
    | none => none)
  match ready with
  | none => s
  | some (c, x, p) =>
    match p.stamp with
    | none => s.partOver c x p
    | some t =>
      if p.stampSent then s.partOver c x p
      else if s.released c p.id t.sc && !s.aheadHolds c true (s.keysFor c (vaRange t.addr 8)) then s.partStamp c x p t
      else s

/-- COLLECTIVE_COMPLETE (R266, R381). -/
def execCollectiveComplete (core : CoreId) (comm : BitVec 8) (s : State) : Host.Outcome State Fault Refusal :=
  .next (s.linkProgress.finishPart core comm)

/-- The switch reduction slots of this module in use: its own switch serves the instances whose rank 0 is here (R385). -/
def State.slotsUsed (s : State) : Nat :=
  (s.colls.filter (fun x => x.slot == some true && ((x.members[0]?).map (·.far.isNone)).getD true)).length

/-- Whether rank 0 of an instance asks for a slot: its part has started (R385). -/
def State.asksSlot (s : State) (x : Coll) : Bool :=
  x.slot.isNone && !x.ended && (match x.members[0]? with
    | some m => m.far.isNone && (match s.partOf x m.at_ with | some p => p.started | none => false)
    | none => false)

/-- SWITCH_SLOT_REQUEST (R385): of the instances that ask while slots are short, those of lower partition numbers come first. Where rank 0
is in another module, that module's switch answers, by a free choice (log entry 19). -/
def execSwitchSlotRequest (core : CoreId) (comm : BitVec 8) (s : State) : Host.Outcome State Fault Refusal :=
  let mine := ((s.core core).activeParts comm).findSome? (fun p =>
    let c : CtxId := { core := core, ctx := p.ctx }
    match s.collOf c comm p.k, s.commEntry (s.ctx c) comm with
    | some x, some e => if p.started && x.slot.isNone && !x.ended then some (c, x, e) else none
    | _, _ => none)
  match mine with
  | none => .next s
  | some (c, x, e) =>
    let busy (s : State) : State := if e.alg = 2 then s else s.updColl x (fun y => { y with slot := some false })
    if ((x.members[0]?).bind (·.far)).isSome then
      let (d, s) := s.draw
      .next (if Config.coin d then s.updColl x (fun y => { y with slot := some true }) else busy s)
    else if x.rank c != 0 then .next s
    else
      let before := (s.colls.filter (fun y => y.part < x.part && s.asksSlot y)).length
      .next (if s.slotsUsed + before < 32 then s.updColl x (fun y => { y with slot := some true }) else busy s)

/-- The part of a context whose thread is ended writes the error word of its instance's end in its stamp at once (R266, R386, R421; log
entry 91). -/
def State.cancelPart (s : State) (c : CtxId) (p : CollPart) : State :=
  match p.stamp with
  | none => s
  | some t =>
    if p.stampSent then s
    else
      let status : BitVec 8 := if p.status = 0 then 0x09 else p.status
      match s.writeStamp c p.id t status 0 (p.delivered - flitBytes (s.owing c.core p.id)) with
      | ([], s) => s
      | (es, s) =>
        match firstFault es with
        | some f => s.logError f.2 status (BitVec.ofNat 64 t.addr) (s.ctx c).part (s.vfOf (s.ctx c).part) c.core c.ctx
        | none => s

/-- Every open instance that a context contributes to ends on every contributor (R386). -/
def State.withdrawColls (s : State) (c : CtxId) : State :=
  let mine := s.colls.filter (fun x => x.near.any (fun m => m.at_ == c) && !x.gone.contains (s.ctx c).thread)
  let s := mine.foldl (fun s x => s.withdrawInstance x 0x09) s
  let parts := (s.core c.core).comms.flatMap (fun q => q.2.filter (fun p => p.ctx == c.ctx))
  let s := parts.foldl (fun s p => s.cancelPart c p) s
  s.updCore c.core (fun k => { k with comms := k.comms.map (fun q => (q.1, q.2.filter (fun p => p.ctx != c.ctx))) })

-- Triggers ------------------------------------------------------------------------------------------------------

/-- The instance that a step of an entry performs a round of: for step 0 the next one of its communicator, for a later step the one
of the chain that is open (R375, R381). -/
def State.stepInstance (s : State) (c : CtxId) (t : Trigger) : Nat :=
  let comm := t.stepDesc.extractLsb' 0 8
  let open_ := ((s.core c.core).parts comm).find? (fun p => p.ctx == c.ctx && p.steps.isSome)
  match (if t.step = 0 then none else open_) with
  | some p => p.k
  | none => Assoc.get 0 (s.ctx c).issued comm.toNat

/-- The contributors of an instance, or those that it would have (R375). -/
def State.collSize (s : State) (c : CtxId) (comm : BitVec 8) (k : Nat) : Nat :=
  match s.collOf c comm k with
  | some i => i.members.length
  | none => match s.commEntry (s.ctx c) comm with | some e => (s.contributors (s.ctx c).part e).length | none => 0

/-- The faults that a firing finds (R268, R302): the operation is then not performed. -/
def fireChecks (s : State) (c : CtxId) (t : Trigger) : List (Bool × BitVec 8) :=
  let x := s.ctx c
  match t.oper with
  | 0 => []
  | 1 => [(chanBad s x (t.w1.extractLsb' 0 8) false, 0x0F)]
  | 2 =>
    let sc := (Scope.ofCode (t.w1.extractLsb' 18 4)).getD .ctx
    let flag := t.w1.extractLsb' 13 5
    let core := if sc.rank ≤ 1 then some c.core else s.logical x.part (t.w1.extractLsb' 0 13).toNat
    [(match core with | some g => !(s.core g).owns flag | none => true, 0x0C)]
  | _ =>
    let k := s.stepInstance c t
    let n := s.collSize c (t.stepDesc.extractLsb' 0 8) k
    let declared := (s.commEntry x (t.stepDesc.extractLsb' 0 8)).isSome
    collChecks s c t.stepKind t.stepOp t.stepFmt t.stepDesc k ++
      [((declared && roundsOf t.stepKind n ≤ t.step) || (t.oper == 4 && !bit (s.part x.part).features 7), 0x02)]

/-- The lane of a copy or send. -/
def Trigger.lane (t : Trigger) : BitVec 3 := if t.oper = 0 then t.w3.extractLsb' 32 3 else t.w1.extractLsb' 8 3

/-- The chain of steps that step `step` of an entry goes on with (R375, R381): the step before it has completed. -/
def State.chainPart (s : State) (c : CtxId) (t : Trigger) : Option CollPart :=
  ((s.core c.core).parts (t.stepDesc.extractLsb' 0 8)).find? (fun p =>
    p.ctx == c.ctx && p.steps == some t.step && p.trig.isNone && t.step < p.round)

/-- Whether a fired operation finds its place now: a lane with room, room in its communicator's queue, or the step before
it completed (R268, R381). -/
def State.hasPlace (s : State) (c : CtxId) (t : Trigger) : Bool :=
  match t.oper with
  | 0 | 1 => !laneFull (s.core c.core) t.lane
  | 2 => true
  | _ =>
    if t.step = 0 then ((s.core c.core).parts (t.stepDesc.extractLsb' 0 8)).length < 8 else (s.chainPart c t).isSome

/-- A fired operation enters its lane, its queue or the posts of the arming thread (R268). -/
def State.launchOp (s : State) (c : CtxId) (n : BitVec 6) (t : Trigger) : State :=
  let k := s.core c.core
  let running (k : Core) : Core := { k with triggers := Assoc.put k.triggers n.toNat { t with st := .running } }
  let enter (op : CmdOp) : State :=
    s.updCore c.core (fun k =>
      { (running k).updLane t.lane (fun l => l ++ [.cmd (newCommand k.nextId c.ctx op none (some n))]) with nextId := k.nextId + 1 })
  match t.oper with
  | 0 => enter (.xcp t.w1 t.w2 (t.w3.extractLsb' 0 32).toNat false)
  | 1 => enter (.xsend (t.w1.extractLsb' 0 8) t.w2)
  | 2 =>
    let sc := (Scope.ofCode (t.w1.extractLsb' 18 4)).getD .ctx
    let core := if sc.rank ≤ 1 then c.core else (s.logical (s.ctx c).part (t.w1.extractLsb' 0 13).toNat).getD c.core
    let flag := t.w1.extractLsb' 13 5
    let add := t.w2.extractLsb' 0 32
    let post : Post := { id := k.nextId, core := core, flag := flag, add := add, sc := sc,
                         uid := ((s.core core).bound).getD 0, trig := some n }
    (s.updCore c.core (fun k => { running k with nextId := k.nextId + 1 })).updCtx c (fun x => { x with posts := x.posts ++ [post] })
  | _ =>
    if t.step = 0 then
      (s.enterColl c t.stepKind t.stepOp t.stepFmt t.stepDesc t.w2 t.w3 none (some 1) (some n)).updCore c.core running
    else
      match s.chainPart c t with
      | some p => (s.setPartOf c.core { p with steps := some (t.step + 1), trig := some n }).updCore c.core running
      | none => s

/-- One entry fires (R268). -/
def State.fire (s : State) (core : CoreId) (n : BitVec 6) (t : Trigger) : State :=
  let c : CtxId := { core := core, ctx := t.ctx }
  let s := if t.take then s.updCore core (fun k => k.setFlag t.watch (k.flag t.watch - t.threshold)) else s
  match ((fireChecks s c t).filter (fun e => e.1)).map (fun e => e.2.toNat) with
  | code :: r =>
    (s.updCore core (fun k => { k with triggers := Assoc.drop k.triggers n.toNat })).reportFault c
      { code := BitVec.ofNat 8 (r.foldl min code), detail := 0, addr := 0 } 0
  | [] =>
    if s.hasPlace c t then s.launchOp c n t
    else s.updCore core (fun k => { k with triggers := Assoc.put k.triggers n.toNat { t with st := .fired } })

/-- The entry numbers. -/
def entryNums : List (BitVec 6) := (List.range 64).map (BitVec.ofNat 6)

/-- Whether an armed entry is satisfied: its flag is declared and meets the threshold (R268, R327). -/
def Core.satisfied (k : Core) (t : Trigger) : Bool :=
  t.st == .armed && k.owns t.watch && !(k.flag t.watch).ult t.threshold

/-- An entry that an XCAN has named is FREE, and what it fired stops: its operation leaves its lane or its queue, and its post is never
performed (R269). -/
def State.cancelTrig (s : State) (core : CoreId) (ctx : BitVec 2) (n : BitVec 6) : State :=
  (s.updCore core (fun k => k.dropTrig n)).updCtx { core := core, ctx := ctx } (fun c =>
    { c with posts := c.posts.filter (fun p => p.trig != some n) })

/-- Every satisfied entry of a core that was armed before number `before` fires, in ascending order, each testing the value that the
one before it left, less what others take first; one that an XCAN of this cycle names fires none the less where it is satisfied, and is
then cancelled as a fired one, or else is FREE with nothing performed (R268, R269, R295, R328). -/
def State.fireAll (s : State) (core : CoreId) (before : Nat) (first : BitVec 5 → Nat) : State :=
  entryNums.foldl (fun s n =>
    match Assoc.find (s.core core).triggers n.toNat with
    | none => s
    | some t =>
      let k := s.core core
      let s := if t.id < before && k.satisfied t && t.threshold.toNat + first t.watch ≤ (k.flag t.watch).toNat then s.fire core n t else s
      if t.cancel then s.cancelTrig core t.ctx n else s) s

/-- TRIGGER_FIRE (R268, R328): what waiting WAITFs are to take goes first. -/
def execTriggerFire (core : CoreId) (s : State) : Host.Outcome State Fault Refusal :=
  .next (s.fireAll core (s.core core).nextId (s.pledged core))

/-- TRIGGER_LANE_ENTRY (R268): a fired operation that waited finds its place. -/
def execTriggerLaneEntry (core : CoreId) (entry : BitVec 6) (s : State) : Host.Outcome State Fault Refusal :=
  match Assoc.find (s.core core).triggers entry.toNat with
  | none => .next s
  | some t =>
    let c : CtxId := { core := core, ctx := t.ctx }
    .next (if t.st = .fired && s.hasPlace c t then s.launchOp c entry t else s)

/-- Whether the operation of a running entry is over. -/
def State.opOver (s : State) (core : CoreId) (n : BitVec 6) (t : Trigger) : Bool :=
  let k := s.core core
  !k.commands.any (fun c => c.trig == some n) && !(k.ctx t.ctx).posts.any (fun p => p.trig == some n) &&
    !k.comms.any (fun q => q.2.any (fun p => p.trig == some n))

/-- TRIGGER_COMPLETE (R268, R295, R296, R343): once what its thread did before arming it is performed, each enabled done flag rises by
one as a release at core scope, and the entry is FREE. -/
def execTriggerComplete (core : CoreId) (entry : BitVec 6) (s : State) : Host.Outcome State Fault Refusal :=
  match Assoc.find (s.core core).triggers entry.toNat with
  | none => .next s
  | some t =>
    let c : CtxId := { core := core, ctx := t.ctx }
    if t.st = .running && s.opOver core entry t && releaseDone (s.ctx c) t.id .core then
      let raise (s : State) (f : Option (BitVec 5)) : State :=
        match f with
        | some f => (s.leaveCover c .core (flagObj core f)).updCore core (fun k => k.raise f 1)
        | none => s
      .next ((raise (raise s t.done1) t.done2).updCore core (fun k => { k with triggers := Assoc.drop k.triggers entry.toNat }))
    else .next s

-- Cancels -------------------------------------------------------------------------------------------------------

/-- XCAN (R269, R295): a fired entry is cancelled. An armed one is named, and what becomes of it is settled where the entries of the
cycle fire, since a firing of the same cycle goes first. -/
def execXcan (n : BitVec 6) (s : State) : Host.Outcome State Fault Refusal :=
  slotOp (.xcan n) (do
    let s ← get
    match Assoc.find s.myCore.triggers n.toNat with
    | none => pure ()
    | some t =>
      require 0x0C (t.ctx == s.cur.ctx)
      if t.st == .armed then
        updCoreA (fun k => { k with triggers := Assoc.put k.triggers n.toNat { t with cancel := true } })
      else modify (fun s => s.cancelTrig s.cur.core s.cur.ctx n)) s

/-- XCAN.lane (R269, R294): what has not started, and what is being performed, has only its stamp left to write, with status 0x08. -/
def execXcanLane (lane : BitVec 3) (s : State) : Host.Outcome State Fault Refusal :=
  slotOp (.xcanLane lane) (do
    let cur := (← get).cur
    updCoreA (fun k => k.cancelLane cur.ctx lane)) s

-- Accesses of one cycle -----------------------------------------------------------------------------------------

/-- The thread accesses among some, each with the number of its load or none for a store. -/
def State.threadAccesses (s : State) (l : List Access) : List (CtxId × Option Nat) :=
  l.filterMap (fun a => match a with
    | .load c n => ((s.ctx c).loads[n]?).map (fun o => (c, some o.id))
    | .store c => some (c, none)
    | _ => none)

/-- A write-back of a context's dirty bytes that a PHASE waits for, or of all of them. -/
def State.writeBackStep (s : State) (c : CtxId) : State := s.phaseWrite c ((s.waitingPhase c).getD .sys)

/-- The place of a stamp among those of one cycle: by core, then by lane, then the sequencer's by communicator (R330). -/
def stampKey : Access → Option Nat
  | .stamp core lane => some (core.toNat * 2 ^ 9 + lane.toNat)
  | .part core comm => some (core.toNat * 2 ^ 9 + 2 ^ 8 + comm.toNat)
  | _ => none

/-- Accesses with their places, in ascending order. -/
def insertKey (a : Nat × Access) : List (Nat × Access) → List (Nat × Access)
  | [] => [a]
  | b :: r => if b.1 < a.1 then b :: insertKey a r else a :: b :: r

/-- ATOMIC_PERFORM (R184, R330, R353): accesses that are performed in one cycle. Thread accesses come first, in ascending thread number,
then write-backs, in ascending thread number, then stamps by core, and in each core by lane with the sequencer last. -/
def execAtomicPerform (arrivals : List Access) (s : State) : Host.Outcome State Fault Refusal :=
  let s := ((s.threadAccesses arrivals).foldr (insertByThread s) []).foldl (fun s a => s.performAccess a.1 a.2) s
  let backs := arrivals.filterMap (fun a => match a with | .writeBack c => some (c, ()) | _ => none)
  let s := (backs.foldr (insertByThread s) []).foldl (fun s a => s.writeBackStep a.1) s
  let stamps := arrivals.filterMap (fun a => (stampKey a).map (fun k => (k, a)))
  .next ((stamps.foldr insertKey []).foldl (fun s a =>
    match a.2 with
    | .stamp core lane => s.stampStep core lane
    | .part core comm => s.finishPart core comm
    | _ => s) s)

end Sys2Proof.Machine
end

