-- ==== Sys2Proof/Machine/System.lean ====
section
/-! DEFINITION. Accesses of the loader, the launch sequencer and the host to the memory of a partition (R122, R303, R306, R348,
R412), performed at the homes, and the entries of the error ring that their failures leave (R306, R348, R407). -/

namespace Sys2Proof.Machine

/-- A run of addresses cut at the boundaries of 64 KiB, so that each piece lies in one page. -/
def pagePieces : Nat → Nat → Nat → List (Nat × Nat)
  | 0, _, _ => []
  | fuel + 1, va, n =>
    if n = 0 then []
    else
      let m := min n (2 ^ 16 - va % 2 ^ 16)
      (va, m) :: pagePieces fuel (va + m) (n - m)

/-- The pieces of `n` bytes at an address. -/
def piecesOf (va n : Nat) : List (Nat × Nat) := pagePieces (n / 2 ^ 16 + 2) va n

/-- Where an address of a partition leads for an access that belongs to no core (R348, R354, R419): by its page tables, with
no translation cache, or to a scratchpad through its core's window. -/
def State.sysPlace (s : State) (part : BitVec 6) (va : Nat) (rd wr : Bool) : Except (BitVec 8) Place × State :=
  if vaEnd ≤ va then (.error 0x0B, s)
  else if windowBase ≤ va && va < windowEnd then
    match (s.part part).harness[(va - windowBase) / 2 ^ 24]? with
    | none => (.error 0x0C, s)
    | some g =>
      if s.enabledCore g && va % 2 ^ 24 < 0x200000 then (.ok (.mem (padBase g + va % 2 ^ 24)), s) else (.error 0x0C, s)
  else if tensorBase ≤ va then (.error 0x0C, s)
  else
    match s.walkLeaf part va rd wr with
    | (.error c, s) => (.error c, s)
    | (.ok e, s) =>
      let pa := e.pa + (va - e.va)
      if s.physFault pa then (.error 0x0B, s)
      else (.ok (if isFar pa then .far pa else .mem pa), s)

/-- One piece read at its home. -/
def State.readPiece (s : State) (part : BitVec 6) (va n : Nat) : Except (BitVec 8) (List Byte) × State :=
  match s.sysPlace part va true false with
  | (.error c, s) => (.error c, s)
  | (.ok (.mem k), s) =>
    if (List.range n).any (fun i => s.kept (k + i)) then (.error 0x09, s)
    else if (List.range n).any (fun i => s.poisoned (k + i)) then (.error 0x12, s)
    else (.ok (memReadAll s.mem k n), s)
  | (.ok (.far pa), s) =>
    let (d, s) := s.draw
    (.ok ((List.range n).map (fun i => Config.farByte (pa + i) d)), s)
  | (.ok _, s) => (.error 0x0C, s)

/-- Pieces read in order, or the first fault. -/
def State.readPieces (s : State) (part : BitVec 6) : List (Nat × Nat) → Except (BitVec 8) (List Byte) × State
  | [] => (.ok [], s)
  | p :: r =>
    match s.readPiece part p.1 p.2 with
    | (.error c, s) => (.error c, s)
    | (.ok b, s) =>
      match s.readPieces part r with
      | (.error c, s) => (.error c, s)
      | (.ok bs, s) => (.ok (b ++ bs), s)

/-- Bytes of device memory read for the module itself. -/
def State.sysRead (s : State) (part : BitVec 6) (va n : Nat) : Except (BitVec 8) (List Byte) × State :=
  s.readPieces part (piecesOf va n)

/-- The keys of some pieces for a write, or the first fault: no translation, no permission, a kept granule, or a tag that cannot be
corrected (R121, R122). Bytes of another module have none. -/
def State.writeKeys (s : State) (part : BitVec 6) : List (Nat × Nat) → Except (BitVec 8) (List (Option Nat)) × State
  | [] => (.ok [], s)
  | p :: r =>
    match s.sysPlace part p.1 false true with
    | (.error c, s) => (.error c, s)
    | (.ok pl, s) =>
      let keys : List (Option Nat) := match pl with
        | .mem k => (List.range p.2).map (fun i => some (k + i))
        | _ => List.replicate p.2 none
      if keys.any (fun k => match k with | some k => s.kept k | none => false) then (.error 0x0E, s)
      else if keys.any (fun k => match k with | some k => s.poison.contains (tagKey k) | none => false) then (.error 0x12, s)
      else
        match s.writeKeys part r with
        | (.error c, s) => (.error c, s)
        | (.ok ks, s) => (.ok (keys ++ ks), s)

/-- Bytes written to device memory at their homes for the module itself or the host (R348), all of them or none. No relay copy keeps older
bytes of them (log entry 77). -/
def State.sysWrite (s : State) (part : BitVec 6) (va : Nat) (bs : List Byte) : Option (BitVec 8) × State :=
  match s.writeKeys part (piecesOf va bs.length) with
  | (.error c, s) => (some c, s)
  | (.ok ks, s) =>
    let bm := (ks.zip bs).foldl (fun (m : ByteMap) e => match e.1 with | some k => bmPut m k e.2 | none => m) []
    (none, s.homeWrite bm)

/-- The keys of the words that a write touches, at which releases and acquires meet. -/
def State.wordKeys (s : State) (part : BitVec 6) (va n : Nat) : List Nat :=
  match (s.writeKeys part (piecesOf va n)).1 with
  | .ok ks => ((ks.filterMap (fun k => k)).map wordObj).dedup
  | .error _ => []

/-- A write of the launch sequencer, a release at system scope of what some threads had seen when they ended (R306, R412); its failure
is logged as R306 states and changes nothing else. -/
def State.sequencerWrite (s : State) (part : BitVec 6) (vf : BitVec 10) (va : Nat) (bs : List Byte) (from_ : List CtxId) : State :=
  match s.sysWrite part va bs with
  | (none, s) =>
    (s.wordKeys part va bs.length).foldl (fun s k => from_.foldl (fun s c => s.addCover c .sys k (s.coverOf c)) s) s
  | (some c, s) => s.logError c 0 (BitVec.ofNat 64 va) part vf 0x7FF 0

/-- The partition that a virtual function is configured for (R405). -/
def VDev.part (d : VDev) : BitVec 6 := d.cfg.extractLsb' 0 6

/-- Whether an address lies in a core window but in none of its parts, or in a part that the host does not reach (R419; log
entry 23). -/
def hostMisses (va : Nat) : Bool := windowBase ≤ va && va < windowEnd && 0x200000 ≤ va % 2 ^ 24

/-- HOST_MEMORY_ACCESS (R122, R348, R419): a read leaves only the accessed bits of the walk; a write that does not translate
or is denied is discarded and logged, one that meets a kept granule is discarded, and one that meets an uncorrectable tag is logged as a fault
that finds no context (R121, R407). -/
def execHostMemoryAccess (vf : BitVec 10) (a : HostAccess) (s : State) : Host.Outcome State Fault Refusal :=
  let p := (s.vdev vf.toNat).part
  match a with
  | .read addr len => .next (s.sysRead p addr len).2
  | .write addr bytes =>
    if hostMisses addr then .next s
    else
      match s.sysWrite p addr bytes with
      | (some c, s) =>
        .next (if c = 0x0B || c = 0x0C || c = 0x12 then s.logError c 0 (BitVec.ofNat 64 addr) p vf 0x7FF 0 else s)
      | (none, s) => .next s

end Sys2Proof.Machine
end

