-- ==== Sys2Proof/Machine/Loader.lean ====
section
/-! DEFINITION. The Trifin code object and the loader (R97, R133, R299 to R304, R311, R370, R374): the layout of an object, the
checks of its processing in their order, the selection of an image, and the writing of its data records. -/

namespace Sys2Proof.Machine

-- The header and the section table ------------------------------------------------------------------------------

/-- The header's fields that are used (R299). -/
structure TrifinHeader where
  sections : Nat
  size : Nat
  mmr : Nat
  reader : Nat
  bound : Nat
  symm : Nat
  entry : Nat
  image : Nat
  chan : Nat
  comm : Nat
  data : Nat
  deriving DecidableEq, Repr

/-- A header of 64 bytes, where it keeps to R299. -/
def trifinHeader (b : List Byte) : Option TrifinHeader :=
  let g := fieldNat b
  if b.length == 64 && g 0 4 == 0x31465254 && g 4 2 == 1 && 1 ≤ g 6 2 && g 6 2 ≤ 64 && g 14 2 == 0 && g 32 32 == 0 &&
      1 ≤ g 16 4 && g 16 4 ≤ 50000 then
    some { sections := g 6 2, size := g 8 4, mmr := g 12 1, reader := g 13 1, bound := g 16 4, symm := g 20 2,
           entry := g 22 2, image := g 24 2, chan := g 26 2, comm := g 28 2, data := g 30 2 }
  else none

/-- A section-table entry (R300). -/
structure SectionEntry where
  kind : Nat
  packed : Bool
  dict : Nat
  off : Nat
  size : Nat
  bound : Nat
  deriving DecidableEq, Repr

/-- The entry of 32 bytes, where it keeps to R300 by itself. -/
def sectionEntry (objSize : Nat) (b : List Byte) : Option SectionEntry :=
  let g := fieldNat b
  let packed := g 1 1 % 2 == 1
  let e : SectionEntry := { kind := g 0 1, packed := packed, dict := g 2 2, off := g 8 4, size := g 12 4, bound := g 16 4 }
  if 1 ≤ e.kind && e.kind ≤ 0x0B && g 1 1 < 2 && g 4 4 == 0 && g 20 12 == 0 && e.off % 64 == 0 &&
      e.off + e.size ≤ objSize && (if packed then e.kind != 0x0A && 1 ≤ e.bound else e.bound == e.size && e.dict == 0xFFFF) then some e
  else none

/-- The section table from its bytes. -/
def sectionTable (h : TrifinHeader) (b : List Byte) : Option (List SectionEntry) :=
  (List.range h.sections).mapM (fun i => sectionEntry h.size ((b.drop (32 * i)).take 32))

/-- Whether two sections overlap. -/
def SectionEntry.meets (a b : SectionEntry) : Bool := 0 < a.size && 0 < b.size && a.off < b.off + b.size && b.off < a.off + a.size
def anyOverlap : List SectionEntry → Bool
  | [] => false
  | e :: r => r.any e.meets || anyOverlap r

/-- Whether an index names a section of a type; 0xFFFF is allowed where the section is optional. -/
def namesKind (t : List SectionEntry) (opt : Bool) (i kind : Nat) : Bool :=
  (opt && i == 0xFFFF) || (match t[i]? with | some e => e.kind == kind | none => false)

/-- The section table's own checks and those of the header's indices (R300). -/
def tableOk (h : TrifinHeader) (t : List SectionEntry) : Bool :=
  !anyOverlap t && t.all (fun e => !e.packed || namesKind t true e.dict 0x0A) &&
    namesKind t true h.data 9 && namesKind t true h.comm 6 && namesKind t true h.chan 5 && namesKind t true h.symm 7 &&
    namesKind t false h.image 1 && namesKind t false h.entry 8

-- Contents ------------------------------------------------------------------------------------------------------

/-- Fixed-size records of a section. -/
def recordsOf (n : Nat) (b : List Byte) : List (List Byte) :=
  (List.range (b.length / n)).map (fun i => (b.drop (n * i)).take n)

/-- 16-bit tokens of some bytes. -/
def tokensOf (b : List Byte) : List (BitVec 16) := (recordsOf 2 b).map (fun r => BitVec.ofNat 16 (bytesNat r))

/-- An image entry (R301). -/
structure ImageEntry where
  pyrino : Bool
  rev : Nat
  features : BitVec 32
  code : Nat
  token : Nat
  first : Nat
  count : Nat
  deriving DecidableEq, Repr

/-- A slice section's content (R39, R283, R300). -/
def sliceOf (b : List Byte) : Option Slice :=
  if 8 ≤ b.length && b.length % 2 == 0 && fieldNat b 4 4 == 0 then
    some { from_ := BitVec.ofNat 16 (fieldNat b 0 2), to_ := BitVec.ofNat 16 (fieldNat b 2 2), tokens := tokensOf (b.drop 8) }
  else none

def Slice.meets (a b : Slice) : Bool :=
  a.from_.toNat < b.to_.toNat && b.from_.toNat < a.to_.toNat && a.from_.toNat < a.to_.toNat && b.from_.toNat < b.to_.toNat
def slicesMeet : List Slice → Bool
  | [] => false
  | e :: r => r.any e.meets || slicesMeet r

/-- An image entry of 16 bytes, where it keeps to R301 by itself. -/
def imageEntry (t : List SectionEntry) (b : List Byte) : Option ImageEntry :=
  let g := fieldNat b
  let e : ImageEntry := { pyrino := g 0 1 == 1, rev := g 1 1, features := BitVec.ofNat 32 (g 4 4), code := g 8 2,
                          token := g 10 2, first := g 12 2, count := g 14 2 }
  if g 0 1 ≤ 1 && g 2 2 == 0 && e.count ≤ 255 && (if e.pyrino then e.rev == 0 else 1 ≤ e.rev) &&
      (if e.pyrino then e.token == 0xFFFF && namesKind t false e.code 0x0B
       else namesKind t false e.token 3 && namesKind t false e.code 2) &&
      (if e.count = 0 then e.first == 0xFFFF
       else (List.range e.count).all (fun i => namesKind t false (e.first + i) 4)) then some e
  else none

/-- A channel-table entry of 32 bytes, where it keeps to R370. -/
def chanOf (b : List Byte) : Option ChanEntry :=
  let g := fieldNat b
  match Fmt.ofCode (BitVec.ofNat 4 (g 3 1)) with
  | none => none
  | some f =>
    let receive := g 2 1 % 2 == 1
    let mode := BitVec.ofNat 2 (g 2 1 / 2)
    let e : ChanEntry := { peerModule := BitVec.ofNat 16 (g 18 2), vc := BitVec.ofNat 3 (g 17 1), comm := BitVec.ofNat 8 (g 16 1),
                           base := g 12 4, slots := g 10 2, flag := BitVec.ofNat 5 (g 9 1), depth := g 8 1, cols := g 6 2,
                           rows := g 4 2, fmt := f, receive := receive, mode := mode, peer := BitVec.ofNat 13 (g 0 2) }
    let bits := e.rows * e.cols * f.bits
    let ok := g 20 12 == 0 && g 17 1 < 8 && g 9 1 < 32 && g 3 1 < 15 && f != .o4 && g 2 1 < 8 && g 0 2 < 2 ^ 13 &&
      1 ≤ e.depth && e.depth ≤ 16 && 1 ≤ e.cols && e.cols ≤ 4096 && 1 ≤ e.rows && e.rows ≤ 4096 &&
      bits % 512 == 0 && bits ≤ 8 * 65536 && (mode == 0 || f == .f32 || f == .bf16 || f == .f16 || f.isInt) &&
      (if receive then e.base % 128 == 0 && e.base < 2 ^ 21 && 1 ≤ e.slots && e.slots ≤ 16 && e.base + e.slots * e.slotBytes ≤ 2 ^ 21
       else e.base == 0 && e.slots == 0)
    if ok then some e else none

/-- A communicator template of 8 bytes, where it keeps to R374. -/
def commOf (b : List Byte) : Option CommEntry :=
  let g := fieldNat b
  let c := BitVec.ofNat 8 (g 2 1)
  if g 4 4 == 0 && 8 ≤ g 3 1 && g 3 1 ≤ 16 && g 1 1 < 64 && g 0 1 < 255 && c.extractLsb' 6 2 != 3 then
    some { num := BitVec.ofNat 8 (g 0 1), group := BitVec.ofNat 6 (g 1 1), prio := c.extractLsb' 0 2, vc := c.extractLsb' 2 3,
           desc := bit c 5, alg := c.extractLsb' 6 2, chunk := g 3 1 }
  else none

/-- Two templates with one number or one virtual channel (R374). -/
def commsClash : List CommEntry → Bool
  | [] => false
  | e :: r => r.any (fun x => x.num == e.num || x.vc == e.vc) || commsClash r

/-- Whether a generator word breaks R311 by itself. -/
def genBad (g : BitVec 32) : Bool :=
  match genKind g with
  | 0 => g != 0
  | 1 => genS g != 0
  | 2 => genD2 g != 0 || genS g != 0
  | 3 => genD2 g != 0 || genS g == 0
  | _ => true

/-- The symmetry section, where it keeps to R311. -/
def symmOf (b : List Byte) : Option Symmetry :=
  let g := fieldNat b
  let y : Symmetry := { gen0 := BitVec.ofNat 32 (g 0 4), gen1 := BitVec.ofNat 32 (g 4 4),
                        block := [g 8 2 + 1, g 10 2 + 1, g 12 2 + 1] }
  if b.length == 16 && g 14 2 == 0 && !genBad y.gen0 && !genBad y.gen1 then some y else none

/-- An entry record of 8 bytes (R300); none where a reserved bit is not zero. -/
def entryOf (b : List Byte) : Option Entry :=
  let g := fieldNat b
  if g 2 1 < 16 && g 3 1 < 2 && g 4 4 == 0 then
    some { off := BitVec.ofNat 16 (g 0 2), mask := BitVec.ofNat 4 (g 2 1), mat := g 3 1 == 1 }
  else none

/-- The data records of a section; none where one is cut short. -/
def dataRecords : Nat → List Byte → Option (List (Nat × List Byte))
  | 0, b => if b.isEmpty then some [] else none
  | fuel + 1, b =>
    if b.isEmpty then some []
    else
      let n := fieldNat b 8 4
      let whole := (12 + n + 7) / 8 * 8
      if b.length < 12 || b.length < whole then none
      else (dataRecords fuel (b.drop whole)).map (fun r => (fieldNat b 0 8, (b.drop 12).take n) :: r)

/-- The parsed tables of an object. `content` gives a section's bytes where they are known: before the expansion those of
compressed sections are not, and count as empty tables. -/
structure Tables where
  images : List ImageEntry
  chans : List ChanEntry
  comms : List CommEntry
  symm : Option Symmetry
  data : List (Nat × List Byte)
  deriving DecidableEq, Repr

/-- Optional content of a section. -/
def optSection (content : Nat → Option (List Byte)) (i : Nat) : Option (List Byte) := if i = 0xFFFF then none else content i

/-- The tables of an object, where they keep to R300, R301, R311, R370 and R374. -/
def tablesOf (h : TrifinHeader) (t : List SectionEntry) (content : Nat → Option (List Byte)) : Option Tables := do
  let rows (i n : Nat) : Option (List (List Byte)) :=
    match optSection content i with
    | none => some []
    | some b => if b.length % n = 0 then some (recordsOf n b) else none
  let images ← (← rows h.image 16).mapM (imageEntry t)
  let chans ← (← rows h.chan 32).mapM chanOf
  let comms ← (← rows h.comm 8).mapM commOf
  let symm ← match optSection content h.symm with
    | none => some none
    | some b => (symmOf b).map some
  let data ← match optSection content h.data with
    | none => some []
    | some b => dataRecords (b.length / 8 + 1) b
  let slices (e : ImageEntry) : Option (List Slice) :=
    ((List.range e.count).filterMap (fun i => content (e.first + i))).mapM sliceOf
  let tokensOk := (t.zipIdx).all (fun (e : SectionEntry × Nat) =>
    e.1.kind != 3 || (match content e.2 with | some b => b.length % 2 == 0 && b.length ≤ 131072 | none => true))
  let sets ← images.mapM slices
  if (images.filter (·.pyrino)).length ≤ 1 && chans.length ≤ 256 && !commsClash comms && tokensOk && !sets.any slicesMeet then
    some { images := images, chans := chans, comms := comms, symm := symm, data := data }
  else none

-- Images --------------------------------------------------------------------------------------------------------

/-- Whether an image matches (R302, R304): its revision is not above 1, and every feature it requires is present and
enabled. -/
def ImageEntry.fits (e : ImageEntry) (enabled : BitVec 8) : Bool :=
  e.rev ≤ 1 && (e.features &&& ~~~(enabled.setWidth 32)) == 0

def featureCount (f : BitVec 32) : Nat := ((List.range 32).filter (fun i => bit f i)).length

/-- The better of two matching native images, the first being of the lower index (R304). -/
def betterImage (a b : ImageEntry) : ImageEntry :=
  if a.rev < b.rev || (a.rev == b.rev && featureCount b.features < featureCount a.features) then b else a

/-- The image that the loader selects, before the translator's own check (R304). -/
def selectImage (l : List ImageEntry) (enabled : BitVec 8) : Option ImageEntry :=
  match l.filter (fun e => !e.pyrino && e.fits enabled) with
  | e :: r => some (r.foldl betterImage e)
  | [] => (l.filter (fun e => e.pyrino && e.fits enabled)).head?

/-- The bundles of a Pyrino section, where the translator does not refuse it (R97). -/
def pyrinoBundles (b : List Byte) : Option (List (BitVec 256)) :=
  if b.length % 32 != 0 then none
  else (recordsOf 32 b).mapM (fun r =>
    let w := BitVec.ofNat 256 (bytesNat r)
    match pyrinoOps w with
    | .ok _ => some w
    | .error _ => none)

/-- The entries of a dictionary section, where it passes step 8 (R75, R303). -/
def dictEntries (b : List Byte) : Option (List (BitVec 384)) :=
  let es := (recordsOf 48 b).map (fun r => BitVec.ofNat 384 (bytesNat r))
  if b.length % 48 == 0 && es.length ≤ 2048 && es.all entryPaddingZero then some es else none

/-- Whether step 9 passes (R303). -/
def entriesOk (l : List Entry) : Bool :=
  !l.isEmpty && l.length ≤ 4 && l.all (fun e => e.mask != 0) && (l.filter (·.mat)).length ≤ 1 &&
    (l.foldl (fun (a : Bool × BitVec 4) e => (a.1 && (a.2 &&& e.mask) == 0, a.2 ||| e.mask)) (true, 0)).1

/-- A code object whose processing failed. The symmetry of its kernel, where its tables could be read, stays known: the points of a launch
are counted by it (R306). Its own number it takes when it is kept. -/
def Code.failed (symm : Option Symmetry) (status : BitVec 8) : Code :=
  { uid := 0, status := status, tokens := [], bundles := [], dict := [], slices := [], entries := [], flags := 0, chans := [],
    comms := [], symm := symm, bound := 0, mmr := 0, pyrino := false, data := [], dataWritten := false }

/-- Steps 4 to 9 (R303), once the tables and every section's content are known. -/
def finishCode (h : TrifinHeader) (x : Tables) (enabled : BitVec 8) (opBound : Nat) (object : List Byte)
    (content : Nat → Option (List Byte)) : Code :=
  if h.reader != 1 then Code.failed x.symm 0x06
  else if h.mmr != 1 && h.mmr != 2 then Code.failed x.symm 0x07
  else if opBound < h.bound then Code.failed x.symm 0x09
  else
    match selectImage x.images enabled with
    | none => Code.failed x.symm 0x05
    | some e =>
      let body := (content e.code).getD []
      let parts : Except (BitVec 8) (List (BitVec 256) × List (BitVec 384)) :=
        if e.pyrino then (match pyrinoBundles body with | some b => .ok (b, []) | none => .error 0x05)
        else (match dictEntries body with | some d => .ok ([], d) | none => .error 0x08)
      match parts with
      | .error st => Code.failed x.symm st
      | .ok (bundles, dict) =>
        let eb := (content h.entry).getD []
        match (recordsOf 8 eb).mapM entryOf with
        | none => Code.failed x.symm 0x0C
        | some es =>
          if eb.length % 8 != 0 || !entriesOk es then Code.failed x.symm 0x0C
          else
            { uid := 0, status := 0, tokens := if e.pyrino then [] else tokensOf ((content e.token).getD []), bundles := bundles,
              dict := dict, slices := ((List.range e.count).filterMap (fun i => (content (e.first + i)).bind sliceOf)),
              entries := es, flags := Config.declaredFlags object, chans := x.chans, comms := x.comms, symm := x.symm,
              bound := h.bound, mmr := BitVec.ofNat 8 h.mmr, pyrino := e.pyrino, data := x.data, dataWritten := false }

/-- The content of a section as it is stored. -/
def storedSection (object : List Byte) (e : SectionEntry) : List Byte := (object.drop e.off).take e.size

/-- Step 3 (R303): a section's expanded content, or the status of its failure. -/
def expandSection (object : List Byte) (t : List SectionEntry) (e : SectionEntry) : Except (BitVec 8) (List Byte) :=
  if !e.packed then .ok (storedSection object e)
  else
    let dict := (t[e.dict]?).map (storedSection object)
    let r := inflate dict e.bound true (storedSection object e)
    match r.fin with
    | .ok => .ok r.out
    | .err st => .error (if st = 0x05 then 0x03 else 0x04)
    | .short => .error 0x04

/-- Steps 1 to 9 of the loader on the bytes of an object (R303). -/
def processObject (enabled : BitVec 8) (opBound : Nat) (object : List Byte) : Code :=
  match trifinHeader (object.take 64) with
  | none => Code.failed none 0x01
  | some h =>
    match sectionTable h (object.drop 64) with
    | none => Code.failed none 0x02
    | some t =>
      let plain (i : Nat) : Option (List Byte) := (t[i]?).bind (fun e => if e.packed then none else some (storedSection object e))
      if !tableOk h t || object.length < h.size || h.size < 64 + 32 * h.sections || (tablesOf h t plain).isNone then Code.failed none 0x02
      else
        match t.mapM (expandSection object t) with
        | .error st => Code.failed ((tablesOf h t plain).bind (·.symm)) st
        | .ok contents =>
          match tablesOf h t (fun i => contents[i]?) with
          | none => Code.failed none 0x02
          | some x => finishCode h x enabled opBound object (fun i => contents[i]?)

-- Loading -------------------------------------------------------------------------------------------------------

/-- The bytes of the object at an address: its header, then as many as it says; what cannot be read is missing (log entry
24). -/
def State.readObject (s : State) (part : BitVec 6) (addr : Nat) : List Byte × State :=
  match s.sysRead part addr 64 with
  | (.error _, s) => ([], s)
  | (.ok hb, s) =>
    let n := fieldNat hb 8 4
    if n ≤ 64 then (hb, s)
    else
      match s.sysRead part (addr + 64) (n - 64) with
      | (.error _, s) => (hb, s)
      | (.ok r, s) => (hb ++ r, s)

/-- Steps 1 to 9 for the object at an address, once (R303, R308). -/
def State.loadCode (s : State) (part : BitVec 6) (addr : Nat) : State :=
  match Assoc.find (s.part part).codes addr with
  | some _ => s
  | none =>
    let (b, s) := s.readObject part addr
    let p := s.part part
    let code : Code := { processObject p.features p.opBound b with uid := s.nextUid }
    ({ s with nextUid := s.nextUid + 1 } : State).setPart part { p with codes := Assoc.put p.codes addr code }

/-- Step 10 (R303): the data records in section order, up to one that cannot be written. -/
def State.writeData (s : State) (part : BitVec 6) : List (Nat × List Byte) → Bool × State
  | [] => (true, s)
  | (a, b) :: r =>
    match s.sysWrite part a b with
    | (some _, s) => (false, s)
    | (none, s) => s.writeData part r

/-- Step 10 for a loaded object, once; a failure leaves the object unloaded with status 0x11 (R303). -/
def State.loadData (s : State) (part : BitVec 6) (addr : Nat) : State :=
  match Assoc.find (s.part part).codes addr with
  | none => s
  | some c =>
    if c.status != 0 || c.dataWritten then s
    else
      let (ok, s) := s.writeData part c.data
      s.updPart part (fun p => { p with codes := Assoc.put p.codes addr (if ok then { c with dataWritten := true } else Code.failed c.symm 0x11) })

end Sys2Proof.Machine
end

