-- ==== Sys2Proof/Machine/Digest.lean ====
section
/-! DEFINITION. SHA-512 (R414, R416), as FIPS 180-4 defines the function that the manual names (PRESUMED: log entry 9). -/

namespace Sys2Proof.Machine

/-- The greatest number below `2 ^ b` more than `x`, in steps of powers of two, whose `k`-th power is no more than `n`. -/
def rootFrom (k n : Nat) : Nat → Nat → Nat
  | 0, x => x
  | b + 1, x => rootFrom k n b (if (x + 2 ^ b) ^ k ≤ n then x + 2 ^ b else x)

/-- The primes below 410, which are eighty. -/
def shaPrimes : List Nat := (List.range 410).filter (fun n => 2 ≤ n && (List.range n).all (fun d => d < 2 || n % d != 0))

/-- The first 64 bits of the fractions of the `k`-th roots of the first `m` primes. -/
def rootFractions (k m : Nat) : List Word :=
  (shaPrimes.take m).map (fun p => BitVec.ofNat 64 (rootFrom k (p * 2 ^ (64 * k)) 70 0))

/-- A word turned right by each of some amounts, all combined by exclusive or. -/
def turned (x : Word) (n : List Nat) : Word := n.foldl (fun y r => y ^^^ x.rotateRight r) 0

/-- The words of a block's schedule, the newest first, until there are `n` more than the block gives. -/
def schedule : Nat → List Word → List Word
  | 0, w => w
  | n + 1, w =>
    let old (i : Nat) : Word := (w[i - 1]?).getD 0
    let near := turned (old 2) [19, 61] ^^^ (old 2 >>> 6)
    let far := turned (old 15) [1, 8] ^^^ (old 15 >>> 7)
    schedule n ((near + old 7 + far + old 16) :: w)

/-- One round on the eight words of the hash, with the sum of its constant and its schedule word. -/
def shaRound : List Word → Word → List Word
  | [a, b, c, d, e, f, g, h], x =>
    let chosen := g ^^^ (e &&& (f ^^^ g))
    let most := (a &&& b) ||| (c &&& (a ||| b))
    let y := h + turned e [14, 18, 41] + chosen + x
    [y + turned a [28, 34, 39] + most, a, b, c, d + y, e, f, g]
  | v, _ => v

/-- Bytes in words, the first byte highest. -/
def bigWords (b : List Byte) : List Word := (recordsOf 8 b).map (fun r => BitVec.ofNat 64 (bytesNat r.reverse))

/-- A number in bytes, the highest first. -/
def bigBytes (n v : Nat) : List Byte := (natBytes n v).reverse

/-- One block of 128 bytes, after which each word of the hash has what the rounds made of it added. -/
def shaBlock (v : List Word) (b : List Byte) : List Word :=
  let inputs := ((schedule 64 (bigWords b).reverse).reverse.zip (rootFractions 3 80)).map (fun p => p.1 + p.2)
  (v.zip (inputs.foldl shaRound v)).map (fun p => p.1 + p.2)

/-- A message filled up to whole blocks, its length in bits at the end. -/
def shaPadded (m : List Byte) : List Byte :=
  m ++ [0x80] ++ List.replicate ((239 - m.length % 128) % 128) 0 ++ bigBytes 16 (8 * m.length)

/-- SHA-512: the hash begins with the fractions of the square roots of the first eight primes. -/
def sha512 (m : List Byte) : BitVec 512 :=
  let v := (recordsOf 128 (shaPadded m)).foldl shaBlock (rootFractions 2 8)
  v.foldl (fun n x => BitVec.ofNat 512 (n.toNat * 2 ^ 64 + x.toNat)) 0

end Sys2Proof.Machine
end

