-- ==== Sys2Proof/Machine/Launch.lean ====
section
/-! DEFINITION. Graphs, launches and the walker (R25, R26, R303 to R310, R314, R371, R410 to R412), the virtual-device
scheduler (R405, R406), and the end of an operator (R277, R309, R386). A launch is named by its number in the model. -/

namespace Sys2Proof.Machine

-- Graphs --------------------------------------------------------------------------------------------------------

/-- The graph that a partition works on: the head of the queue of the device whose time slice it is. -/
def State.graphOf (s : State) (part : BitVec 6) : Option Graph :=
  (s.part part).running.bind (fun v => (s.vdev v).graphs.head?)

/-- The graph in progress, changed. -/
def State.updGraph (s : State) (part : BitVec 6) (f : Graph → Graph) : State :=
  match (s.part part).running with
  | some v => s.updVdev v (fun d => { d with graphs := modAt d.graphs 0 f })
  | none => s

/-- A launch of the graph in progress. -/
def State.launchBy (s : State) (part : BitVec 6) (uid : Nat) : Option Launch :=
  (s.graphOf part).bind (fun g => g.launches.find? (fun l => l.uid == uid))
def State.updLaunchBy (s : State) (part : BitVec 6) (uid : Nat) (f : Launch → Launch) : State :=
  s.updGraph part (fun g => { g with launches := modFirst g.launches (fun l => l.uid == uid) f })

/-- Whether a launch has ended. -/
def LState.over : LState → Bool
  | .complete | .ended => true
  | _ => false

/-- A launch record as it is fetched (R305). -/
def launchOfRecord (uid : Nat) (b : List Byte) : Launch :=
  let g := fieldNat b
  { uid := uid, st := .pending, status := 0, bytes := b, code := g 0 8, completion := g 8 8,
    extents := [g 16 3 + 1, g 19 3 + 1, g 22 3 + 1], rank := g 25 1, prio := BitVec.ofNat 2 (g 26 1), first := g 28 2,
    count := g 30 2, preds := if b.length = 64 then [g 32 2, g 34 2].filter (· != 0xFFFF) else [], elems := [], blocks := [1, 1, 1], nextPoint := 0,
    returned := [], drawnCount := 0 }

/-- Whether a record breaks R305 in a graph of `n` records and a partition of `cores` cores. -/
def Launch.recordBad (l : Launch) (n cores : Nat) : Bool :=
  let g := fieldNat l.bytes
  let ext (d : Nat) : Nat := g (16 + 3 * d) 3
  l.bytes.length != 64 || g 36 28 != 0 || g 27 1 != 0 || 4 ≤ g 26 1 || l.rank == 0 || 3 < l.rank ||
    (l.rank < 3 && ext 2 != 0) || (l.rank < 2 && ext 1 != 0) || l.completion % 16 != 0 || vaEnd ≤ l.code || l.count == 0 || 1536 < l.count || 1535 < l.first || cores < l.first + l.count || l.preds.any (n ≤ ·)

/-- The launch records of a graph; one that cannot be read is empty and breaks R305 (log entry 24). -/
def State.fetchLaunches (s : State) (part : BitVec 6) (base : Nat) : List Nat → List Launch × State
  | [] => ([], s)
  | i :: r =>
    let (b, s) := s.sysRead part (base + 64 * i) 64
    let uid := s.nextUid
    let s : State := { s with nextUid := uid + 1 }
    let l := launchOfRecord uid (match b with | .ok b => b | .error _ => [])
    let (ls, s) := s.fetchLaunches part base r
    (l :: ls, s)

/-- Whether a graph descriptor keeps to R412. -/
def descriptorOk (b : List Byte) : Bool :=
  let g := fieldNat b
  b.length == 64 && g 24 32 == 0 && g 56 8 == 0 && g 12 4 == 0 && 1 ≤ g 8 4 && g 8 4 ≤ 65535 && g 0 8 % 64 == 0 && g 0 8 < vaEnd &&
    g 16 8 % 8 == 0 && g 16 8 < vaEnd

/-- The cores of a launch, in logical order (R305). -/
def State.coresOf (s : State) (part : BitVec 6) (l : Launch) : List (Nat × CoreId) :=
  (List.range l.count).filterMap (fun i => (s.logical part (l.first + i)).map (fun g => (l.first + i, g)))

/-- The contexts that a launch with a status had bound: none, where the status says that it never came to run. -/
def State.threadsOf (s : State) (part : BitVec 6) (l : Launch) (status : BitVec 8) : List CtxId :=
  let masked (n : BitVec 2) : Bool :=
    match Assoc.find (s.part part).codes l.code with
    | some c => c.entries.any (fun e => bit e.mask n.toNat)
    | none => false
  if status = 0 || status = 0x0D || status = 0x0E then
    (s.coresOf part l).flatMap (fun g => (ctxNums.filter masked).map (fun n => ({ core := g.2, ctx := n } : CtxId)))
  else []

/-- The status and the index of a finished graph (R412). -/
def Graph.outcome (g : Graph) : BitVec 8 × Nat :=
  if g.status != 0 then (g.status, 0xFFFF)
  else
    let bad := g.launches.zipIdx.filter (fun l => l.1.status != 0)
    match bad.find? (fun l => l.1.status != 0x0F) with
    | some l => (l.1.status, l.2)
    | none => match bad with | l :: _ => (l.1.status, l.2) | [] => (0, 0xFFFF)

/-- The head graph of a device leaves its queue (R410, R412). -/
def VDev.finish (d : VDev) (status : BitVec 8) : VDev :=
  { d with graphs := d.graphs.drop 1, completed := d.completed + 1, lastStatus := status, msix := d.msix + 1 }

/-- A graph whose launches have all ended finishes: its completion word is written where its address is valid, then GSTAT and
the interrupt follow (R412). -/
def State.finishGraph (s : State) (part : BitVec 6) : State :=
  match (s.part part).running, s.graphOf part with
  | some v, some g =>
    if g.fetched && g.launches.all (fun l => l.st.over) then
      let (st, i) := g.outcome
      let w : Word := (0 : BitVec 40) ++ BitVec.ofNat 16 i ++ st
      let s := if g.completion % 8 = 0 && g.completion < vaEnd then
          s.sequencerWrite part (BitVec.ofNat 10 v) g.completion (wordBytes w) (g.launches.flatMap (fun l => s.threadsOf part l l.status))
        else s
      s.updVdev v (fun d => d.finish st)
    else s
  | _, _ => s

/-- The sequencer fetches the head graph of the device whose time slice it is (R25, R412); one whose descriptor is bad
finishes at once, and the next is fetched. -/
def State.fetchGraph (s : State) (part : BitVec 6) : Nat → State
  | 0 => s
  | fuel + 1 =>
    match s.graphOf part with
    | none => s
    | some g =>
      if g.fetched then s
      else
        match s.sysRead part g.addr 64 with
        | (.error _, s) =>
          ((s.updGraph part (fun g => { g with fetched := true, completion := 1, status := 0x10 })).finishGraph part).fetchGraph part fuel
        | (.ok b, s) =>
          if descriptorOk b then
            let (ls, s) := s.fetchLaunches part (fieldNat b 0 8) (List.range (fieldNat b 8 4))
            s.updGraph part (fun g => { g with fetched := true, completion := fieldNat b 16 8, launches := ls })
          else
            ((s.updGraph part (fun g => { g with fetched := true, completion := fieldNat b 16 8, status := 0x10 })).finishGraph part).fetchGraph part fuel

-- The end of a launch -------------------------------------------------------------------------------------------

/-- Every operation and claim of some threads outside their contexts ends, and the contexts become FREE: first their commands and trigger
entries are cancelled, then their channels are withdrawn and their instances end (R277, R298, R386, R408). -/
def State.endAll (s : State) (l : List CtxId) : State :=
  let s := l.foldl State.cancelCommands s
  let s := l.foldl (fun s c => (s.withdrawAll c).withdrawColls c) s
  (l.foldl State.freeCtx s).closeColls

/-- One thread ends. -/
def State.endThread (s : State) (c : CtxId) : State := s.endAll [c]

/-- The contexts bound to a launch end. -/
def State.endThreads (s : State) (uid : Nat) : State := s.endAll (s.launchCtxs uid)

/-- The flags of a launch that is over become UNOWNED (R327), and its cores without a context of it are free for the next. -/
def State.releaseCores (s : State) (uid : Nat) : State :=
  let bound := !(s.launchCtxs uid).isEmpty
  { s with left := s.left.filter (fun l => l.uid != uid || bound)
           cores := s.cores.map (fun e =>
      if e.2.bound = some uid then
        let held := e.2.ctxs.toList.any (fun c => c.launch == some uid)
        (e.1, { e.2 with flagsOwned := 0, points := [], bound := if held then some uid else none })
      else e) }

/-- The code object of a launch, processed but not kept where the loader has not kept it yet. -/
def State.codeFor (s : State) (part : BitVec 6) (l : Launch) : Code :=
  match Assoc.find (s.part part).codes l.code with
  | some c => c
  | none => processObject (s.part part).features (s.part part).opBound (s.readObject part l.code).1

/-- Whether the sequencer rejects a launch at BINDING (R302, R314). -/
def rejectsSymmetry (features : BitVec 8) (l : Launch) (c : Code) : Bool :=
  match c.symm with
  | none => false
  | some y => !bit features 5 || symmetryBad l.rank l.extents y

/-- A launch with the element list of its kernel (R313). -/
def Launch.withSymmetry (l : Launch) (c : Code) : Launch :=
  match c.symm with
  | none => l
  | some y => { l with elems := elementList l.extents y, blocks := y.block }

/-- How many points the walker of a launch hands out (R306, R310, R315). -/
def State.walkerPoints (s : State) (part : BitVec 6) (l : Launch) : Nat :=
  match (s.codeFor part l).symm with
  | none => l.points
  | some y =>
    if symmetryBad l.rank l.extents y then l.points
    else ({ l with elems := elementList l.extents y, blocks := y.block } : Launch).representatives l.points

/-- The unserved points of a launch that ends (R306). -/
def State.unservedAt (s : State) (part : BitVec 6) (l : Launch) (status : BitVec 8) : Nat :=
  if status = 0x0A then 0
  else
    match l.st with
    | .running => s.walkerPoints part l - l.drawnCount
    | _ => s.walkerPoints part l

/-- A completion record (R306). -/
def completionRecord (status : BitVec 8) (unserved elapsed : Nat) : List Byte :=
  natBytes 8 status.toNat ++ natBytes 4 (min unserved (2 ^ 32 - 1)) ++ natBytes 4 (min elapsed (2 ^ 32 - 1))

/-- A launch that ends while contexts of it stay bound is kept for their STIs (R309, R316). -/
def State.keepLaunch (s : State) (l : Launch) : State :=
  if (s.launchCtxs l.uid).isEmpty then s else { s with left := s.left ++ [l] }

/-- One launch leaves the states of R307 with a status, and its record is written (R306), at its address as it stands: a launch record
that cannot be read has the address 0 (log entry 92). -/
def State.closeLaunch (s : State) (part : BitVec 6) (l : Launch) (status : BitVec 8) : State :=
  let (d, s) := s.draw
  let elapsed := match l.st with | .pending => 0 | _ => Config.micros d
  let b := completionRecord status (s.unservedAt part l status) elapsed
  let seen := s.threadsOf part l status
  let s := s.updLaunchBy part l.uid (fun l => { l with st := if status = 0 then .complete else .ended, status := status })
  let s := s.sequencerWrite part (s.vfOf part) l.completion b seen
  ((s.keepLaunch l).releaseCores l.uid).closeColls

/-- The launches of the graph in progress that have not reached RUNNING end with a status, and their contexts return to FREE
(R307). -/
def State.stopGraph (s : State) (part : BitVec 6) (status : BitVec 8) : State :=
  match s.graphOf part with
  | none => s
  | some g =>
    (g.launches.filter (fun l => match l.st with | .pending | .loading | .binding => true | _ => false)).foldl (fun (s : State) (l : Launch) =>
      (s.endThreads l.uid).closeLaunch part l status) s

/-- A launch ends; one that ends other than COMPLETE stops its graph, and a graph whose launches have all ended finishes
(R307, R412). -/
def State.endLaunch (s : State) (part : BitVec 6) (l : Launch) (status : BitVec 8) : State :=
  let s := s.closeLaunch part l status
  let s := if status = 0 then s else s.stopGraph part 0x0F
  (s.finishGraph part).fetchGraph part 4

/-- Whether the time of a launch is not counted: a context of it is STOPPED by the debug port (R309). -/
def State.heldByDebug (s : State) (launch : Nat) : Bool :=
  (s.launchCtxs launch).any (fun c => (s.ctx c).st == .stopped && (s.ctx c).stopWhy == .debug)

/-- OPERATOR_OVERRUN (R285, R307, R309): every context of the launch that has not exited stops with code 0x11; not while its time
stands still. -/
def execOperatorOverrun (part : BitVec 6) (launch : Nat) (s : State) : Host.Outcome State Fault Refusal :=
  match s.launchBy part launch with
  | none => .next s
  | some l =>
    if l.st = .running && !s.heldByDebug launch then
      let hit (x : Context) : Context :=
        match x.st with
        | .ready | .blocked | .away | .trapped | .stopped | .saved =>
          { x.stop .overrun with fcause := fcauseWord 0x11 0xF x.pyrino false 0 }
        | _ => x
      .next (((s.launchCtxs launch).foldl (fun (s : State) c => s.updCtx c hit) s).endLaunch part l 0x0D)
    else .next s

/-- END_OPERATOR (R277, R307, R386): system software ends an operator, stopping what has not stopped. -/
def execEndOperator (part : BitVec 6) (launch : Nat) (s : State) : Host.Outcome State Fault Refusal :=
  let mine := (s.launchCtxs launch).filter (fun c => (s.ctx c).part == part)
  if mine.isEmpty && (s.launchBy part launch).isNone then .next s
  else
    let s := s.endAll mine
    let s := s.releaseCores launch
    match s.launchBy part launch with
    | some l =>
      match l.st with
      | .running | .binding => .next (s.endLaunch part l 0x0E)
      | _ => .next s
    | none => .next s

-- Submission and time slices ------------------------------------------------------------------------------------

/-- VDCFG's fields (R405). -/
def cfgTenant (c : Word) : BitVec 16 := c.extractLsb' 48 16
def cfgQuantum (c : Word) : Nat := (c.extractLsb' 32 16).toNat
def cfgWeight (c : Word) : Nat := (c.extractLsb' 24 8).toNat
def cfgEnabled (c : Word) : Bool := bit c 6

/-- Whether a device is READY in the sense of R406: a graph submitted to it has not finished. -/
def VDev.isReady (d : VDev) : Bool :=
  !d.graphs.isEmpty && (match d.st with | .ready | .running => true | _ => false)

/-- The devices of a partition, in ascending number. -/
def State.devicesOf (s : State) (part : BitVec 6) : List Nat :=
  ((s.vdevs.filter (fun e => e.2.part == part && cfgEnabled e.2.cfg)).map (·.1)).mergeSort (· ≤ ·)

/-- The least of some numbers. -/
def leastOf : List Nat → Option Nat
  | [] => none
  | n :: r => some (r.foldl min n)

/-- A device becomes READY: its vt is raised to the least among the READY weighted devices of its partition (R406). -/
def State.becomeReady (s : State) (v : Nat) : State :=
  let d := s.vdev v
  let others := (s.devicesOf d.part).filter (fun o => o != v && (s.vdev o).isReady && cfgWeight (s.vdev o).cfg != 0)
  let floor := (leastOf (others.map (fun o => (s.vdev o).vt))).getD 0
  s.updVdev v (fun d => { d with st := .ready, vt := max d.vt floor })

/-- The running device leaves (R406). -/
def State.leaveSlice (s : State) (part : BitVec 6) : State :=
  match (s.part part).running with
  | none => s
  | some v =>
    let (t, s) := s.draw
    let s := s.updVdev v (fun d =>
      let w := cfgWeight d.cfg
      { d with st := if d.st = .running then (if d.graphs.isEmpty then .idle else .ready) else d.st
               vt := if w = 0 then d.vt else d.vt + Config.micros t * 256 / w })
    s.updPart part (fun p => { p with running := none })

/-- Whether a context of a partition is bound. -/
def State.someBound (s : State) (part : BitVec 6) : Bool := s.allCtxs.any (fun c => (s.ctx c).launch.isSome && (s.ctx c).part == part)

/-- GSUBMIT (R406, R410, R411). A running device whose queue is empty has left its time slice when it finished: the moment at which it had
no ready launch was a switch point, unless a context that an overrun has stopped is still bound (log entry 93). -/
def execGsubmit (vf : BitVec 10) (v : Word) (s : State) : Host.Outcome State Fault Refusal :=
  let n := vf.toNat
  let d := s.vdev n
  let closed := match d.st with | .resetting | .disabled => true | _ => false
  if closed || 4 ≤ d.graphs.length || v.extractLsb' 52 12 != 0 || v.extractLsb' 0 6 != 0 then
    .next (s.updVdev n (fun d => { d with overflow := true }))
  else
    let g : Graph := { addr := v.toNat, fetched := false, completion := 0, status := 0, launches := [] }
    let s := if (s.part d.part).running = some n && d.graphs.isEmpty && !s.someBound d.part then s.leaveSlice d.part else s
    let s := if (s.vdev n).st = .idle then s.becomeReady n else s
    let s := s.updVdev n (fun d => { d with graphs := d.graphs ++ [g] })
    .next (if (s.part d.part).running = some n then s.fetchGraph d.part 4 else s)

/-- GSTAT_WRITE (R410): writing 1 to the overflow bit clears it. -/
def execGstatWrite (vf : BitVec 10) (v : Word) (s : State) : Host.Outcome State Fault Refusal :=
  .next (if bit v 3 then s.updVdev vf.toNat (fun d => { d with overflow := false }) else s)

/-- Whether the cores of a launch can take it (R20, R305, R307): their terraces are in the COMPUTE role, and none of their contexts is
bound to another launch. -/
def State.coresReady (s : State) (part : BitVec 6) (l : Launch) : Bool :=
  (s.coresOf part l).all (fun g =>
    (s.terrace (terraceOf g.2)).st == .compute && ctxNums.all (fun n => (s.ctx { core := g.2, ctx := n }).launch.isNone))

/-- Whether no operator of a partition is under way: none is bound, one that an overrun has stopped among them, and none that is loaded is
about to bind; one whose cores cannot take it now waits for its device's next time slice (R27, R400, R406; log entry 93). -/
def State.atBoundary (s : State) (part : BitVec 6) : Bool :=
  !s.someBound part &&
  match s.graphOf part with
  | none => true
  | some g => !g.launches.any (fun l => match l.st with | .binding | .running => true | .loading => s.coresReady part l | _ => false)

/-- Whether some core of a partition lies on a terrace that drains (R400). -/
def State.draining (s : State) (part : BitVec 6) : Bool :=
  (s.part part).harness.any (fun g => (s.terrace (terraceOf g)).st == .draining)

/-- An accepted VDCFG takes effect (R405). -/
def VDev.takeCfg (d : VDev) : VDev :=
  match d.nextCfg with
  | none => d
  | some c =>
    let st : VState := match d.st with
      | .resetting => .resetting
      | _ => if !cfgEnabled c then .disabled else if d.graphs.isEmpty then .idle else .ready
    { d with cfg := c, nextCfg := none, st := st }

/-- Whether a switch point of a partition is one for the device's configuration. -/
def VDev.concerns (d : VDev) (part : BitVec 6) : Bool :=
  if cfgEnabled d.cfg then d.part == part else (match d.nextCfg with | some c => c.extractLsb' 0 6 == part | none => false)

/-- The device that the scheduler picks (R406). -/
def State.pickDevice (s : State) (part : BitVec 6) : Option Nat :=
  let isReady := (s.devicesOf part).filter (fun v => (s.vdev v).isReady)
  let weighted := isReady.filter (fun v => cfgWeight (s.vdev v).cfg != 0)
  let c := if weighted.isEmpty then isReady else weighted
  match leastOf (c.map (fun v => (s.vdev v).vt)) with
  | none => none
  | some t => c.find? (fun v => (s.vdev v).vt == t)

/-- The accepted configurations that concern a partition take effect, in ascending number; a device that becomes READY in it takes its vt
(R405, R406). -/
def State.takeCfgs (s : State) (part : BitVec 6) : State :=
  let hit := ((s.vdevs.filter (fun e => e.2.concerns part)).map (·.1)).mergeSort (· ≤ ·)
  hit.foldl (fun (s : State) v =>
    let old := s.vdev v
    let s := s.updVdev v VDev.takeCfg
    let new := s.vdev v
    let wasReady := (match old.st with | .ready | .running => true | _ => false) && cfgEnabled old.cfg && old.part == new.part
    if !wasReady && (match new.st with | .ready => true | _ => false) then s.becomeReady v else s) s

/-- Whether some launch that is loaded, in any queue, is to bind an object. -/
def State.codeWaited (s : State) (code : Nat) : Bool :=
  s.vdevs.any (fun e => e.2.graphs.any (fun g => g.launches.any (fun l => l.code == code && (match l.st with | .loading => true | _ => false))))

/-- System software releases loaded forms of code objects that nothing is bound to, by a free choice for each, at a switch point (R303; log
entry 94). -/
def State.releaseCodes (s : State) (part : BitVec 6) : State :=
  (s.part part).codes.foldl (fun (s : State) e =>
    let (d, s) := s.draw
    if Config.coin d && !s.codeWaited e.1 then s.updPart part (fun p => { p with codes := Assoc.drop p.codes e.1 }) else s) s

/-- SWITCH_POINT (R303, R400, R405, R406): at an operator boundary, with nothing left to run, a drain or the end of a quantum. How
long the device has run the model does not count (log entry 5). -/
def execSwitchPoint (part : BitVec 6) (s : State) : Host.Outcome State Fault Refusal :=
  let (d, s) := s.draw
  if (s.part part).formed && s.atBoundary part && ((s.graphOf part).isNone || s.draining part || Config.coin d) then
    let s := ((s.leaveSlice part).takeCfgs part).releaseCodes part
    if s.draining part then .next s
    else
      match s.pickDevice part with
      | none => .next s
      | some v =>
        let s := s.updVdev v (fun d => { d with st := .running })
        .next ((s.updPart part (fun p => { p with running := some v })).fetchGraph part 4)
  else .next s

-- Launches ------------------------------------------------------------------------------------------------------

/-- The predecessors of a launch. -/
def State.predsOf (s : State) (part : BitVec 6) (l : Launch) : List Launch :=
  match s.graphOf part with
  | some g => l.preds.filterMap (fun i => g.launches[i]?)
  | none => []

/-- LAUNCH_LOADING (R307): a PENDING launch with a predecessor that did not complete ends; one whose predecessors are all
COMPLETE and whose cores are free is processed by the loader and checked (R303, R305). -/
def execLaunchLoading (part : BitVec 6) (launch : Nat) (s : State) : Host.Outcome State Fault Refusal :=
  match s.launchBy part launch with
  | none => .next s
  | some l =>
    let ps := s.predsOf part l
    if l.st != .pending then .next s
    else if ps.any (fun p => p.st == .ended) then .next (s.endLaunch part l 0x0F)
    else if ps.all (fun p => p.st == .complete) && !s.draining part && s.coresReady part l then
      let n := ((s.graphOf part).map (fun g => g.launches.length)).getD 0
      let s := s.updLaunchBy part launch (fun l => { l with st := .loading })
      let l : Launch := { l with st := .loading }
      if l.bytes.length != 64 then .next (s.endLaunch part l 0x0A) else
      let s := (s.loadCode part l.code).loadData part l.code
      let st := ((Assoc.find (s.part part).codes l.code).map (·.status)).getD 0x01
      if st != 0 then .next (s.endLaunch part l st)
      else if l.recordBad n (s.part part).harness.length then .next (s.endLaunch part l 0x0A)
      else .next s
    else .next s

/-- The half of a core's dictionary RAM in which the dictionary of the object with a number is resident. -/
def Core.dictHalf (k : Core) (key : Nat) : Option Bool :=
  if k.dictOf[1] = some key then some true else if k.dictOf[0] = some key then some false else none

/-- A dictionary loaded into the half that no running context of the core uses, where it is not resident (R75, R308). -/
def Core.loadDict (k : Core) (key : Nat) (dict : List (BitVec 384)) : Core :=
  if (k.dictHalf key).isSome then k
  else if k.ctxs.toList.any (fun c => c.launch.isSome && c.st != .scrub && !c.half) then
    { k with dict := k.dict.set 1 dict, dictOf := k.dictOf.set 1 (some key) }
  else { k with dict := k.dict.set 0 dict, dictOf := k.dictOf.set 0 (some key) }

/-- DICTIONARY_PRELOAD (R308): for the next launch of the graph that is PENDING, or for one in BINDING, steps 1 to 9 where
they are not done, and its dictionary. -/
def execDictionaryPreload (part : BitVec 6) (launch : Nat) (s : State) : Host.Outcome State Fault Refusal :=
  let next := (s.graphOf part).bind (fun g => (g.launches.find? (fun l => l.st == .pending)).map (·.uid))
  match s.launchBy part launch with
  | none => .next s
  | some l =>
    if l.st = .binding || (l.st = .pending && next = some launch) then
      let s := s.loadCode part l.code
      match Assoc.find (s.part part).codes l.code with
      | some c =>
        .next (if c.status != 0 then s
          else (s.coresOf part l).foldl (fun (s : State) g => s.updCore g.2 (fun k => k.loadDict c.uid c.dict)) s)
      | none => .next s
    else .next s

/-- A scratchpad zeroed, its kept tags and marks with it (R406, R408; log entry 25). -/
def State.zeroPad (s : State) (core : CoreId) : State :=
  let hit (k : Nat) : Bool :=
    (padBase core ≤ k && k < padBase core + 2 ^ 24) || (tagKey (padBase core) ≤ k && k < tagKey (padBase core) + 2 ^ 18)
  { s with mem := s.mem.filter (fun e => !hit e.1), poison := s.poison.filter (fun k => !hit k) }

/-- A context as a launch binds it, scrubbed (R102, R277, R281, R304, R305). -/
def boundContext (part : BitVec 6) (l : Launch) (c : Code) (logical : Nat) (n : BitVec 2) (e : Entry) : Context :=
  let first := ctxNums.find? (fun m => bit e.mask m.toNat)
  { Context.reset with
    st := .scrub, launch := some l.uid, part := part, code := l.code, thread := BitVec.ofNat 13 (4 * logical + n.toNat),
    mat := e.mat && first == some n, prio := l.prio, mmr1 := c.mmr == 1, pyrino := c.pyrino, entryOff := e.off,
    user := { Flow.reset with pc := e.off.setWidth 32 } }

/-- The core's own state as binding leaves it: queues empty, declared flags zero and owned, the matrix engine UNSET where
there is an owner, caches of the core empty (R25, R231, R327, R337, R360; log entry 26). -/
def Core.bindTo (k : Core) (part : BitVec 6) (uid : Nat) (flags : BitVec 32) (tenant : BitVec 16) (owner : Bool) : Core :=
  let k := { k with
    bound := some uid, boundPart := part, lastTenant := some tenant, points := [], flagsOwned := flags
    flags := Vector.ofFn (fun i => if bit flags i.val then 0 else k.flags[i])
    fa := [], fb := [], faOrder := [], fbOrder := [], rq := Vector.replicate 8 RQueue.empty, triggers := []
    rqHeld := Vector.replicate 8 0, pub := [], lines := [], tlb := [], records := [], drainUntil := 0 }
  if owner then { k with acc := Vector.replicate 8 [], mstate := .unset, ways := [] } else k

/-- A core bound to a launch (R277, R305); a helper there ends at once, and a context in no mask stays FREE. -/
def State.bindCore (s : State) (part : BitVec 6) (l : Launch) (c : Code) (tenant : BitVec 16) (g : Nat × CoreId) : State :=
  let s := if (s.core g.2).lastTenant = some tenant then s else s.zeroPad g.2
  let s := s.updCore g.2 (fun k => k.bindTo part l.uid c.flags tenant (c.entries.any (·.mat)))
  ctxNums.foldl (fun (s : State) n =>
    s.setCtx { core := g.2, ctx := n }
      (match c.entries.find? (fun e => bit e.mask n.toNat) with
       | some e => boundContext part l c g.1 n e
       | none => (s.ctx { core := g.2, ctx := n }).freed)) s

/-- Whether an entry of a thread's channel table is matched by its peer's (R371). -/
def State.chanMatched (s : State) (uid : Nat) (flags : BitVec 32) (c : CtxId) (n : Nat) (e : ChanEntry) : Bool :=
  match s.boundCtx (s.ctx c).part e.peer with
  | none => false
  | some p =>
    match s.chanEntry (s.ctx p) (BitVec.ofNat 8 n) with
    | none => false
    | some f =>
      let (snd, rcv) := if e.receive then (f, e) else (e, f)
      (s.ctx p).launch == some uid && f.receive != e.receive && f.peer == (s.ctx c).thread && e.here && f.here &&
        snd.rows == rcv.rows && snd.cols == rcv.cols && snd.fmt == rcv.fmt && snd.vc == rcv.vc && snd.depth ≤ rcv.slots &&
        bit flags e.flag.toNat && bit flags f.flag.toNat

/-- The channels of a launch's threads paired: one on this module that is not matched is withdrawn (R371). -/
def State.pairChannels (s : State) (uid : Nat) (c : Code) : State :=
  (s.launchCtxs uid).foldl (fun (s : State) t =>
    c.chans.zipIdx.foldl (fun (s : State) (e : ChanEntry × Nat) =>
      if e.1.here && !s.chanMatched uid c.flags t e.2 e.1 then
        s.updCtx t (fun x => x.setChan (BitVec.ofNat 8 e.2) { x.chan (BitVec.ofNat 8 e.2) with withdrawn := true })
      else s) s) s

/-- The command that a restartable copy command describes, and its lane (R256): XCP goes on at its first undelivered chunk, XCPZ and
XSTOR start from their first byte. -/
def commandOfForm (b : List Byte) : Option (BitVec 3 × CmdOp × Option Stamp × Nat) :=
  let w (i : Nat) : Word := BitVec.ofNat 64 (fieldNat b (8 * i) 8)
  let len := ((w 2).extractLsb' 0 32).toNat
  let stamp := if w 3 = 0 then none else stampOf (some (w 3, w 4))
  let lane := (w 5).extractLsb' 8 3
  let op := (w 5).extractLsb' 0 8
  let nlb := ((w 6).extractLsb' 0 16).toNat
  let size := len / (nlb + 1)
  let dict := (((w 7).extractLsb' 0 52).toNat, ((w 7).extractLsb' 52 12).toNat * 1024)
  let xcp : CmdOp := .xcp (w 1) (w 0) len (bit (w 5) 12)
  let xcpz : CmdOp := .xcpz (w 1) (w 0) len ((w 6).extractLsb' 32 32).toNat (if bit (w 5) 13 then some dict else none)
  let xstor : CmdOp := .xstor (w 1) (w 0) nlb ((w 6).extractLsb' 16 12) ((w 6).extractLsb' 32 32) ((List.range 32).find? (fun n => 2 ^ n == size) |>.getD 0)
  if op = xcp.opcode then some (lane, xcp, stamp, ((w 2).extractLsb' 32 32).toNat)
  else if op = xcpz.opcode then some (lane, xcpz, stamp, 0)
  else if op = xstor.opcode then some (lane, xstor, stamp, 0)
  else none

/-- One restartable command resumed in its lane of a core, where the lane has room, under the number of the core's context 0, which no
thread holds yet (R256, R409; log entry 64). -/
def Core.resumeForm (k : Core) (b : List Byte) : Option Core :=
  match commandOfForm b with
  | none => some k
  | some (lane, op, stamp, done) =>
    if 16 ≤ (k.lane lane).length then none
    else
      let c : Command := { newCommand k.nextId 0 op stamp none with delivered := done }
      some (Core.updLane { k with nextId := k.nextId + 1 } lane (fun l => l ++ [.cmd c]))

/-- Restartable commands resumed in order on a core of a partition; those for which a lane has no room wait. -/
def State.resumeForms (s : State) (part : BitVec 6) (core : CoreId) (l : List (List Byte)) : State × List (List Byte) :=
  let s := (s.updCore core (fun k => { k with boundPart := part })).updCtx { core := core, ctx := 0 } (fun x => { x with part := part })
  l.foldl (fun (a : State × List (List Byte)) b =>
    match (a.1.core core).resumeForm b with
    | some k => (a.1.setCore core k, a.2)
    | none => (a.1, a.2 ++ [b])) (s, [])

/-- The restartable commands that the running device of a partition brings (R409). -/
def State.formsOf (s : State) (part : BitVec 6) : List (List Byte) :=
  match (s.part part).running with | some v => (s.vdev v).forms | none => []

/-- The restartable commands of the running device are resumed on the first core of a launch that is about to bind (R409). -/
def State.resumeDevice (s : State) (part : BitVec 6) (l : Launch) : State :=
  match (s.part part).running, s.coresOf part l with
  | some v, g :: _ =>
    let (s, rest) := s.resumeForms part g.2 (s.vdev v).forms
    s.updVdev v (fun d => { d with forms := rest })
  | _, _ => s

/-- Whether a loaded launch can bind (R307, R409): its cores can take it, and nothing is left in their lanes. -/
def State.mayBind (s : State) (part : BitVec 6) (l : Launch) : Bool :=
  s.coresReady part l && (s.coresOf part l).all (fun g => (s.core g.2).lanes.toList.all List.isEmpty)

/-- LAUNCH_BIND (R305, R307, R314, R371, R409): a loaded launch binds its contexts and pairs their channels, or is rejected for its
symmetry with no context bound. Restartable commands that its device brings are resumed first. -/
def execLaunchBind (part : BitVec 6) (launch : Nat) (s : State) : Host.Outcome State Fault Refusal :=
  match s.launchBy part launch with
  | none => .next s
  | some l =>
    match Assoc.find (s.part part).codes l.code with
    | none => .next s
    | some c =>
      if l.st != .loading then .next s
      else if rejectsSymmetry (s.part part).features l c then
        .next ((s.updLaunchBy part launch (fun l => { l with st := .binding })).endLaunch part { l with st := .binding } 0x0B)
      else if s.coresReady part l && !(s.formsOf part).isEmpty then .next (s.resumeDevice part l)
      else if !s.mayBind part l then .next s
      else
        let l : Launch := { l.withSymmetry c with st := .binding }
        let s := s.updLaunchBy part launch (fun _ => l)
        let tenant := cfgTenant (s.vdev ((s.part part).running.getD 0)).cfg
        let s := (s.coresOf part l).foldl (fun (s : State) g => s.bindCore part l c tenant g) s
        .next (s.pairChannels launch c)

/-- LAUNCH_RUNNING (R26, R307, R308): the dictionary is resident on every core, and the scrubbed contexts become READY. -/
def execLaunchRunning (part : BitVec 6) (launch : Nat) (s : State) : Host.Outcome State Fault Refusal :=
  match s.launchBy part launch with
  | none => .next s
  | some l =>
    let key := ((Assoc.find (s.part part).codes l.code).map (·.uid)).getD 0
    if l.st = .binding && (Assoc.find (s.part part).codes l.code).isSome && (s.coresOf part l).all (fun g => ((s.core g.2).dictHalf key).isSome) then
      let s := (s.launchCtxs launch).foldl (fun (s : State) c =>
        let half := ((s.core c.core).dictHalf key).getD false
        s.updCtx c (fun x => { x with st := .ready, half := half })) s
      .next (s.updLaunchBy part launch (fun l => { l with st := .running }))
    else .next s

/-- The next representative from a point number on, at most `fuel` numbers further (R310, R315). -/
def Launch.nextRep (l : Launch) : Nat → Nat → Option Nat
  | 0, _ => none
  | fuel + 1, n => if l.representative (l.pointAt n) then some n else l.nextRep fuel (n + 1)

/-- A point into a core's buffer. -/
def State.placePoint (s : State) (core : CoreId) (p : Point) : State :=
  s.updCore core (fun k => { k with points := k.points ++ [p] })

/-- WALKER_PLACE (R143, R310, R315): the next point, a returned one first, into a core buffer with room, where some context of
the core can take it. -/
def execWalkerPlace (part : BitVec 6) (launch : Nat) (core : CoreId) (s : State) : Host.Outcome State Fault Refusal :=
  match s.launchBy part launch with
  | none => .next s
  | some l =>
    let k := s.core core
    let mine := k.ctxs.toList.filter (fun c => c.launch == some launch)
    if l.st != .running || k.bound != some launch || 8 ≤ k.points.length then .next s
    else
      match l.returned with
      | p :: r =>
        .next (if mine.any (fun c => c.mayDraw p) then
            (s.updLaunchBy part launch (fun l => { l with returned := r })).placePoint core p
          else s)
      | [] =>
        match l.nextRep (l.points - l.nextPoint) l.nextPoint with
        | none => .next (s.updLaunchBy part launch (fun l => { l with nextPoint := l.points }))
        | some n =>
          .next (if mine.any (fun c => c.mayDraw (l.pointAt n)) then
              (s.updLaunchBy part launch (fun l => { l with nextPoint := n + 1 })).placePoint core (l.pointAt n)
            else s)

/-- LAUNCH_COMPLETE (R306, R307): every bound context has passed from RETIRING to FREE. -/
def execLaunchComplete (part : BitVec 6) (launch : Nat) (s : State) : Host.Outcome State Fault Refusal :=
  match s.launchBy part launch with
  | none => .next s
  | some l => .next (if l.st = .running && (s.launchCtxs launch).isEmpty then s.endLaunch part l 0 else s)

end Sys2Proof.Machine
end

