-- ==== Sys2Proof/Machine/Link.lean ====
section
/-! DEFINITION. The links (R389 to R394): their states, spare lanes and credits, and what failure handling does to commands,
channels and instances. What travels on them stands in Machine/CopyUnit.lean. -/

namespace Sys2Proof.Machine

-- Failure handling ----------------------------------------------------------------------------------------------

/-- Whether the traffic to a module crosses a link (R393). -/
def crosses (n : BitVec 4) (m : BitVec 16) : Bool := (Config.routeOf m.toNat).contains n

/-- Whether a stamp's word can be reached: it lies in this module, or in one whose route has a usable link. -/
def State.stampReached (s : State) (c : CtxId) (t : Stamp) : Bool :=
  match (s.engPlace c.core (s.ctx c).part [] t.addr false false).1 with
  | .ok (some (.far pa, _)) => (Config.farModule (pa / 2 ^ 16)).all s.reaches
  | _ => true

/-- A command that owns lost flits of so many bytes ends with status 0x0A, its count without them (R394). A stamp that was lost on its
way is followed by the error word on another link of the route, where one is left (log entry 71). -/
def State.loseCommand (s : State) (core : CoreId) (lane : BitVec 3) (c : Command) (lost : Nat) : State :=
  let d : Command := { c with delivered := c.delivered - lost }
  match c.st with
  | .queued => s
  | .performing | .suspended => s.endCmd core lane d 0x0A 0
  | .stamping _ _ | .suspendedStamp _ _ => s.setCmd core lane d
  | .stampSent _ =>
    match c.stamp with
    | some t => if s.stampReached (c.at core) t then s.setCmd core lane { c with st := .stamping 0x0A 0 } else s.popCmd core lane c
    | none => s.popCmd core lane c

/-- What owned some lost flits ends: a command of a lane, or the instance of a collective part (R394). -/
def State.loseOwner (s : State) (core : CoreId) (id lost : Nat) : State :=
  match s.laneOf core id with
  | some (lane, c) => s.loseCommand core lane c lost
  | none =>
    match ((s.core core).comms.flatMap (·.2)).find? (fun p => p.id == id) with
    | none => s
    | some p =>
      match s.collOf { core := core, ctx := p.ctx } p.comm p.k with
      | some x => (s.setPartOf core { p with delivered := p.delivered - lost, stampSent := false }).withdrawInstance x 0x0A
      | none => s

/-- The flits of a link that is lost are lost, and what owned them ends (R394). -/
def State.loseFlits (s : State) (fs : List Flit) : State :=
  ((fs.map (fun f => (f.src.core, f.owner))).dedup).foldl (fun s o =>
    s.loseOwner o.1 o.2 (flitBytes (fs.filter (fun f => f.src.core == o.1 && f.owner == o.2)))) s

/-- The command at the head of a lane after a link has failed: one of a route without a usable link ends (R393, R394). -/
def State.cutCommand (s : State) (n : BitVec 4) (core : CoreId) (lane : BitVec 3) : State :=
  match s.cmdAt core lane with
  | none => s
  | some c =>
    match c.op, c.st with
    | .xsend ch _, .performing | .xrecv ch _, .performing =>
      match s.chanEntry (s.ctx (c.at core)) ch with
      | some e => if !e.here && crosses n e.peerModule && !s.reaches e.peerModule then s.endCmd core lane c 0x0A 0 else s
      | none => s
    | _, .performing =>
      if ((s.farModules core c c.op.words).filter (crosses n)).any (fun m => !s.reaches m) then s.endCmd core lane c 0x0A 0 else s
    | _, _ => s

/-- Channels whose route has no usable link left are withdrawn (R394). -/
def State.withdrawRoutes (s : State) (n : BitVec 4) : State :=
  s.allCtxs.foldl (fun (s : State) c =>
    match s.codeOf (s.ctx c) with
    | none => s
    | some k => k.chans.zipIdx.foldl (fun (s : State) (e : ChanEntry × Nat) =>
        if !e.1.here && crosses n e.1.peerModule && !s.reaches e.1.peerModule then s.withdraw c (BitVec.ofNat 8 e.2) else s) s) s

/-- Open instances with a contributor beyond a route that has no usable link left are withdrawn (R394). -/
def State.withdrawFar (s : State) (n : BitVec 4) : State :=
  (s.colls.filter (fun x => !x.ended)).foldl (fun s x =>
    if x.members.any (fun m => m.far.any (fun f => crosses n f && !s.reaches f)) then s.withdrawInstance x 0x0A else s) s

/-- The releases at .pod and .sys of a thread whose writes were lost, which its weirs held for them, are performed as releases no more: the
stamp of a command, or of a collective part, receives the error word, a store loses its order, and a post is performed with nothing
before it (R346, R394; log entry 95). -/
def State.breakReleases (s : State) (c : CtxId) : State :=
  let wide (sc : Scope) : Bool := 7 ≤ sc.rank
  let cmd (e : LaneEntry) : LaneEntry :=
    match e with
    | .cmd q =>
      match q.st, q.stamp with
      | .stamping 0 _, some t => if q.ctx = c.ctx && wide t.sc then .cmd { q with st := .stamping 0x0A 0 } else e
      | _, _ => e
    | .fence _ _ => e
  let part (p : CollPart) : CollPart :=
    match s.collOf c p.comm p.k, p.stamp with
    | some x, some t =>
      if p.ctx = c.ctx && wide t.sc && p.status = 0 && p.atEnd x.members.length && !p.stampSent then { p with status := 0x0A } else p
    | _, _ => p
  let store (o : StoreOp) : StoreOp :=
    match o.kind with
    | .sta w sc _ => if o.held && wide sc then { o with kind := .sta w sc .relaxed } else o
    | _ => o
  let queues (q : Queues) : Queues := { q with sa := q.sa.map store }
  let s := s.updCore c.core (fun k => { k with lanes := k.lanes.map (fun l => l.map cmd), comms := k.comms.map (fun q => (q.1, q.2.map part)) })
  s.updCtx c (fun x => { x with user := x.user.updQ queues, hand := x.hand.updQ queues
                                posts := x.posts.map (fun p => if wide p.sc then { p with sc := .ctx } else p) })

/-- Failure handling when a link leaves UP or DEGRADED with some flits not acknowledged (R394). -/
def State.linkLost (s : State) (n : BitVec 4) (fs : List Flit) : State :=
  let s := s.loseFlits fs
  let s := ((fs.filter (fun f => !f.data.isEmpty)).map (·.src)).dedup.foldl State.breakReleases s
  let s := s.cores.foldl (fun (s : State) e =>
    laneNums.foldl (fun (s : State) l => s.cutCommand n (BitVec.ofNat 11 e.1) l) s) s
  (s.withdrawRoutes n).withdrawFar n

/-- A link goes to QUARANTINED or DOWN with a cause, with failure handling where it was in use (R389, R394). -/
def State.dropLink (s : State) (n : BitVec 4) (st : LinkState) (cause : BitVec 4) : State :=
  let l := s.link n
  let s := s.setLink n { l with st := st, cause := cause, peerModule := if st = .down then 0xFFFF else l.peerModule, flits := [], credits := Vector.replicate 8 0 }
  if l.usable then s.linkLost n l.flits else s

/-- Every link goes DOWN at a re-enumerate (R389). -/
def State.linksDown (s : State) : State :=
  (List.range 16).foldl (fun (s : State) n => s.dropLink (BitVec.ofNat 4 n) .down 5) s

/-- A link in use fails for a second lane, exhausted retries or a lost peer (R389, R390). -/
def State.failLink (s : State) (n cause : BitVec 4) : State :=
  if (s.link n).usable && (cause == 2 || cause == 3 || cause == 4) then s.dropLink n .quarantined cause else s

/-- A lane of a link fails: the spare comes in for a data lane while it is good, the spare's own failure is recorded, and any
other is a second failure (R389, R391). -/
def State.laneFails (s : State) (n lane : BitVec 4) : State :=
  let l := s.link n
  let k := lane.toNat
  if !l.usable || 8 < k || bit l.failed k then s
  else
    let failed := l.failed ||| (1 : BitVec 9) <<< k
    let first := l.st = .up && !bit l.failed 8
    if first && k = 8 then s.setLink n { l with failed := failed }
    else if first then s.setLink n { l with st := .degraded, failed := failed, spareFor := lane }
    else (s.setLink n { l with failed := failed }).dropLink n .quarantined 2

-- Events --------------------------------------------------------------------------------------------------------

/-- A failure of a link that comes in one cycle with an LCTL command, as the agenda of that cycle holds it, is taken first (R389). -/
def failsLink (n : BitVec 4) : Instr → Bool
  | .linkFailure l _ | .linkLaneFailure l _ => l == n
  | _ => false
def State.failFirst (s : State) (n : BitVec 4) : State :=
  (s.agenda.filter (failsLink n)).foldl (fun s i =>
    match i with
    | .linkFailure _ cause => s.failLink n cause
    | .linkLaneFailure _ lane => s.laneFails n lane
    | _ => s) s

/-- LCTL_TRAIN (R389); in trickle mode links stay DOWN (R415). -/
def execLctlTrain (link : BitVec 4) (s : State) : Host.Outcome State Fault Refusal :=
  let l := s.link link
  .next (if l.st = .down && !s.bootTrickle then s.setLink link { l with st := .training } else s)

/-- LCTL_QUARANTINE (R389). -/
def execLctlQuarantine (link : BitVec 4) (s : State) : Host.Outcome State Fault Refusal :=
  let s := s.failFirst link
  .next (if (s.link link).usable then s.dropLink link .quarantined 5 else s)

/-- LCTL_RELEASE (R389, R390): the counters keep what they hold, and the count of retries, which is of those since the last release,
starts anew when the link comes up (log entry 96). -/
def execLctlRelease (link : BitVec 4) (s : State) : Host.Outcome State Fault Refusal :=
  let s := s.failFirst link
  .next (if (s.link link).st = .quarantined then
      let t := s.dropLink link .down 5
      t.setLink link { t.link link with fromRelease := true }
    else s)

/-- The data lanes that do not pass. -/
def failedData (passed : BitVec 9) : List Nat := (List.range 8).filter (fun i => !bit passed i)

/-- LINK_TRAINING_DONE (R389, R392): `passed` has a bit for each lane, the spare's highest. A link that comes up, with all data lanes or
with its spare, has credits on every virtual channel, as many as its peer grants (log entry 71). -/
def execLinkTrainingDone (link : BitVec 4) (passed : BitVec 9) (peerModule : BitVec 16) (peerLink : BitVec 4) (s : State) :
    Host.Outcome State Fault Refusal :=
  let l := s.link link
  if l.st != .training then .next s
  else
    let (d, s) := s.draw
    let up : Link := { l with failed := ~~~passed, spareFor := 0xF, peerLink := peerLink, peerModule := peerModule,
                              retries := if l.fromRelease then 0 else l.retries, fromRelease := false,
                              credits := Vector.ofFn (fun i => Config.vcCredits (8 * d + i.val) + 1) }
    .next (match failedData passed, bit passed 8 with
      | [], _ => s.setLink link { up with st := .up }
      | [k], true => s.setLink link { up with st := .degraded, spareFor := BitVec.ofNat 4 k }
      | _, _ => s.dropLink link .down 1)

/-- LINK_TRAINING_TIMEOUT (R389). -/
def execLinkTrainingTimeout (link : BitVec 4) (s : State) : Host.Outcome State Fault Refusal :=
  .next (if (s.link link).st = .training then s.dropLink link .down 1 else s)

/-- LINK_LANE_FAILURE (R389, R391). -/
def execLinkLaneFailure (link : BitVec 4) (lane : BitVec 4) (s : State) : Host.Outcome State Fault Refusal :=
  .next (s.laneFails link lane)

/-- LINK_FAILURE (R389, R390): a second lane, exhausted retries or a lost peer. -/
def execLinkFailure (link : BitVec 4) (cause : BitVec 4) (s : State) : Host.Outcome State Fault Refusal :=
  .next (s.failLink link cause)

/-- FLIT_RETRY (R390): the count saturates. -/
def execFlitRetry (link : BitVec 4) (s : State) : Host.Outcome State Fault Refusal :=
  let l := s.link link
  .next (if l.usable then s.setLink link { l with retries := if l.retries = 0xFFFF then 0xFFFF else l.retries + 1 } else s)

end Sys2Proof.Machine
end

