-- ==== Sys2Proof/Machine/Terrace.lean ====
section
/-! DEFINITION. Terrace roles (R12, R16, R17, R395 to R402), partitions (R403, R404), virtual devices and their reset (R405,
R408), migration (R256, R409) and translation invalidation (R358, R359, R420). -/

namespace Sys2Proof.Machine

-- Roles ---------------------------------------------------------------------------------------------------------

/-- The terrace numbers 4c + t. -/
def terraceNums : List Nat := List.range 16

/-- The role code of a terrace in a role map (R396). -/
def roleCode (map : BitVec 32) (t : Nat) : BitVec 2 := map.extractLsb' (2 * t) 2

/-- The state that a role leads to. -/
def roleState (c : BitVec 2) : TState := if c = 1 then .compute else if c = 2 then .reservoir else .offline

/-- A role map with the role of one terrace replaced. -/
def setRole (map : BitVec 32) (t : Nat) (c : BitVec 2) : BitVec 32 :=
  (map &&& ~~~((3 : BitVec 32) <<< (2 * t))) ||| ((c.setWidth 32) <<< (2 * t))

/-- The reserved code 0b11 in a map (R396). -/
def mapReserved (map : BitVec 32) : Bool := terraceNums.any (fun t => roleCode map t == 3)

/-- The heat budget (R17, R397). -/
def mapTooHot (highFlow : Bool) (map : BitVec 32) : Bool :=
  (List.range 4).any (fun c =>
    let n := ((List.range 4).filter (fun t => roleCode map (4 * c + t) == 1)).length
    if highFlow then 4 < n else 3 < n)

def State.anyBusy (s : State) : Bool := s.terraces.toList.any (·.busy)

/-- Whether a formed partition holds a core of a terrace. -/
def State.terraceHeld (s : State) (t : Nat) : Bool :=
  s.parts.any (fun p => p.2.formed && p.2.harness.any (fun g => terraceOf g == t))

/-- The core clock of every cascade (R16, R397): 720 MHz with four compute terraces. -/
def State.setClocks (s : State) : State :=
  let four (c : Nat) : Bool := (List.range 4).all (fun t => (s.terrace (4 * c + t)).st == .compute)
  { s with cascades := Vector.ofFn (fun i => { s.cascades[i] with clock := if four i.val then .mhz720 else .mhz850 }) }

/-- A terrace in a state. -/
def State.setTState (s : State) (t : Nat) (st : TState) : State := (s.updTerrace t (fun x => { x with st := st })).setClocks

-- Enumeration ---------------------------------------------------------------------------------------------------

/-- The global core number of a physical core of a terrace (R13). -/
def globalCore (t phys : Nat) : CoreId := BitVec.ofNat 11 (128 * t + phys)

/-- The spares of a terrace that stand in for no core and are not marked (R12). -/
def Terrace.freeSpares (x : Terrace) : List Nat :=
  [96, 97, 98, 99].filter (fun q => !x.coresMarked.contains q && !positions.any (fun p => x.coreAt p == q))

/-- Spares brought in for the marked cores in use (R402), the lowest free spare for the lowest position: which spare replaces which core
the manual does not say (DESIGN CHOICE: log entry 86); the pairs of cores replaced. -/
def Terrace.bringIn (x : Terrace) : Terrace × List (Nat × Nat) :=
  positions.foldl (fun (a : Terrace × List (Nat × Nat)) p =>
    let old := a.1.coreAt p
    if x.coresMarked.contains old then
      match a.1.freeSpares with
      | q :: _ => ({ a.1 with spares := Assoc.put a.1.spares p q }, a.2 ++ [(old, q)])
      | [] => a
    else a) (x, [])

/-- Whether 96 good cores are there (R399). -/
def Terrace.allGood (x : Terrace) : Bool := positions.all (fun p => !x.coresMarked.contains (x.coreAt p))

/-- Harness entries that name replaced cores take the spares' numbers (R402). -/
def State.rebind (s : State) (t : Nat) (pairs : List (Nat × Nat)) : State :=
  let new (g : CoreId) : CoreId :=
    match pairs.find? (fun p => globalCore t p.1 == g) with | some p => globalCore t p.2 | none => g
  { s with parts := s.parts.map (fun p => (p.1, { p.2 with harness := p.2.harness.map new })) }

/-- The spare DRAM channel of a cascade stands in for a channel that a terrace has marked, the lowest of them, and every port map is
rewritten (R28, R402; log entry 86). -/
def State.spareChannelIn (s : State) (t : Nat) : State :=
  let c := t / 4
  match s.cascades[c]?, ((s.terrace t).channelsMarked.mergeSort (· ≤ ·)).head? with
  | some k, some q =>
    if k.spareChannel.isNone then
      let port (b : Byte × Nat) : Byte := if b.2 / 8 = c && b.1 = BitVec.ofNat 8 q then 8 else b.1
      { s with cascades := s.cascades.setIfInBounds c { k with spareChannel := some (BitVec.ofNat 4 q) }
               parts := s.parts.map (fun p => (p.1, { p.2 with portMap := p.2.portMap.zipIdx.map port })) }
    else s
  | _, _ => s

/-- The spare rows of every bank stand in for the marked rows, and the one spare via of each 32 for the lowest marked one of them, where it
stands in for none yet (R28, R418; log entry 86). -/
def Terrace.spareParts (x : Terrace) : Terrace :=
  let vias := (x.viasMarked.mergeSort (· ≤ ·)).foldl (fun (a : List Nat) v => if a.any (fun w => w / 32 == v / 32) then a else a ++ [v]) x.viasSpared
  { x with rowsSpared := x.rowsMarked, viasSpared := vias }

/-- A terrace entering ENUMERATING brings its
spares in, and its vertical port and weirs start anew (R402). A terrace with fewer than 96 good cores is bound for FAILED. -/
def State.enterEnumerating (s : State) (t : Nat) : State :=
  let (x, pairs) := (s.terrace t).bringIn
  let good := x.allGood
  let s := s.setTerrace t { x.spareParts with target := if good then x.target else .failed, relay := [] }
  let s : State := { s with relayPend := s.relayPend.filter (fun u => u.terrace.toNat != t) }
  ((s.rebind t pairs).spareChannelIn t).setTState t .enumerating

-- Sequences -----------------------------------------------------------------------------------------------------

/-- A terrace starts its sequence towards a role, or a re-enumerate (R399). -/
def State.startSequence (s : State) (t : Nat) (target : TState) : State :=
  let x := s.terrace t
  let y : Terrace := { x with busy := true, target := target, leaving := x.st }
  match x.st, target with
  | .offline, .compute => (s.setTerrace t y).enterEnumerating t
  | .offline, .reservoir => (s.setTerrace t y).setTState t .flushing
  | .compute, _ | .reservoir, _ => (s.setTerrace t y).setTState t .draining
  | _, _ => s

/-- Every terrace whose role changes starts its sequence (R397). -/
def State.applyMap (s : State) (map : BitVec 32) : State :=
  let hit := terraceNums.filter (fun t => roleState (roleCode map t) != roleState (roleCode s.rolemap t) ||
    ((s.terrace t).st != .failed && roleState (roleCode map t) != (s.terrace t).st))
  hit.foldl (fun (s : State) t => s.startSequence t (roleState (roleCode map t))) { s with rolemap := map }

/-- The status of a role map request (R397, R415). -/
def State.mapStatus (s : State) (v : Word) : BitVec 8 :=
  let map := v.extractLsb' 0 32
  let changed (t : Nat) : Bool := roleCode map t != roleCode s.rolemap t
  if v.extractLsb' 32 32 != 0 || mapReserved map || (s.bootTrickle && map.extractLsb' 2 30 != 0) then 0x03
  else if s.anyBusy then 0x02
  else if terraceNums.any (fun t => changed t && (s.terrace t).st == .failed) then 0x04
  else if mapTooHot s.coolantHigh map then 0x01
  else if terraceNums.any (fun t => (s.terrace t).st == .compute && roleCode map t != 1 && s.terraceHeld t) then 0x05
  else 0

/-- ROLEMAP_WRITE (R396, R397). -/
def execRolemapWrite (v : Word) (s : State) : Host.Outcome State Fault Refusal :=
  let st := s.mapStatus v
  let s : State := { s with mstatus := st }
  .next (if st = 0 then s.applyMap (v.extractLsb' 0 32) else s)

/-- ROLEBOOT_WRITE (R398). -/
def execRolebootWrite (v : Word) (s : State) : Host.Outcome State Fault Refusal :=
  let map := v.extractLsb' 0 32
  let st : BitVec 8 := if v.extractLsb' 32 32 != 0 || mapReserved map then 0x03 else if mapTooHot s.coolantHigh map then 0x01 else 0
  .next { s with mstatus := st, roleboot := if st = 0 then v else s.roleboot }

/-- TCTL_RE_ENUMERATE (R397): of a COMPUTE terrace. -/
def execTctlReEnumerate (t : BitVec 4) (s : State) : Host.Outcome State Fault Refusal :=
  let x := s.terrace t.toNat
  let st : BitVec 8 := if s.anyBusy then 0x02 else if x.st = .failed then 0x04 else if x.st != .compute then 0x03 else 0
  let s : State := { s with mstatus := st }
  .next (if st = 0 then s.startSequence t.toNat .compute else s)

/-- TCTL_RELEASE_FAILED (R399): the map in force then holds OFFLINE for the terrace. -/
def execTctlReleaseFailed (t : BitVec 4) (s : State) : Host.Outcome State Fault Refusal :=
  let x := s.terrace t.toNat
  .next (if x.st = .failed then
      ({ s with mstatus := 0, rolemap := setRole s.rolemap t.toNat 0 } : State).setTState t.toNat .offline
    else { s with mstatus := 0x03 })

/-- The physical cores of a terrace. -/
def coresOfTerrace (t : Nat) : List CoreId := (List.range 100).map (globalCore t)

/-- Whether a core has nothing left to do (R400). -/
def Core.idle (k : Core) : Bool :=
  k.ctxs.toList.all (fun c => c.st == .free) && k.lanes.toList.all List.isEmpty && k.triggers.isEmpty &&
    k.comms.all (fun q => q.2.isEmpty)

/-- The first address of a reservoir's range, and its size (R401). -/
def reservoirBase (t : Nat) : Nat := 2 ^ 40 + t / 4 * 2 ^ 36 + t % 4 * 2 ^ 29
def reservoirSize : Nat := 264 * 2 ^ 20

/-- Whether a key is a byte or a tag of a range of physical addresses. -/
def inRange (base size k : Nat) : Bool :=
  (base ≤ k && k < base + size) || (tagKey base ≤ k && k < tagKey base + size / 64)

/-- Stores that are on their way to a page of a reservoir (R400, R420). -/
def State.reservoirPending (s : State) (t : Nat) : Bool :=
  let page (f : Nat × Nat) : Bool := reservoirBase t / 2 ^ 16 ≤ f.2 && f.2 < (reservoirBase t + reservoirSize) / 2 ^ 16
  s.allCtxs.any (fun c => ((s.ctx c).stores.any (fun o => o.frames.any page)) || (s.ctx c).tileOps.any (fun o => o.frames.any page))

/-- DRAIN_COMPLETE (R399, R400). -/
def execDrainComplete (t : BitVec 4) (s : State) : Host.Outcome State Fault Refusal :=
  let x := s.terrace t.toNat
  let done := if x.leaving = .reservoir then !s.reservoirPending t.toNat
    else (coresOfTerrace t.toNat).all (fun c => (s.core c).idle)
  .next (if x.st = .draining && done then s.setTState t.toNat .flushing else s)

/-- Entries of memory moved by a distance. -/
def moved (m : ByteMap) (base size dest : Nat) : ByteMap :=
  let shift (k : Nat) : Nat := if k < 2 ^ 60 then k - base + dest else k - tagKey base + tagKey dest
  m.foldl (fun (a : ByteMap) e => if inRange base size e.1 then bmPut a (shift e.1) e.2 else a) []

/-- A range filled with zeros, its tags cleared. -/
def State.zeroRange (s : State) (base size : Nat) : State :=
  { s with mem := s.mem.filter (fun e => !inRange base size e.1), poison := s.poison.filter (fun k => !inRange base size k) }

/-- The reservoir's 264 MiB copied into DRAM, tags included (R401). -/
def State.evacuate (s : State) (t : Nat) : State :=
  let base := reservoirBase t
  let dest := bytesNat (memReadAll s.mem base 8) / 2 ^ 16 * 2 ^ 16
  let new := moved s.mem base reservoirSize dest
  let s := s.zeroRange dest reservoirSize
  { s with mem := new.foldl (fun m e => memWrite m e.1 e.2) s.mem }

/-- A terrace enters FAILED (R399). -/
def State.failTerrace (s : State) (t : Nat) (cause : BitVec 4) : State :=
  (s.updTerrace t (fun x => { x with cause := cause, busy := false })).setTState t .failed

-- The start -----------------------------------------------------------------------------------------------------

/-- A start that is under way fails with a reason (R414, R415). -/
def State.startFails (s : State) (reason : BitVec 8) : State :=
  { s with starting := false, bootReason := reason, bootFails := if s.bootFails = 3 then 3 else s.bootFails + 1 }

/-- A start succeeds once every terrace is in the role that ROLEBOOT names, and fails where one cannot be (R414). -/
def State.checkStart (s : State) : State :=
  if !s.starting then s
  else if terraceNums.any (fun t => (s.terrace t).st == .failed) then s.startFails 0x05
  else if terraceNums.all (fun t => (s.terrace t).st == roleState (roleCode (s.roleboot.extractLsb' 0 32) t)) then
    { s with starting := false, bootReason := 0, bootFails := 0 }
  else s

/-- A terrace reaches the end of its sequence. -/
def State.endSequence (s : State) (t : Nat) (st : TState) : State :=
  ((s.updTerrace t (fun x => { x with busy := false })).setTState t st).checkStart

/-- FLUSH_COMPLETE (R389, R399, R401). Scratchpads that change hands are zeroed before their next binding, since no tenant counts as a
core's last one then (DESIGN CHOICE, log entry 100); a re-enumerate brings every link DOWN. -/
def execFlushComplete (t : BitVec 4) (s : State) : Host.Outcome State Fault Refusal :=
  let n := t.toNat
  let x := s.terrace n
  if x.st != .flushing then .next s
  else
    let lost := x.leaving = .reservoir && s.poison.any (fun k => inRange (reservoirBase n) reservoirSize k)
    if lost then .next ((s.failTerrace n 3).checkStart)
    else
      let s := (coresOfTerrace n).foldl (fun (s : State) c =>
        if (Assoc.find s.cores c.toNat).isSome then
          s.updCore c (fun k => { k with pub := [], lines := [], lastTenant := if x.target = x.leaving then k.lastTenant else none })
        else s) s
      let s := if x.leaving = .reservoir then s.evacuate n else s
      let s := if x.target = .reservoir then s.zeroRange (reservoirBase n) reservoirSize else s
      let s := if x.target = .compute && x.leaving = .compute then s.linksDown else s
      .next (if x.target = .offline then s.endSequence n .offline else s.enterEnumerating n)

/-- ENUMERATION_COMPLETE (R399, R402). -/
def execEnumerationComplete (t : BitVec 4) (s : State) : Host.Outcome State Fault Refusal :=
  let x := s.terrace t.toNat
  .next (if x.st != .enumerating then s
    else if x.target = .failed then (s.failTerrace t.toNat 1).checkStart
    else s.endSequence t.toNat x.target)

/-- Bound contexts, such as those an overrun has stopped, are freed. -/
def State.freeBound (s : State) (f : CtxId → Bool) : State :=
  let mine := s.allCtxs.filter (fun c => (s.ctx c).launch.isSome && f c)
  let uids := (mine.filterMap (fun c => (s.ctx c).launch)).dedup
  uids.foldl (fun (s : State) u => s.releaseCores u) (s.endAll mine)

/-- Launches that hold a core of a terrace end with status 0x0E, and every context there is freed (R399). -/
def State.killTerrace (s : State) (t : Nat) : State :=
  let s := s.parts.foldl (fun (s : State) p =>
    let part := BitVec.ofNat 6 p.1
    match s.graphOf part with
    | none => s
    | some g =>
      (g.launches.filter (fun l => (match l.st with | .binding | .running => true | _ => false) &&
          (s.coresOf part l).any (fun c => terraceOf c.2 == t))).foldl (fun (s : State) (l : Launch) =>
        match s.launchBy part l.uid with
        | some l =>
          (match l.st with
           | .binding | .running => (s.endThreads l.uid).endLaunch part l 0x0E
           | _ => s)
        | none => s) s) s
  s.freeBound (fun c => terraceOf c.core == t)

/-- TERRACE_LOGIC_ERROR (R399). -/
def execTerraceLogicError (t : BitVec 4) (s : State) : Host.Outcome State Fault Refusal :=
  .next (((s.killTerrace t.toNat).failTerrace t.toNat 2).checkStart)

-- Partitions ----------------------------------------------------------------------------------------------------

/-- Bytes at a device physical address, where they all exist. -/
def State.physRead (s : State) (addr n : Nat) : Option (List Byte) :=
  if (piecesOf addr n).any (fun p => s.physFault p.1) || vaEnd ≤ addr + n then none else some (memReadAll s.mem addr n)

/-- A partition record and its harness as PCTL reads them (R403, R404); the record has no field for the members that its groups
have in other modules (R24, R375; log entry 19). An RTCOUNT outside 1 to 2^20 is taken as it stands: DESIGN CHOICE (log entry 108). -/
def State.partRecord (s : State) (addr : Nat) : Option (Partition × List Nat × List Nat) :=
  match s.physRead addr 64 with
  | none => none
  | some b =>
    let g := fieldNat b
    let count := g 14 2
    match s.physRead (g 16 8) (2 * count + 32) with
    | none => none
    | some h =>
      let cores := (List.range count).map (fun i => fieldNat h (2 * i) 2)
      let ports := (h.drop (2 * count)).map BitVec.toNat
      let p : Partition :=
        { Partition.reset with
          formed := true, hentry := BitVec.ofNat 64 (g 48 8), hlen := BitVec.ofNat 16 (g 12 2)
          troot := BitVec.ofNat 64 (g 40 8 % 2 ^ 52 / 2 ^ 16 * 2 ^ 16), rtbase := BitVec.ofNat 64 (g 32 8 % 2 ^ 52 / 64 * 64)
          rtcount := BitVec.ofNat 64 (g 28 4 % 2 ^ 21), opBound := g 26 2, features := BitVec.ofNat 8 (g 25 1)
          harness := cores.map (BitVec.ofNat 11), portMap := h.drop (2 * count)
          farGroups := (List.range 64).map (fun n => (n, Config.farMembers addr n)) }
      let reserved := g 56 8 != 0 || g 24 1 != 0 || fieldNat b 0 12 != 0 || g 12 2 == 0 || count == 0 || 1536 < count ||
        g 16 8 % 64 != 0
      if reserved then none else some (p, cores, ports)

/-- The status of a PCTL form (R395, R403): the checks in the order of the model's choice (log entry 28). The reserved bits of the register
are ignored (R7). -/
def State.formStatus (s : State) (part : BitVec 6) (addr : Word) : BitVec 8 × Option Partition :=
  if (s.part part).formed then (0x22, none)
  else
    match s.partRecord ((addr.extractLsb' 6 46).toNat * 64) with
    | none => (0x03, none)
    | some (p, cores, ports) =>
      let held (g : CoreId) : Bool := s.parts.any (fun q => q.2.formed && q.2.harness.contains g)
      if cores.any (2 ^ 11 ≤ ·) || ports.any (8 < ·) then (0x03, none)
      else if p.opBound < 250 || 50000 < p.opBound then (0x11, none)
      else if p.harness.any (fun g => !s.enabledCore g || (s.terrace (terraceOf g)).st != .compute || held g) || !decide p.harness.Nodup then (0x10, none)
      else if s.vdevs.any (fun v => cfgEnabled v.2.cfg && v.2.part == part && cfgQuantum v.2.cfg < p.opBound + 16) then (0x21, none)
      else (0, some p)

/-- PCTL_FORM (R403). -/
def execPctlForm (part : BitVec 6) (addr : Word) (s : State) : Host.Outcome State Fault Refusal :=
  let (st, p) := s.formStatus part addr
  let s : State := { s with mstatus := st }
  .next (match p with | some p => s.setPart part p | none => s)

/-- Every launch of a partition ends: those in BINDING or RUNNING with status 0x0E, their contexts freed, and every later one
as its graph stops (R307, R403, R408). -/
def State.endRunning (s : State) (part : BitVec 6) : State :=
  match s.graphOf part with
  | none => s
  | some g =>
    let live := g.launches.filter (fun l => match l.st with | .binding | .running => true | _ => false)
    let s := s.endAll (live.flatMap (fun l => s.launchCtxs l.uid))
    let s := live.foldl (fun (s : State) (l : Launch) => s.closeLaunch part l 0x0E) s
    (s.stopGraph part 0x0F).finishGraph part

/-- Contexts of a partition that a launch left behind are freed. -/
def State.freeAll (s : State) (part : BitVec 6) : State := s.freeBound (fun c => (s.ctx c).part == part)

/-- The word of a stamp's descriptor (R247). -/
def Stamp.descriptor (t : Stamp) : Word :=
  (0 : BitVec 7) ++ BitVec.ofBool t.add ++ t.sc.code ++ BitVec.ofNat 52 t.addr

/-- A restartable copy command (R256), where the command has one. -/
def restartable (lane : BitVec 3) (c : Command) : Option (List Byte) :=
  let stamp := match c.stamp with | some t => [t.descriptor, t.word] | none => [0, 0]
  let word2 (len : Nat) : Word := BitVec.ofNat 32 c.delivered ++ BitVec.ofNat 32 len
  let control (kept dict : Bool) : Word :=
    (0 : BitVec 50) ++ BitVec.ofBool dict ++ BitVec.ofBool kept ++ (0 : BitVec 1) ++ lane ++ c.op.opcode
  let all (ws : List Word) : Option (List Byte) := some (ws.flatMap wordBytes)
  match c.op with
  | .xcp dst src len kept => all ([src, dst, word2 len] ++ stamp ++ [control kept false, 0, 0])
  | .xcpz dst src len bound dict =>
    all ([src, dst, word2 len] ++ stamp ++ [control false dict.isSome, BitVec.ofNat 32 bound ++ (0 : BitVec 32),
      match dict with | some (a, n) => dictWord a n | none => 0])
  | .xstor dst lba nlb reg nsid log =>
    all ([lba, dst, word2 (storBytes nlb log)] ++ stamp ++
      [control false false, nsid ++ (0 : BitVec 4) ++ reg ++ BitVec.ofNat 16 nlb, 0])
  | _ => none
where
  dictWord (a n : Nat) : Word := BitVec.ofNat 64 (n / 1024 * 2 ^ 52 + a)

/-- Whether a command is still to be written as a restartable one: it has not ended with a status, and its stamp is not on its way. -/
def Command.inFlight (c : Command) : Bool :=
  match c.st with
  | .queued | .performing | .suspended => true
  | .stamping st _ | .suspendedStamp st _ => st == 0
  | .stampSent _ => false

/-- The restartable copy commands of a lane entry, none for other entries (R256). -/
def LaneEntry.form (lane : BitVec 3) (e : LaneEntry) : Option (List Byte) :=
  match e with
  | .cmd c => if c.inFlight then restartable lane c else none
  | .fence _ _ => none

/-- The commands in flight of some cores that have a restartable form, in lane order; they leave their lanes (R256, R409). -/
def State.takeForms (s : State) (cores : List CoreId) : List (List Byte) × State :=
  (cores.flatMap (fun g => laneNums.flatMap (fun n => ((s.core g).lane n).filterMap (LaneEntry.form n))),
   cores.foldl (fun (s : State) g => s.updCore g (fun k =>
     laneNums.foldl (fun (k : Core) n => k.updLane n (fun l => l.filter (fun e => (LaneEntry.form n e).isNone))) k)) s)

/-- The commands in flight of a partition's cores go to its running device, which resumes them where it runs next (R256, R409; log entry
64). -/
def State.formsToDevice (s : State) (part : BitVec 6) : State :=
  match (s.part part).running with
  | none => s
  | some v =>
    let (fs, s) := s.takeForms (s.part part).harness
    s.updVdev v (fun d => { d with forms := d.forms ++ fs })

/-- PCTL_DISSOLVE (R256, R403): the devices that name the partition are IDLE, with no graph. -/
def execPctlDissolve (part : BitVec 6) (s : State) : Host.Outcome State Fault Refusal :=
  if !(s.part part).formed then .next { s with mstatus := 0x22 }
  else
    let s := ((s.formsToDevice part).endRunning part).freeAll part
    let idle (d : VDev) : VDev :=
      if d.part = part then { d with graphs := [], st := match d.st with | .ready | .running => .idle | st => st } else d
    .next { s.setPart part Partition.reset with mstatus := 0, vdevs := s.vdevs.map (fun v => (v.1, idle v.2)) }

-- Virtual devices -----------------------------------------------------------------------------------------------

/-- VDCFG as it is kept: its reserved bits are ignored and read zero (R7, R405). -/
def cfgKept (v : Word) : Word := v.extractLsb' 24 40 ++ (0 : BitVec 17) ++ v.extractLsb' 0 7

/-- The status of a VDCFG write (R405), in the order of the model's choice (log entry 28); reserved bits have no part in it (R7). -/
def State.cfgStatus (s : State) (v : Word) : BitVec 8 :=
  let p := s.part (v.extractLsb' 0 6)
  if cfgQuantum v = 0 then 0x20
  else if !p.formed then 0x22
  else if cfgQuantum v < p.opBound + 16 then 0x21
  else 0

/-- VDCFG_WRITE (R405): an accepted write takes effect at the next switch point. -/
def execVdcfgWrite (vf : BitVec 10) (v : Word) (s : State) : Host.Outcome State Fault Refusal :=
  let st := s.cfgStatus v
  .next ({ s with mstatus := st }.updVdev vf.toNat (fun d => { d with code := st, nextCfg := if st = 0 then some (cfgKept v) else d.nextCfg }))

/-- The reset of a virtual function, steps 1 to 4 (R408): a running launch ends and its threads with it, what is queued is
dropped, and the device has its time slice no more. -/
def State.startReset (s : State) (v : Nat) : State :=
  let d := s.vdev v
  if d.st = .resetting then s
  else
    let part := d.part
    let mine := (s.part part).running = some v
    let s := s.updVdev v (fun d => { d with st := .resetting, resetStep := 5 })
    let s := if mine then ((s.endRunning part).freeAll part).updPart part (fun p => { p with running := none }) else s
    s.updVdev v (fun d => { d with graphs := [], forms := [] })

/-- VDSTAT_RESET (R405, R408). -/
def execVdstatReset (vf : BitVec 10) (v : Word) (s : State) : Host.Outcome State Fault Refusal :=
  .next (if bit v 63 then s.startReset vf.toNat else s)

/-- FUNCTION_LEVEL_RESET (R408). -/
def execFunctionLevelReset (vf : BitVec 10) (s : State) : Host.Outcome State Fault Refusal := .next (s.startReset vf.toNat)

/-- What system software releases of a reset device's memory is zero-filled and its tags are cleared (R408, step 6): which pages it
releases is free (log entry 99). -/
def State.zeroReleased (s : State) : State :=
  let (d, s) := s.draw
  (Config.releasedMemory d).foldl (fun (s : State) r =>
    if (r.1 + r.2) * 2 ^ 16 ≤ vaEnd then s.zeroRange (r.1 * 2 ^ 16) (r.2 * 2 ^ 16) else s) s

/-- RESET_FLIT_DRAIN (R408, steps 5 to 7): once its commands have ended and no word and no flit of its threads is on its way, its
scratchpads and what system software releases of its memory are zeroed, and it is IDLE, whatever its enable bit (log entry 97). -/
def execResetFlitDrain (vf : BitVec 10) (s : State) : Host.Outcome State Fault Refusal :=
  let d := s.vdev vf.toNat
  let cores := ((s.part d.part).harness).filter (fun g => (s.core g).bound.isNone && (s.core g).lastTenant == some (cfgTenant d.cfg))
  if d.st = .resetting && !s.words.any (fun w => cores.contains w.src.core || cores.contains w.dst.core) &&
      !s.links.toList.any (fun l => l.flits.any (fun f => cores.contains f.src.core)) && cores.all (fun g => (s.core g).lanes.toList.all List.isEmpty) then
    let s := (cores.foldl (fun (s : State) g => s.zeroPad g) s).zeroReleased
    .next (s.updVdev vf.toNat (fun d => { d with st := .idle, resetStep := 0 }))
  else .next s

-- Migration -----------------------------------------------------------------------------------------------------

/-- Whether a command may be in flight at a migration boundary (R409). -/
def CmdOp.mayMigrate : CmdOp → Bool
  | .xcp _ _ _ _ | .xcpz _ _ _ _ _ | .xstor _ _ _ _ _ _ => true
  | _ => false

/-- Whether a launch is at a migration boundary (R409): a command that has ended with an error is still to write its word first. -/
def State.atMigration (s : State) (uid : Nat) : Bool :=
  (s.launchCtxs uid).all (fun c =>
    let x := s.ctx c
    let k := s.core c.core
    x.st == .retiring && x.stores.isEmpty && x.tileOps.isEmpty && x.posts.isEmpty && !x.loads.any LoadOp.isLive &&
      k.comms.all (fun q => q.2.all (fun p => p.ctx != c.ctx)) && k.triggers.all (fun t => t.2.ctx != c.ctx) &&
      k.lanes.toList.all (fun l => l.all (fun e => e.owner != c.ctx || (match e with | .cmd q => q.op.mayMigrate && q.inFlight | .fence _ _ => false))))

/-- MIGRATION_BOUNDARY (R256, R409): the commands in flight are written into the area that system software names, a device
virtual address of the partition, and move with the device; its running launches count as complete. -/
def execMigrationBoundary (part : BitVec 6) (area : Nat) (s : State) : Host.Outcome State Fault Refusal :=
  let live := ((s.graphOf part).map (fun g => g.launches.filter (fun l => l.st == .running))).getD []
  if live.isEmpty || !live.all (fun l => s.atMigration l.uid) then .next s
  else
      let ctxs := live.flatMap (fun l => s.launchCtxs l.uid)
      let cores := (ctxs.map (·.core)).dedup
      let (out, s) := s.takeForms cores
      let s := out.zipIdx.foldl (fun (s : State) (b : List Byte × Nat) =>
        s.sequencerWrite part (s.vfOf part) (area + 64 * b.2) b.1 []) s
      let s := s.updVdev (s.vfOf part).toNat (fun d => { d with forms := d.forms ++ out })
      let s := cores.foldl (fun (s : State) g => s.updCore g (fun k => { k with lanes := Vector.replicate 8 [] })) s
      let s := ctxs.foldl (fun (s : State) c => s.freeCtx c) s
      .next (live.foldl (fun (s : State) l => s.endLaunch part l 0) s)

-- Invalidation --------------------------------------------------------------------------------------------------

/-- The range of a TINV (R359). -/
def tinvRange (v : Word) : Nat × Nat :=
  let size := match (v.extractLsb' 56 2).toNat with | 0 => 2 ^ 16 | 1 => 2 ^ 21 | _ => 2 ^ 30
  if v.extractLsb' 56 2 = 3 then (0, vaEnd)
  else ((v.extractLsb' 16 36).toNat * 2 ^ 16 / size * size, size)

/-- The cores of a partition that hold state for it. -/
def State.coresOfPart (s : State) (part : BitVec 6) : List CoreId :=
  (s.cores.filter (fun e => e.2.bound.isSome && e.2.boundPart == part)).map (fun e => BitVec.ofNat 11 e.1)

/-- Translation-cache entries that overlap a range are dropped in every core of a partition. -/
def State.dropEntries (s : State) (part : BitVec 6) (r : Nat × Nat) : State :=
  (s.coresOfPart part).foldl (fun (s : State) g => s.updCore g (fun k =>
    { k with tlb := k.tlb.filter (fun e => !(e.va < r.1 + r.2 && r.1 < e.va + e.size)) })) s

/-- TINV_START (R359): a write while busy is discarded. -/
def execTinvStart (part : BitVec 6) (v : Word) (s : State) : Host.Outcome State Fault Refusal :=
  if (s.part part).formed && (s.part part).tinv.isNone && bit v 0 then
    .next ((s.updPart part (fun p => { p with tinv := some v })).dropEntries part (tinvRange v))
  else .next s

/-- A translation that a TINV covers is taken from a pending store or record operation, which keeps the page's number raised by 2^48; pages
of the core windows have none in the page tables (R420). -/
def takenFrame (r : Nat × Nat) (f : Nat × Nat) : Nat × Nat :=
  let va := f.1 * 2 ^ 16
  if va + 2 ^ 16 ≤ r.1 || r.1 + r.2 ≤ va || windowBase ≤ va then f else (f.1 + 2 ^ 48, f.2)

/-- Translations of pending stores and record operations that a TINV covers are taken from them (R420), and a waiting word is placed
anew. -/
def Context.dropFrames (c : Context) (r : Nat × Nat) : Context :=
  let store (o : StoreOp) : StoreOp := { o with frames := o.frames.map (takenFrame r) }
  let queues (q : Queues) : Queues := { q with sa := q.sa.map store }
  { c with user := c.user.updQ queues, hand := c.hand.updQ queues, watch := none
           tileOps := c.tileOps.map (fun o => { o with frames := o.frames.map (takenFrame r) }) }

/-- Whether a line of a tile cache may hold bytes of a range: a tile row's addresses follow from its record, so each one may and is
dropped: DESIGN CHOICE (log entry 107). -/
def LineTag.inRange (l : LineTag) (r : Nat × Nat) : Bool :=
  match l with
  | .plain va => va < r.1 + r.2 && r.1 < va + 1024
  | .tensor _ _ _ _ => true

/-- TINV_COMPLETE (R337, R359, R420): entries of the range are gone, dirty bytes are written back and lines dropped in every
core of the partition, which may evict any line at any time; stores still to be performed and waiting words translate
anew. -/
def execTinvComplete (part : BitVec 6) (s : State) : Host.Outcome State Fault Refusal :=
  match (s.part part).tinv with
  | none => .next s
  | some v =>
    let r := tinvRange v
    let s := s.dropEntries part r
    let s := (s.coresOfPart part).foldl (fun (s : State) g =>
      let s := ctxNums.foldl (fun (s : State) n => s.phaseWrite { core := g, ctx := n } .sys) s
      s.updCore g (fun k => { k with pub := [], lines := k.lines.filter (fun l => !l.inRange r), ctxs := k.ctxs.map (fun c => c.dropFrames r) })) s
    .next (s.updPart part (fun p => { p with tinv := none }))

end Sys2Proof.Machine
end

