-- ==== Sys2Proof/Machine/Health.lean ====
section
/-! DEFINITION. Bring-up (R398, R414, R415), attestation (R416), storage registrations (R413), monitors and the coolant grade
(R398, R417), wear and spares (R418), and register writes without a behaviour of their own (R7). -/

namespace Sys2Proof.Machine

-- Bring-up ------------------------------------------------------------------------------------------------------

/-- What a start of the module leaves: the error ring with its count since power-on (R395), the non-volatile store, the marks of retirement in it, the firmware in use, and the
grade that the sensor reports. Everything else is as in `State.reset` (R398, R415, R418; log entry 30). -/
def State.coldState (s : State) : State :=
  let mark (x : Terrace) : Terrace :=
    { Terrace.reset with coresMarked := x.coresMarked, viasMarked := x.viasMarked, rowsMarked := x.rowsMarked
                         channelsMarked := x.channelsMarked }
  { State.reset with
    fresh := s.fresh, nextUid := s.nextUid, terraces := s.terraces.map mark, roleboot := s.roleboot
    coolantHigh := s.coolantHigh, bootVersion := s.bootVersion, urmonDigest := s.urmonDigest, deviceDigest := s.deviceDigest,
    bootFails := s.bootFails, bootReason := s.bootReason, elog := s.elog, elogCount := s.elogCount }

/-- The reason for which a start fails before any terrace moves (R398, R414). -/
def bootReasonOf (f : BootFacts) (highFlow : Bool) (map : BitVec 32) : BitVec 8 :=
  if !f.signatureOk then 0x01
  else if !f.digestOk then 0x02
  else if !f.aboveFloor then 0x03
  else if !f.dramOk then 0x04
  else if mapTooHot highFlow map || mapReserved map then 0x07
  else 0

/-- The two images that a start brings into use (R414, R416). -/
def State.takeImages (s : State) (f : BootFacts) : State :=
  { s with bootVersion := f.version, urmonDigest := f.urmonDigest, deviceDigest := f.deviceDigest }

/-- A start of the module (R398, R414, R415): a trickle start where the count of failed ones is at 3, which runs no image but a signed
one, otherwise the signed boot
and then ROLEBOOT as a role map. -/
def State.start (s : State) (f : BootFacts) : State :=
  let s := s.coldState
  if s.bootFails = 3 then
    let s : State := if f.signatureOk && f.digestOk && f.aboveFloor then s.takeImages f else s
    ({ s with bootTrickle := true } : State).applyMap 1
  else
    let map := s.roleboot.extractLsb' 0 32
    let r := bootReasonOf f s.coolantHigh map
    let s : State := if r = 1 || r = 2 || r = 3 then s else s.takeImages f
    if r != 0 then s.startFails r
    else (({ s with starting := true } : State).applyMap map).checkStart

/-- POWER_ON_RESET (R395, R398, R414, R415): the error ring is empty and its count is zero. -/
def execPowerOnReset (f : BootFacts) (s : State) : Host.Outcome State Fault Refusal :=
  .next (({ s with elog := [], elogCount := 0 } : State).start f)

/-- BOOT_START_TIMEOUT (R414): a start that has not completed. -/
def execBootStartTimeout (s : State) : Host.Outcome State Fault Refusal :=
  .next (if s.starting then s.startFails 0x06 else s)

/-- BOOTCTL_RESTART (R415): a write of 1 clears the count and starts again. -/
def execBootctlRestart (v : Word) (f : BootFacts) (s : State) : Host.Outcome State Fault Refusal :=
  .next (if bit v 0 then ({ s with bootFails := 0 } : State).start f else s)

-- Attestation ---------------------------------------------------------------------------------------------------

/-- ATTESTATION_REQUEST (R416). -/
def execAttestationRequest (v : Word) (s : State) : Host.Outcome State Fault Refusal :=
  .next (if bit v 0 then { s with attestBusy := true } else s)

/-- The nonce's 64 bytes. -/
def State.nonceBytes (s : State) : List Byte := (List.range 64).map (fun i => s.nonce.getD i 0)

/-- What a report holds before its signature (R416): the nonce, the two digests with their highest byte first, the version and
ROLEMAP. -/
def State.reportBody (s : State) : List Byte :=
  s.nonceBytes ++ bigBytes 64 s.urmonDigest.toNat ++ bigBytes 64 s.deviceDigest.toNat ++ natBytes 2 s.bootVersion.toNat ++
    natBytes 8 s.rolemap.toNat

/-- ATTESTATION_COMPLETE (R416): the signature is the module's, over the digest of everything before it (log entry 9). -/
def execAttestationComplete (s : State) : Host.Outcome State Fault Refusal :=
  .next (if s.attestBusy then
      { s with attestBusy := false, report := s.reportBody ++ bigBytes 512 (Config.identitySign (sha512 s.reportBody)).toNat }
    else s)

-- Storage registrations -----------------------------------------------------------------------------------------

/-- REGISTRATION_WRITE (R413): one that clears valid waits for the storage reads in flight on it. -/
def execRegistrationWrite (r : BitVec 12) (v : BitVec 256) (s : State) : Host.Outcome State Fault Refusal :=
  let wait := bit (s.registration r.toNat) 0 && !bit v 0 && s.storing r.toNat
  .next (if wait then { s with regPending := Assoc.put s.regPending r.toNat v }
    else { s with registrations := Assoc.put s.registrations r.toNat v, regPending := Assoc.drop s.regPending r.toNat })

-- Monitors ------------------------------------------------------------------------------------------------------

/-- Whether every temperature of a cascade is below a bound in sixteenths of a degree. -/
def State.coolerThan (s : State) (c : Nat) (bound : Int) : Bool :=
  (List.range 4).all (fun t => ((s.terrace (4 * c + t)).monitors.toList.take 16).all (fun m => decide (m.toInt < bound)))

/-- What a new temperature of a terrace brings about (R399, R417): past 105 degrees the cascade's clock is lowered until all are below 100,
and past 115 the terrace fails. -/
def State.heat (s : State) (t : Nat) (value : BitVec 16) : State :=
  let c := t / 4
  let lower (l : Bool) : Bool := if decide (1680 < value.toInt) then true else if s.coolerThan c 1600 then false else l
  let s : State := match s.cascades[c]? with
    | some k => { s with cascades := s.cascades.setIfInBounds c { k with lowered := lower k.lowered } }
    | none => s
  if decide (1840 < value.toInt) then ((s.killTerrace t).failTerrace t 2).checkStart else s

/-- THERMAL_EVENT (R29, R399, R417): one of the 28 monitors of a terrace has a new value; the first sixteen are temperatures. -/
def execThermalEvent (t : BitVec 4) (monitor : BitVec 5) (value : BitVec 16) (s : State) : Host.Outcome State Fault Refusal :=
  let s := s.updTerrace t.toNat (fun x => { x with monitors := x.monitors.setIfInBounds monitor.toNat value })
  .next (if monitor.toNat < 16 then s.heat t.toNat value else s)

/-- COOLANT_GRADE_CHANGE (R395, R398). -/
def execCoolantGradeChange (high : Bool) (s : State) : Host.Outcome State Fault Refusal := .next { s with coolantHigh := high }

-- Wear ----------------------------------------------------------------------------------------------------------

/-- A channel of a terrace marked once 64 of its rows are (R418). -/
def Terrace.markChannel (x : Terrace) (ch : Nat) : Terrace :=
  if 64 ≤ (x.rowsMarked.filter (fun r => r.1 == ch)).length then { x with channelsMarked := setAdd x.channelsMarked ch } else x

/-- A part is marked for retirement; a link lane is replaced at once (R391, R418). -/
def State.markPart (s : State) (p : Part) : State :=
  match p with
  | .core c => s.updTerrace (terraceOf c) (fun x => { x with coresMarked := setAdd x.coresMarked (physOf c) })
  | .row t ch r => s.updTerrace t.toNat (fun x =>
      Terrace.markChannel { x with rowsMarked := if x.rowsMarked.contains (ch.toNat, r) then x.rowsMarked else x.rowsMarked ++ [(ch.toNat, r)] } ch.toNat)
  | .channel t ch => s.updTerrace t.toNat (fun x => { x with channelsMarked := setAdd x.channelsMarked ch.toNat })
  | .via t v => s.updTerrace t.toNat (fun x => { x with viasMarked := setAdd x.viasMarked v })
  | .lane l k => s.laneFails l k

/-- CORRECTABLE_ERROR (R418): the sixteenth of a core within 24 hours, the second of a DRAM row and the fourth of a via mark the part. How
many of a core's earlier errors lie within 24 hours the event does not say (log entry 31); a lane's event is its thousandth retry within
a second. -/
def execCorrectableError (p : Part) (s : State) : Host.Outcome State Fault Refusal :=
  .next (match p with
    | .core c =>
      let (d, s) := s.draw
      let x := s.terrace (terraceOf c)
      let n := (Config.outsideWord d).toNat % (Assoc.get 0 x.coreErrors (physOf c) + 1) + 1
      let s := s.setTerrace (terraceOf c) { x with coreErrors := Assoc.put x.coreErrors (physOf c) n }
      if 16 ≤ n then s.markPart p else s
    | .row t ch r =>
      let x := s.terrace t.toNat
      let n := Assoc.get 0 x.rowErrors (8 * r + ch.toNat) + 1
      let s := s.setTerrace t.toNat { x with rowErrors := Assoc.put x.rowErrors (8 * r + ch.toNat) n }
      if 2 ≤ n then s.markPart p else s
    | .channel _ _ => s
    | .via t v =>
      let x := s.terrace t.toNat
      let n := Assoc.get 0 x.viaErrors v + 1
      let s := s.setTerrace t.toNat { x with viaErrors := Assoc.put x.viaErrors v n }
      if 4 ≤ n then s.markPart p else s
    | .lane _ _ => s.markPart p)

/-- UNCORRECTABLE_ERROR (R418): the byte's home holds the error for whoever consumes it, and the part is marked at once. -/
def execUncorrectableError (p : Part) (addr : Option Nat) (s : State) : Host.Outcome State Fault Refusal :=
  let s := s.markPart p
  .next (match addr with
    | some k => { s with poison := setAdd s.poison k }
    | none => s)

-- Registers -----------------------------------------------------------------------------------------------------

/-- The nonce with eight bytes from an offset replaced. -/
def setNonce (n : List Byte) (off : Nat) (v : Word) : List Byte := (n.take off) ++ wordBytes v ++ (n.drop (off + 8))

/-- A write to LCTL of a link: bits [1:0] name the command, 0b00 does nothing, and the other bits are reserved (R7, R390). -/
def State.writeLctl (s : State) (n : BitVec 4) (v : Word) : Host.Outcome State Fault Refusal :=
  match (v.extractLsb' 0 2).toNat with
  | 1 => execLctlTrain n s
  | 2 => execLctlQuarantine n s
  | 3 => execLctlRelease n s
  | _ => .next s

/-- REGISTER_WRITE (R7, R390, R416): the nonce is the one management register that keeps what is written to it and does nothing; a
write to it while a report is built is discarded, a write to LCTL of a link is its command, and a write to a reserved offset or a
read-only register is ignored. -/
def execRegisterWrite (offset : Nat) (v : Word) (s : State) : Host.Outcome State Fault Refusal :=
  if offset < 0x400 && offset % 0x40 == 8 then s.writeLctl (BitVec.ofNat 4 (offset / 0x40)) v
  else .next (if 0x2040 ≤ offset && offset < 0x2080 && offset % 8 == 0 && !s.attestBusy then
      { s with nonce := setNonce s.nonceBytes (offset - 0x2040) v }
    else s)

-- What the registers read as ------------------------------------------------------------------------------------

def TState.code : TState → BitVec 3
  | .offline => 0 | .compute => 1 | .reservoir => 2 | .draining => 3 | .flushing => 4 | .enumerating => 5 | .failed => 6

/-- TSTAT (R396). -/
def Terrace.tstat (x : Terrace) : Word :=
  let spares := (positions.filter (fun p => 96 ≤ x.coreAt p)).length
  (0 : BitVec 52) ++ BitVec.ofNat 4 spares ++ x.cause ++ (0 : BitVec 1) ++ x.st.code

/-- MSTAT (R395). -/
def State.mstat (s : State) : Word :=
  let busy := terraceNums.foldl (fun (b : BitVec 16) t => if (s.terrace t).busy then b ||| (1 : BitVec 16) <<< t else b) 0
  (0 : BitVec 40) ++ s.mstatus ++ busy

/-- The retirement marks of a terrace (R418); a count that its field cannot hold reads as the largest that it can. -/
def Terrace.marks (x : Terrace) : Word :=
  let count (n : Nat) (k : Nat) : BitVec n := BitVec.ofNat n (min (2 ^ n - 1) k)
  (0 : BitVec 47) ++ BitVec.ofBool (!x.channelsMarked.isEmpty) ++ count 8 x.rowsMarked.length ++ count 4 x.viasMarked.length ++
    count 4 x.coresMarked.length

/-- A registration as it reads: its reserved bytes read zero (R7, R413). -/
def registrationRead (r : BitVec 256) : BitVec 256 := r.extractLsb' 128 128 ++ (0 : BitVec 64) ++ r.extractLsb' 16 48 ++ (0 : BitVec 8) ++ r.extractLsb' 0 8

/-- BOOTREP (R414). -/
def State.bootrep (s : State) : Word :=
  (0 : BitVec 32) ++ s.bootVersion ++ (0 : BitVec 3) ++ BitVec.ofBool s.bootTrickle ++ (0 : BitVec 2) ++ s.bootFails ++ s.bootReason

def LinkState.code : LinkState → BitVec 3
  | .down => 0 | .training => 1 | .up => 2 | .degraded => 3 | .quarantined => 4

/-- LSTAT (R390). -/
def Link.lstat (l : Link) : Word :=
  (0 : BitVec 8) ++ l.retries ++ l.peerModule ++ l.peerLink ++ l.cause ++ l.spareFor ++ l.failed ++ l.st.code

def VState.code : VState → BitVec 3
  | .disabled => 0 | .idle => 1 | .ready => 2 | .running => 3 | .resetting => 4

/-- VDSTAT (R405). -/
def VDev.vdstat (d : VDev) : Word :=
  let resetting := match d.st with | .resetting => true | _ => false
  BitVec.ofBool resetting ++ (0 : BitVec 47) ++ d.code ++ (0 : BitVec 5) ++ d.st.code

/-- GSTAT (R410). -/
def VDev.gstat (d : VDev) : Word :=
  d.completed ++ d.lastStatus ++ (0 : BitVec 36) ++ BitVec.ofBool d.overflow ++ BitVec.ofNat 3 d.graphs.length

/-- What a read of BAR 0 of a virtual function gives (R7, R410): GSUBMIT is write-only, and the other offsets are reserved. -/
def State.readFunction (s : State) (vf : BitVec 10) (off : Nat) : Word := if off = 8 then (s.vdev vf.toNat).gstat else 0

/-- A write to BAR 0 of a virtual function (R7, R410). -/
def State.writeFunction (s : State) (vf : BitVec 10) (off : Nat) (v : Word) : Host.Outcome State Fault Refusal :=
  if off = 0 then execGsubmit vf v s else if off = 8 then execGstatWrite vf v s else .next s

/-- TINV's reading (R359). -/
def Partition.tinvWord (p : Partition) : Word := BitVec.ofNat 64 (if p.tinv.isSome then 1 else 0)

/-- ELOGHEAD (R395). -/
def State.elogHead (s : State) : Word := BitVec.ofNat 58 s.elogCount ++ BitVec.ofNat 6 s.elogCount

/-- What a read of a management register gives (R7, R390, R395, R405, R407, R413 to R418); write-only and reserved offsets read
zero. -/
def State.readManagement (s : State) (off : Nat) : Word :=
  if off < 0x400 then
    if off % 0x40 = 0 then (s.link (BitVec.ofNat 4 (off / 0x40))).lstat else 0
  else if off = 0x800 then s.rolemap.setWidth 64
  else if off = 0x808 then s.mstat
  else if off = 0x818 then s.elogHead
  else if 0x820 ≤ off && off < 0x8A0 && off % 8 == 0 then (s.terrace ((off - 0x820) / 8)).tstat
  else if off = 0x8A0 then BitVec.ofNat 64 (if s.coolantHigh then 1 else 0)
  else if off = 0x8A8 then s.roleboot
  else if 0xC00 ≤ off && off < 0x1000 && off % 8 == 0 then
    let e := (s.elog[(off - 0xC00) / 16]?).getD (0, 0)
    if off % 16 = 0 then e.1 else e.2
  else if off = 0x2000 then s.bootrep
  else if 0x2040 ≤ off && off < 0x2080 && off % 8 == 0 then bytesWord ((s.nonceBytes.drop (off - 0x2040)).take 8)
  else if off = 0x2080 then BitVec.ofNat 64 (if s.attestBusy then 1 else 0)
  else if 0x2100 ≤ off && off < 0x2800 && off % 8 == 0 then bytesWord ((s.report.drop (off - 0x2100)).take 8)
  else if 0x2800 ≤ off && off < 0x2880 && off % 8 == 0 then (s.terrace ((off - 0x2800) / 8)).marks
  else if 0x3000 ≤ off && off < 0x3400 && off % 2 == 0 then
    let m := off % 0x40 / 2
    (((s.terrace ((off - 0x3000) / 0x40)).monitors[m]?).getD 0).setWidth 64
  else if 0x10000 ≤ off && off < 0x14000 && off % 8 == 0 then
    let d := s.vdev ((off - 0x10000) / 16)
    if off % 16 = 0 then d.cfg else d.vdstat
  else if 0x20000 ≤ off && off < 0x40000 && off % 8 == 0 then
    (registrationRead (s.registration ((off - 0x20000) / 32))).extractLsb' (off % 32 * 8) 64
  else 0

end Sys2Proof.Machine
end

