-- ==== Sys2Proof/Machine/Scalar.lean ====
section
/-! DEFINITION. The S slot (R149 to R156): arithmetic and logic, comparison and selection, bit fields, moves between
files, index bases and system registers (R111 to R115, R288, R366). -/

namespace Sys2Proof.Machine

/-- The template of R149 with two sources: their values at issue, and the result at its latency (R110). -/
def sBin (i : Instr) (lat : Nat) (d a b : Spec) (f : Word → Word → Word) : Act Unit := do
  let x ← srcS i a
  let y ← srcS i b
  dstS i lat d (f x y)

/-- The template of R149 with one source. -/
def sUn (i : Instr) (lat : Nat) (d a : Spec) (f : Word → Word) : Act Unit := do
  let x ← srcS i a
  dstS i lat d (f x)

/-- A 12-bit immediate as a two's-complement value (R149). -/
def sext12 (imm : BitVec 12) : Word := imm.signExtend 64

/-- High half of a signed or unsigned 128-bit product (R149). -/
def mulHighS (a b : Word) : Word := ((a.signExtend 128 * b.signExtend 128).extractLsb' 64 64)
def mulHighU (a b : Word) : Word := ((a.setWidth 128 * b.setWidth 128).extractLsb' 64 64)

/-- Quotients and remainders with the cases of R59. -/
def divS (a b : Word) : Word := if b = 0 then BitVec.allOnes 64 else a.sdiv b
def divU (a b : Word) : Word := if b = 0 then BitVec.allOnes 64 else a / b
def remS (a b : Word) : Word := if b = 0 then a else a.srem b
def remU (a b : Word) : Word := if b = 0 then a else a % b

/-- A shift count (R60). -/
def shCount (b : Word) : Nat := (b.extractLsb' 0 6).toNat

/-- Leading zeros and ones of a word (R149). -/
def clzOf (a : Word) : Word := if a = 0 then 64 else BitVec.ofNat 64 (63 - Nat.log2 a.toNat)
def popcOf (a : Word) : Word := BitVec.ofNat 64 ((List.range 64).filter (fun k => bit a k)).length

/-- Position and length of a bit field (R152). -/
def fieldPos (b : Word) : Nat := (b.extractLsb' 0 6).toNat
def fieldLen (b : Word) : Nat := if b.extractLsb' 8 6 = 0 then 64 else (b.extractLsb' 8 6).toNat

/-- The field that BEXT takes, and its sign extension. -/
def bextU (a b : Word) : Word := (a >>> fieldPos b) &&& BitVec.ofNat 64 (2 ^ fieldLen b - 1)
def bextSigned (a b : Word) : Word :=
  let r := bextU a b
  let l := fieldLen b
  if l < 64 && bit r (l - 1) then r ||| ~~~BitVec.ofNat 64 (2 ^ l - 1) else r

/-- The insertion of BINS. -/
def binsOf (old a b : Word) : Word :=
  let mask : Word := BitVec.ofNat 64 (2 ^ fieldLen b - 1) <<< fieldPos b
  (old &&& ~~~mask) ||| ((a <<< fieldPos b) &&& mask)

/-- ADD (R149). -/
def execAdd (d a b : Spec) (s : State) : Host.Outcome State Fault Refusal :=
  slotOp (.add d a b) (sBin (.add d a b) 1 d a b (· + ·)) s

/-- ADDI (R149). -/
def execAddi (d a : Spec) (imm : BitVec 12) (s : State) : Host.Outcome State Fault Refusal :=
  slotOp (.addi d a imm) (sUn (.addi d a imm) 1 d a (· + sext12 imm)) s

/-- SUB (R149). -/
def execSub (d a b : Spec) (s : State) : Host.Outcome State Fault Refusal :=
  slotOp (.sub d a b) (sBin (.sub d a b) 1 d a b (· - ·)) s

/-- MUL (R149). -/
def execMul (d a b : Spec) (s : State) : Host.Outcome State Fault Refusal :=
  slotOp (.mul d a b) (sBin (.mul d a b) 3 d a b (· * ·)) s

/-- MUL.hs (R149). -/
def execMulHs (d a b : Spec) (s : State) : Host.Outcome State Fault Refusal :=
  slotOp (.mulHs d a b) (sBin (.mulHs d a b) 3 d a b mulHighS) s

/-- MUL.hu (R149). -/
def execMulHu (d a b : Spec) (s : State) : Host.Outcome State Fault Refusal :=
  slotOp (.mulHu d a b) (sBin (.mulHu d a b) 3 d a b mulHighU) s

/-- DIV (R59, R149). -/
def execDiv (d a b : Spec) (s : State) : Host.Outcome State Fault Refusal :=
  slotOp (.div d a b) (sBin (.div d a b) 18 d a b divS) s

/-- DIV.u (R59, R149). -/
def execDivU (d a b : Spec) (s : State) : Host.Outcome State Fault Refusal :=
  slotOp (.divU d a b) (sBin (.divU d a b) 18 d a b Sys2Proof.Machine.divU) s

/-- REM (R59, R149). -/
def execRem (d a b : Spec) (s : State) : Host.Outcome State Fault Refusal :=
  slotOp (.rem d a b) (sBin (.rem d a b) 18 d a b remS) s

/-- REM.u (R59, R149). -/
def execRemU (d a b : Spec) (s : State) : Host.Outcome State Fault Refusal :=
  slotOp (.remU d a b) (sBin (.remU d a b) 18 d a b Sys2Proof.Machine.remU) s

/-- AND (R149). -/
def execAnd (d a b : Spec) (s : State) : Host.Outcome State Fault Refusal :=
  slotOp (.and d a b) (sBin (.and d a b) 1 d a b (· &&& ·)) s

/-- OR (R149). -/
def execOr (d a b : Spec) (s : State) : Host.Outcome State Fault Refusal :=
  slotOp (.or d a b) (sBin (.or d a b) 1 d a b (· ||| ·)) s

/-- XOR (R149). -/
def execXor (d a b : Spec) (s : State) : Host.Outcome State Fault Refusal :=
  slotOp (.xor d a b) (sBin (.xor d a b) 1 d a b (· ^^^ ·)) s

/-- ANDI (R149). -/
def execAndi (d a : Spec) (imm : BitVec 12) (s : State) : Host.Outcome State Fault Refusal :=
  slotOp (.andi d a imm) (sUn (.andi d a imm) 1 d a (· &&& sext12 imm)) s

/-- ORI (R149). -/
def execOri (d a : Spec) (imm : BitVec 12) (s : State) : Host.Outcome State Fault Refusal :=
  slotOp (.ori d a imm) (sUn (.ori d a imm) 1 d a (· ||| sext12 imm)) s

/-- XORI (R149). -/
def execXori (d a : Spec) (imm : BitVec 12) (s : State) : Host.Outcome State Fault Refusal :=
  slotOp (.xori d a imm) (sUn (.xori d a imm) 1 d a (· ^^^ sext12 imm)) s

/-- SHL (R60, R149). -/
def execShl (d a b : Spec) (s : State) : Host.Outcome State Fault Refusal :=
  slotOp (.shl d a b) (sBin (.shl d a b) 1 d a b (fun x y => x <<< shCount y)) s

/-- SHR (R60, R149). -/
def execShr (d a b : Spec) (s : State) : Host.Outcome State Fault Refusal :=
  slotOp (.shr d a b) (sBin (.shr d a b) 1 d a b (fun x y => x >>> shCount y)) s

/-- SAR (R60, R149). -/
def execSar (d a b : Spec) (s : State) : Host.Outcome State Fault Refusal :=
  slotOp (.sar d a b) (sBin (.sar d a b) 1 d a b (fun x y => x.sshiftRight (shCount y))) s

/-- SHI.l (R60, R149). -/
def execShiL (d a : Spec) (n : BitVec 6) (s : State) : Host.Outcome State Fault Refusal :=
  slotOp (.shiL d a n) (sUn (.shiL d a n) 1 d a (· <<< n.toNat)) s

/-- SHI.r (R60, R149). -/
def execShiR (d a : Spec) (n : BitVec 6) (s : State) : Host.Outcome State Fault Refusal :=
  slotOp (.shiR d a n) (sUn (.shiR d a n) 1 d a (· >>> n.toNat)) s

/-- SHI.a (R60, R149). -/
def execShiA (d a : Spec) (n : BitVec 6) (s : State) : Host.Outcome State Fault Refusal :=
  slotOp (.shiA d a n) (sUn (.shiA d a n) 1 d a (fun x => x.sshiftRight n.toNat)) s

/-- MIN (R149). -/
def execMin (d a b : Spec) (s : State) : Host.Outcome State Fault Refusal :=
  slotOp (.min d a b) (sBin (.min d a b) 1 d a b (fun x y => if y.slt x then y else x)) s

/-- MIN.u (R149). -/
def execMinU (d a b : Spec) (s : State) : Host.Outcome State Fault Refusal :=
  slotOp (.minU d a b) (sBin (.minU d a b) 1 d a b (fun x y => if y.ult x then y else x)) s

/-- MAX (R149). -/
def execMax (d a b : Spec) (s : State) : Host.Outcome State Fault Refusal :=
  slotOp (.max d a b) (sBin (.max d a b) 1 d a b (fun x y => if x.slt y then y else x)) s

/-- MAX.u (R149). -/
def execMaxU (d a b : Spec) (s : State) : Host.Outcome State Fault Refusal :=
  slotOp (.maxU d a b) (sBin (.maxU d a b) 1 d a b (fun x y => if x.ult y then y else x)) s

/-- CLZ (R149). -/
def execClz (d a : Spec) (s : State) : Host.Outcome State Fault Refusal :=
  slotOp (.clz d a) (sUn (.clz d a) 1 d a clzOf) s

/-- POPC (R149). -/
def execPopc (d a : Spec) (s : State) : Host.Outcome State Fault Refusal :=
  slotOp (.popc d a) (sUn (.popc d a) 1 d a popcOf) s

/-- BEXT (R152). -/
def execBext (d a b : Spec) (s : State) : Host.Outcome State Fault Refusal :=
  slotOp (.bext d a b) (sBin (.bext d a b) 1 d a b bextU) s

/-- BEXT.s (R152). -/
def execBextS (d a b : Spec) (s : State) : Host.Outcome State Fault Refusal :=
  slotOp (.bextS d a b) (sBin (.bextS d a b) 1 d a b bextSigned) s

/-- BINS (R152): the destination's old value is read at issue. -/
def execBins (d a b : Spec) (s : State) : Host.Outcome State Fault Refusal :=
  slotOp (.bins d a b) (do
    let old ← srcS (.bins d a b) d
    sBin (.bins d a b) 1 d a b (binsOf old)) s

/-- The result of a comparison (R150): 1 or 0, or all of a predicate register. -/
def dstCmp (i : Instr) (d : CmpDst) (r : Bool) : Act Unit :=
  match d with
  | .s sp => dstS i 1 sp (if r then 1 else 0)
  | .p n => emit i 1 (.p n (if r then BitVec.allOnes 128 else 0) (BitVec.allOnes 128))

/-- CMP (R150). -/
def execCmp (d : CmpDst) (a b : Spec) (c : SCond) (s : State) : Host.Outcome State Fault Refusal :=
  slotOp (.cmp d a b c) (do
    let x ← srcS (.cmp d a b c) a
    let y ← srcS (.cmp d a b c) b
    dstCmp (.cmp d a b c) d (c.holds x y)) s

/-- CMPI (R150). -/
def execCmpi (d : CmpDst) (a : Spec) (v : BitVec 8) (c : SCond) (s : State) : Host.Outcome State Fault Refusal :=
  slotOp (.cmpi d a v c) (do
    let x ← srcS (.cmpi d a v c) a
    dstCmp (.cmpi d a v c) d (c.holds x (v.signExtend 64))) s

/-- SEL (R151). -/
def execSel (d a b : Spec) (neg : Bool) (p : BitVec 4) (s : State) : Host.Outcome State Fault Refusal :=
  slotOp (.sel d a b neg p) (do
    let c ← getMe
    sBin (.sel d a b neg p) 1 d a b (fun x y => if anyBit (c.p.get p) neg then x else y)) s

/-- LI (R149). -/
def execLi (d : Spec) (imm : BitVec 12) (s : State) : Host.Outcome State Fault Refusal :=
  slotOp (.li d imm) (dstS (.li d imm) 1 d (sext12 imm)) s

/-- LUI (R149). -/
def execLui (d : Spec) (imm : BitVec 12) (s : State) : Host.Outcome State Fault Refusal :=
  slotOp (.lui d imm) (dstS (.lui d imm) 1 d (sext12 imm <<< 12)) s

-- System registers ----------------------------------------------------------------------------------------------

/-- BASES (R115). -/
def Context.bases (c : Context) : Word :=
  (0 : BitVec 35) ++ c.bw ++ (0 : BitVec 3) ++ c.bv ++ (0 : BitVec 3) ++ c.ba ++ (0 : BitVec 3) ++ c.bs

/-- A system register as CSRR and MOVX read it (R111 to R115, R286, R288, R366). -/
def State.readSys (s : State) (n : Nat) : Word :=
  let c := s.me
  let p := s.part c.part
  match n with
  | 0x000 => c.sticky.setWidth 64
  | 0x001 => c.seed
  | 0x002 => BitVec.ofNat 64 c.user.tick
  | 0x003 => (0 : BitVec 50) ++ BitVec.ofBool c.mat ++ c.thread
  | 0x004 => (0 : BitVec 58) ++ c.ringOff ++ c.ringLen
  | 0x005 => c.bases
  | 0x010 => c.fcause
  | 0x011 => c.fdetail
  | 0x012 => c.faddr
  | 0x013 => c.fret
  | 0x014 => c.ftick
  | 0x015 => c.fpyr
  | 0x800 => p.hentry
  | 0x801 => p.hlen.setWidth 64
  | 0x820 => c.dvbase
  | 0x821 => c.dvsel
  | 0x822 => s.debugWord c
  | k => if 0x818 ≤ k && k ≤ 0x81F then c.s.get (BitVec.ofNat 5 (24 + (k - 0x818))) else 0

-- Moves ---------------------------------------------------------------------------------------------------------

/-- What MOVX reads (R153). -/
def readMov (i : Instr) (a : MovSrc) : Act Word := do
  let s ← get
  let c := s.me
  match a with
  | .loc (.s sp) => srcS i sp
  | .loc (.a sp) => srcA i sp
  | .loc (.l n) => return c.l.get n
  | .loc (.x n) => return c.readX n
  | .loc (.y n) => return c.y.get n
  | .sys n => return s.readSys n.toNat

/-- Where MOVX writes (R153). -/
def writeMov (i : Instr) (d : MovLoc) (v : Word) : Act Unit := do
  let c ← getMe
  match d with
  | .s sp => dstS i 2 sp v
  | .a sp => dstA i 2 sp v
  | .l n => emit i 2 (.l n v)
  | .x n => emit i 2 (c.effX n v)
  | .y n => emit i 2 (.y n v)

/-- MOVX (R153). -/
def execMovx (d : MovLoc) (a : MovSrc) (s : State) : Host.Outcome State Fault Refusal :=
  slotOp (.movx d a) (do
    let v ← readMov (.movx d a) a
    writeMov (.movx d a) d v) s

/-- MOVX.b (R154). -/
def execMovxB (slot : VSlot) (d a : Spec) (f : Fmt) (s : State) : Host.Outcome State Fault Refusal :=
  slotOp (.movxB slot d a f) (do
    let v ← srcS (.movxB slot d a f) a
    let c ← getMe
    let e := BitVec.ofNat 1024 (packElems f.bits (List.replicate (1024 / f.bits) v.toNat))
    match d with
    | .reg n => emit (.movxB slot d a f) 3 (effV slot n e (BitVec.allOnes 1024))
    | .rel n => emit (.movxB slot d a f) 3 (effV slot (relReg (c.vbase slot) n) e (BitVec.allOnes 1024))
    | _ => pure ()) s

/-- SETB (R155). -/
def execSetb (b : Base) (a : Spec) (s : State) : Host.Outcome State Fault Refusal :=
  slotOp (.setb b a) (do
    let v ← srcS (.setb b a) a
    emit (.setb b a) 2 (.base b (v.setWidth 5))) s

/-- CSRR (R111, R156). -/
def execCsrr (d : Spec) (n : BitVec 12) (s : State) : Host.Outcome State Fault Refusal :=
  slotOp (.csrr d n) (do
    let s ← get
    dstS (.csrr d n) 1 d (s.readSys n.toNat)) s

/-- CSRW (R111, R156). -/
def execCsrw (n : BitVec 12) (a : Spec) (s : State) : Host.Outcome State Fault Refusal :=
  slotOp (.csrw n a) (do
    let v ← srcS (.csrw n a) a
    emit (.csrw n a) 1 (.sys n v)) s

end Sys2Proof.Machine
end

