-- ==== Sys2Proof/Machine/Scale.lean ====
section
/-! DEFINITION. The K slot (R190 to R192). -/

namespace Sys2Proof.Machine

/-- 128 bytes of the core's own scratchpad (R191): the lowest kept granule that the read touches faults, and an offset
that is not a multiple of 128. -/
def kRead (i : Instr) (off : Nat) : Act VWord := do
  let s ← get
  let c := s.me
  let k := padBase s.cur.core
  match [off / 64, off / 64 + 1, (off + 127) / 64].find? (fun g => s.kept (k + 64 * g)) with
  | some g => throw { code := 0x09, detail := detailWord 0x05 0 0x10 (opSlot i) 0, addr := BitVec.ofNat 64 (c.windowVa (64 * g)) }
  | none =>
    if off % 128 ≠ 0 then faultAt 0x0D (c.windowVa off)
    else do
      let b ← padBytes off 128
      pure (BitVec.ofNat 1024 (bytesNat b))

/-- KLD with an offset (R191). -/
def execKld (d : BitVec 4) (off : BitVec 14) (s : State) : Host.Outcome State Fault Refusal :=
  slotOp (.kld d off) (do
    let v ← kRead (.kld d off) (off.toNat * 128)
    emit (.kld d off) 6 (.k d v)) s

/-- KLD from d0 (R104, R191). -/
def execKldD0 (d : BitVec 4) (off : BitVec 14) (s : State) : Host.Outcome State Fault Refusal :=
  slotOp (.kldD0 d off) (do
    let c ← getMe
    let v ← kRead (.kldD0 d off) ((((c.d.get (c.ringCell 0)).extractLsb' 0 21).toNat + off.toNat * 128) % 2 ^ 21)
    emit (.kldD0 d off) 6 (.k d v)) s

/-- KSET (R192). -/
def execKset (d : BitVec 4) (c : BitVec 8) (s : State) : Host.Outcome State Fault Refusal :=
  slotOp (.kset d c) (emit (.kset d c) 1 (.k d (BitVec.ofNat 1024 (packElems 8 (List.replicate 128 c.toNat))))) s

/-- KMOV (R192). -/
def execKmov (d src : BitVec 4) (s : State) : Host.Outcome State Fault Refusal :=
  slotOp (.kmov d src) (do
    let c ← getMe
    emit (.kmov d src) 1 (.k d (c.k.get src))) s

/-- One scale code adjusted (R192). -/
def adjustCode (n : BitVec 8) (c : Nat) : Nat × Flags :=
  if c = 0xFF then (0xFF, 0)
  else
    let r : Int := c + n.toInt
    if 0xFE < r then (0xFE, flOverflow) else if r < 0 then (0, flUnder) else (r.toNat, 0)

/-- KMOV.adj (R192). -/
def execKmovAdj (d src : BitVec 4) (n : BitVec 8) (s : State) : Host.Outcome State Fault Refusal :=
  slotOp (.kmovAdj d src n) (do
    let c ← getMe
    let rs := (elemsOf (c.k.get src) 8 128).map (adjustCode n)
    emit (.kmovAdj d src n) 1 (.k d (BitVec.ofNat 1024 (packElems 8 (rs.map (·.1))))) (rs.foldl (fun f r => f ||| r.2) 0)) s

end Sys2Proof.Machine
end

