-- ==== Sys2Proof/Machine/VecInt.lean ====
section
/-! DEFINITION. The integer, pixel, bit-field and lookup members of the vector slots (R198 to R206). -/

namespace Sys2Proof.Machine

/-- An integer function of one element's value, wrapped. -/
def iF1 (f : Fmt) (g : Int → Int) (a : Nat) : Nat × Flags := plain (wrapTo f.bits (g (intVal f a)))
def iF2 (f : Fmt) (g : Int → Int → Int) (a b : Nat) : Nat × Flags := plain (wrapTo f.bits (g (intVal f a) (intVal f b)))
def iF3 (f : Fmt) (g : Int → Int → Int → Int) (a b c : Nat) : Nat × Flags :=
  plain (wrapTo f.bits (g (intVal f a) (intVal f b) (intVal f c)))

/-- A value clamped to the range of a format. -/
def satTo (f : Fmt) (v : Int) : Int := clampInt (intMin f.isSigned f.bits) (intMax f.isSigned f.bits) v

/-- VADD (R198). -/
def execVadd (h : VHdr) (f : Fmt) (d a b : Spec) (s : State) : Host.Outcome State Fault Refusal :=
  slotOp (.vadd h f d a b) (vMap2 (.vadd h f d a b) h f.bits 2 d a b (iF2 f (· + ·))) s

/-- VSUB (R198). -/
def execVsub (h : VHdr) (f : Fmt) (d a b : Spec) (s : State) : Host.Outcome State Fault Refusal :=
  slotOp (.vsub h f d a b) (vMap2 (.vsub h f d a b) h f.bits 2 d a b (iF2 f (· - ·))) s

/-- VMUL (R198): the low or the high e bits of the exact product. -/
def execVmul (h : VHdr) (f : Fmt) (d a b : Spec) (hi : Bool) (s : State) : Host.Outcome State Fault Refusal :=
  slotOp (.vmul h f d a b hi) (vMap2 (.vmul h f d a b hi) h f.bits 4 d a b
    (iF2 f (fun x y => if hi then x * y / (2 ^ f.bits : Nat) else x * y))) s

/-- VMAD (R198). -/
def execVmad (h : VHdr) (f : Fmt) (d a b c : Spec) (s : State) : Host.Outcome State Fault Refusal :=
  slotOp (.vmad h f d a b c) (vMap3 (.vmad h f d a b c) h f.bits 4 d a b c (iF3 f (fun x y z => x * y + z))) s

/-- VADDS (R198). -/
def execVadds (h : VHdr) (f : Fmt) (d a b : Spec) (s : State) : Host.Outcome State Fault Refusal :=
  slotOp (.vadds h f d a b) (vMap2 (.vadds h f d a b) h f.bits 2 d a b (iF2 f (fun x y => satTo f (x + y)))) s

/-- VSUBS (R198). -/
def execVsubs (h : VHdr) (f : Fmt) (d a b : Spec) (s : State) : Host.Outcome State Fault Refusal :=
  slotOp (.vsubs h f d a b) (vMap2 (.vsubs h f d a b) h f.bits 2 d a b (iF2 f (fun x y => satTo f (x - y)))) s

/-- VMIN (R198). -/
def execVmin (h : VHdr) (f : Fmt) (d a b : Spec) (s : State) : Host.Outcome State Fault Refusal :=
  slotOp (.vmin h f d a b) (vMap2 (.vmin h f d a b) h f.bits 2 d a b (iF2 f min)) s

/-- VMAX (R198). -/
def execVmax (h : VHdr) (f : Fmt) (d a b : Spec) (s : State) : Host.Outcome State Fault Refusal :=
  slotOp (.vmax h f d a b) (vMap2 (.vmax h f d a b) h f.bits 2 d a b (iF2 f max)) s

/-- VABS (R198). -/
def execVabs (h : VHdr) (f : Fmt) (d a : Spec) (s : State) : Host.Outcome State Fault Refusal :=
  slotOp (.vabs h f d a) (vMap1 (.vabs h f d a) h f.bits 2 d a (iF1 f (fun x => x.natAbs))) s

/-- VAVG (R198). -/
def execVavg (h : VHdr) (f : Fmt) (d a b : Spec) (tr : Bool) (s : State) : Host.Outcome State Fault Refusal :=
  slotOp (.vavg h f d a b tr) (vMap2 (.vavg h f d a b tr) h f.bits 2 d a b
    (iF2 f (fun x y => (x + y + (if tr then 0 else 1)) / 2))) s

/-- VABSD (R198). -/
def execVabsd (h : VHdr) (f : Fmt) (d a b : Spec) (s : State) : Host.Outcome State Fault Refusal :=
  slotOp (.vabsd h f d a b) (vMap2 (.vabsd h f d a b) h f.bits 2 d a b (iF2 f (fun x y => (x - y).natAbs))) s

/-- A shift of elements: the count is bits [5:0] of the element of b, or the immediate (R60, R198). -/
def vShiftOp (i : Instr) (h : VHdr) (f : Fmt) (d a : Spec) (b : ShiftBy) (g : Nat → Nat → Nat) : Act Unit :=
  match b with
  | .by b => vMap2 i h f.bits 2 d a b (fun x y => plain (g x (y % 64)))
  | .imm k => vMap1 i h f.bits 2 d a (fun x => plain (g x k.toNat))

/-- VSHL (R60, R198). -/
def execVshl (h : VHdr) (f : Fmt) (d a : Spec) (b : ShiftBy) (s : State) : Host.Outcome State Fault Refusal :=
  slotOp (.vshl h f d a b) (vShiftOp (.vshl h f d a b) h f d a b (fun x n => x * 2 ^ n % 2 ^ f.bits)) s

/-- VSHR (R60, R198). -/
def execVshr (h : VHdr) (f : Fmt) (d a : Spec) (b : ShiftBy) (s : State) : Host.Outcome State Fault Refusal :=
  slotOp (.vshr h f d a b) (vShiftOp (.vshr h f d a b) h f d a b (fun x n => x / 2 ^ n)) s

/-- An element of e bits as a signed number, whatever its format. -/
def signedOf (e x : Nat) : Int := if 2 ^ (e - 1) ≤ x then (x : Int) - (2 ^ e : Nat) else x

/-- VSAR (R60, R198). -/
def execVsar (h : VHdr) (f : Fmt) (d a : Spec) (b : ShiftBy) (s : State) : Host.Outcome State Fault Refusal :=
  slotOp (.vsar h f d a b) (vShiftOp (.vsar h f d a b) h f d a b
    (fun x n => wrapTo f.bits (signedOf f.bits x / (2 ^ n : Nat)))) s

/-- VAND (R198). -/
def execVand (h : VHdr) (f : Fmt) (d a b : Spec) (s : State) : Host.Outcome State Fault Refusal :=
  slotOp (.vand h f d a b) (vMap2 (.vand h f d a b) h f.bits 2 d a b (fun x y => plain (x &&& y))) s

/-- VOR (R198). -/
def execVor (h : VHdr) (f : Fmt) (d a b : Spec) (s : State) : Host.Outcome State Fault Refusal :=
  slotOp (.vor h f d a b) (vMap2 (.vor h f d a b) h f.bits 2 d a b (fun x y => plain (x ||| y))) s

/-- VXOR (R198). -/
def execVxor (h : VHdr) (f : Fmt) (d a b : Spec) (s : State) : Host.Outcome State Fault Refusal :=
  slotOp (.vxor h f d a b) (vMap2 (.vxor h f d a b) h f.bits 2 d a b (fun x y => plain (x ^^^ y))) s

/-- VNOT (R198). -/
def execVnot (h : VHdr) (f : Fmt) (d a : Spec) (s : State) : Host.Outcome State Fault Refusal :=
  slotOp (.vnot h f d a) (vMap1 (.vnot h f d a) h f.bits 2 d a (fun x => plain (2 ^ f.bits - 1 - x))) s

/-- VPOPC (R198). -/
def execVpopc (h : VHdr) (f : Fmt) (d a : Spec) (s : State) : Host.Outcome State Fault Refusal :=
  slotOp (.vpopc h f d a) (vMap1 (.vpopc h f d a) h f.bits 2 d a
    (fun x => plain ((List.range f.bits).filter (fun j => x.testBit j)).length)) s

/-- VCMP (R199). -/
def execVcmp (h : VHdr) (f : Fmt) (pd : BitVec 4) (a b : Spec) (c : VCond) (s : State) : Host.Outcome State Fault Refusal :=
  slotOp (.vcmp h f pd a b c) (vCompare (.vcmp h f pd a b c) h f.bits pd a b
    (fun x y => c.holds (intVal f x) (intVal f y))) s

/-- VSEL (R200): every element is written. -/
def execVsel (h : VHdr) (f : Fmt) (d a b : Spec) (s : State) : Host.Outcome State Fault Refusal :=
  let i := Instr.vsel h f d a b
  slotOp i (do
    let a ← srcV i h.slot a
    let b ← srcV i h.slot b
    let p ← predOf h
    let rs := (List.range (h.width.bits / f.bits)).map (fun k =>
      if enabled h p f.bits k then elemOf a f.bits k else elemOf b f.bits k)
    dstWhole i h 2 d (BitVec.ofNat 1024 (packElems f.bits rs))) s

/-- Sum over the four narrow elements of a destination element. -/
def dotSum (f : Fmt) (a b : VWord) (j : Nat) (g : Int → Int → Int) : Int :=
  (List.range 4).foldl (fun t m => t + g (intVal f (elemOf a f.bits (4 * j + m))) (intVal f (elemOf b f.bits (4 * j + m)))) 0

/-- VDOT (R201). -/
def execVdot (h : VHdr) (f : Fmt) (d a b c : Spec) (s : State) : Host.Outcome State Fault Refusal :=
  slotOp (.vdot h f d a b c) (vWhole3 (.vdot h f d a b c) h (4 * f.bits) 4 d a b c
    (fun a b c j => plain (wrapTo (4 * f.bits) (elemOf c (4 * f.bits) j + dotSum f a b j (· * ·))))) s

/-- The element of a source that half h gives position j (R201). -/
def halfElem (h : VHdr) (f : Fmt) (hi : Bool) (v : VWord) (j : Nat) : Int :=
  intVal f (elemOf v f.bits (j + (if hi then h.elems f / 2 else 0)))

/-- VWMUL (R201). -/
def execVwmul (h : VHdr) (f : Fmt) (d a b : Spec) (hi : Bool) (s : State) : Host.Outcome State Fault Refusal :=
  slotOp (.vwmul h f d a b hi) (vWhole2 (.vwmul h f d a b hi) h (2 * f.bits) 4 d a b
    (fun a b j => plain (wrapTo (2 * f.bits) (halfElem h f hi a j * halfElem h f hi b j)))) s

/-- The 2e-bit source element of VNARW for position j (R201). -/
def narrowSource (h : VHdr) (f : Fmt) (sgn : Bool) (a b : VWord) (j : Nat) : Int :=
  let half := h.elems f / 2
  let x := if j < half then elemOf a (2 * f.bits) j else elemOf b (2 * f.bits) (j - half)
  if f.isSigned || sgn then signedOf (2 * f.bits) x else x

/-- VNARW (R201). -/
def execVnarw (h : VHdr) (f : Fmt) (d a b : Spec) (sat sgn rnd : Bool) (n : BitVec 4) (s : State) :
    Host.Outcome State Fault Refusal :=
  slotOp (.vnarw h f d a b sat sgn rnd n) (vWhole2 (.vnarw h f d a b sat sgn rnd n) h f.bits 2 d a b (fun a b j =>
    let x := narrowSource h f sgn a b j
    let x := if rnd && n != 0 then x + (2 ^ (n.toNat - 1) : Nat) else x
    let x := x / (2 ^ n.toNat : Nat)
    plain (wrapTo f.bits (if sat then satTo f x else x)))) s

/-- VWIDE (R201). -/
def execVwide (h : VHdr) (f : Fmt) (d a : Spec) (hi : Bool) (s : State) : Host.Outcome State Fault Refusal :=
  slotOp (.vwide h f d a hi) (vWhole1 (.vwide h f d a hi) h (2 * f.bits) 2 d a
    (fun a j => plain (wrapTo (2 * f.bits) (halfElem h f hi a j)))) s

/-- A field of n bits extended to an element by the sign of its format. -/
def extendField (f : Fmt) (n x : Nat) : Nat := if f.isSigned then wrapTo f.bits (signedOf n x) else x

/-- VPXU (R202): bits at and above the operation's width read zero. -/
def execVpxu (h : VHdr) (f : Fmt) (d a b : Spec) (n : BitVec 5) (s : State) : Host.Outcome State Fault Refusal :=
  slotOp (.vpxu h f d a b n) (vWhole2 (.vpxu h f d a b n) h f.bits 3 d a b (fun a b k =>
    let w := n.toNat + 1
    let o := b.toNat % 1024
    plain (extendField f w (a.toNat % 2 ^ h.width.bits / 2 ^ (o + w * k) % 2 ^ w)))) s

/-- VPXP (R203): the destination is written whole. -/
def execVpxp (h : VHdr) (f : Fmt) (d a : Spec) (n : BitVec 5) (sat : Bool) (s : State) : Host.Outcome State Fault Refusal :=
  let i := Instr.vpxp h f d a n sat
  slotOp i (do
    let a ← srcV i h.slot a
    let p ← predOf h
    let w := n.toNat + 1
    let fs := (List.range (h.elems f)).map (fun k =>
      if enabled h p f.bits k then
        let v := intVal f (elemOf a f.bits k)
        wrapTo w (if sat then clampInt (intMin f.isSigned w) (intMax f.isSigned w) v else v)
      else 0)
    dstWhole i h 3 d (BitVec.ofNat 1024 (packElems w fs))) s

/-- VBITX (R204). -/
def execVbitx (h : VHdr) (f : Fmt) (d a b : Spec) (len : BitVec 6) (s : State) : Host.Outcome State Fault Refusal :=
  slotOp (.vbitx h f d a b len) (vMap2 (.vbitx h f d a b len) h f.bits 3 d a b (fun x y =>
    plain (extendField f len.toNat (x / 2 ^ (y % f.bits) % 2 ^ len.toNat)))) s

/-- VBITP (R204). -/
def execVbitp (h : VHdr) (f : Fmt) (d a b c : Spec) (len : BitVec 6) (s : State) : Host.Outcome State Fault Refusal :=
  slotOp (.vbitp h f d a b c len) (vMap3 (.vbitp h f d a b c len) h f.bits 3 d a b c (fun x y z =>
    let mask := (2 ^ len.toNat - 1) * 2 ^ (y % f.bits) % 2 ^ f.bits
    plain ((z &&& (2 ^ f.bits - 1 - mask)) ||| (x * 2 ^ (y % f.bits) &&& mask)))) s

/-- VLUT (R205). -/
def execVlut (h : VHdr) (f : Fmt) (d a b c : Spec) (x2 : Bool) (s : State) : Host.Outcome State Fault Refusal :=
  slotOp (.vlut h f d a b c x2) (vWhole3 (.vlut h f d a b c x2) h f.bits 3 d a b c (fun a b c k =>
    let t := 1024 / f.bits
    let idx := elemOf a f.bits k
    plain (if idx < t then elemOf b f.bits idx else if x2 && idx < 2 * t then elemOf c f.bits (idx - t) else 0))) s

/-- VSAD (R206). -/
def execVsad (h : VHdr) (f : Fmt) (d a b c : Spec) (s : State) : Host.Outcome State Fault Refusal :=
  slotOp (.vsad h f d a b c) (vWhole3 (.vsad h f d a b c) h (4 * f.bits) 4 d a b c
    (fun a b c j => plain (wrapTo (4 * f.bits) (elemOf c (4 * f.bits) j + dotSum f a b j (fun x y => (x - y).natAbs))))) s

end Sys2Proof.Machine
end

