-- ==== Sys2Proof/Machine/VecPerm.lean ====
section
/-! DEFINITION. The permutations, moves and predicate operations of the vector slots (R207 to R213). -/

namespace Sys2Proof.Machine

/-- VPERM (R207). -/
def execVperm (h : VHdr) (f : Fmt) (d a b c : Spec) (s : State) : Host.Outcome State Fault Refusal :=
  slotOp (.vperm h f d a b c) (vWhole3 (.vperm h f d a b c) h f.bits 3 d a b c (fun a b c k =>
    let n := h.elems f
    let idx := elemOf b f.bits k % (2 * n)
    plain (if idx < n then elemOf a f.bits idx else elemOf c f.bits (idx - n)))) s

/-- VSHUF (R207). -/
def execVshuf (h : VHdr) (f : Fmt) (d a : Spec) (m : BitVec 7) (s : State) : Host.Outcome State Fault Refusal :=
  slotOp (.vshuf h f d a m) (vWhole1 (.vshuf h f d a m) h f.bits 3 d a (fun a k => plain (elemOf a f.bits (k ^^^ m.toNat)))) s

/-- VSLIDE (R207). -/
def execVslide (h : VHdr) (f : Fmt) (d a b : Spec) (n : BitVec 7) (s : State) : Host.Outcome State Fault Refusal :=
  slotOp (.vslide h f d a b n) (vWhole2 (.vslide h f d a b n) h f.bits 3 d a b (fun a b k =>
    let j := k + n.toNat
    plain (if j < h.elems f then elemOf a f.bits j else elemOf b f.bits (j - h.elems f)))) s

/-- VZIP (R207). -/
def execVzip (h : VHdr) (f : Fmt) (d a b : Spec) (hi : Bool) (s : State) : Host.Outcome State Fault Refusal :=
  slotOp (.vzip h f d a b hi) (vWhole2 (.vzip h f d a b hi) h f.bits 3 d a b (fun a b k =>
    let j := k / 2 + (if hi then h.elems f / 2 else 0)
    plain (elemOf (if k % 2 = 0 then a else b) f.bits j))) s

/-- VUZIP (R207). -/
def execVuzip (h : VHdr) (f : Fmt) (d a b : Spec) (odd : Bool) (s : State) : Host.Outcome State Fault Refusal :=
  slotOp (.vuzip h f d a b odd) (vWhole2 (.vuzip h f d a b odd) h f.bits 3 d a b (fun a b k =>
    let half := h.elems f / 2
    let o := if odd then 1 else 0
    plain (if k < half then elemOf a f.bits (2 * k + o) else elemOf b f.bits (2 * (k - half) + o)))) s

/-- VTRN (R207). -/
def execVtrn (h : VHdr) (f : Fmt) (d a b : Spec) (odd : Bool) (s : State) : Host.Outcome State Fault Refusal :=
  slotOp (.vtrn h f d a b odd) (vWhole2 (.vtrn h f d a b odd) h f.bits 3 d a b (fun a b k =>
    let o := if odd then 1 else 0
    plain (elemOf (if k % 2 = 0 then a else b) f.bits (k / 2 * 2 + o)))) s

/-- VCMPR (R208). -/
def execVcmpr (h : VHdr) (f : Fmt) (d a : Spec) (merge : Bool) (s : State) : Host.Outcome State Fault Refusal :=
  let i := Instr.vcmpr h f d a merge
  slotOp i (do
    let a ← srcV i h.slot a
    let p ← predOf h
    let on := ((List.range (h.elems f)).filter (fun k => enabled h p f.bits k)).map (elemOf a f.bits)
    let val := BitVec.ofNat 1024 (packElems f.bits on)
    if merge then
      dstVMask i h.slot h.width.bits 3 d val (BitVec.ofNat 1024 (2 ^ (f.bits * on.length) - 1)) (BitVec.allOnes 128) 0
    else dstWhole i h 3 d val) s

/-- VBCAST (R207). -/
def execVbcast (h : VHdr) (f : Fmt) (d a : Spec) (m : BitVec 7) (s : State) : Host.Outcome State Fault Refusal :=
  slotOp (.vbcast h f d a m) (vWhole1 (.vbcast h f d a m) h f.bits 3 d a (fun a _ => plain (elemOf a f.bits m.toNat))) s

/-- VMOV (R209). -/
def execVmov (h : VHdr) (f : Fmt) (d a : Spec) (s : State) : Host.Outcome State Fault Refusal :=
  slotOp (.vmov h f d a) (vMap1 (.vmov h f d a) h f.bits 2 d a plain) s

/-- The element that VLI writes (R209). -/
def vliElem (f : Fmt) (imm : BitVec 25) : Nat :=
  match f with
  | .f32 => imm.toNat * 128
  | .s8 | .s16 | .s32 | .s64 => wrapTo f.bits imm.toInt
  | _ => imm.toNat % 2 ^ f.bits

/-- VLI (R209). -/
def execVli (h : VHdr) (f : Fmt) (d : Spec) (imm : BitVec 25) (s : State) : Host.Outcome State Fault Refusal :=
  slotOp (.vli h f d imm) (vOut (.vli h f d imm) h f.bits 2 d (fun _ => plain (vliElem f imm))) s

/-- The other vector slot's file. -/
def otherSlot : VSlot → VSlot
  | .v0 => .v1
  | .v1 => .v0

/-- VMOVX (R210). -/
def execVmovx (h : VHdr) (f : Fmt) (d a : Spec) (s : State) : Host.Outcome State Fault Refusal :=
  let i := Instr.vmovx h f d a
  slotOp i (do
    let a ← srcV i h.slot a
    let p ← predOf h
    let n := h.elems f
    let en := BitVec.ofNat 1024 (enBits h p f.bits n)
    dstVMask i (otherSlot h.slot) h.width.bits 3 d (a &&& en) en (byteMask h p f.bits n) 0) s

/-- A predicate operation (R211). -/
def pOp (i : Instr) (h : VHdr) (pd pa pb : BitVec 4) (g : PWord → PWord → PWord) : Act Unit := do
  let c ← getMe
  dstP i 1 pd (g (c.p.get pa) (c.p.get pb)) (BitVec.ofNat 128 (2 ^ (h.width.bits / 8) - 1)) h.width.bits

/-- PAND (R211). -/
def execPand (h : VHdr) (pd pa pb : BitVec 4) (s : State) : Host.Outcome State Fault Refusal :=
  slotOp (.pand h pd pa pb) (pOp (.pand h pd pa pb) h pd pa pb (· &&& ·)) s

/-- POR (R211). -/
def execPor (h : VHdr) (pd pa pb : BitVec 4) (s : State) : Host.Outcome State Fault Refusal :=
  slotOp (.por h pd pa pb) (pOp (.por h pd pa pb) h pd pa pb (· ||| ·)) s

/-- PXOR (R211). -/
def execPxor (h : VHdr) (pd pa pb : BitVec 4) (s : State) : Host.Outcome State Fault Refusal :=
  slotOp (.pxor h pd pa pb) (pOp (.pxor h pd pa pb) h pd pa pb (· ^^^ ·)) s

/-- PNOT (R211). -/
def execPnot (h : VHdr) (pd pa : BitVec 4) (s : State) : Host.Outcome State Fault Refusal :=
  slotOp (.pnot h pd pa) (pOp (.pnot h pd pa) h pd pa pa (fun a _ => ~~~a)) s

/-- PSET (R212). -/
def execPset (h : VHdr) (f : Fmt) (pd : BitVec 4) (n : ShiftBy) (s : State) : Host.Outcome State Fault Refusal :=
  let i := Instr.pset h f pd n
  slotOp i (do
    let v ← match n with
      | .imm k => pure (k.setWidth 1024)
      | .by a => srcV i h.slot a
    let k := v.toNat % 2 ^ 32
    let on := min k (h.elems f) * (f.bits / 8)
    dstP i 1 pd (BitVec.ofNat 128 (2 ^ on - 1)) (BitVec.ofNat 128 (2 ^ (h.width.bits / 8) - 1)) h.width.bits) s

/-- PCNT (R213). -/
def execPcnt (h : VHdr) (f : Fmt) (d : Spec) (s : State) : Host.Outcome State Fault Refusal :=
  let i := Instr.pcnt h f d
  slotOp i (do
    let p ← predOf h
    let n := ((List.range (h.elems f)).filter (fun k => enabled h p f.bits k)).length
    dstWhole i h 2 d (BitVec.ofNat 1024 n)) s

end Sys2Proof.Machine
end

