-- ==== Sys2Proof/Machine/Dispatch.lean ====
section
/-! DEFINITION. The meaning of every operation and event: one arm for each row of the opcode table. -/

namespace Sys2Proof.Machine

/-- One operation of the context that acts, or one event. -/
def exec (i : Instr) (s : State) : Host.Outcome State Fault Refusal :=
  match i with
  | .br t => Sys2Proof.Machine.execBr t s
  | .brp p n t => Sys2Proof.Machine.execBrp p n t s
  | .bri l => Sys2Proof.Machine.execBri l s
  | .call l t => Sys2Proof.Machine.execCall l t s
  | .ret l => Sys2Proof.Machine.execRet l s
  | .loop l ring drain n => Sys2Proof.Machine.execLoop l ring drain n s
  | .lbr l t => Sys2Proof.Machine.execLbr l t s
  | .lset l ring drain => Sys2Proof.Machine.execLset l ring drain s
  | .nextPoint l t => Sys2Proof.Machine.execNextPoint l t s
  | .exit => Sys2Proof.Machine.execExit s
  | .yield n => Sys2Proof.Machine.execYield n s
  | .skip p n k => Sys2Proof.Machine.execSkip p n k s
  | .join g => Sys2Proof.Machine.execJoin g s
  | .leave g => Sys2Proof.Machine.execLeave g s
  | .trap c => Sys2Proof.Machine.execTrap c s
  | .svc c => Sys2Proof.Machine.execSvc c s
  | .brk c => Sys2Proof.Machine.execBrk c s
  | .eret => Sys2Proof.Machine.execEret s
  | .add d a b => Sys2Proof.Machine.execAdd d a b s
  | .addi d a imm => Sys2Proof.Machine.execAddi d a imm s
  | .sub d a b => Sys2Proof.Machine.execSub d a b s
  | .mul d a b => Sys2Proof.Machine.execMul d a b s
  | .mulHs d a b => Sys2Proof.Machine.execMulHs d a b s
  | .mulHu d a b => Sys2Proof.Machine.execMulHu d a b s
  | .div d a b => Sys2Proof.Machine.execDiv d a b s
  | .divU d a b => Sys2Proof.Machine.execDivU d a b s
  | .rem d a b => Sys2Proof.Machine.execRem d a b s
  | .remU d a b => Sys2Proof.Machine.execRemU d a b s
  | .and d a b => Sys2Proof.Machine.execAnd d a b s
  | .or d a b => Sys2Proof.Machine.execOr d a b s
  | .xor d a b => Sys2Proof.Machine.execXor d a b s
  | .andi d a imm => Sys2Proof.Machine.execAndi d a imm s
  | .ori d a imm => Sys2Proof.Machine.execOri d a imm s
  | .xori d a imm => Sys2Proof.Machine.execXori d a imm s
  | .shl d a b => Sys2Proof.Machine.execShl d a b s
  | .shr d a b => Sys2Proof.Machine.execShr d a b s
  | .sar d a b => Sys2Proof.Machine.execSar d a b s
  | .shiL d a n => Sys2Proof.Machine.execShiL d a n s
  | .shiR d a n => Sys2Proof.Machine.execShiR d a n s
  | .shiA d a n => Sys2Proof.Machine.execShiA d a n s
  | .min d a b => Sys2Proof.Machine.execMin d a b s
  | .minU d a b => Sys2Proof.Machine.execMinU d a b s
  | .max d a b => Sys2Proof.Machine.execMax d a b s
  | .maxU d a b => Sys2Proof.Machine.execMaxU d a b s
  | .clz d a => Sys2Proof.Machine.execClz d a s
  | .popc d a => Sys2Proof.Machine.execPopc d a s
  | .bext d a b => Sys2Proof.Machine.execBext d a b s
  | .bextS d a b => Sys2Proof.Machine.execBextS d a b s
  | .bins d a b => Sys2Proof.Machine.execBins d a b s
  | .cmp d a b c => Sys2Proof.Machine.execCmp d a b c s
  | .cmpi d a v c => Sys2Proof.Machine.execCmpi d a v c s
  | .sel d a b neg p => Sys2Proof.Machine.execSel d a b neg p s
  | .li d imm => Sys2Proof.Machine.execLi d imm s
  | .lui d imm => Sys2Proof.Machine.execLui d imm s
  | .movx d a => Sys2Proof.Machine.execMovx d a s
  | .movxB slot d a f => Sys2Proof.Machine.execMovxB slot d a f s
  | .setb b a => Sys2Proof.Machine.execSetb b a s
  | .csrr d n => Sys2Proof.Machine.execCsrr d n s
  | .csrw n a => Sys2Proof.Machine.execCsrw n a s
  | .aadd d a b => Sys2Proof.Machine.execAadd d a b s
  | .aaddi d a imm => Sys2Proof.Machine.execAaddi d a imm s
  | .amadd d a b c => Sys2Proof.Machine.execAmadd d a b c s
  | .ali d imm => Sys2Proof.Machine.execAli d imm s
  | .lda base idx w sc o => Sys2Proof.Machine.execLda base idx w sc o s
  | .lds base stride w => Sys2Proof.Machine.execLds base stride w s
  | .ldt base offs => Sys2Proof.Machine.execLdt base offs s
  | .ldk base idx c => Sys2Proof.Machine.execLdk base idx c s
  | .pf base idx w => Sys2Proof.Machine.execPf base idx w s
  | .sta base idx w sc o => Sys2Proof.Machine.execSta base idx w sc o s
  | .sts base stride w => Sys2Proof.Machine.execSts base stride w s
  | .stt base offs => Sys2Proof.Machine.execStt base offs s
  | .sti base offs neg => Sys2Proof.Machine.execSti base offs neg s
  | .skst base shape c => Sys2Proof.Machine.execSkst base shape c s
  | .skrtg base param c => Sys2Proof.Machine.execSkrtg base param c s
  | .skdrop base idx => Sys2Proof.Machine.execSkdrop base idx s
  | .atom base data w sc o op => Sys2Proof.Machine.execAtom base data w sc o op s
  | .cas base data w sc o => Sys2Proof.Machine.execCas base data w sc o s
  | .gidx base idx => Sys2Proof.Machine.execGidx base idx s
  | .kld d off => Sys2Proof.Machine.execKld d off s
  | .kldD0 d off => Sys2Proof.Machine.execKldD0 d off s
  | .kset d c => Sys2Proof.Machine.execKset d c s
  | .kmov d s' => Sys2Proof.Machine.execKmov d s' s
  | .kmovAdj d s' n => Sys2Proof.Machine.execKmovAdj d s' n s
  | .waitf ya f sc take => Sys2Proof.Machine.execWaitf ya f sc take s
  | .postf ya yb f sc k => Sys2Proof.Machine.execPostf ya yb f sc k s
  | .waitw ya yb sc c => Sys2Proof.Machine.execWaitw ya yb sc c s
  | .waitc loads stores copies tiles => Sys2Proof.Machine.execWaitc loads stores copies tiles s
  | .gbar g sc => Sys2Proof.Machine.execGbar g sc s
  | .phase sc => Sys2Proof.Machine.execPhase sc s
  | .fence sc o => Sys2Proof.Machine.execFence sc o s
  | .rfence ya sc => Sys2Proof.Machine.execRfence ya sc s
  | .rfenceAll sc => Sys2Proof.Machine.execRfenceAll sc s
  | .vadd h f d a b => Sys2Proof.Machine.execVadd h f d a b s
  | .vsub h f d a b => Sys2Proof.Machine.execVsub h f d a b s
  | .vmul h f d a b hi => Sys2Proof.Machine.execVmul h f d a b hi s
  | .vmad h f d a b c => Sys2Proof.Machine.execVmad h f d a b c s
  | .vadds h f d a b => Sys2Proof.Machine.execVadds h f d a b s
  | .vsubs h f d a b => Sys2Proof.Machine.execVsubs h f d a b s
  | .vmin h f d a b => Sys2Proof.Machine.execVmin h f d a b s
  | .vmax h f d a b => Sys2Proof.Machine.execVmax h f d a b s
  | .vabs h f d a => Sys2Proof.Machine.execVabs h f d a s
  | .vavg h f d a b tr => Sys2Proof.Machine.execVavg h f d a b tr s
  | .vabsd h f d a b => Sys2Proof.Machine.execVabsd h f d a b s
  | .vshl h f d a b => Sys2Proof.Machine.execVshl h f d a b s
  | .vshr h f d a b => Sys2Proof.Machine.execVshr h f d a b s
  | .vsar h f d a b => Sys2Proof.Machine.execVsar h f d a b s
  | .vand h f d a b => Sys2Proof.Machine.execVand h f d a b s
  | .vor h f d a b => Sys2Proof.Machine.execVor h f d a b s
  | .vxor h f d a b => Sys2Proof.Machine.execVxor h f d a b s
  | .vnot h f d a => Sys2Proof.Machine.execVnot h f d a s
  | .vpopc h f d a => Sys2Proof.Machine.execVpopc h f d a s
  | .vcmp h f pd a b c => Sys2Proof.Machine.execVcmp h f pd a b c s
  | .vsel h f d a b => Sys2Proof.Machine.execVsel h f d a b s
  | .vdot h f d a b c => Sys2Proof.Machine.execVdot h f d a b c s
  | .vwmul h f d a b hi => Sys2Proof.Machine.execVwmul h f d a b hi s
  | .vnarw h f d a b sat sgn rnd s' => Sys2Proof.Machine.execVnarw h f d a b sat sgn rnd s' s
  | .vwide h f d a hi => Sys2Proof.Machine.execVwide h f d a hi s
  | .vpxu h f d a b n => Sys2Proof.Machine.execVpxu h f d a b n s
  | .vpxp h f d a n sat => Sys2Proof.Machine.execVpxp h f d a n sat s
  | .vbitx h f d a b len => Sys2Proof.Machine.execVbitx h f d a b len s
  | .vbitp h f d a b c len => Sys2Proof.Machine.execVbitp h f d a b c len s
  | .vlut h f d a b c x2 => Sys2Proof.Machine.execVlut h f d a b c x2 s
  | .vsad h f d a b c => Sys2Proof.Machine.execVsad h f d a b c s
  | .vperm h f d a b c => Sys2Proof.Machine.execVperm h f d a b c s
  | .vshuf h f d a m => Sys2Proof.Machine.execVshuf h f d a m s
  | .vslide h f d a b s' => Sys2Proof.Machine.execVslide h f d a b s' s
  | .vzip h f d a b hi => Sys2Proof.Machine.execVzip h f d a b hi s
  | .vuzip h f d a b odd => Sys2Proof.Machine.execVuzip h f d a b odd s
  | .vtrn h f d a b odd => Sys2Proof.Machine.execVtrn h f d a b odd s
  | .vcmpr h f d a merge => Sys2Proof.Machine.execVcmpr h f d a merge s
  | .vbcast h f d a m => Sys2Proof.Machine.execVbcast h f d a m s
  | .vmov h f d a => Sys2Proof.Machine.execVmov h f d a s
  | .vli h f d imm => Sys2Proof.Machine.execVli h f d imm s
  | .vmovx h f d a => Sys2Proof.Machine.execVmovx h f d a s
  | .pand h pd pa pb => Sys2Proof.Machine.execPand h pd pa pb s
  | .por h pd pa pb => Sys2Proof.Machine.execPor h pd pa pb s
  | .pxor h pd pa pb => Sys2Proof.Machine.execPxor h pd pa pb s
  | .pnot h pd pa => Sys2Proof.Machine.execPnot h pd pa s
  | .pset h f pd n => Sys2Proof.Machine.execPset h f pd n s
  | .pcnt h f d => Sys2Proof.Machine.execPcnt h f d s
  | .vfadd h f d a b => Sys2Proof.Machine.execVfadd h f d a b s
  | .vfsub h f d a b => Sys2Proof.Machine.execVfsub h f d a b s
  | .vfmul h f d a b => Sys2Proof.Machine.execVfmul h f d a b s
  | .vfma h f d a b c np nc => Sys2Proof.Machine.execVfma h f d a b c np nc s
  | .vfmin h f d a b => Sys2Proof.Machine.execVfmin h f d a b s
  | .vfmax h f d a b => Sys2Proof.Machine.execVfmax h f d a b s
  | .vfsgn h f d a b m => Sys2Proof.Machine.execVfsgn h f d a b m s
  | .vfcmp h f pd a b c => Sys2Proof.Machine.execVfcmp h f pd a b c s
  | .vfcvt h dst src d a b q rm => Sys2Proof.Machine.execVfcvt h dst src d a b q rm s
  | .vfclass h f d a => Sys2Proof.Machine.execVfclass h f d a s
  | .vfexp2 h f d a => Sys2Proof.Machine.execVfexp2 h f d a s
  | .vfexp h f d a => Sys2Proof.Machine.execVfexp h f d a s
  | .vflog2 h f d a => Sys2Proof.Machine.execVflog2 h f d a s
  | .vflog h f d a => Sys2Proof.Machine.execVflog h f d a s
  | .vfrcp h f d a => Sys2Proof.Machine.execVfrcp h f d a s
  | .vfrsq h f d a => Sys2Proof.Machine.execVfrsq h f d a s
  | .vftanh h f d a => Sys2Proof.Machine.execVftanh h f d a s
  | .vamax h f d a c => Sys2Proof.Machine.execVamax h f d a c s
  | .vscl h f d a t ol => Sys2Proof.Machine.execVscl h f d a t ol s
  | .vqnt h f d a b t rm => Sys2Proof.Machine.execVqnt h f d a b t rm s
  | .vdqnt h f d a b t => Sys2Proof.Machine.execVdqnt h f d a b t s
  | .vrelub h f d b => Sys2Proof.Machine.execVrelub h f d b s
  | .vmaxb h f d b w => Sys2Proof.Machine.execVmaxb h f d b w s
  | .vmskb h f d b => Sys2Proof.Machine.execVmskb h f d b s
  | .vkfull h f d => Sys2Proof.Machine.execVkfull h f d s
  | .vred h f d a op => Sys2Proof.Machine.execVred h f d a op s
  | .vscan h f d a sd op => Sys2Proof.Machine.execVscan h f d a sd op s
  | .mma fa fb acc ka kb hla hlb z => Sys2Proof.Machine.execMma fa fb acc ka kb hla hlb z s
  | .mmb fa fb acc hla hlb z and' => Sys2Proof.Machine.execMmb fa fb acc hla hlb z and' s
  | .mcfg fa fb ka cell int => Sys2Proof.Machine.execMcfg fa fb ka cell int s
  | .mdrain => Sys2Proof.Machine.execMdrain s
  | .mdrn f acc rq => Sys2Proof.Machine.execMdrn f acc rq s
  | .mclr acc inf => Sys2Proof.Machine.execMclr acc inf s
  | .mlda f acc off => Sys2Proof.Machine.execMlda f acc off s
  | .xcp lane d s' n t kept => Sys2Proof.Machine.execXcp lane d s' n t kept s
  | .xcpz lane d s' n t dict => Sys2Proof.Machine.execXcpz lane d s' n t dict s
  | .xcpc lane f d s' n t ib flag => Sys2Proof.Machine.execXcpc lane f d s' n t ib flag s
  | .xfill lane f s' n t kept fb tr => Sys2Proof.Machine.execXfill lane f s' n t kept fb tr s
  | .xgath lane d n t => Sys2Proof.Machine.execXgath lane d n t s
  | .xscat lane s' n t => Sys2Proof.Machine.execXscat lane s' n t s
  | .xpopq lane d rq n t => Sys2Proof.Machine.execXpopq lane d rq n t s
  | .xsend lane ch s' t => Sys2Proof.Machine.execXsend lane ch s' t s
  | .xrecv lane ch d t => Sys2Proof.Machine.execXrecv lane ch d t s
  | .xcoll f d s' n t op kind => Sys2Proof.Machine.execXcoll f d s' n t op kind s
  | .xcav f d s' n t op => Sys2Proof.Machine.execXcav f d s' n t op s
  | .xtrig n s' => Sys2Proof.Machine.execXtrig n s' s
  | .xcan n => Sys2Proof.Machine.execXcan n s
  | .xcanLane lane => Sys2Proof.Machine.execXcanLane lane s
  | .xqfence s' => Sys2Proof.Machine.execXqfence s' s
  | .xstor lane d s' n t => Sys2Proof.Machine.execXstor lane d s' n t s
  | .retireComplete c => Sys2Proof.Machine.execRetireComplete c s
  | .helperStart core => Sys2Proof.Machine.execHelperStart core s
  | .loadPerform c what => Sys2Proof.Machine.execLoadPerform c what s
  | .ldkEntryPush c n => Sys2Proof.Machine.execLdkEntryPush c n s
  | .storePerform c => Sys2Proof.Machine.execStorePerform c s
  | .atomicPerform arrivals => Sys2Proof.Machine.execAtomicPerform arrivals s
  | .skstRecordWrite c => Sys2Proof.Machine.execSkstRecordWrite c s
  | .skrtgRewrite c => Sys2Proof.Machine.execSkrtgRewrite c s
  | .skdropClear c => Sys2Proof.Machine.execSkdropClear c s
  | .postfPerform c => Sys2Proof.Machine.execPostfPerform c s
  | .releaseWeirPass c => Sys2Proof.Machine.execReleaseWeirPass c s
  | .waitwPeriodicRead c => Sys2Proof.Machine.execWaitwPeriodicRead c s
  | .tagProbe c va => Sys2Proof.Machine.execTagProbe c va s
  | .tileCacheEviction core line => Sys2Proof.Machine.execTileCacheEviction core line s
  | .laneCommandStart core lane => Sys2Proof.Machine.execLaneCommandStart core lane s
  | .copyChunk core lane => Sys2Proof.Machine.execCopyChunk core lane s
  | .stampWrite core lane => Sys2Proof.Machine.execStampWrite core lane s
  | .xcpcBlockResume core lane => Sys2Proof.Machine.execXcpcBlockResume core lane s
  | .fifoFillPush core lane => Sys2Proof.Machine.execFifoFillPush core lane s
  | .xsendCreditTake core lane => Sys2Proof.Machine.execXsendCreditTake core lane s
  | .channelWordArrival w => Sys2Proof.Machine.execChannelWordArrival w s
  | .xrecvSlotTake core lane => Sys2Proof.Machine.execXrecvSlotTake core lane s
  | .triggerFire core => Sys2Proof.Machine.execTriggerFire core s
  | .triggerLaneEntry core entry => Sys2Proof.Machine.execTriggerLaneEntry core entry s
  | .triggerComplete core entry => Sys2Proof.Machine.execTriggerComplete core entry s
  | .laneFenceRelease core => Sys2Proof.Machine.execLaneFenceRelease core s
  | .collectiveChunk core => Sys2Proof.Machine.execCollectiveChunk core s
  | .collectiveComplete core comm => Sys2Proof.Machine.execCollectiveComplete core comm s
  | .switchSlotRequest core comm => Sys2Proof.Machine.execSwitchSlotRequest core comm s
  | .gbarArrival c => Sys2Proof.Machine.execGbarArrival c s
  | .groupBarrierComplete part g => Sys2Proof.Machine.execGroupBarrierComplete part g s
  | .switchPoint part => Sys2Proof.Machine.execSwitchPoint part s
  | .launchLoading part launch => Sys2Proof.Machine.execLaunchLoading part launch s
  | .dictionaryPreload part launch => Sys2Proof.Machine.execDictionaryPreload part launch s
  | .launchBind part launch => Sys2Proof.Machine.execLaunchBind part launch s
  | .launchRunning part launch => Sys2Proof.Machine.execLaunchRunning part launch s
  | .walkerPlace part launch core => Sys2Proof.Machine.execWalkerPlace part launch core s
  | .launchComplete part launch => Sys2Proof.Machine.execLaunchComplete part launch s
  | .drainComplete t => Sys2Proof.Machine.execDrainComplete t s
  | .flushComplete t => Sys2Proof.Machine.execFlushComplete t s
  | .enumerationComplete t => Sys2Proof.Machine.execEnumerationComplete t s
  | .resetFlitDrain vf => Sys2Proof.Machine.execResetFlitDrain vf s
  | .tinvComplete part => Sys2Proof.Machine.execTinvComplete part s
  | .attestationComplete => Sys2Proof.Machine.execAttestationComplete s
  | .registrationWrite r v => Sys2Proof.Machine.execRegistrationWrite r v s
  | .relayCopyUpdate t n => Sys2Proof.Machine.execRelayCopyUpdate t n s
  | .phaseWriteBack c => Sys2Proof.Machine.execPhaseWriteBack c s
  | .waitingStrapRelease c => Sys2Proof.Machine.execWaitingStrapRelease c s
  | .resultLanding c => Sys2Proof.Machine.execResultLanding c s
  | .yieldExpiry c => Sys2Proof.Machine.execYieldExpiry c s
  | .matrixWayRelease core => Sys2Proof.Machine.execMatrixWayRelease core s
  | .asynchronousFault c f => Sys2Proof.Machine.execAsynchronousFault c f s
  | .stopRequest c => Sys2Proof.Machine.execStopRequest c s
  | .operatorOverrun part launch => Sys2Proof.Machine.execOperatorOverrun part launch s
  | .contextResume c => Sys2Proof.Machine.execContextResume c s
  | .contextSave c => Sys2Proof.Machine.execContextSave c s
  | .contextRestore src dst => Sys2Proof.Machine.execContextRestore src dst s
  | .endOperator part launch => Sys2Proof.Machine.execEndOperator part launch s
  | .translationWalk core va drop => Sys2Proof.Machine.execTranslationWalk core va drop s
  | .shapeRecordFetch core n drop => Sys2Proof.Machine.execShapeRecordFetch core n drop s
  | .nvmeCompletion core lane status data => Sys2Proof.Machine.execNvmeCompletion core lane status data s
  | .gsubmit vf v => Sys2Proof.Machine.execGsubmit vf v s
  | .gstatWrite vf v => Sys2Proof.Machine.execGstatWrite vf v s
  | .hostMemoryAccess vf a => Sys2Proof.Machine.execHostMemoryAccess vf a s
  | .rolemapWrite v => Sys2Proof.Machine.execRolemapWrite v s
  | .rolebootWrite v => Sys2Proof.Machine.execRolebootWrite v s
  | .tctlReEnumerate t => Sys2Proof.Machine.execTctlReEnumerate t s
  | .tctlReleaseFailed t => Sys2Proof.Machine.execTctlReleaseFailed t s
  | .terraceLogicError t => Sys2Proof.Machine.execTerraceLogicError t s
  | .pctlForm part addr => Sys2Proof.Machine.execPctlForm part addr s
  | .pctlDissolve part => Sys2Proof.Machine.execPctlDissolve part s
  | .vdcfgWrite vf v => Sys2Proof.Machine.execVdcfgWrite vf v s
  | .vdstatReset vf v => Sys2Proof.Machine.execVdstatReset vf v s
  | .functionLevelReset vf => Sys2Proof.Machine.execFunctionLevelReset vf s
  | .migrationBoundary part area => Sys2Proof.Machine.execMigrationBoundary part area s
  | .tinvStart part v => Sys2Proof.Machine.execTinvStart part v s
  | .lctlTrain link => Sys2Proof.Machine.execLctlTrain link s
  | .lctlQuarantine link => Sys2Proof.Machine.execLctlQuarantine link s
  | .lctlRelease link => Sys2Proof.Machine.execLctlRelease link s
  | .linkTrainingDone link passed peerModule peerLink => Sys2Proof.Machine.execLinkTrainingDone link passed peerModule peerLink s
  | .linkTrainingTimeout link => Sys2Proof.Machine.execLinkTrainingTimeout link s
  | .linkLaneFailure link lane => Sys2Proof.Machine.execLinkLaneFailure link lane s
  | .linkFailure link cause => Sys2Proof.Machine.execLinkFailure link cause s
  | .flitRetry link => Sys2Proof.Machine.execFlitRetry link s
  | .powerOnReset f => Sys2Proof.Machine.execPowerOnReset f s
  | .bootStartTimeout => Sys2Proof.Machine.execBootStartTimeout s
  | .bootctlRestart v f => Sys2Proof.Machine.execBootctlRestart v f s
  | .attestationRequest v => Sys2Proof.Machine.execAttestationRequest v s
  | .thermalEvent t monitor value => Sys2Proof.Machine.execThermalEvent t monitor value s
  | .coolantGradeChange high => Sys2Proof.Machine.execCoolantGradeChange high s
  | .correctableError p => Sys2Proof.Machine.execCorrectableError p s
  | .uncorrectableError p addr => Sys2Proof.Machine.execUncorrectableError p addr s
  | .registerWrite offset v => Sys2Proof.Machine.execRegisterWrite offset v s

end Sys2Proof.Machine
end

