-- ==== Sys2Proof/Machine/Background.lean ====
section
/-! DEFINITION. What the machine may do next by itself, as lists from which the turns of the machine take (log entry 3): an
event whose condition does not hold changes nothing. -/

namespace Sys2Proof.Machine

/-- The events of a context's own accesses. -/
def contextEvents (s : State) (c : CtxId) : List Instr :=
  let x := s.ctx c
  let load (o : LoadOp × Nat) : List Instr :=
    if !o.1.isLive then []
    else match o.1.kind with
      | .ldk _ => [.loadPerform c (.entry o.2), .ldkEntryPush c o.2]
      | .atom _ _ _ _ _ | .cas _ _ _ _ _ => [.atomicPerform [.load c o.2]]
      | _ => [.loadPerform c (.entry o.2)]
  let waits := x.st == .blocked || x.st == .trapped
  x.loads.zipIdx.flatMap load ++
  (if x.stores.isEmpty then [] else [.storePerform c, .skstRecordWrite c, .releaseWeirPass c]) ++
  (if x.tileOps.isEmpty then [] else [.skrtgRewrite c, .skdropClear c]) ++
  (if x.posts.isEmpty then [] else [.postfPerform c]) ++
  (if waits && (s.waitingPhase c).isSome then [.phaseWriteBack c] else []) ++
  (if x.watch.isSome then [.waitwPeriodicRead c] else []) ++
  (if waits then
     let t : State := { s with cur := c }
     let tlb := (s.core c.core).tlb
     (remoteGranules t (s.nextVas c)).map (fun va => .tagProbe c va) ++
       (missingPages t (s.nextVas c)).map (fun p => .translationWalk c.core (p * 2 ^ 16) (if tlb.length < 1024 then tlb.length else 0))
   else []) ++
  (if x.st == .retiring then [.retireComplete c] else [])

/-- The events of an engine lane. -/
def laneEvents (s : State) (core : CoreId) (lane : BitVec 3) : List Instr :=
  (if (s.stampAt core lane).isSome then [.stampWrite core lane] else []) ++
  (match (s.core core).lane lane with
   | [] => []
   | .fence _ _ :: _ => [.laneFenceRelease core]
   | .cmd c :: _ =>
     match c.st with
     | .queued => [.laneCommandStart core lane]
     | .performing =>
       match c.op with
       | .xfill _ _ _ _ _ _ _ => [.copyChunk core lane, .fifoFillPush core lane]
       | _ => [.copyChunk core lane]
     | .stamping _ _ | .stampSent _ | .suspended | .suspendedStamp _ _ => [])

/-- The events of a core's trigger table and communicator queues; armed entries fire in the course of the core's cycle. -/
def engineEvents (s : State) (core : CoreId) : List Instr :=
  let k := s.core core
  let entry (t : Nat × Trigger) : List Instr :=
    match t.2.st with
    | .armed => []
    | .fired => [.triggerLaneEntry core (BitVec.ofNat 6 t.1)]
    | .running => [.triggerComplete core (BitVec.ofNat 6 t.1)]
  let comm (q : Nat × List CollPart) : List Instr :=
    if q.2.isEmpty then []
    else [.collectiveChunk core, .collectiveComplete core (BitVec.ofNat 8 q.1), .switchSlotRequest core (BitVec.ofNat 8 q.1)]
  k.triggers.flatMap entry ++ k.comms.flatMap comm

/-- What may happen at a core. -/
def backgroundOf (s : State) (core : CoreId) : List Instr :=
  ctxNums.flatMap (fun n => contextEvents s { core := core, ctx := n }) ++
  laneNums.flatMap (fun l => laneEvents s core l) ++ engineEvents s core ++
  (if (s.core core).lines.isEmpty then [] else [.tileCacheEviction core 0]) ++
  (if ctxNums.any (fun n => ((s.core core).ctx n).st == .blocked) then [.helperStart core] else [])

/-- The events of a partition's launches. -/
def launchEvents (s : State) (part : BitVec 6) : List Instr :=
  match s.graphOf part with
  | none => []
  | some g => g.launches.flatMap (fun l =>
      match l.st with
      | .pending => [.launchLoading part l.uid, .dictionaryPreload part l.uid]
      | .loading => [.launchBind part l.uid]
      | .binding => [.dictionaryPreload part l.uid, .launchRunning part l.uid]
      | .running => (if l.exhausted then [] else (s.coresOf part l).map (fun c => .walkerPlace part l.uid c.2)) ++ [.launchComplete part l.uid]
      | .complete | .ended => [])

/-- The events of a partition. -/
def partEvents (s : State) (p : Nat × Partition) : List Instr :=
  let part := BitVec.ofNat 6 p.1
  launchEvents s part ++
  (if p.2.formed && s.atBoundary part then [.switchPoint part] else []) ++
  (if p.2.tinv.isSome then [.tinvComplete part] else [])

/-- The event of a terrace's sequence. -/
def terraceEvents (x : Terrace × Nat) : List Instr :=
  let t := BitVec.ofNat 4 x.2
  match x.1.st with
  | .draining => [.drainComplete t]
  | .flushing => [.flushComplete t]
  | .enumerating => [.enumerationComplete t]
  | _ => []

/-- What may happen outside every core. -/
def globalBackground (s : State) : List Instr :=
  s.relayPend.zipIdx.map (fun (u : RelayUpdate × Nat) =>
    .relayCopyUpdate u.1.terrace ((s.relayPend.take u.2).filter (fun v => v.terrace == u.1.terrace)).length) ++
  (List.range s.words.length).map (fun n => .channelWordArrival (.flight n)) ++
  s.parts.flatMap (partEvents s) ++ s.terraces.toList.zipIdx.flatMap terraceEvents ++
  s.vdevs.flatMap (fun v => match v.2.st with | .resetting => [.resetFlitDrain (BitVec.ofNat 10 v.1)] | _ => []) ++
  s.regPending.map (fun r => .registrationWrite (BitVec.ofNat 12 r.1) r.2) ++
  (if s.attestBusy then [.attestationComplete] else [])

end Sys2Proof.Machine
end

