-- ==== Sys2Proof/Machine/Merge.lean ====
section
/-! DEFINITION. The merge stage (R277, R281 to R283, R285) and the order in which the machine takes its turns (log entry
3). The meaning of an operation is a parameter here, so that this file stands below the table of meanings. -/

namespace Sys2Proof.Machine

/-- The meaning of operations and events, as a parameter. -/
abbrev Run := Instr → State → Host.Outcome State Fault Refusal

/-- TRAP, SVC and BRK take effect after the other slots of their strap (R147, R284). -/
def isTrap : Instr → Bool
  | .trap _ | .svc _ | .brk _ => true
  | _ => false
def trapsLast (ops : List Instr) : List Instr := ops.filter (fun i => !isTrap i) ++ ops.filter isTrap

/-- The operations of a strap that has begun, until one ends it. -/
def runOps (run : Run) (c : CtxId) : List Instr → State → Host.Outcome State Fault Refusal
  | [], s => .next s
  | i :: r, s =>
    let s : State := { s with cur := c }
    if s.me.flow.strap.live then
      match run i s with
      | .next t => runOps run c r t
      | o => o
    else .next s

/-- A helper that has issued EXIT ends (R283). -/
def Context.endIfExited (c : Context) : Context := if c.st = .retiring then c.endHelper else c

/-- The end of a strap in its cycle: one that is still live after its operations ends, and one that has ended in a trap gives the result
queues what it holds for them (R292). -/
def State.finishStrap (s : State) (c : CtxId) : State :=
  let s : State := { s with cur := c }
  if s.me.flow.strap.live then
    let helper := s.me.st == .helper
    let t := s.endStrap
    if helper then t.updMe Context.endIfExited else t
  else s.updCore c.core (fun k => k.landRq c.ctx)

/-- The operations of a strap take effect; its tick is not yet counted. -/
def State.startStrap (s : State) (run : Run) (c : CtxId) (info : StrapInfo) (ops : List Instr) (squashed : Bool) :
    Host.Outcome State Fault Refusal :=
  let s : State := { s with cur := c }
  let left := s.me.flow.squash
  let s := s.updMe (fun x => x.beginStrap info ops)
  if squashed then .next (s.updMe (fun x => x.updFlow (fun f => f.updStrap (fun st => { st with skip := left - 1 }))))
  else runOps run c (trapsLast ops) s

/-- A strap issues: one tick of its context. -/
def State.issueStrap (s : State) (run : Run) (c : CtxId) (info : StrapInfo) (ops : List Instr) (squashed : Bool) :
    Host.Outcome State Fault Refusal :=
  match s.startStrap run c info ops squashed with
  | .next t => .next (t.finishStrap c)
  | o => o

/-- A decode fault is delivered (R79, R281); a helper ends at it (R283). -/
def State.deliverDecode (s : State) (c : CtxId) (slot : BitVec 4) (code : BitVec 8) (present : BitVec 9) : State :=
  s.updCtx c (fun x =>
    if x.st = .helper then x.endHelper
    else
      let y : Context := { x with st := if x.st = .blocked then .ready else x.st }
      y.decodeFaultAt slot { code := code, detail := 0, addr := 0 } present)

/-- A context that is away, in its handler, stopped or saved with a WAITW in its next strap makes the first read of it (R331). -/
def State.armAway (s : State) (c : CtxId) : State :=
  let x := s.ctx c
  if x.launch.isSome && (x.st == .away || x.st == .trapped || x.st == .stopped || x.st == .saved) then
    match ({ s with cur := c } : State).nextStrap x with
    | .ok (_, ops) => if ops.any (fun i => match i with | .waitw _ _ _ _ => true | _ => false) then ({ s with cur := c } : State).arm ops else s
    | .error _ => s
  else s

/-- The moment at which a context comes back from YIELD, and the delivery of the first fault that it has held (R145, R285). -/
def Context.settle (x : Context) (cycle : Nat) : Context :=
  let x : Context := if x.st = .away && x.wake ≤ cycle then { x with st := .ready } else x
  match x.st, x.pendingFaults with
  | .ready, f :: r | .blocked, f :: r | .away, f :: r => { x with pendingFaults := r }.deliverAsync f
  | _, _ => x
def State.settle (s : State) (c : CtxId) : State :=
  (s.updCtx c (fun x => x.settle (s.core c.core).cycle)).armAway c

/-- A context whose next strap can issue is not BLOCKED (R277). -/
def Context.unblock (x : Context) : Context := if x.st = .blocked then { x with st := .ready } else x

/-- Decode faults delivered, waiting contexts BLOCKED, and those whose waiting straps can issue READY, though they are outranked (R277); a
WAITW whose first read is good stays good (R331). -/
def State.sortOut (s : State) (core : CoreId) (vs : List (BitVec 2 × Verdict)) : State :=
  vs.foldl (fun s v =>
    let c : CtxId := { core := core, ctx := v.1 }
    match v.2 with
    | .fault slot code present => s.deliverDecode c slot code present
    | .wait ops => ({ s with cur := c } : State).block ops
    | .issue _ ops squashed =>
      let s := s.updCtx c Context.unblock
      if squashed then s else ({ s with cur := c } : State).arm ops) s

/-- The eligible straps in rank order. -/
def eligible (vs : List (BitVec 2 × Verdict)) : List (BitVec 2 × StrapInfo × List Instr × Bool) :=
  vs.filterMap (fun v => match v.2 with | .issue info ops sq => some (v.1, info, ops, sq) | _ => none)

/-- Whether a second strap may join the first (R281). A strap of which slots have issued before counts those that remain, and the lane
groups of the whole strap: DESIGN CHOICE (log entry 103). -/
def State.joins (s : State) (core : CoreId) (a b : BitVec 2 × StrapInfo × List Instr × Bool) : Bool :=
  let slots (x : BitVec 2 × StrapInfo × List Instr × Bool) : BitVec 9 :=
    x.2.2.1.foldl (fun (m : BitVec 9) i => m ||| (1 : BitVec 9) <<< (opSlot i).toNat) 0
  (slots a &&& slots b) == 0 && a.2.1.groups + b.2.1.groups ≤ 6 &&
    !((s.core core).ctx a.1).priv && !((s.core core).ctx b.1).priv

/-- Result-queue entries of `old` that are gone: their places count from the next cycle (R292). -/
def Core.holdFreed (k old : Core) : Core :=
  { k with rqHeld := Vector.ofFn (fun i => k.rqHeld[i] + (old.rq[i].present.filter (fun e => !k.rq[i].present.any (fun x => x.id == e.id))).length) }

/-- The strap of a second context, where it can still issue after the first has, and then the ends of both: within one cycle the
results of the lower-numbered context enter a queue first (R291). -/
def State.issueSecond (s : State) (run : Run) (a b : CtxId) : Host.Outcome State Fault Refusal :=
  match s.verdict b with
  | .issue info ops sq =>
    match s.startStrap run b info ops sq with
    | .next t => .next (if a.ctx.toNat < b.ctx.toNat then (t.finishStrap a).finishStrap b else (t.finishStrap b).finishStrap a)
    | o => o
  | _ => .next (s.finishStrap a)

/-- Every helper of a core ends (R283). -/
def Core.endHelpers (k : Core) : Core :=
  { k with ctxs := k.ctxs.map (fun c => if c.st = .helper then c.endHelper else c) }

/-- Whether a core runs a helper, and which. -/
def Core.helper (k : Core) : Option (BitVec 2) := ctxNums.find? (fun n => (k.ctx n).st == .helper)

/-- A helper's strap in a cycle in which no bound context is eligible (R283). -/
def State.helperCycle (s : State) (run : Run) (c : CtxId) : Host.Outcome State Fault Refusal :=
  match s.verdict c with
  | .fault slot code present => .next (s.deliverDecode c slot code present)
  | .wait _ => .next s
  | .issue info ops sq => s.issueStrap run c info ops sq

/-- The first- and second-ranked straps of a cycle issue (R281). -/
def State.mergeCycle (s : State) (run : Run) (core : CoreId) (es : List (BitVec 2 × StrapInfo × List Instr × Bool)) :
    Host.Outcome State Fault Refusal :=
  match es with
  | [] => .next s
  | a :: r =>
    match (s.updCore core Core.endHelpers).startStrap run { core := core, ctx := a.1 } a.2.1 a.2.2.1 a.2.2.2 with
    | .next t =>
      match r with
      | b :: _ =>
        if s.joins core a b then (t.updCore core (fun k => k.holdFreed (s.core core))).issueSecond run { core := core, ctx := a.1 } { core := core, ctx := b.1 }
        else .next (t.finishStrap { core := core, ctx := a.1 })
      | [] => .next (t.finishStrap { core := core, ctx := a.1 })
    | o => o

/-- The background events that could happen now at a core, one of them chosen by its cycle count. -/
def pick (l : List Instr) (n : Nat) : Option Instr := l[n % max 1 l.length]?

/-- A background event, where one is picked. -/
def State.runEvent (s : State) (run : Run) (i : Option Instr) : Host.Outcome State Fault Refusal :=
  match i with
  | some i => run i s
  | none => .next s

/-- Whether an event raises flags of its own core, which reach them before the straps of the cycle (R328). -/
def raisesFlags : Instr → Bool
  | .postfPerform _ | .triggerComplete _ _ => true
  | _ => false

/-- Whether the queue that an event pushes into had no room when the cycle began: a slot freed by a pop of this cycle takes a push from the
next one (R292). -/
def State.pushHeld (s : State) (i : Instr) : Bool :=
  match i with
  | .fifoFillPush core lane =>
    match s.cmdAt core lane with
    | some c => match c.op with | .xfill _ _ _ _ fb _ _ => 4 ≤ (if fb then (s.core core).fb else (s.core core).fa).length | _ => false
    | none => false
  | .ldkEntryPush c n | .loadPerform c (.entry n) =>
    match (s.ctx c).loads[n]? with
    | some o => (match o.kind with | .ldk _ => true | _ => false) && 32 ≤ ((s.ctx c).kqOf o.id).length
    | none => false
  | _ => false

/-- A helper whose blocked context has left BLOCKED ends (R283). -/
def Core.endStaleHelper (k : Core) : Core :=
  { k with ctxs := k.ctxs.map (fun c =>
      if c.st = .helper && !c.helps.any (fun n => (k.ctx n).st == .blocked) then c.endHelper else c) }

/-- What reaches the counting flags and the groups of a core before its straps (R260, R324, R328): posts at scope 0, the flag tests of XCPC,
and the arrivals at group barriers. -/
def State.beforeStraps (s : State) (core : CoreId) : State :=
  let s := s.ownPosts core
  let s := laneNums.foldl (fun s l => s.resumeBlock core l) s
  ctxNums.foldl (fun s n => s.gbarCycle { core := core, ctx := n }) s

/-- What reaches them after its straps (R295, R322, R328): credits and slots taken by lane, then the trigger entries that were armed before
this cycle, and then the barrier test. -/
def State.afterStraps (s : State) (core : CoreId) (armed : Nat) : State :=
  let s := laneNums.foldl (fun s l => (s.takeCredit core l).takeSlot core l) s
  (s.fireAll core armed (fun _ => 0)).testGroups (s.core core).boundPart

/-- The cycle of a core ends: the places that it freed in result queues are free. -/
def State.endCycle (s : State) (core : CoreId) : State :=
  s.updCore core (fun k => { k with cycle := k.cycle + 1, rqHeld := Vector.replicate 8 0 })

/-- The straps of a cycle (R277, R281, R283): decode faults are delivered, waiting contexts are BLOCKED, and the ranked straps issue; a
helper's where there is none. A core whose terrace is in no role that issues has none (R20). -/
def State.straps (s : State) (run : Run) (core : CoreId) : Host.Outcome State Fault Refusal :=
  if !s.coreIssues core then .next s
  else
  let vs := s.verdicts core
  let s := s.sortOut core vs
  match eligible vs with
  | [] =>
    match (s.core core).helper with
    | some h => s.helperCycle run { core := core, ctx := h }
    | none => .next s
  | es => s.mergeCycle run core es

/-- How a cycle of a core begins: contexts come back from YIELD and take held faults, helpers that are no longer needed end, and the group
barriers are tested for what came from outside since the last cycle (R145, R283, R285, R325). -/
def State.beginCycle (s : State) (core : CoreId) : State :=
  ((ctxNums.foldl (fun s c => s.settle { core := core, ctx := c }) s).updCore core Core.endStaleHelper).testGroups (s.core core).boundPart

/-- One cycle of a core: its straps, with what reaches the counting flags before and after them in the order of R328, and one background
event of those that could happen as it began (log entry 3). An event that raises flags comes before the straps; any other comes after
them, so that what it pushes is popped, and what it frees is filled, from the next cycle on (R292). -/
def State.coreCycle (s : State) (run : Run) (core : CoreId) : Host.Outcome State Fault Refusal :=
  let armed := (s.core core).nextId
  let t := s.beginCycle core
  let ev := pick (backgroundOf t core) (s.core core).cycle
  match t.runEvent run (ev.filter raisesFlags) with
  | .next u =>
    match (u.beforeStraps core).straps run core with
    | .next v =>
      match (v.afterStraps core armed).runEvent run (ev.filter (fun i => !raisesFlags i && !t.pushHeld i)) with
      | .next w => .next (w.endCycle core)
      | o => o
    | o => o
  | o => o

/-- One turn of the machine: the cores that hold state in their order, then an event that belongs to no core. -/
def State.turnCycle (s : State) (run : Run) : Host.Outcome State Fault Refusal :=
  let n := s.cores.length + 1
  let t := s.turn
  let s : State := { s with turn := t + 1 }
  match s.cores[t % n]? with
  | some k => s.coreCycle run (BitVec.ofNat 11 k.1)
  | none => s.runEvent run (pick (globalBackground s) (t / n))

/-- A code object of one section, as it is loaded, with nothing but tokens. -/
def Code.ofTokens (t : List (BitVec 16)) : Code :=
  { uid := 0, status := 0, tokens := t, bundles := [], dict := [], slices := [], entries := [], flags := 0, chans := [],
    comms := [], symm := none, bound := 0, mmr := 0, pyrino := false, data := [], dataWritten := true }

/-- The header of a literal bundle of one encoding (R73, R76). -/
def headerOfOp (o : OpWord) : BitVec 16 :=
  let present : BitVec 16 := (1 : BitVec 16) <<< o.slot.num
  let width : BitVec 16 := match o.slot, o.width with
    | .v0, .w512 => 1 <<< 9 | .v0, .w1024 => 2 <<< 9
    | .v1, .w512 => 1 <<< 11 | .v1, .w1024 => 2 <<< 11
    | _, _ => 0
  present ||| width

/-- A literal bundle of one encoding that ends its strap (R71 to R73). -/
def literalTokens (o : OpWord) : List (BitVec 16) :=
  0xFFFF :: headerOfOp o :: (List.range o.slot.words).map (fun k => o.word.extractLsb' (16 * k) 16)

/-- A machine whose core 0, on a terrace in the COMPUTE role, runs in context 0 a code object of one instruction of the opcode table (log
entry 6). -/
def State.loadWord (s : State) (nbits w : Nat) : State :=
  let tokens := match firstDecoding w (tableSlots nbits) with
    | some (o, _) => literalTokens o
    | none => []
  let p := s.part 0
  let s := s.setPart 0 { p with formed := true, features := 0xFF, harness := [0], codes := Assoc.put p.codes 0 (Code.ofTokens tokens) }
  let s := s.updTerrace 0 (fun x => { x with st := .compute })
  let k := s.core 0
  let c := k.ctx 0
  let c : Context := { c with st := .ready, priv := false, user := Flow.reset, hand := Flow.reset, resume := none,
                              launch := some 0, part := 0, code := 0, thread := 0, mat := true, prio := 0,
                              pyrino := false, pendingFaults := [], watch := none, waitOk := false }
  let s := s.setCore 0 { k.setCtx 0 c with bound := some 0, boundPart := 0, cycle := 0, rqHeld := Vector.replicate 8 0 }
  { s with cur := { core := 0, ctx := 0 }, agenda := [], turn := (s.cores.findIdx? (fun e => e.1 == 0)).getD 0 }

end Sys2Proof.Machine
end

