-- ==== Sys2Proof/Machine/Step.lean ====
section
/-! DEFINITION. One step of the machine: the event or operation at the head of the agenda, or a turn of the machine. -/

namespace Sys2Proof.Machine

/-- One step (log entry 3). -/
def step (s : State) : Host.Outcome State Fault Refusal :=
  match s.agenda with
  | i :: r => exec i { s with agenda := r }
  | [] => s.turnCycle exec

/-- The state in which the next step issues the instruction of an opcode table word (log entry 6): core 0's context 0 is
bound to a code object whose token section is the instruction's literal bundle, as a launch would leave it. -/
def State.withFetchWord (s : State) (nbits w : Nat) : State := s.loadWord nbits w

end Sys2Proof.Machine
end

