-- ==== Sys2Proof/Safety.lean ====
section
/-! DEFINITION. What a safe run is, and the words in which the claims speak of a context that issues: its operands, the
results that enter flight, and where they go. -/

namespace Sys2Proof

/-- A state after some steps, if none of them stops. -/
def stateAfter (n : Nat) (s : Machine.State) : Option Machine.State :=
  match n with
  | 0 => some s
  | n + 1 =>
    match Machine.step s with
    | .next t => stateAfter n t
    | _ => none

/-- A run that never stops keeps memory canonical. -/
def SafeFrom (s : Machine.State) : Prop :=
  ∀ n, ∃ t, stateAfter n s = some t ∧ Machine.Memory.wf t.mem = true

namespace Machine

/-- The strap of the acting context has begun to issue, and the context is no helper (R78, R283). -/
def Issuing (s : State) : Prop := s.me.flow.strap.live = true ∧ s.me.st ≠ .helper

/-- The same in user mode, for the slots that a handler may not use (R286). -/
def IssuingUser (s : State) : Prop := Issuing s ∧ s.me.priv = false

/-- Some sources read in order, each from the state that the one before left (R83): their values and the last state. -/
def ReadInOrder {α : Type} (read : Spec → Act α) : List Spec → State → List α → State → Prop
  | [], s, [], t => s = t
  | p :: ps, s, x :: xs, t => ∃ u, (read p).run s = (.ok x, u) ∧ ReadInOrder read ps u xs t
  | _, _, _, _ => False

/-- The context with a result of latency `lat` in flight; results of translated Pyrino code are there for the next bundle (R98,
R107). -/
def Context.withResult (c : Context) (slot : BitVec 4) (lat : Nat) (e : Effect) (flags : BitVec 3) : Context :=
  c.updFlow (fun f =>
    { f with flight := f.flight ++
        [{ due := f.tick + (if c.translated then 1 else lat), slot := slot, eff := e, flags := flags }] })

/-- The context after an operation of a slot: its result, where it has one, in flight, and the slot done. -/
def Context.afterOp (c : Context) (slot : BitVec 4) (lat : Nat) (e : Option Effect) (flags : BitVec 3) : Context :=
  (match e with
   | some e => c.withResult slot lat e flags
   | none => c).slotDone slot

/-- Every register of a context: its files, bases, ring and system registers (R100, R111, R288). -/
def Context.registers (c : Context) :=
  ((c.l, c.s, c.a, c.x, c.d, c.y), (c.v, c.w, c.k, c.p, c.h), (c.bs, c.ba, c.bv, c.bw, c.ringLen, c.ringOff),
   (c.sticky, c.seed, c.dvbase, c.dvsel), (c.fcause, c.fdetail, c.faddr, c.fret, c.ftick, c.fpyr))

/-- FCAUSE from its fields (R288). -/
def causeWord (code slot : Nat) (pyrino part : Bool) (resume : Nat) : Word :=
  BitVec.ofNat 64 (resume + 2 ^ 9 * part.toNat + 2 ^ 11 * pyrino.toNat + 2 ^ 12 * slot + 2 ^ 16 * code)

/-- FRET from its fields (R288): a transfer still to be taken, with `delay` where the point of return is its delay
strap. -/
def returnWord (offset : Nat) (target : Option Nat) (delay : Bool) (squash : Nat) : Word :=
  BitVec.ofNat 64 (offset + 2 ^ 16 * target.getD 0 + 2 ^ 32 * target.isSome.toNat + 2 ^ 33 * squash +
    2 ^ 38 * (target.isSome && delay).toNat)

/-- A context that took a fault in user mode: the fault registers, the entry into the handler, and every other register
and queue of the user's as it was (R286, R288). -/
structure FaultTaken (c d : Context) (cause ret detail addr : Word) : Prop where
  st : d.st = .trapped
  priv : d.priv = true
  cause : d.fcause = cause
  ret : d.fret = ret
  detail : d.fdetail = detail
  addr : d.faddr = addr
  tick : d.ftick = BitVec.ofNat 64 c.user.tick
  entry : d.hand = Flow.reset
  count : d.user.tick = c.user.tick
  queues : d.user.q = c.user.q
  files : (d.l, d.s, d.a, d.x, d.d, d.y, d.v, d.w, d.k, d.p, d.h) = (c.l, c.s, c.a, c.x, c.d, c.y, c.v, c.w, c.k, c.p, c.h)
  others : (d.bs, d.ba, d.bv, d.bw, d.ringLen, d.ringOff, d.sticky, d.seed, d.dvbase, d.dvsel) =
    (c.bs, c.ba, c.bv, c.bw, c.ringLen, c.ringOff, c.sticky, c.seed, c.dvbase, c.dvsel)

/-- What an S destination receives (R81, R105, R135, R286); none where it discards. -/
def sEffect (c : Context) (d : Spec) (v : Word) : Option Effect :=
  match d with
  | .reg n => some (c.effS n v)
  | .rel n => some (c.effS (c.bs + n.setWidth 5) v)
  | .sq => some (.sq (v.setWidth 1024) (BitVec.allOnes 128))
  | _ => none

/-- What an A destination receives (R81, R104, R105). -/
def aEffect (c : Context) (d : Spec) (v : Word) : Option Effect :=
  match d with
  | .reg n => some (c.effA n v)
  | .rel n => some (c.effA (c.ba + n.setWidth 5) v)
  | _ => none

end Machine
end Sys2Proof
end

