-- ==== Sys2Proof/Certificates/Slice0/Obligations.lean ====
section
/-! DEFINITION. The statements, family by family, with the value rules that they compare the model with. -/

-- The S slot --------------------------------------------------------------------------------------------------------

namespace Sys2Proof.Machine

/-- The word of an exact integer, modulo 2^64 (R59). -/
def wordOf (n : Int) : Word := BitVec.ofInt 64 n

/-- Quotient and remainder of R59 on exact integers, `ones` being the quotient of a division by zero. -/
def quotRule (a b ones : Int) : Int := if b = 0 then ones else a.tdiv b
def remRule (a b : Int) : Int := if b = 0 then a else a - a.tdiv b * b

/-- The field length of BEXT and BINS (R152). -/
def lenRule (y : Word) : Nat := if y.toNat / 256 % 64 = 0 then 64 else y.toNat / 256 % 64

/-- The field that BEXT takes, as a number (R152). -/
def fieldRule (x y : Word) : Nat := x.toNat / 2 ^ (y.toNat % 64) % 2 ^ lenRule y

/-- Destination, sources, latency and value of the arithmetic and logic instructions of R149 and of BEXT, on exact
integers. -/
def scalarRule : Instr → Option (Spec × List Spec × Nat × (List Word → Word))
  | .add d a b => some (d, [a, b], 1, fun v => match v with | [x, y] => wordOf (x.toInt + y.toInt) | _ => 0)
  | .sub d a b => some (d, [a, b], 1, fun v => match v with | [x, y] => wordOf (x.toInt - y.toInt) | _ => 0)
  | .mul d a b => some (d, [a, b], 3, fun v => match v with | [x, y] => wordOf (x.toInt * y.toInt) | _ => 0)
  | .mulHs d a b => some (d, [a, b], 3, fun v => match v with | [x, y] => wordOf (x.toInt * y.toInt / 2 ^ 64) | _ => 0)
  | .mulHu d a b => some (d, [a, b], 3, fun v => match v with
      | [x, y] => wordOf ((x.toNat * y.toNat / 2 ^ 64 : Nat) : Int) | _ => 0)
  | .div d a b => some (d, [a, b], 18, fun v => match v with | [x, y] => wordOf (quotRule x.toInt y.toInt (-1)) | _ => 0)
  | .divU d a b => some (d, [a, b], 18, fun v => match v with
      | [x, y] => wordOf (quotRule x.toNat y.toNat (2 ^ 64 - 1)) | _ => 0)
  | .rem d a b => some (d, [a, b], 18, fun v => match v with | [x, y] => wordOf (remRule x.toInt y.toInt) | _ => 0)
  | .remU d a b => some (d, [a, b], 18, fun v => match v with | [x, y] => wordOf (remRule x.toNat y.toNat) | _ => 0)
  | .and d a b => some (d, [a, b], 1, fun v => match v with | [x, y] => x &&& y | _ => 0)
  | .or d a b => some (d, [a, b], 1, fun v => match v with | [x, y] => x ||| y | _ => 0)
  | .xor d a b => some (d, [a, b], 1, fun v => match v with | [x, y] => x ^^^ y | _ => 0)
  | .shl d a b => some (d, [a, b], 1, fun v => match v with | [x, y] => wordOf (x.toInt * 2 ^ (y.toNat % 64)) | _ => 0)
  | .shr d a b => some (d, [a, b], 1, fun v => match v with
      | [x, y] => wordOf ((x.toNat / 2 ^ (y.toNat % 64) : Nat) : Int) | _ => 0)
  | .sar d a b => some (d, [a, b], 1, fun v => match v with | [x, y] => wordOf (x.toInt / 2 ^ (y.toNat % 64)) | _ => 0)
  | .min d a b => some (d, [a, b], 1, fun v => match v with | [x, y] => if x.toInt ≤ y.toInt then x else y | _ => 0)
  | .minU d a b => some (d, [a, b], 1, fun v => match v with | [x, y] => if x.toNat ≤ y.toNat then x else y | _ => 0)
  | .max d a b => some (d, [a, b], 1, fun v => match v with | [x, y] => if x.toInt ≤ y.toInt then y else x | _ => 0)
  | .maxU d a b => some (d, [a, b], 1, fun v => match v with | [x, y] => if x.toNat ≤ y.toNat then y else x | _ => 0)
  | .clz d a => some (d, [a], 1, fun v => match v with
      | [x] => wordOf (((List.range 64).countP (fun k => x.toNat < 2 ^ k) : Nat) : Int) | _ => 0)
  | .popc d a => some (d, [a], 1, fun v => match v with
      | [x] => wordOf (((List.range 64).countP (fun k => x.toNat / 2 ^ k % 2 = 1) : Nat) : Int) | _ => 0)
  | .addi d a imm => some (d, [a], 1, fun v => match v with | [x] => wordOf (x.toInt + imm.toInt) | _ => 0)
  | .andi d a imm => some (d, [a], 1, fun v => match v with | [x] => x &&& wordOf imm.toInt | _ => 0)
  | .ori d a imm => some (d, [a], 1, fun v => match v with | [x] => x ||| wordOf imm.toInt | _ => 0)
  | .xori d a imm => some (d, [a], 1, fun v => match v with | [x] => x ^^^ wordOf imm.toInt | _ => 0)
  | .shiL d a n => some (d, [a], 1, fun v => match v with | [x] => wordOf (x.toInt * 2 ^ n.toNat) | _ => 0)
  | .shiR d a n => some (d, [a], 1, fun v => match v with | [x] => wordOf ((x.toNat / 2 ^ n.toNat : Nat) : Int) | _ => 0)
  | .shiA d a n => some (d, [a], 1, fun v => match v with | [x] => wordOf (x.toInt / 2 ^ n.toNat) | _ => 0)
  | .li d imm => some (d, [], 1, fun _ => wordOf imm.toInt)
  | .lui d imm => some (d, [], 1, fun _ => wordOf (imm.toInt * 4096))
  | .bext d a b => some (d, [a, b], 1, fun v => match v with | [x, y] => wordOf (fieldRule x y : Int) | _ => 0)
  | .bextS d a b => some (d, [a, b], 1, fun v => match v with
      | [x, y] => wordOf (if 2 ^ (lenRule y - 1) ≤ fieldRule x y then (fieldRule x y : Int) - 2 ^ lenRule y
                          else (fieldRule x y : Int)) | _ => 0)
  | _ => none

end Sys2Proof.Machine

section
open Sys2Proof Sys2Proof.Machine

/-- The arithmetic and logic instructions of the S slot (R149, R152): where the sources can be read, each answers the
state in which its result, computed on exact integers, is in flight for its destination with the latency of R110. -/
def Obligations.ScalarArithmeticResults : Prop :=
  ∀ (i : Instr) (d : Spec) (src : List Spec) (lat : Nat)
    (f : List Word → Word) (vals : List Word) (s t : State),
    scalarRule i = some (d, src, lat, f) → i.wf = true → Issuing s →
    ReadInOrder (srcS i) src s vals t →
    exec i s =
      .next (t.updMe (fun c => c.afterOp 1 lat (sEffect c d (f vals)) 0))

end
namespace Sys2Proof.Machine

/-- The conditions of R150 on exact integers. -/
def condRule (c : SCond) (x y : Word) : Bool :=
  match c with
  | .eq => decide (x.toNat = y.toNat)
  | .ne => decide (x.toNat ≠ y.toNat)
  | .lt => decide (x.toInt < y.toInt)
  | .ge => decide (y.toInt ≤ x.toInt)
  | .ltu => decide (x.toNat < y.toNat)
  | .geu => decide (y.toNat ≤ x.toNat)

/-- What a comparison writes: 1 or 0, or every bit of a predicate register (R150). -/
def cmpEffect (c : Context) (d : CmpDst) (r : Bool) : Option Effect :=
  match d with
  | .s sp => sEffect c sp (if r then 1 else 0)
  | .p n => some (.p n (if r then BitVec.allOnes 128 else 0) (BitVec.allOnes 128))

/-- Some bit of a predicate register, after negation, is 1 (R151). -/
def someBitRule (p : PWord) (neg : Bool) : Bool := decide (∃ k : Fin 128, p.getLsbD k ≠ neg)

/-- What a source of MOVX reads, and the state that the read leaves (R153). -/
def movRead (i : Instr) (a : MovSrc) (s : State) (x : Word) (t : State) : Prop :=
  match a with
  | .loc (.s sp) => (srcS i sp).run s = (.ok x, t)
  | .loc (.a sp) => (srcA i sp).run s = (.ok x, t)
  | .loc (.l n) => x = s.me.l.get n ∧ t = s
  | .loc (.x n) => x = s.me.readX n ∧ t = s
  | .loc (.y n) => x = s.me.y.get n ∧ t = s
  | .sys n => x = s.readSys n.toNat ∧ t = s

/-- Where MOVX writes (R153). -/
def movEffect (c : Context) (d : MovLoc) (x : Word) : Option Effect :=
  match d with
  | .s sp => sEffect c sp x
  | .a sp => aEffect c sp x
  | .l n => some (.l n x)
  | .x n => some (c.effX n x)
  | .y n => some (.y n x)

/-- What a v or w destination receives, whole (R154, R196). -/
def wholeEffect (c : Context) (slot : VSlot) (d : Spec) (v : VWord) : Option Effect :=
  match d with
  | .reg n => some (effV slot n v (BitVec.allOnes 1024))
  | .rel n => some (effV slot (c.vbase slot + n.setWidth 5) v (BitVec.allOnes 1024))
  | _ => none

/-- The system registers that CSRR reads, field by field (R111 to R115, R288, R366). -/
def sysRule (s : State) (n : Nat) : Option Word :=
  match n with
  | 0x000 => some (wordOf s.me.sticky.toNat)
  | 0x001 => some s.me.seed
  | 0x002 => some (wordOf s.me.user.tick)
  | 0x003 => some (wordOf (s.me.thread.toNat + 2 ^ 13 * s.me.mat.toNat : Nat))
  | 0x004 => some (wordOf (s.me.ringLen.toNat + 2 ^ 3 * s.me.ringOff.toNat : Nat))
  | 0x005 => some (wordOf (s.me.bs.toNat + 2 ^ 8 * s.me.ba.toNat + 2 ^ 16 * s.me.bv.toNat + 2 ^ 24 * s.me.bw.toNat : Nat))
  | 0x010 => some s.me.fcause
  | 0x011 => some s.me.fdetail
  | 0x012 => some s.me.faddr
  | 0x013 => some s.me.fret
  | 0x014 => some s.me.ftick
  | 0x015 => some s.me.fpyr
  | 0x800 => some (s.part s.me.part).hentry
  | 0x801 => some (wordOf (s.part s.me.part).hlen.toNat)
  | 0x818 => some (s.me.s.get 24)
  | 0x819 => some (s.me.s.get 25)
  | 0x81A => some (s.me.s.get 26)
  | 0x81B => some (s.me.s.get 27)
  | 0x81C => some (s.me.s.get 28)
  | 0x81D => some (s.me.s.get 29)
  | 0x81E => some (s.me.s.get 30)
  | 0x81F => some (s.me.s.get 31)
  | 0x820 => some s.me.dvbase
  | 0x821 => some s.me.dvsel
  | _ => none

/-- The system registers that CSRW may write, by mode (R111, R288, R366). -/
def sysWritable (priv : Bool) (n : Nat) : Bool :=
  n = 0 || n = 1 || n = 4 ||
    (priv && ((0x10 ≤ n && n ≤ 0x15) || (0x818 ≤ n && n ≤ 0x821)))

end Sys2Proof.Machine

section
open Sys2Proof Sys2Proof.Machine

/-- CMP, CMPI, SEL and BINS (R150 to R152): comparison by value, selection by any bit of a predicate read at issue, and
insertion of a field over the destination's old value. -/
def Sys2Proof.Claims.ScalarCompareSelectInsert : Prop :=
  (∀ (d : CmpDst) (a b : Spec) (c : SCond) (x y : Word) (s t : State),
    (Instr.cmp d a b c).wf = true → Issuing s → ReadInOrder (srcS (.cmp d a b c)) [a, b] s [x, y] t →
    exec (.cmp d a b c) s = .next (t.updMe (fun m => m.afterOp 1 1 (cmpEffect m d (condRule c x y)) 0))) ∧
  (∀ (d : CmpDst) (a : Spec) (v : BitVec 8) (c : SCond) (x : Word) (s t : State),
    (Instr.cmpi d a v c).wf = true → Issuing s → ReadInOrder (srcS (.cmpi d a v c)) [a] s [x] t →
    exec (.cmpi d a v c) s =
      .next (t.updMe (fun m => m.afterOp 1 1 (cmpEffect m d (condRule c x (wordOf v.toInt))) 0))) ∧
  (∀ (d a b : Spec) (neg : Bool) (p : BitVec 4) (x y : Word) (s t : State),
    (Instr.sel d a b neg p).wf = true → Issuing s → ReadInOrder (srcS (.sel d a b neg p)) [a, b] s [x, y] t →
    exec (.sel d a b neg p) s =
      .next (t.updMe (fun m => m.afterOp 1 1 (sEffect m d (if someBitRule (s.me.p.get p) neg then x else y)) 0))) ∧
  (∀ (d a b : Spec) (old x y : Word) (s t : State),
    (Instr.bins d a b).wf = true → Issuing s → ReadInOrder (srcS (.bins d a b)) [d, a, b] s [old, x, y] t →
    ∃ r : Word, exec (.bins d a b) s = .next (t.updMe (fun m => m.afterOp 1 1 (sEffect m d r) 0)) ∧
      ∀ k < 64, r.getLsbD k =
        if y.toNat % 64 ≤ k ∧ k < y.toNat % 64 + lenRule y then x.getLsbD (k - y.toNat % 64) else old.getLsbD k)

/-- MOVX, MOVX.b and SETB (R153 to R155): one value between files after two ticks, the low bits of an s value in every
element of a vector register after three, and the low five bits of a value in an index base after two. -/
def Sys2Proof.Claims.ScalarMovesBetweenFiles : Prop :=
  (∀ (d : MovLoc) (a : MovSrc) (x : Word) (s t : State),
    (Instr.movx d a).wf = true → Issuing s → movRead (.movx d a) a s x t →
    exec (.movx d a) s = .next (t.updMe (fun m => m.afterOp 1 2 (movEffect m d x) 0))) ∧
  (∀ (slot : VSlot) (d a : Spec) (f : Fmt) (x : Word) (s t : State),
    (Instr.movxB slot d a f).wf = true → Issuing s → ReadInOrder (srcS (.movxB slot d a f)) [a] s [x] t →
    ∃ v : VWord, (∀ k < 1024, v.getLsbD k = x.getLsbD (k % f.bits)) ∧
      exec (.movxB slot d a f) s = .next (t.updMe (fun m => m.afterOp 1 3 (wholeEffect m slot d v) 0))) ∧
  (∀ (b : Base) (a : Spec) (x : Word) (s t : State),
    (Instr.setb b a).wf = true → Issuing s → ReadInOrder (srcS (.setb b a)) [a] s [x] t →
    exec (.setb b a) s = .next (t.updMe (fun m => m.afterOp 1 2 (some (.base b (BitVec.ofNat 5 (x.toNat % 32)))) 0)))

/-- CSRR and CSRW (R111 to R115, R156, R288): the value of every listed register but DVDATA, which reads one line of the
debug view, and a write in flight for its register, in the modes that allow them. That DVDATA
answers within the CSRR, where R277 and R367 let the strap wait for the view, and what word it then gives are the model's choice (log entries
52 and 85). -/
def Sys2Proof.Claims.SystemRegisterReadsAndWrites : Prop :=
  (∀ (d : Spec) (n : BitVec 12) (x : Word) (s : State),
    (Instr.csrr d n).wf = true → Issuing s → (0x800 ≤ n.toNat → s.me.priv = true) → sysRule s n.toNat = some x →
    exec (.csrr d n) s = .next (s.updMe (fun m => m.afterOp 1 1 (sEffect m d x) 0))) ∧
  (∀ (d : Spec) (s : State),
    (Instr.csrr d 0x822).wf = true → Issuing s → s.me.priv = true →
    exec (.csrr d 0x822) s = .next (s.updMe (fun m => m.afterOp 1 1 (sEffect m d (s.debugWord s.me)) 0))) ∧
  (∀ (n : BitVec 12) (a : Spec) (x : Word) (s t : State),
    (Instr.csrw n a).wf = true → Issuing s → sysWritable s.me.priv n.toNat = true →
    ReadInOrder (srcS (.csrw n a)) [a] s [x] t →
    exec (.csrw n a) s = .next (t.updMe (fun m => m.afterOp 1 1 (some (.sys n x)) 0)))

end
namespace Sys2Proof.Machine

/-- The ring cell of a name d0 to d7 (R104). -/
def cellRule (c : Context) (n : Nat) : BitVec 3 :=
  BitVec.ofNat 3 (if n < c.ringLen.toNat + 1 then (n + c.ringOff.toNat) % (c.ringLen.toNat + 1) else n)

/-- An s register as a specifier names it; in the handler s24 to s31 are its own eight (R286). -/
def sRegRule (c : Context) (n : BitVec 5) : Word :=
  if c.priv = true ∧ 24 ≤ n.toNat then c.h.get (BitVec.ofNat 3 (n.toNat - 24)) else c.s.get n

/-- An a register; a24 to a31 are ring names (R104). -/
def aRegRule (c : Context) (n : BitVec 5) : Word :=
  if n.toNat < 24 then c.a.get n else c.d.get (cellRule c (n.toNat - 24))

/-- An x register; x8 to x15 are ring names (R104). -/
def xRegRule (c : Context) (n : BitVec 4) : Word :=
  if n.toNat < 8 then c.x.get (BitVec.ofNat 3 n.toNat) else c.d.get (cellRule c (n.toNat - 8))

/-- A register of the file of a vector slot (R81). -/
def vRegRule (c : Context) (slot : VSlot) (n : BitVec 5) : VWord :=
  match slot with
  | .v0 => c.v.get n
  | .v1 => c.w.get n

/-- The register that a base-relative specifier names (R81, R82). -/
def relRule (base : BitVec 5) (n : BitVec 4) : BitVec 5 := BitVec.ofNat 5 ((base.toNat + n.toNat) % 32)

end Sys2Proof.Machine

section
open Sys2Proof Sys2Proof.Machine

/-- Register and zero operands of the S, A, vector and X slots (R81, R82, R104, R286): the value, with nothing
changed. -/
def Obligations.RegisterOperandsRead : Prop :=
  ∀ (i : Instr) (s : State),
    (∀ n, (srcS i (.reg n)).run s = (.ok (sRegRule s.me n), s)) ∧
    (∀ n, (srcS i (.rel n)).run s = (.ok (sRegRule s.me (relRule s.me.bs n)), s)) ∧
    (∀ n, (srcA i (.reg n)).run s = (.ok (aRegRule s.me n), s)) ∧
    (∀ n, (srcA i (.rel n)).run s = (.ok (aRegRule s.me (relRule s.me.ba n)), s)) ∧
    (∀ n, (srcX n).run s = (.ok (xRegRule s.me n), s)) ∧
    (∀ n, (srcV i .v0 (.reg n)).run s = (.ok (vRegRule s.me .v0 n), s)) ∧
    (∀ n, (srcV i .v1 (.reg n)).run s = (.ok (vRegRule s.me .v1 n), s)) ∧
    (∀ n, (srcV i .v0 (.rel n)).run s = (.ok (vRegRule s.me .v0 (relRule s.me.bv n)), s)) ∧
    (∀ n, (srcV i .v1 (.rel n)).run s = (.ok (vRegRule s.me .v1 (relRule s.me.bw n)), s)) ∧
    (srcS i .zero).run s = (.ok 0, s) ∧ (srcA i .zero).run s = (.ok 0, s) ∧
    (∀ slot, (srcV i slot .zero).run s = (.ok 0, s))

/-- Queue operands (R81, R83, R123, R125, R135, R174, R283, R290): a pop takes the head entry, of which the S and A slots
read the low 64 bits; a marked head raises its fault and stays; an empty result queue underflows; a pop of kq by an
operation that is no member of the entry's class raises 0x09; a helper reads zero. -/
def Obligations.QueueOperandsPop : Prop :=
  ∀ (i : Instr) (s : State),
    (∀ (v : VWord) (id part : Nat) (r : List LqEntry), s.me.st ≠ .helper →
      s.me.flow.q.lq = { id := id, part := part, st := .present v } :: r →
      ∃ t : State, (srcS i .lq).run s = (.ok (BitVec.ofNat 64 v.toNat), t) ∧
        (srcA i .lq).run s = (.ok (BitVec.ofNat 64 v.toNat), t) ∧ (∀ slot, (srcV i slot .lq).run s = (.ok v, t)) ∧
        t.me.flow.q = { s.me.flow.q with lq := r } ∧ t.me.registers = s.me.registers ∧ t.mem = s.mem) ∧
    (∀ (f : FaultInfo) (id part : Nat) (r : List LqEntry), s.me.st ≠ .helper →
      s.me.flow.q.lq = { id := id, part := part, st := .marked f } :: r →
      (srcS i .lq).run s = (.error f, s) ∧ (srcA i .lq).run s = (.error f, s) ∧
      ∀ slot, (srcV i slot .lq).run s = (.error f, s)) ∧
    (∀ (n : BitVec 3) (slot : VSlot), s.me.st ≠ .helper → (s.myCore.rq[n.toNat]'n.isLt).present = [] →
      (srcS i (.rq n)).run s = (.error { code := 0x08, detail := 0, addr := 0 }, s) ∧
      (srcA i (.rq n)).run s = (.error { code := 0x08, detail := 0, addr := 0 }, s) ∧
      (srcV i slot (.rq n)).run s = (.error { code := 0x08, detail := 0, addr := 0 }, s)) ∧
    (∀ (n : BitVec 3) (e : RqEntry) (r : List RqEntry), s.me.st ≠ .helper →
      (s.myCore.rq[n.toNat]'n.isLt).present = e :: r → e.claimed = false → (∀ x ∈ r, x.id ≠ e.id) →
      ∃ t : State, (srcS i (.rq n)).run s = (.ok (BitVec.ofNat 64 e.data.toNat), t) ∧
        (∀ slot, (srcV i slot (.rq n)).run s = (.ok e.data, t)) ∧
        (t.myCore.rq[n.toNat]'n.isLt).present = r ∧ t.me.registers = s.me.registers ∧ t.mem = s.mem) ∧
    (∀ (e : KqEntry) (r : List KqEntry), s.me.st ≠ .helper → opSlot i = 1 ∨ opSlot i = 2 →
      s.me.flow.q.kq = e :: r → e.mark = none →
      ∃ d : Word, (srcS i .kq).run s = (.error { code := 0x09, detail := d, addr := e.base }, s) ∧
        (srcA i .kq).run s = (.error { code := 0x09, detail := d, addr := e.base }, s)) ∧
    (s.me.st = .helper → ∀ n slot, (srcS i .lq).run s = (.ok 0, s) ∧ (srcS i .kq).run s = (.ok 0, s) ∧
      (srcS i (.rq n)).run s = (.ok 0, s) ∧ (srcA i .lq).run s = (.ok 0, s) ∧ (srcV i slot .lq).run s = (.ok 0, s))

end
namespace Sys2Proof.Machine

/-- The instructions whose results only enter flight: the S slot, the address arithmetic, the K slot and the vector
slots but for VFCVT and VQNT, which may draw from SEED (R52). -/
def resultOnly (i : Instr) : Bool :=
  match i with
  | .vfcvt _ _ _ _ _ _ _ _ | .vqnt _ _ _ _ _ _ _ => false
  | .aadd _ _ _ | .aaddi _ _ _ | .amadd _ _ _ _ | .ali _ _ => true
  | i => i.encode.isSome && (opSlot i == 1 || opSlot i == 3 || opSlot i == 4 || opSlot i == 6)

/-- Destination, sources and value of the address arithmetic (R166), on exact integers. -/
def addressRule : Instr → Option (Spec × List Spec × (List Word → Word))
  | .aadd d a b => some (d, [a, b], fun v => match v with | [x, y] => wordOf (x.toInt + y.toInt) | _ => 0)
  | .aaddi d a imm => some (d, [a], fun v => match v with | [x] => wordOf (x.toInt + imm.toInt) | _ => 0)
  | .amadd d a b c => some (d, [a, b, c], fun v => match v with | [x, y, z] => wordOf (x.toInt * y.toInt + z.toInt) | _ => 0)
  | .ali d imm => some (d, [], fun _ => wordOf imm.toInt)
  | _ => none

end Sys2Proof.Machine

section
open Sys2Proof Sys2Proof.Machine

/-- The frame of the instructions whose results only enter flight, VFCVT and VQNT apart: where none of them faults, every register
of the context, every byte of memory, its program counter and tick, and every other context stay as they were. -/
def Obligations.ResultInstructionsFrame : Prop :=
  ∀ (i : Instr) (s t : State), resultOnly i = true → Issuing s → exec i s = .next t → t.me.priv = s.me.priv →
    t.me.registers = s.me.registers ∧ (∀ k, memRead t.mem k = memRead s.mem k) ∧
    t.me.flow.pc = s.me.flow.pc ∧ t.me.flow.tick = s.me.flow.tick ∧ t.cur = s.cur ∧
    ∀ c : CtxId, c ≠ s.cur → t.ctx c = s.ctx c

/-- AADD, AADDI, AMADD and ALI (R166): the value in flight for its destination, to land one tick on. -/
def Obligations.AddressArithmeticResults : Prop :=
  ∀ (i : Instr) (d : Spec) (src : List Spec) (f : List Word → Word) (vals : List Word) (s t : State),
    addressRule i = some (d, src, f) → i.wf = true → Issuing s → ReadInOrder (srcA i) src s vals t →
    exec i s = .next (t.updMe (fun c => c.afterOp 2 1 (aEffect c d (f vals)) 0))

end
namespace Sys2Proof.Machine

/-- A load has issued (R170): the next number of its core is taken, its entry stands last in the load-address queue, as many
entries as it will fill are reserved in lq, and the A slot is done. -/
def State.loadIssued (t : State) (ea : Word) (kind : LoadKind) (entries : Nat) : State :=
  (t.updMyCore (fun k => { k with nextId := k.nextId + 1 })).updMe (fun c =>
    (c.updFlow (fun f => { f with q := { f.q with
      la := f.q.la ++ [{ id := t.myCore.nextId, ea := ea, kind := kind, got := [], pushed := 0, stuck := false, redo := false }]
      lq := f.q.lq ++ (List.range entries).map (fun n => { id := t.myCore.nextId, part := n, st := .reserved }) } })).slotDone 2)

/-- The number of the register that the pair of CAS begins at (R183). -/
def pairRule (c : Context) (sp : Spec) : Option (BitVec 5) :=
  match sp with
  | .reg n => some n
  | .rel n => some (relRule c.ba n)
  | _ => none

/-- A store has issued (R171): its entry, with the frames that its addresses passed, stands last in the store-address
queue, and the A slot is done. -/
def State.storeIssued (t : State) (ea : Word) (kind : StoreKind) (frames : List (Nat × Nat)) : State :=
  (t.updMyCore (fun k => { k with nextId := k.nextId + 1 })).updMe (fun c =>
    (c.updFlow (fun f => { f with q := { f.q with
      sa := f.q.sa ++ [{ id := t.myCore.nextId, ea := ea, kind := kind, frames := frames, held := false, data := [],
                         plan := none, bad := [], flags := 0 }] } })).slotDone 2)

/-- A record operation has issued (R188, R189): it is last among those in the background, and the A slot is done. -/
def State.tileIssued (t : State) (drop : Bool) (frames : List (Nat × Nat)) (plan : List GranuleWrite) (flags : Flags) : State :=
  (t.updMyCore (fun k => { k with nextId := k.nextId + 1 })).updMe (fun c =>
    Context.slotDone
      { c with tileOps := c.tileOps ++
          [{ id := t.myCore.nextId, drop := drop, frames := frames, plan := plan, bad := [], flags := flags }] } 2)

/-- The bytes of an access of a width. -/
def bytesAt (ea : Word) (n : Nat) : List Nat := (List.range n).map (fun k => ea.toNat + k)

/-- The element addresses of a strided access of a width (R176). -/
def strideRule (base stride : Word) (w : Nat) : List Word :=
  (List.range (128 / w)).map (fun k => wordOf (base.toInt + k * stride.toInt))

/-- A store's addresses pass the checks of R175 in a state, which the checks leave as another: each page translates for
writing to the frame listed, and no granule is kept. -/
def TargetsPass (i : Instr) (strong : Bool) (vas : List Nat) (s : State) (fr : List (Nat × Nat)) (t : State) : Prop :=
  (checkTargets i false strong true vas []).run s = (.ok fr, t)

end Sys2Proof.Machine

section
open Sys2Proof Sys2Proof.Machine

/-- LDA, LDS, LDT, LDK and GIDX (R167, R169, R170, R176, R177, R185, R187): an aligned load enters the load-address queue
with its effective address and reserves one, one, eight, no and no entries of lq. -/
def Sys2Proof.Claims.LoadsEnterTheQueue : Prop :=
  (∀ (base idx : Spec) (w : BitVec 3) (sc : Scope) (o : Order) (b x : Word) (s t : State),
    (Instr.lda base idx w sc o).wf = true → Issuing s →
    ReadInOrder (srcA (.lda base idx w sc o)) [base, idx] s [b, x] t → (b + x).toNat % 2 ^ w.toNat = 0 →
    exec (.lda base idx w sc o) s = .next (t.loadIssued (b + x) (.lda w sc o) 1)) ∧
  (∀ (base stride : Spec) (w : BitVec 3) (b x : Word) (s t : State),
    (Instr.lds base stride w).wf = true → Issuing s →
    ReadInOrder (srcA (.lds base stride w)) [base, stride] s [b, x] t →
    (∀ a ∈ strideRule b x (2 ^ w.toNat), a.toNat % 2 ^ w.toNat = 0) →
    exec (.lds base stride w) s = .next (t.loadIssued b (.lds x w) 1)) ∧
  (∀ (base offs : Spec) (b x : Word) (r : RecordOr) (s t u : State),
    (Instr.ldt base offs).wf = true → Issuing s → ReadInOrder (srcA (.ldt base offs)) [base, offs] s [b, x] t →
    t.takeRecord t.cur.core t.me.part (b.toNat % 2 ^ 20) = (r, u) →
    exec (.ldt base offs) s = .next (u.loadIssued b (.ldt x r) 8)) ∧
  (∀ (base idx : Spec) (c : RClass) (b x : Word) (s t : State),
    (Instr.ldk base idx c).wf = true → Issuing s → ReadInOrder (srcA (.ldk base idx c)) [base, idx] s [b, x] t →
    (b + x).toNat % 64 = 0 →
    exec (.ldk base idx c) s = .next (t.loadIssued (b + x) (.ldk c) 0)) ∧
  (∀ (base idx : Spec) (b x : Word) (s t : State),
    (Instr.gidx base idx).wf = true → Issuing s → ReadInOrder (srcA (.gidx base idx)) [base, idx] s [b, x] t →
    exec (.gidx base idx) s = .next (t.loadIssued (b + x) .gidx 0))

/-- ATOM and CAS (R170, R182, R183): an aligned atomic enters the load-address queue at its base address and reserves one
entry of lq; CAS takes its expected and new words from a register pair. -/
def Sys2Proof.Claims.AtomicsEnterTheQueue : Prop :=
  (∀ (base data : Spec) (w : BitVec 3) (sc : Scope) (o : Order) (op : AtomOp) (b v : Word) (s t : State),
    (Instr.atom base data w sc o op).wf = true → Issuing s →
    ReadInOrder (srcA (.atom base data w sc o op)) [base, data] s [b, v] t → b.toNat % 2 ^ w.toNat = 0 →
    exec (.atom base data w sc o op) s = .next (t.loadIssued b (.atom w sc o op v) 1)) ∧
  (∀ (base data : Spec) (w : BitVec 3) (sc : Scope) (o : Order) (b : Word) (n : BitVec 5) (s t : State),
    (Instr.cas base data w sc o).wf = true → Issuing s → ReadInOrder (srcA (.cas base data w sc o)) [base] s [b] t →
    pairRule t.me data = some n → b.toNat % 2 ^ w.toNat = 0 →
    exec (.cas base data w sc o) s =
      .next (t.loadIssued b (.cas w sc o (aRegRule t.me n) (aRegRule t.me (n + 1))) 1))

/-- PF (R178): it may bring lines into the tile cache or do nothing; every register and every queue stay as the reading of its
operands left them, and where the tile cache has room for the two lines that the access can touch, so that none leaves it (R337,
R361), the thread's own and dirty bytes, the memory and every other context do too. -/
def Sys2Proof.Claims.PrefetchChangesNoState : Prop :=
  ∀ (base idx : Spec) (w : BitVec 3) (b x : Word) (s t : State),
    (Instr.pf base idx w).wf = true → Issuing s → ReadInOrder (srcA (.pf base idx w)) [base, idx] s [b, x] t →
    ∃ u : State, exec (.pf base idx w) s = .next u ∧ u.me.registers = t.me.registers ∧
      u.me.flow = (t.me.slotDone 2).flow ∧
      (t.myCore.lines.length ≤ 766 → u.me.own = t.me.own ∧ u.me.dirty = t.me.dirty ∧ u.mem = t.mem ∧
        ∀ c : CtxId, c ≠ s.cur → u.ctx c = s.ctx c)

/-- STA and STS (R167, R169, R171, R175, R176): an aligned store whose bytes pass the checks enters the store-address
queue; nothing is written before its data is paired with it. -/
def Sys2Proof.Claims.StoresEnterTheQueue : Prop :=
  (∀ (base idx : Spec) (w : BitVec 3) (sc : Scope) (o : Order) (b x : Word) (fr : List (Nat × Nat)) (s t u : State),
    (Instr.sta base idx w sc o).wf = true → Issuing s →
    ReadInOrder (srcA (.sta base idx w sc o)) [base, idx] s [b, x] t → (b + x).toNat % 2 ^ w.toNat = 0 →
    TargetsPass (.sta base idx w sc o) (o != .ordinary) (bytesAt (b + x) (2 ^ w.toNat)) t fr u →
    exec (.sta base idx w sc o) s = .next (u.storeIssued (b + x) (.sta w sc o) fr)) ∧
  (∀ (base stride : Spec) (w : BitVec 3) (b x : Word) (fr : List (Nat × Nat)) (s t u : State),
    (Instr.sts base stride w).wf = true → Issuing s →
    ReadInOrder (srcA (.sts base stride w)) [base, stride] s [b, x] t →
    (∀ a ∈ strideRule b x (2 ^ w.toNat), a.toNat % 2 ^ w.toNat = 0) →
    TargetsPass (.sts base stride w) false ((strideRule b x (2 ^ w.toNat)).flatMap (fun a => bytesAt a (2 ^ w.toNat))) t fr u →
    exec (.sts base stride w) s = .next (u.storeIssued b (.sts x w) fr))

/-- STT, STI and SKST (R116, R171, R175, R177, R181, R186): a tile store whose shape record, format and bytes pass, and a
record store whose shape word and granules pass, enter the store-address queue. -/
def Sys2Proof.Claims.TileAndRecordStoresEnterTheQueue : Prop :=
  (∀ (base offs : Spec) (b x : Word) (bytes : List Byte) (h : Shape) (fr : List (Nat × Nat)) (s t v u : State),
    (Instr.stt base offs).wf = true → Issuing s → ReadInOrder (srcA (.stt base offs)) [base, offs] s [b, x] t →
    t.takeRecord t.cur.core t.me.part (b.toNat % 2 ^ 20) = (.bytes bytes, v) → shapeOf bytes = some h →
    h.noWrite = false → TargetsPass (.stt base offs) false (tileVas h b x) v fr u →
    exec (.stt base offs) s = .next (u.storeIssued b (.stt x bytes) fr)) ∧
  (∀ (base offs : Spec) (neg : Bool) (b x : Word) (bytes : List Byte) (h : Shape) (fr : List (Nat × Nat)) (s t v u : State),
    (Instr.sti base offs neg).wf = true → Issuing s → ReadInOrder (srcA (.sti base offs neg)) [base, offs] s [b, x] t →
    t.takeRecord t.cur.core t.me.part (b.toNat % 2 ^ 20) = (.bytes bytes, v) → shapeOf bytes = some h →
    h.noWrite = false → h.fmt ≠ .o4 → TargetsPass (.sti base offs neg) false (tileVas h b x) v fr u →
    exec (.sti base offs neg) s = .next (u.storeIssued b (.sti x neg bytes) fr)) ∧
  (∀ (base shape : Spec) (c : RClass) (b w : Word) (sw : ShapeWord) (fr : List (Nat × Nat)) (s t u : State),
    (Instr.skst base shape c).wf = true → Issuing s → ReadInOrder (srcA (.skst base shape c)) [base, shape] s [b, w] t →
    shapeWordOf c.code.toNat w = some sw → b.toNat % 64 = 0 →
    TargetsPass (.skst base shape c) false (recordVas b.toNat (sw.payload c.code.toNat)) t fr u →
    exec (.skst base shape c) s = .next (u.storeIssued b (.skst c w) fr))

/-- SKRTG and SKDROP (R121, R128, R188, R189): on a kept record whose granules are all kept and writable, SKRTG to a
sufficient class enters the background with the rewrite that R128 gives, payload granules before the header's, and
SKDROP with the clearing of every granule's tag, the first granule's last. -/
def Sys2Proof.Claims.RecordOperationsEnterTheBackground : Prop :=
  (∀ (base param : Spec) (c : RClass) (b w : Word) (s t : State) (fr0 fr : List (Nat × Nat)) (g0 : List Byte)
      (gs : List (List Byte × Bool × Bool)) (s1 s2 s3 s4 : State) (nh : Header) (np : List Byte) (fl : Flags),
    (Instr.skrtg base param c).wf = true → Issuing s →
    ReadInOrder (srcA (.skrtg base param c)) [base, param] s [b, w] t → w.toNat < 2 ^ 9 → b.toNat % 64 = 0 →
    (checkTargets (.skrtg base param c) true false false [b.toNat] []).run t = (.ok fr0, s1) →
    (readGranule fr0 b.toNat).run s1 = (.ok (g0, true, false), s2) → headerReason true (headerOf g0) none = none →
    (checkTargets (.skrtg base param c) true false false (recordVas b.toNat (headerOf g0).payload) []).run s2 = (.ok fr, s3) →
    ((recordVas b.toNat (headerOf g0).payload).mapM (readGranule fr)).run s3 = (.ok gs, s4) → (∀ g ∈ gs, g.2 = (true, false)) →
    retagOf (headerOf g0) (((gs.flatMap (·.1)).drop 16).take (headerOf g0).payload) c.code.toNat (w.toNat % 2 ^ 8)
      (w.getLsbD 8) = .rewrite nh np fl →
    exec (.skrtg base param c) s =
      .next (s4.tileIssued false fr (rewritePlan b.toNat (recordGranules (headerOf g0).payload) nh np) fl)) ∧
  (∀ (base idx : Spec) (b x : Word) (s t : State) (fr0 fr : List (Nat × Nat)) (g0 : List Byte) (s1 s2 s3 : State),
    (Instr.skdrop base idx).wf = true → Issuing s → ReadInOrder (srcA (.skdrop base idx)) [base, idx] s [b, x] t →
    (b + x).toNat % 64 = 0 →
    (checkTargets (.skdrop base idx) true false false [(b + x).toNat] []).run t = (.ok fr0, s1) →
    (readGranule fr0 (b + x).toNat).run s1 = (.ok (g0, true, false), s2) →
    (checkTargets (.skdrop base idx) true false false (recordVas (b + x).toNat (headerOf g0).payload) []).run s2 = (.ok fr, s3) →
    ∃ plan : List GranuleWrite,
      exec (.skdrop base idx) s = .next (s3.tileIssued true fr plan 0) ∧
      (∀ g ∈ plan, g.tag = false ∧ g.bytes = none) ∧ plan.getLast?.map (·.va) = some (b + x).toNat ∧
      ∀ va, va ∈ plan.map (·.va) ↔ va ∈ recordVas (b + x).toNat (headerOf g0).payload)

end
namespace Sys2Proof.Machine

/-- Byte k of a vector word. -/
def byteRule (v : VWord) (k : Nat) : Nat := v.toNat / 2 ^ (8 * k) % 2 ^ 8

/-- A vector word whose bytes in memory order are those of memory from a key upward (R3). -/
def holdsBytes (v : VWord) (m : ByteMap) (key : Nat) : Prop := ∀ k < 128, byteRule v k = (memRead m (key + k)).toNat

/-- A scale code moved by a signed number of binades, with overflow and underflow of the scale (R192). -/
def adjustRule (n : Int) (code : Nat) : Nat :=
  if code = 0xFF then 0xFF else if 0xFE < code + n then 0xFE else if (code : Int) + n < 0 then 0 else (code + n).toNat

/-- The flags that moving some codes raises: overflow in bit 1 and scale underflow in bit 2 (R57, R192). -/
def adjustFlags (n : Int) (codes : List Nat) : BitVec 3 :=
  (if codes.any (fun c => c ≠ 0xFF ∧ 0xFE < (c : Int) + n) then 2 else 0) |||
  (if codes.any (fun c => c ≠ 0xFF ∧ (c : Int) + n < 0) then 4 else 0)

/-- A post on its way (R159, R329): to a flag of a core, for the launch that the core runs when the post is checked. -/
def postRule (s : State) (target : CoreId) (f : BitVec 5) (sc : Scope) (add : Nat) : Post :=
  { id := s.myCore.nextId, core := target, flag := f, add := BitVec.ofNat 32 add, sc := sc,
    uid := (s.core target).bound.getD 0, trig := none }

end Sys2Proof.Machine

section
open Sys2Proof Sys2Proof.Machine

/-- KLD, KLD from d0, KSET, KMOV and KMOV.adj (R104, R190 to R192): 128 bytes of the core's own scratchpad, one code in
every lane, a copy, and every code moved by a signed number with 0xFF left alone. -/
def Obligations.ScaleRegisterInstructions : Prop :=
  (∀ (d : BitVec 4) (off : BitVec 14) (s : State), IssuingUser s →
    (∀ g, g = 2 * off.toNat ∨ g = 2 * off.toNat + 1 → s.kept (padBase s.cur.core + 64 * g) = false) →
    (∀ k < 128, s.poisoned (padBase s.cur.core + 128 * off.toNat + k) = false) →
    ∃ v : VWord, holdsBytes v s.mem (padBase s.cur.core + 128 * off.toNat) ∧
      exec (.kld d off) s = .next (s.updMe (fun c => c.afterOp 6 6 (some (.k d v)) 0))) ∧
  (∀ (d : BitVec 4) (off : BitVec 14) (n : Nat) (s : State), IssuingUser s →
    n = ((s.me.d.get (cellRule s.me 0)).toNat + 128 * off.toNat) % 2 ^ 21 → n % 128 = 0 →
    (∀ g, g = n / 64 ∨ g = n / 64 + 1 → s.kept (padBase s.cur.core + 64 * g) = false) →
    (∀ k < 128, s.poisoned (padBase s.cur.core + n + k) = false) →
    ∃ v : VWord, holdsBytes v s.mem (padBase s.cur.core + n) ∧
      exec (.kldD0 d off) s = .next (s.updMe (fun c => c.afterOp 6 6 (some (.k d v)) 0))) ∧
  (∀ (d : BitVec 4) (code : BitVec 8) (s : State), IssuingUser s →
    ∃ v : VWord, (∀ k < 128, byteRule v k = code.toNat) ∧
      exec (.kset d code) s = .next (s.updMe (fun c => c.afterOp 6 1 (some (.k d v)) 0))) ∧
  (∀ (d src : BitVec 4) (s : State), IssuingUser s →
    exec (.kmov d src) s = .next (s.updMe (fun c => c.afterOp 6 1 (some (.k d (s.me.k.get src))) 0))) ∧
  (∀ (d src : BitVec 4) (n : BitVec 8) (s : State), IssuingUser s →
    ∃ v : VWord, (∀ k < 128, byteRule v k = adjustRule n.toInt (byteRule (s.me.k.get src) k)) ∧
      exec (.kmovAdj d src n) s = .next (s.updMe (fun c => c.afterOp 6 1 (some (.k d v))
        (adjustFlags n.toInt ((List.range 128).map (byteRule (s.me.k.get src)))))))

/-- WAITF and POSTF (R158, R159, R327): a WAITF whose strap issues leaves its flag, or takes the count from it where the
flag holds as much; a POSTF at scope .ctx adds at once, and at a wider scope it is a post on its way to a core in the scope's region
that owns the flag. -/
def Sys2Proof.Claims.CountingFlagInstructions : Prop :=
  (∀ (ya : BitVec 3) (f : BitVec 5) (sc : Scope) (take : Bool) (s : State),
    Issuing s → s.myCore.flagsOwned.getLsbD f.toNat = true →
    ∃ t : State, exec (.waitf ya f sc take) s = .next t ∧
      (t.myCore.flag f).toNat =
        (if take ∧ (s.me.y.get ya).toNat % 2 ^ 32 ≤ (s.myCore.flag f).toNat then (s.myCore.flag f).toNat - (s.me.y.get ya).toNat % 2 ^ 32
         else (s.myCore.flag f).toNat) ∧
      (∀ g, g ≠ f → t.myCore.flag g = s.myCore.flag g) ∧ t.me.registers = s.me.registers ∧ t.mem = s.mem) ∧
  (∀ (ya yb : BitVec 3) (f : BitVec 5) (k : BitVec 6) (s : State),
    (Instr.postf ya yb f .ctx k).wf = true → Issuing s → s.myCore.flagsOwned.getLsbD f.toNat = true →
    ∃ t : State, exec (.postf ya yb f .ctx k) s = .next t ∧
      (t.myCore.flag f).toNat =
        ((s.myCore.flag f).toNat + (if k = 0 then (s.me.y.get yb).toNat else k.toNat)) % 2 ^ 32 ∧
      (∀ g, g ≠ f → t.myCore.flag g = s.myCore.flag g) ∧ t.me.registers = s.me.registers ∧ t.mem = s.mem) ∧
  (∀ (ya yb : BitVec 3) (f : BitVec 5) (sc : Scope) (k : BitVec 6) (target : CoreId) (s : State),
    (Instr.postf ya yb f sc k).wf = true → Issuing s → sc ≠ .ctx →
    (if sc = .core then target = s.cur.core
     else s.logical s.me.part ((s.me.y.get ya).toNat % 2 ^ 13) = some target ∧ s.inScope sc s.cur.core target = true) →
    (s.core target).flagsOwned.getLsbD f.toNat = true →
    ∃ t : State, exec (.postf ya yb f sc k) s = .next t ∧
      t.me.posts = s.me.posts ++ [postRule s target f sc (if k = 0 then (s.me.y.get yb).toNat else k.toNat)] ∧
      t.myCore.flags = s.myCore.flags ∧ t.me.registers = s.me.registers ∧ t.mem = s.mem)

/-- WAITW, WAITC, GBAR, PHASE and FENCE, in a strap whose wait is over (R160 to R163, R324, R339, R344): no register and no
byte of memory changes; GBAR uses up the member's pass; a PHASE above .ctx drops the thread's own bytes and its
snapshot. -/
def Sys2Proof.Claims.SynchronisationInstructionsComplete : Prop :=
  (∀ (ya yb : BitVec 3) (sc : Scope) (c : WCond) (w : Watch) (s u : State),
    Issuing s → watchOf s ya yb sc c = (.ok w, u) →
    ∃ t : State, exec (.waitw ya yb sc c) s = .next t ∧ t.me.registers = u.me.registers ∧ t.mem = u.mem ∧
      t.me.flow.q = u.me.flow.q) ∧
  (∀ (l st cp ti : BitVec 6) (s : State), Issuing s →
    exec (.waitc l st cp ti) s = .next (s.updMe (fun c => c.slotDone 8))) ∧
  (∀ (g : BitVec 6) (sc : Scope) (s : State), Issuing s → s.me.thread ∈ (s.group s.me.part g).members →
    ∃ t : State, exec (.gbar g sc) s = .next t ∧ (t.group s.me.part g).members = (s.group s.me.part g).members ∧
      (t.group s.me.part g).arrived = (s.group s.me.part g).arrived ∧
      (∀ x, x ∈ (t.group s.me.part g).passed ↔ x ∈ (s.group s.me.part g).passed ∧ x ≠ s.me.thread) ∧
      t.me.registers = s.me.registers ∧ t.mem = s.mem) ∧
  (∀ (sc : Scope) (s : State), Issuing s →
    exec (.phase sc) s = .next (s.updMe (fun c =>
      Context.slotDone (if sc = .ctx then c else { c with own := [], snap := [], snapScope := sc }) 8))) ∧
  (∀ (sc : Scope) (o : FenceOrd) (s : State), Issuing s →
    ∃ t : State, exec (.fence sc o) s = .next t ∧ t.me.registers = s.me.registers ∧ t.mem = s.mem ∧
      t.me.fenceSc = (if o = .sc ∧ sc ≠ .ctx then some sc else s.me.fenceSc))

/-- RFENCE (R164): every core of the partition in the scope's region drops the record that it names, or every record; the
record caches of other cores, all registers and memory stay. -/
def Sys2Proof.Claims.RecordFencesDropRecords : Prop :=
  (∀ (ya : BitVec 3) (sc : Scope) (s : State), Issuing s →
    ∃ t : State, exec (.rfence ya sc) s = .next t ∧ t.me.registers = s.me.registers ∧ t.mem = s.mem ∧
      (∀ c ∈ s.scopeCores sc, Assoc.find (t.core c).records ((s.me.y.get ya).toNat % 2 ^ 20) = none) ∧
      (∀ c ∉ s.scopeCores sc, (t.core c).records = (s.core c).records) ∧
      (∀ c n, n ≠ (s.me.y.get ya).toNat % 2 ^ 20 → Assoc.find (t.core c).records n = Assoc.find (s.core c).records n)) ∧
  (∀ (sc : Scope) (s : State), Issuing s →
    ∃ t : State, exec (.rfenceAll sc) s = .next t ∧ t.me.registers = s.me.registers ∧ t.mem = s.mem ∧
      (∀ c ∈ s.scopeCores sc, (t.core c).records = []) ∧
      (∀ c ∉ s.scopeCores sc, (t.core c).records = (s.core c).records))

/-- A strap that holds a WAITC or a WAITF whose condition does not hold waits whole (R136, R158, R161): its context is
BLOCKED with no record operation of its strap held back (R129), and nothing else changes. -/
def Sys2Proof.Claims.WaitingStrapBlocks : Prop :=
  (∀ (ya : BitVec 3) (f : BitVec 5) (sc : Scope) (take : Bool) (s : State),
    s.me.flow.strap.live = false → s.me.st = .ready → s.myCore.flagsOwned.getLsbD f.toNat = true →
    (s.myCore.flag f).toNat < (s.me.y.get ya).toNat % 2 ^ 32 →
    exec (.waitf ya f sc take) s = .next (s.updMe (fun c => { c with st := .blocked, retag := none }))) ∧
  (∀ (l st cp ti : BitVec 6) (s : State),
    s.me.flow.strap.live = false → s.me.st = .ready → l.toNat < outLoads s.me ∨ st.toNat < outStores s.me ∨
      cp.toNat < outCopies s.myCore s.cur.ctx ∨ ti.toNat < outTiles s.me →
    exec (.waitc l st cp ti) s = .next (s.updMe (fun c => { c with st := .blocked, retag := none })))

end
namespace Sys2Proof.Machine

/-- The C slot may issue here: the strap is no delay strap, which translated Pyrino code has none of (R98, R137, R286). -/
def IssuingC (s : State) : Prop := Issuing s ∧ (s.me.flow.delayTo = none ∨ s.me.translated = true)

/-- The context with its strap's record changed and the C slot done. -/
def Context.strapDone (c : Context) (g : Strap → Strap) : Context :=
  c.updFlow (fun f => { f with strap := { g f.strap with done := (g f.strap).done ||| 1 } })

/-- A predicate register with every bit one, or zero. -/
def fullRule (b : Prop) [Decidable b] : PWord := if b then BitVec.ofNat 128 (2 ^ 128 - 1) else 0

/-- A result of latency 1 of the C slot. -/
def Context.cResult (c : Context) (e : Effect) : Context := c.withResult 0 1 e 0

/-- The effects with which LOOP and LSET start a loop of n entering iterations (R141). -/
def loopEffects (l : BitVec 3) (ring drain : BitVec 3) (n : Nat) : List Effect :=
  let c := (n + drain.toNat) % 2 ^ 32
  [.l l (BitVec.ofNat 64 (c + 2 ^ 32 * drain.toNat)), .ring ring 0, .p 8 (fullRule (drain.toNat < c)) (fullRule True),
   .p 9 0 (fullRule True), .p 10 0 (fullRule True), .p 11 0 (fullRule True), .p 12 0 (fullRule True),
   .p 13 0 (fullRule True), .p 14 0 (fullRule True), .p 15 0 (fullRule True)]

end Sys2Proof.Machine

section
open Sys2Proof Sys2Proof.Machine

/-- BR, BRP, BRI, CALL, RET and SKIP (R137 to R139): which transfer the strap takes, the link of a CALL, which is the
offset of the first token after the delay strap, or in translated Pyrino code the next bundle, and the straps that a SKIP squashes. -/
def Sys2Proof.Claims.TransfersAndSkips : Prop :=
  (∀ (t : BitVec 16) (s : State), IssuingC s →
    exec (.br t) s = .next (s.updMe (fun c => c.strapDone (fun st => { st with taken := some t })))) ∧
  (∀ (p : BitVec 4) (n : Bool) (t : BitVec 16) (s : State), IssuingC s →
    exec (.brp p n t) s = .next (s.updMe (fun c => c.strapDone (fun st =>
      if someBitRule (s.me.p.get p) n then { st with taken := some t } else st)))) ∧
  (∀ (l : BitVec 3) (s : State), IssuingC s →
    exec (.bri l) s = .next (s.updMe (fun c => c.strapDone (fun st =>
      { st with taken := some (BitVec.ofNat 16 ((s.me.l.get l).toNat % 2 ^ 16)) })))) ∧
  (∀ (l : BitVec 3) (s : State), IssuingC s →
    exec (.ret l) s = .next (s.updMe (fun c => c.strapDone (fun st =>
      { st with taken := some (BitVec.ofNat 16 ((s.me.l.get l).toNat % 2 ^ 16)) })))) ∧
  (∀ (l : BitVec 3) (t : BitVec 16) (info : StrapInfo) (s : State), IssuingC s → s.me.translated = false →
    s.fetchAt s.me s.me.flow.strap.next.toNat = .ok info →
    exec (.call l t) s = .next (s.updMe (fun c =>
      (c.cResult (.l l (BitVec.ofNat 64 info.next.toNat))).strapDone (fun st => { st with taken := some t })))) ∧
  (∀ (l : BitVec 3) (t : BitVec 16) (s : State), IssuingC s → s.me.translated = true →
    exec (.call l t) s = .next (s.updMe (fun c =>
      (c.cResult (.l l (BitVec.ofNat 64 s.me.flow.strap.next.toNat))).strapDone (fun st => { st with taken := some t })))) ∧
  (∀ (p : BitVec 4) (n : Bool) (k : BitVec 16) (s : State), IssuingC s → (Instr.skip p n k).wf = true →
    exec (.skip p n k) s = .next (s.updMe (fun c => c.strapDone (fun st =>
      if someBitRule (s.me.p.get p) n then { st with skip := BitVec.ofNat 5 k.toNat } else st))))

/-- LOOP, LSET and LBR (R105, R106, R141, R142): the loop register, the ring, and the stage predicates that a loop starts
with; LBR counts down, and where it loops it takes its transfer, rotates the ring and shifts the stages. -/
def Sys2Proof.Claims.LoopInstructions : Prop :=
  (∀ (l ring drain : BitVec 3) (n : BitVec 15) (s : State), IssuingC s →
    exec (.loop l ring drain n) s =
      .next (s.updMe (fun c => ((loopEffects l ring drain n.toNat).foldl Context.cResult c).strapDone id))) ∧
  (∀ (l ring drain : BitVec 3) (s : State), IssuingC s →
    exec (.lset l ring drain) s = .next (s.updMe (fun c =>
      ((loopEffects l ring drain ((s.me.l.get l).toNat % 2 ^ 32)).foldl Context.cResult c).strapDone id))) ∧
  (∀ (l : BitVec 3) (t : BitVec 16) (s : State), IssuingC s →
    exec (.lbr l t) s = .next (s.updMe (fun c =>
      let n := (s.me.l.get l).toNat % 2 ^ 32
      let drain := (s.me.l.get l).toNat / 2 ^ 32 % 2 ^ 3
      if n = 0 then c.strapDone id
      else if n = 1 then (c.cResult (.lLow l 0)).strapDone id
      else ((c.cResult (.lLow l (BitVec.ofNat 32 (n - 1)))).cResult (.shift (fullRule (drain < n - 1)))).strapDone
        (fun st => { st with taken := some t }))))

/-- The end of a strap (R137): its tick counts; without a transfer the next strap follows; after a transfer the strap that
follows is its delay strap, and after the delay strap the target follows; Pyrino code has no delay bundle (R98). -/
def Obligations.DelayStrapThenTarget : Prop :=
  ∀ (f : Flow) (next u : BitVec 32) (t : BitVec 16) (taken : Option (BitVec 16)) (k : BitVec 5) (pyrino : Bool),
    (f.advance pyrino next taken k).tick = f.tick + 1 ∧ (f.advance pyrino next taken k).squash = k ∧
    (f.advance pyrino next taken k).flight = f.flight ∧ (f.advance pyrino next taken k).q = f.q ∧
    (f.delayTo = none → (f.advance pyrino next none k).pc = next ∧ (f.advance pyrino next none k).delayTo = none) ∧
    (f.delayTo = none → ((f.advance false next (some t) k).advance false u none k).pc.toNat = t.toNat ∧
      (f.advance false next (some t) k).pc = next ∧ (f.advance false next (some t) k).delayTo = some t ∧
      ((f.advance false next (some t) k).advance false u none k).delayTo = none) ∧
    (f.delayTo = none → (f.advance true next (some t) k).pc.toNat = t.toNat ∧ (f.advance true next (some t) k).delayTo = none)

/-- EXIT and YIELD (R144, R145): after the strap the context is RETIRING, or AWAY and eligible again n + 2 cycles on; a handler
that yields keeps its state, and the merge stage does not rank it before that cycle (log entry 22). -/
def Sys2Proof.Claims.ExitAndYieldLeaveTheCore : Prop :=
  (∀ (s : State), IssuingC s →
    exec .exit s = .next (s.updMe (fun c => c.strapDone (fun st => { st with exits := true }))) ∧
    (s.me.flow.strap.exits = true → s.endStrap.me.st = .retiring)) ∧
  (∀ (n : BitVec 18) (s : State), IssuingC s →
    exec (.yield n) s = .next (s.updMe (fun c => c.strapDone (fun st => { st with away := some n }))) ∧
    (s.me.priv = false → s.me.flow.strap.exits = false → s.me.flow.strap.away = some n →
      s.endStrap.me.st = .away ∧ s.endStrap.me.wake = s.myCore.cycle + n.toNat + 2) ∧
    (s.me.st = .trapped → s.me.priv = true → s.me.flow.strap.exits = false → s.me.flow.strap.away = some n →
      s.endStrap.me.st = .trapped ∧ s.endStrap.me.wake = s.myCore.cycle + n.toNat + 2 ∧
      ∀ k, s.endStrap.me.ranked k = true ↔ s.myCore.cycle + n.toNat + 2 ≤ k))

/-- NEXT (R143, R310): the first point of the core's buffer that lies above every point the thread has drawn, into three
loop registers, or, where the buffer has none, the transfer to its target. -/
def Sys2Proof.Claims.NextDrawsAPoint : Prop :=
  (∀ (l : BitVec 3) (t : BitVec 16) (s : State), IssuingC s → (∀ p ∈ s.myCore.points, s.me.mayDraw p = false) →
    exec (.nextPoint l t) s = .next (s.updMe (fun c => c.strapDone (fun st => { st with taken := some t })))) ∧
  (∀ (l : BitVec 3) (t : BitVec 16) (before after : List Point) (p : Point) (s : State), IssuingC s →
    s.myCore.points = before ++ p :: after → (∀ q ∈ before, s.me.mayDraw q = false) → s.me.mayDraw p = true →
    ∃ u : State, exec (.nextPoint l t) s = .next u ∧ u.me.lastPoint = some p ∧
      u.me.flow.flight = s.me.flow.flight ++
        [.l l (BitVec.ofNat 64 p.i0.toNat), .l (l + 1) (BitVec.ofNat 64 p.i1.toNat), .l (l + 2) (BitVec.ofNat 64 p.i2.toNat)].map
          (fun e => { due := s.me.flow.tick + 1, slot := 0, eff := e, flags := 0 }) ∧
      u.me.flow.strap.taken = s.me.flow.strap.taken ∧ u.me.registers = s.me.registers ∧ u.mem = s.mem)

/-- JOIN and LEAVE (R146, R322, R323): membership changes where no rule forbids it, and the group fault 0x10 with
membership as it was where a member joins or one that is no member leaves. -/
def Sys2Proof.Claims.GroupMembership : Prop :=
  (∀ (g : BitVec 18) (s : State), IssuingC s → g.toNat < 64 → s.me.thread ∉ (s.group s.me.part (g.setWidth 6)).members →
    strapHasGbar s (g.setWidth 6) = false → s.colls = [] →
    ∃ t : State, exec (.join g) s = .next t ∧ t.me.registers = s.me.registers ∧ t.mem = s.mem ∧
      (∀ x, x ∈ (t.group s.me.part (g.setWidth 6)).members ↔
        x ∈ (s.group s.me.part (g.setWidth 6)).members ∨ x = s.me.thread)) ∧
  (∀ (g : BitVec 18) (s : State), IssuingC s → g.toNat < 64 → s.me.thread ∈ (s.group s.me.part (g.setWidth 6)).members →
    strapHasGbar s (g.setWidth 6) = false → openPartOf s s.cur (g.setWidth 6) = false →
    ∃ t : State, exec (.leave g) s = .next t ∧ t.me.registers = s.me.registers ∧ t.mem = s.mem ∧
      (∀ x, x ∈ (t.group s.me.part (g.setWidth 6)).members ↔
        x ∈ (s.group s.me.part (g.setWidth 6)).members ∧ x ≠ s.me.thread)) ∧
  (∀ (g : BitVec 18) (s : State), IssuingC s → g.toNat < 64 → s.me.priv = false →
    s.me.thread ∈ (s.group s.me.part (g.setWidth 6)).members →
    ∃ t : State, exec (.join g) s = .next t ∧ t.me.st = .trapped ∧ t.me.fcause.toNat / 2 ^ 12 = 0x100 ∧
      (∀ x, t.group s.me.part x = s.group s.me.part x)) ∧
  (∀ (g : BitVec 18) (s : State), IssuingC s → g.toNat < 64 → s.me.priv = false →
    s.me.thread ∉ (s.group s.me.part (g.setWidth 6)).members →
    ∃ t : State, exec (.leave g) s = .next t ∧ t.me.st = .trapped ∧ t.me.fcause.toNat / 2 ^ 12 = 0x100 ∧
      (∀ x, t.group s.me.part x = s.group s.me.part x))

end
namespace Sys2Proof.Machine

/-- The features that an operation needs, as bits of the partition's feature byte (R302): 0 the .o4 matrix formats, 1 the .b1 ones, 2 XCPZ,
3 XCPC, 4 XSTOR and 7 XCAV. -/
def featuresRule : Instr → List Nat
  | .mma fa fb _ _ _ _ _ _ => if fa = .o4 ∨ fb = .o4 then [0] else []
  | .mcfg fa fb _ _ _ => (if fa = .o4 ∨ fb = .o4 then [0] else []) ++ (if fa = .b1 ∨ fb = .b1 then [1] else [])
  | .mmb _ _ _ _ _ _ _ => [1]
  | .xcpz _ _ _ _ _ _ => [2]
  | .xcpc _ _ _ _ _ _ _ _ => [3]
  | .xstor _ _ _ _ _ => [4]
  | .xcav _ _ _ _ _ _ => [7]
  | _ => []

end Sys2Proof.Machine

section
open Sys2Proof Sys2Proof.Machine

/-- TRAP, SVC and BRK in user mode (R147, R285, R286, R288): the strap is complete, and the context enters its handler with
code 0x13, 0x14 or 0x15, the immediate in FDETAIL, the strap that follows as the point of return, the next tick in FTICK,
and for Pyrino code the bundle that holds the trap in FPYR (R99). FRET has the low 16 bits of the offset, here and in every fault:
DESIGN CHOICE (log entry 44). -/
def Obligations.TrapInstructionsEnterTheHandler : Prop :=
  ∀ (i : Instr) (code : Nat) (arg : BitVec 18) (s : State),
    (i = .trap arg ∧ code = 0x13) ∨ (i = .svc arg ∧ code = 0x14) ∨ (i = .brk arg ∧ code = 0x15) →
    IssuingC s → s.me.priv = false → s.me.flow.delayTo = none → s.me.flow.strap.taken = none →
    s.me.flow.strap.exits = false → s.me.flow.strap.away = none →
    ∃ t : State, exec i s = .next t ∧ t.me.st = .trapped ∧ t.me.priv = true ∧ t.me.hand = Flow.reset ∧
      t.me.fcause = causeWord code 0 s.me.pyrino false 0 ∧
      t.me.fret = returnWord (s.me.flow.strap.next.toNat % 2 ^ 16) none false s.me.flow.strap.skip.toNat ∧
      t.me.fdetail.toNat = arg.toNat ∧ t.me.faddr = 0 ∧ t.me.ftick = BitVec.ofNat 64 (s.me.user.tick + 1) ∧
      t.me.user.tick = s.me.user.tick + 1 ∧
      (s.me.pyrino = true → t.me.fpyr.toNat = s.me.flow.strap.offset.toNat) ∧ t.mem = s.mem

/-- ERET (R148, R279, R287, R288): back in user mode at FRET.offset and at tick FTICK, with the transfer, the squash count and the
rest of a strap that has partly issued (its EXIT and its YIELD with it) as FCAUSE and FRET hold them; results that are due at that
tick have landed, results held for the strap are due as if it issued at that tick, and where nothing is due no register
changes. With `partial` clear the strap at FRET.offset issues whole and the count follows it (R287), but where the fault stood among
the squashed straps of a SKIP that strap is the first of those still to squash: the model's choice (log entry 73), as are the bits of
the offset above the 16 of FRET (log entry 44). -/
def Obligations.EretReturnsToUserMode : Prop :=
  ∀ (s : State), IssuingC s → s.me.priv = true →
    let ret := s.me.fret.toNat
    let part := s.me.fcause.toNat / 2 ^ 9 % 2 = 1
    let pending := ret / 2 ^ 32 % 2 = 1
    let delay := ret / 2 ^ 38 % 2 = 1
    let target : BitVec 16 := BitVec.ofNat 16 (ret / 2 ^ 16 % 2 ^ 16)
    let squash := ret / 2 ^ 33 % 2 ^ 5
    ∃ t : State, exec .eret s = .next t ∧ t.me.priv = false ∧ t.me.st = .ready ∧ t.me.hand = Flow.reset ∧
      t.me.user.pc.toNat % 2 ^ 16 = ret % 2 ^ 16 ∧ (s.me.user.pc.toNat % 2 ^ 16 = ret % 2 ^ 16 → t.me.user.pc = s.me.user.pc) ∧
      t.me.user.tick = s.me.ftick.toNat ∧
      t.me.user.delayTo = (if pending ∧ delay then some target else none) ∧
      t.me.user.squash.toNat = (if ¬part ∧ s.me.user.squash ≠ 0 then squash else 0) ∧
      t.me.user.flight = s.me.user.flight.filter (fun f => decide (s.me.ftick.toNat < f.due)) ++
        s.me.user.held.map (fun f => { f with due := f.due - s.me.user.tick + s.me.ftick.toNat }) ∧
      t.me.user.held = [] ∧ t.me.user.q.kq = s.me.user.q.kq.filter (fun e => !s.me.user.q.stuckMark e) ∧
      t.me.user.q.sa = s.me.user.q.sa ∧
      t.me.resume =
        (if part then some (Resume.mk true (BitVec.ofNat 9 (s.me.fcause.toNat % 2 ^ 9))
            (if pending ∧ ¬delay then some target else none) (BitVec.ofNat 5 squash) s.me.user.heldExit s.me.user.heldAway)
         else if (pending ∧ ¬delay) ∨ (s.me.user.squash = 0 ∧ squash ≠ 0) then
           some (Resume.mk false (BitVec.ofNat 9 (2 ^ 9 - 1)) (if pending ∧ ¬delay then some target else none)
             (BitVec.ofNat 5 (if s.me.user.squash = 0 then squash else 0)) false none)
         else none) ∧
      ((∀ f ∈ s.me.user.flight, s.me.ftick.toNat < f.due) →
        t.me.registers = s.me.registers ∧ t.me.user.q.sq = s.me.user.q.sq ∧ t.myCore.rq = s.myCore.rq)

/-- An issue fault in user mode (R284, R286, R288): FCAUSE holds the code, the slot, whether slots before it have issued, and
the slots of the strap that have not; FRET holds the strap, with its pending transfer; results of the strap's own slots,
its EXIT and its YIELD are held; the tick does not advance; the handler starts at offset 0. -/
def Sys2Proof.Claims.IssueFaultIsPrecise : Prop :=
  ∀ (c : Context) (slot : BitVec 4) (f : FaultInfo), c.priv = false →
    let st := c.user.strap
    let transfer := match c.user.delayTo with | some t => some t | none => st.taken
    FaultTaken c (c.issueFault slot f)
      (causeWord f.code.toNat slot.toNat c.pyrino (st.done != 0 || c.resume.any (·.part)) (st.present &&& ~~~st.done).toNat)
      (returnWord (st.offset.toNat % 2 ^ 16) (transfer.map BitVec.toNat) c.user.delayTo.isSome st.skip.toNat) f.detail f.addr ∧
    (c.issueFault slot f).user.flight = c.user.flight.take st.mark ∧
    (c.issueFault slot f).user.held = c.user.flight.drop st.mark ∧
    (c.issueFault slot f).user.heldExit = st.exits ∧ (c.issueFault slot f).user.heldAway = st.away

/-- A fault of a whole strap in user mode (R79, R285, R286, R288), where the context is not to complete a strap that has
partly issued: the strap at the program counter is the point of return, whole, and results in flight stay. -/
def Sys2Proof.Claims.WholeStrapFaultIsPrecise : Prop :=
  ∀ (c : Context) (slot : BitVec 4) (f : FaultInfo) (present : BitVec 9) (bundle : BitVec 32), c.priv = false → c.resume = none →
    FaultTaken c (c.wholeFault slot f present bundle)
      (causeWord f.code.toNat slot.toNat c.pyrino false present.toNat)
      (returnWord (c.user.pc.toNat % 2 ^ 16) (c.user.delayTo.map BitVec.toNat) c.user.delayTo.isSome c.user.squash.toNat) f.detail f.addr ∧
    (c.wholeFault slot f present bundle).user.flight = c.user.flight

/-- Where a Pyrino context took a fault (R97, R99, R288): FPYR holds the bundle at fault and, for a fault of one slot, the P slot that
carries it. No P slot carries an M or an X slot, for which the field holds 3, and in a native context FPYR is zero: the model's
choices (log entries 72 and 98). -/
def Sys2Proof.Claims.FaultsNameTheirPyrinoBundle : Prop :=
  ∀ (c : Context) (slot : BitVec 4) (f : FaultInfo) (present : BitVec 9), c.priv = false → c.resume = none →
    slot.toNat < 9 →
    let p := if slot = 0 ∨ slot = 8 then 0 else if slot = 1 ∨ slot = 2 ∨ slot = 6 then 1 else if slot = 3 ∨ slot = 4 then 2 else 3
    (c.issueFault slot f).fpyr.toNat = (if c.pyrino then c.user.strap.offset.toNat + 2 ^ 32 * p else 0) ∧
    (c.decodeFaultAt slot f present).fpyr.toNat = (if c.pyrino then c.user.pc.toNat + 2 ^ 32 * p else 0)

/-- A fault of a handler strap is nested (R277, R286): it stops the context and stands there for system software; so do TRAP, SVC and
BRK. That it writes no register is the model's choice (log entry 42), and what the handler's strap did before the fault stays. -/
def Obligations.NestedFaultStops : Prop :=
  (∀ (c : Context) (slot : BitVec 4) (f : FaultInfo) (present : BitVec 9) (bundle : BitVec 32), c.priv = true →
    (c.issueFault slot f).st = .stopped ∧ (c.issueFault slot f).registers = c.registers ∧
    (c.issueFault slot f).user = c.user ∧ (c.issueFault slot f).nested = some f ∧
    (c.wholeFault slot f present bundle).st = .stopped ∧ (c.wholeFault slot f present bundle).registers = c.registers ∧
    (c.wholeFault slot f present bundle).user = c.user ∧ (c.wholeFault slot f present bundle).nested = some f) ∧
  (∀ (i : Instr) (arg : BitVec 18) (s : State), i = .trap arg ∨ i = .svc arg ∨ i = .brk arg →
    IssuingC s → s.me.priv = true →
    ∃ t : State, exec i s = .next t ∧ t.me.st = .stopped ∧ t.me.registers = s.me.registers ∧ t.me.user = s.me.user ∧
      t.me.nested.map (fun f => f.detail.toNat) = some arg.toNat)

/-- An asynchronous fault (R285): at once, with slot 0xF and the next strap as the point of return, in a READY, BLOCKED or AWAY
context between two straps; held, in order, behind an earlier report, while a strap issues, and while the context is TRAPPED,
STOPPED or SAVED. -/
def Obligations.AsynchronousFaultDelivery : Prop :=
  ∀ (c : CtxId) (f : AsyncFault) (s : State), asyncCode f.code = true → (s.ctx c).launch.isSome = true →
    ((s.ctx c).st = .ready ∨ (s.ctx c).st = .blocked ∨ (s.ctx c).st = .away → (s.ctx c).priv = false →
      (s.ctx c).resume = none → (s.ctx c).pendingFaults = [] → (s.ctx c).user.strap.live = false →
      ∃ t : State, exec (.asynchronousFault c f) s = .next t ∧
        FaultTaken (s.ctx c) (t.ctx c) (causeWord f.code.toNat 0xF (s.ctx c).pyrino false 0)
          (returnWord ((s.ctx c).user.pc.toNat % 2 ^ 16) ((s.ctx c).user.delayTo.map BitVec.toNat) (s.ctx c).user.delayTo.isSome
            (s.ctx c).user.squash.toNat) f.detail f.addr ∧ t.mem = s.mem) ∧
    ((s.ctx c).st = .trapped ∨ (s.ctx c).st = .stopped ∨ (s.ctx c).st = .saved ∨
        (((s.ctx c).st = .ready ∨ (s.ctx c).st = .blocked ∨ (s.ctx c).st = .away) ∧
          ((s.ctx c).pendingFaults ≠ [] ∨ (s.ctx c).flow.strap.live = true)) →
      exec (.asynchronousFault c f) s = .next (s.updCtx c (fun x =>
        { x with pendingFaults := x.pendingFaults ++ [{ code := f.code, detail := f.detail, addr := f.addr }] })))

/-- The privilege rule (R95, R111): in user mode ERET, and CSRR and CSRW of every number from 0x800 upward, listed or not,
take fault 0x04 as a whole-strap fault, and change no register. -/
def Sys2Proof.Claims.PrivilegedOperationsFaultInUserMode : Prop :=
  ∀ (i : Instr) (s : State),
    i = .eret ∨ (∃ d n, i = .csrr d n ∧ 0x800 ≤ n.toNat) ∨ (∃ n a, i = .csrw n a ∧ 0x800 ≤ n.toNat) →
    s.me.st ≠ .helper → s.me.priv = false → s.me.resume = none →
    ∃ t : State, exec i s = .next t ∧ t.mem = s.mem ∧
      FaultTaken s.me t.me
        (causeWord 0x04 (if i = .eret then 0 else 1) s.me.pyrino false s.me.flow.strap.present.toNat)
        (returnWord (s.me.user.pc.toNat % 2 ^ 16) (s.me.user.delayTo.map BitVec.toNat) s.me.user.delayTo.isSome
          s.me.user.squash.toNat) 0 0

/-- The illegal instruction rule (R79, R81, R111, R137, R239, R302), for every operation of every slot: one with a field that no encoding
allows, one that needs a feature that its partition does not enable, an M slot of a context that does not own the matrix slot, a write to
a fault register in user mode, and a C slot in a delay strap take fault 0x02 as a whole-strap fault. -/
def Sys2Proof.Claims.IllegalOperationsFault : Prop :=
  ∀ (i : Instr) (o : OpWord) (s : State), i.encode = some o → i ≠ .eret →
    (∀ d n, i ≠ .csrr d n ∨ n.toNat < 0x800) → (∀ n a, i ≠ .csrw n a ∨ n.toNat < 0x800) →
    s.me.st ≠ .helper → s.me.priv = false → s.me.resume = none →
    i.wf = false ∨ (o.slot = .c ∧ s.me.flow.delayTo.isSome = true ∧ s.me.pyrino = false) ∨ (o.slot = .m ∧ s.me.mat = false) ∨
      (∃ n a, i = .csrw n a ∧ 0x10 ≤ n.toNat ∧ n.toNat ≤ 0x15) ∨
      (∃ b ∈ featuresRule i, (s.part s.me.part).features.getLsbD b = false) →
    ∃ t : State, exec i s = .next t ∧ t.mem = s.mem ∧
      FaultTaken s.me t.me
        (causeWord 0x02 o.slot.num s.me.pyrino false s.me.flow.strap.present.toNat)
        (returnWord (s.me.user.pc.toNat % 2 ^ 16) (s.me.user.delayTo.map BitVec.toNat) s.me.user.delayTo.isSome
          s.me.user.squash.toNat) 0 0

/-- The alignment rule (R168, R169, R174, R284): a misaligned LDA, LDK or ATOM takes fault 0x0D with its address, and
enters no queue. -/
def Obligations.MisalignedAccessesFault : Prop :=
  (∀ (base idx : Spec) (w : BitVec 3) (sc : Scope) (o : Order) (b x : Word) (s t : State),
    (Instr.lda base idx w sc o).wf = true → Issuing s → s.me.priv = false →
    ReadInOrder (srcA (.lda base idx w sc o)) [base, idx] s [b, x] t → (b + x).toNat % 2 ^ w.toNat ≠ 0 →
    ∃ u : State, exec (.lda base idx w sc o) s = .next u ∧ u.me.st = .trapped ∧ u.me.fcause.toNat / 2 ^ 12 = 0xD2 ∧
      u.me.faddr = b + x ∧ u.me.user.q = s.me.user.q ∧ u.mem = s.mem) ∧
  (∀ (base idx : Spec) (c : RClass) (b x : Word) (s t : State),
    (Instr.ldk base idx c).wf = true → Issuing s → s.me.priv = false →
    ReadInOrder (srcA (.ldk base idx c)) [base, idx] s [b, x] t → (b + x).toNat % 64 ≠ 0 →
    ∃ u : State, exec (.ldk base idx c) s = .next u ∧ u.me.st = .trapped ∧ u.me.fcause.toNat / 2 ^ 12 = 0xD2 ∧
      u.me.faddr = b + x ∧ u.me.user.q = s.me.user.q ∧ u.mem = s.mem) ∧
  (∀ (base data : Spec) (w : BitVec 3) (sc : Scope) (o : Order) (op : AtomOp) (b v : Word) (s t : State),
    (Instr.atom base data w sc o op).wf = true → Issuing s → s.me.priv = false →
    ReadInOrder (srcA (.atom base data w sc o op)) [base, data] s [b, v] t → b.toNat % 2 ^ w.toNat ≠ 0 →
    ∃ u : State, exec (.atom base data w sc o op) s = .next u ∧ u.me.st = .trapped ∧
      u.me.fcause.toNat / 2 ^ 12 = 0xD2 ∧ u.me.faddr = b ∧ u.me.user.q = s.me.user.q ∧ u.mem = s.mem)

end
namespace Sys2Proof.Machine

/-- A result queue in which an owed entry has arrived (R290, R291): the entry, with its data, stands last among those present. -/
def arrivedRule (q : RQueue) (id : Nat) (v : VWord) : RQueue :=
  match q.owed.filter (fun e => e.id == id) with
  | e :: _ => { present := q.present ++ [{ e with data := v }], owed := q.owed.filter (fun e => e.id != id) }
  | [] => q

end Sys2Proof.Machine

section
open Sys2Proof Sys2Proof.Machine

/-- A result that lands alone (R57, R58, R104 to R107, R111, R114, R142, R288, R290, R291): what every register, queue and accumulator of the
context and its core reads afterwards, whichever the result is for; results due later stay in flight. That LBR's write of a count leaves
the upper half of its register as it stands is the model's choice (log entry 89). -/
def Obligations.LandingWritesExactlyItsTarget : Prop :=
  ∀ (k : Core) (n : BitVec 2) (f : Flight),
    (k.ctx n).flow.flight.filter (fun r => r.due ≤ (k.ctx n).flow.tick) = [f] →
    let c := k.ctx n
    let d := (k.land n).ctx n
    d.flow.flight = c.flow.flight.filter (fun r => c.flow.tick < r.due) ∧ d.flow.tick = c.flow.tick ∧
    (∀ q, d.s.get q = match f.eff with
      | .s r v => if q = r then v else c.s.get q
      | .sys m v => if 0x818 ≤ m.toNat ∧ m.toNat ≤ 0x81F ∧ q.toNat = m.toNat - 0x800 then v else c.s.get q
      | _ => c.s.get q) ∧
    (∀ q, d.h.get q = match f.eff with | .h r v => if q = r then v else c.h.get q | _ => c.h.get q) ∧
    (∀ q, d.a.get q = match f.eff with | .a r v => if q = r then v else c.a.get q | _ => c.a.get q) ∧
    (∀ q, d.d.get q = match f.eff with | .d r v => if q = r then v else c.d.get q | _ => c.d.get q) ∧
    (∀ q, d.x.get q = match f.eff with | .x r v => if q = r then v else c.x.get q | _ => c.x.get q) ∧
    (∀ q, d.y.get q = match f.eff with | .y r v => if q = r then v else c.y.get q | _ => c.y.get q) ∧
    (∀ q, d.k.get q = match f.eff with | .k r v => if q = r then v else c.k.get q | _ => c.k.get q) ∧
    (∀ q, (d.l.get q).toNat = match f.eff with
      | .l r v => if q = r then v.toNat else (c.l.get q).toNat
      | .lLow r v => if q = r then (c.l.get q).toNat / 2 ^ 32 * 2 ^ 32 + v.toNat else (c.l.get q).toNat
      | _ => (c.l.get q).toNat) ∧
    (∀ q j, (d.v.get q).getLsbD j = match f.eff with
      | .v r v m => if q = r ∧ m.getLsbD j = true then v.getLsbD j else (c.v.get q).getLsbD j
      | _ => (c.v.get q).getLsbD j) ∧
    (∀ q j, (d.w.get q).getLsbD j = match f.eff with
      | .w r v m => if q = r ∧ m.getLsbD j = true then v.getLsbD j else (c.w.get q).getLsbD j
      | _ => (c.w.get q).getLsbD j) ∧
    (∀ q j, (d.p.get q).getLsbD j = match f.eff with
      | .p r v m => if q = r ∧ m.getLsbD j = true then v.getLsbD j else (c.p.get q).getLsbD j
      | .shift v => if q = 8 then v.getLsbD j else if 8 < q.toNat then (c.p.get (q - 1)).getLsbD j else (c.p.get q).getLsbD j
      | _ => (c.p.get q).getLsbD j) ∧
    d.bs = (match f.eff with | .base .bs v => v | _ => c.bs) ∧ d.ba = (match f.eff with | .base .ba v => v | _ => c.ba) ∧
    d.bv = (match f.eff with | .base .bv v => v | _ => c.bv) ∧ d.bw = (match f.eff with | .base .bw v => v | _ => c.bw) ∧
    (d.ringLen.toNat, d.ringOff.toNat) = (match f.eff with
      | .ring len off => (len.toNat, off.toNat)
      | .shift _ => (c.ringLen.toNat, (c.ringOff.toNat + 1) % (c.ringLen.toNat + 1))
      | .sys m v => if m = 4 then (v.toNat % 8, v.toNat / 8 % 8 % (v.toNat % 8 + 1)) else (c.ringLen.toNat, c.ringOff.toNat)
      | _ => (c.ringLen.toNat, c.ringOff.toNat)) ∧
    d.sticky = (match f.eff with
      | .sys m v => (if m = 0 then BitVec.ofNat 3 v.toNat else c.sticky) ||| f.flags
      | _ => c.sticky ||| f.flags) ∧
    d.seed = (match f.eff with | .sys m v => if m = 1 then v else c.seed | _ => c.seed) ∧
    d.fcause = (match f.eff with | .sys m v => if m = 0x10 then v &&& 0xFFFBFF else c.fcause | _ => c.fcause) ∧
    d.fdetail = (match f.eff with | .sys m v => if m = 0x11 then v else c.fdetail | _ => c.fdetail) ∧
    d.faddr = (match f.eff with | .sys m v => if m = 0x12 then v else c.faddr | _ => c.faddr) ∧
    d.fret = (match f.eff with | .sys m v => if m = 0x13 then v &&& 0x7FFFFFFFFF else c.fret | _ => c.fret) ∧
    d.ftick = (match f.eff with | .sys m v => if m = 0x14 then v else c.ftick | _ => c.ftick) ∧
    d.fpyr = (match f.eff with | .sys m v => if m = 0x15 then v &&& 0x3FFFFFFFF else c.fpyr | _ => c.fpyr) ∧
    d.dvbase = (match f.eff with | .sys m v => if m = 0x820 then v &&& 0xFFFFFFFFFFFFF else c.dvbase | _ => c.dvbase) ∧
    d.dvsel = (match f.eff with | .sys m v => if m = 0x821 then v &&& 0xFFFF else c.dvsel | _ => c.dvsel) ∧
    d.flow.q = (match f.eff with
      | .sq v m => if f.slot.toNat < 9 then { c.flow.q with sq := c.flow.q.sq ++ [{ data := v, mask := m }] } else c.flow.q
      | _ => c.flow.q) ∧
    (∀ q : Fin 8, (k.land n).rq[q] = match f.eff with
      | .rq r id v => if r.toNat = q.val ∧ f.slot.toNat < 9 then arrivedRule k.rq[q] id v else k.rq[q]
      | _ => k.rq[q]) ∧
    (∀ q : Fin 8, (k.land n).acc[q] = match f.eff with
      | .acc r ws => if r.toNat = q.val then ws else k.acc[q]
      | _ => k.acc[q]) ∧
    ((k.land n).flags, (k.land n).fa, (k.land n).fb, (k.land n).lanes, (k.land n).triggers) =
      (k.flags, k.fa, k.fb, k.lanes, k.triggers) ∧
    (∀ m, m ≠ n → (k.land n).ctx m = k.ctx m)

/-- Two results that land together, the first issued earlier or in an earlier slot (R58, R84, R85, R106, R107, R114, R279): the one due at
the later tick is kept, and of two due at one tick the later; a stage shift comes before a result for a predicate register; a CSRW of
STICKY comes before the flags that land with it; a CSRW of RING replaces the rotation and not the shift; and entries pushed into sq come
in slot order. That the tick of issue decides before the slot is the model's choice (log entry 34). -/
def Obligations.LandingOrderAtOneTick : Prop :=
  ∀ (k : Core) (n : BitVec 2) (f g : Flight),
    (k.ctx n).flow.flight.filter (fun r => r.due ≤ (k.ctx n).flow.tick) = [f, g] →
    let c := k.ctx n
    let d := (k.land n).ctx n
    (∀ r v w, f.eff = .s r v → g.eff = .s r w → d.s.get r = if g.due < f.due then v else w) ∧
    (f.due = g.due →
    (∀ r v w, f.eff = .a r v → g.eff = .a r w → d.a.get r = w) ∧
    (∀ r v w, f.eff = .p r v (BitVec.allOnes 128) → g.eff = .p r w (BitVec.allOnes 128) → d.p.get r = w) ∧
    (∀ v r w, f.eff = .shift v → g.eff = .p r w (BitVec.allOnes 128) → d.p.get r = w) ∧
    (∀ v r w, f.eff = .p r w (BitVec.allOnes 128) → g.eff = .shift v → d.p.get r = w) ∧
    (∀ v, f.eff = .sys 0 v → g.eff.isStickyWrite = false → d.sticky = BitVec.ofNat 3 v.toNat ||| f.flags ||| g.flags) ∧
    (∀ v, g.eff = .sys 0 v → f.eff.isStickyWrite = false → d.sticky = BitVec.ofNat 3 v.toNat ||| f.flags ||| g.flags) ∧
    (∀ v p, f.eff = .shift p → g.eff = .sys 4 v → d.ringLen.toNat = v.toNat % 8 ∧
      d.ringOff.toNat = v.toNat / 8 % 8 % (v.toNat % 8 + 1) ∧ d.p.get 8 = p ∧ d.p.get 9 = c.p.get 8) ∧
    (∀ v p, f.eff = .sys 4 v → g.eff = .shift p → d.ringLen.toNat = v.toNat % 8 ∧
      d.ringOff.toNat = v.toNat / 8 % 8 % (v.toNat % 8 + 1) ∧ d.p.get 8 = p ∧ d.p.get 9 = c.p.get 8) ∧
    (∀ v m w m', f.eff = .sq v m → g.eff = .sq w m' → f.slot.toNat < 9 → g.slot.toNat < 9 →
      d.flow.q.sq = c.flow.q.sq ++
        (if f.slot.toNat ≤ g.slot.toNat then [{ data := v, mask := m }, { data := w, mask := m' }]
         else [{ data := w, mask := m' }, { data := v, mask := m }])))

end
-- The vector slots --------------------------------------------------------------------------------------------------

namespace Sys2Proof.Machine

/-- The value of an element of a format (R197). -/
def valRule (f : Fmt) (x : Nat) : Int := if f.isSigned = true ∧ 2 ^ (f.bits - 1) ≤ x then (x : Int) - 2 ^ f.bits else x

/-- An element of n bits as a signed number, whatever its format. -/
def signedRule (n x : Nat) : Int := if 2 ^ (n - 1) ≤ x then (x : Int) - 2 ^ n else x

/-- The pattern of an exact integer in n bits (R197). -/
def wrapRule (n : Nat) (v : Int) : Nat := (v % 2 ^ n).toNat

/-- An exact integer clamped between two bounds. -/
def clampRule (lo hi v : Int) : Int := if v < lo then lo else if hi < v then hi else v

/-- The range of n bits in the sign of a format. -/
def loRule (f : Fmt) (n : Nat) : Int := if f.isSigned then -2 ^ (n - 1) else 0
def hiRule (f : Fmt) (n : Nat) : Int := if f.isSigned then 2 ^ (n - 1) - 1 else 2 ^ n - 1

/-- Element k of e bits of a source (R193). -/
def elemRule (v : VWord) (e k : Nat) : Nat := v.toNat / 2 ^ (e * k) % 2 ^ e

/-- Whether element k of e bits is enabled (R194): the byte lane of its lowest bit. -/
def onRule (h : VHdr) (p : PWord) (e k : Nat) : Bool :=
  if h.pred = 0 ∧ h.neg = false then true else p.getLsbD (k * e / 8) != h.neg

/-- What a vector instruction computes: its header, the width of its result elements, its latency, its destination, its
sources, and the pattern and the flags of each element. -/
structure VecRule where
  h : VHdr
  e : Nat
  lat : Nat
  dst : Spec
  src : List Spec
  val : List VWord → Nat → Nat × Flags

/-- An instruction of R198: element by element from the integer values of the sources. -/
def vecInt (h : VHdr) (f : Fmt) (lat : Nat) (d : Spec) (src : List Spec) (g : List Int → Int) : VecRule :=
  { h := h, e := f.bits, lat := lat, dst := d, src := src
    val := fun vs k => (wrapRule f.bits (g (vs.map (fun v => valRule f (elemRule v f.bits k)))), 0) }

/-- An instruction that works on the patterns of the elements. -/
def vecPat (h : VHdr) (f : Fmt) (lat : Nat) (d : Spec) (src : List Spec) (g : List Nat → Nat) : VecRule :=
  { h := h, e := f.bits, lat := lat, dst := d, src := src
    val := fun vs k => (g (vs.map (fun v => elemRule v f.bits k)), 0) }

/-- An instruction whose elements of e bits each come from the sources whole. -/
def vecWhole (h : VHdr) (e lat : Nat) (d : Spec) (src : List Spec) (g : List VWord → Nat → Nat) : VecRule :=
  { h := h, e := e, lat := lat, dst := d, src := src, val := fun vs k => (g vs k, 0) }

/-- A vector shift (R60, R198). -/
def vecShift (h : VHdr) (f : Fmt) (d a : Spec) (b : ShiftBy) (g : Nat → Nat → Nat) : VecRule :=
  match b with
  | .by b => vecPat h f 2 d [a, b] (fun v => match v with | [x, y] => g x (y % 64) | _ => 0)
  | .imm n => vecPat h f 2 d [a] (fun v => match v with | [x] => g x n.toNat | _ => 0)

/-- Extension of a field of n bits to an element, by the sign of its format (R202, R204). -/
def extendRule (f : Fmt) (n x : Nat) : Nat := if f.isSigned then wrapRule f.bits (signedRule n x) else x

/-- The sum over the four narrow elements of a destination element (R201, R206). -/
def sumRule (f : Fmt) (a b : VWord) (j : Nat) (g : Int → Int → Int) : Int :=
  ((List.range 4).map (fun m =>
    g (valRule f (elemRule a f.bits (4 * j + m))) (valRule f (elemRule b f.bits (4 * j + m))))).sum

/-- The elements of an operation. -/
def numRule (h : VHdr) (f : Fmt) : Nat := h.width.bits / f.bits

/-- The first source element of the half that an instruction takes (R201). -/
def halfRule (h : VHdr) (f : Fmt) (hi : Bool) : Nat := if hi then numRule h f / 2 else 0

/-- The element of VNARW at position j (R201). -/
def narrowRule (h : VHdr) (f : Fmt) (sat sgn rnd : Bool) (s : Nat) (a b : VWord) (j : Nat) : Nat :=
  let half := numRule h f / 2
  let u := if j < half then elemRule a (2 * f.bits) j else elemRule b (2 * f.bits) (j - half)
  let x : Int := if f.isSigned = true ∨ sgn = true then signedRule (2 * f.bits) u else u
  let y := (if rnd = true ∧ 0 < s then x + 2 ^ (s - 1) else x) / 2 ^ s
  wrapRule f.bits (if sat then clampRule (loRule f f.bits) (hiRule f f.bits) y else y)

/-- The integer instructions (R198, R201, R202, R204 to R206). -/
def vecIntRule : Instr → Option VecRule
  | .vadd h f d a b => some (vecInt h f 2 d [a, b] (fun v => match v with | [x, y] => x + y | _ => 0))
  | .vsub h f d a b => some (vecInt h f 2 d [a, b] (fun v => match v with | [x, y] => x - y | _ => 0))
  | .vmul h f d a b hi => some (vecInt h f 4 d [a, b] (fun v => match v with
      | [x, y] => if hi then x * y / 2 ^ f.bits else x * y | _ => 0))
  | .vmad h f d a b c => some (vecInt h f 4 d [a, b, c] (fun v => match v with | [x, y, z] => x * y + z | _ => 0))
  | .vadds h f d a b => some (vecInt h f 2 d [a, b] (fun v => match v with
      | [x, y] => clampRule (loRule f f.bits) (hiRule f f.bits) (x + y) | _ => 0))
  | .vsubs h f d a b => some (vecInt h f 2 d [a, b] (fun v => match v with
      | [x, y] => clampRule (loRule f f.bits) (hiRule f f.bits) (x - y) | _ => 0))
  | .vmin h f d a b => some (vecInt h f 2 d [a, b] (fun v => match v with | [x, y] => if x ≤ y then x else y | _ => 0))
  | .vmax h f d a b => some (vecInt h f 2 d [a, b] (fun v => match v with | [x, y] => if x ≤ y then y else x | _ => 0))
  | .vabs h f d a => some (vecInt h f 2 d [a] (fun v => match v with | [x] => if x < 0 then -x else x | _ => 0))
  | .vavg h f d a b tr => some (vecInt h f 2 d [a, b] (fun v => match v with
      | [x, y] => if tr then (x + y) / 2 else (x + y + 1) / 2 | _ => 0))
  | .vabsd h f d a b => some (vecInt h f 2 d [a, b] (fun v => match v with
      | [x, y] => if x < y then y - x else x - y | _ => 0))
  | .vshl h f d a b => some (vecShift h f d a b (fun x n => x * 2 ^ n % 2 ^ f.bits))
  | .vshr h f d a b => some (vecShift h f d a b (fun x n => x / 2 ^ n))
  | .vsar h f d a b => some (vecShift h f d a b (fun x n => wrapRule f.bits (signedRule f.bits x / 2 ^ n)))
  | .vand h f d a b => some (vecPat h f 2 d [a, b] (fun v => match v with | [x, y] => x &&& y | _ => 0))
  | .vor h f d a b => some (vecPat h f 2 d [a, b] (fun v => match v with | [x, y] => x ||| y | _ => 0))
  | .vxor h f d a b => some (vecPat h f 2 d [a, b] (fun v => match v with | [x, y] => x ^^^ y | _ => 0))
  | .vnot h f d a => some (vecPat h f 2 d [a] (fun v => match v with | [x] => 2 ^ f.bits - 1 - x | _ => 0))
  | .vpopc h f d a => some (vecPat h f 2 d [a] (fun v => match v with
      | [x] => (List.range f.bits).countP (fun j => x.testBit j) | _ => 0))
  | .vdot h f d a b c => some (vecWhole h (4 * f.bits) 4 d [a, b, c] (fun v j => match v with
      | [x, y, z] => wrapRule (4 * f.bits) (elemRule z (4 * f.bits) j + sumRule f x y j (· * ·)) | _ => 0))
  | .vsad h f d a b c => some (vecWhole h (4 * f.bits) 4 d [a, b, c] (fun v j => match v with
      | [x, y, z] => wrapRule (4 * f.bits)
          (elemRule z (4 * f.bits) j + sumRule f x y j (fun p q => if p < q then q - p else p - q)) | _ => 0))
  | .vwmul h f d a b hi => some (vecWhole h (2 * f.bits) 4 d [a, b] (fun v j => match v with
      | [x, y] => wrapRule (2 * f.bits) (valRule f (elemRule x f.bits (j + halfRule h f hi)) *
          valRule f (elemRule y f.bits (j + halfRule h f hi))) | _ => 0))
  | .vwide h f d a hi => some (vecWhole h (2 * f.bits) 2 d [a] (fun v j => match v with
      | [x] => wrapRule (2 * f.bits) (valRule f (elemRule x f.bits (j + halfRule h f hi))) | _ => 0))
  | .vnarw h f d a b sat sgn rnd s => some (vecWhole h f.bits 2 d [a, b] (fun v j => match v with
      | [x, y] => narrowRule h f sat sgn rnd s.toNat x y j | _ => 0))
  | .vpxu h f d a b n => some (vecWhole h f.bits 3 d [a, b] (fun v k => match v with
      | [x, y] => extendRule f (n.toNat + 1)
          (x.toNat % 2 ^ h.width.bits / 2 ^ (y.toNat % 1024 + (n.toNat + 1) * k) % 2 ^ (n.toNat + 1)) | _ => 0))
  | .vbitx h f d a b len => some (vecPat h f 3 d [a, b] (fun v => match v with
      | [x, y] => extendRule f len.toNat (x / 2 ^ (y % f.bits) % 2 ^ len.toNat) | _ => 0))
  | .vbitp h f d a b c len => some (vecPat h f 3 d [a, b, c] (fun v => match v with
      | [x, y, z] =>
        let mask := (2 ^ len.toNat - 1) * 2 ^ (y % f.bits) % 2 ^ f.bits
        (z &&& (2 ^ f.bits - 1 - mask)) ||| (x * 2 ^ (y % f.bits) &&& mask)
      | _ => 0))
  | .vlut h f d a b c x2 => some (vecWhole h f.bits 3 d [a, b, c] (fun v k => match v with
      | [x, y, z] =>
        let n := elemRule x f.bits k
        if n < 1024 / f.bits then elemRule y f.bits n
        else if x2 = true ∧ n < 2048 / f.bits then elemRule z f.bits (n - 1024 / f.bits)
        else 0
      | _ => 0))
  | _ => none

/-- The permutations and moves (R207, R209). -/
def vecMoveRule : Instr → Option VecRule
  | .vperm h f d a b c => some (vecWhole h f.bits 3 d [a, b, c] (fun v k => match v with
      | [x, y, z] =>
        let n := elemRule y f.bits k % (2 * numRule h f)
        if n < numRule h f then elemRule x f.bits n else elemRule z f.bits (n - numRule h f)
      | _ => 0))
  | .vshuf h f d a m => some (vecWhole h f.bits 3 d [a] (fun v k => match v with
      | [x] => elemRule x f.bits (k ^^^ m.toNat) | _ => 0))
  | .vslide h f d a b n => some (vecWhole h f.bits 3 d [a, b] (fun v k => match v with
      | [x, y] => if k + n.toNat < numRule h f then elemRule x f.bits (k + n.toNat)
          else elemRule y f.bits (k + n.toNat - numRule h f) | _ => 0))
  | .vzip h f d a b hi => some (vecWhole h f.bits 3 d [a, b] (fun v k => match v with
      | [x, y] => elemRule (if k % 2 = 0 then x else y) f.bits (k / 2 + halfRule h f hi) | _ => 0))
  | .vuzip h f d a b odd => some (vecWhole h f.bits 3 d [a, b] (fun v k => match v with
      | [x, y] => if k < numRule h f / 2 then elemRule x f.bits (2 * k + odd.toNat)
          else elemRule y f.bits (2 * (k - numRule h f / 2) + odd.toNat) | _ => 0))
  | .vtrn h f d a b odd => some (vecWhole h f.bits 3 d [a, b] (fun v k => match v with
      | [x, y] => elemRule (if k % 2 = 0 then x else y) f.bits (2 * (k / 2) + odd.toNat) | _ => 0))
  | .vbcast h f d a m => some (vecWhole h f.bits 3 d [a] (fun v _ => match v with
      | [x] => elemRule x f.bits m.toNat | _ => 0))
  | .vmov h f d a => some (vecPat h f 2 d [a] (fun v => match v with | [x] => x | _ => 0))
  | .vli h f d imm => some (vecWhole h f.bits 2 d [] (fun _ _ => match f with
      | .f32 => imm.toNat * 2 ^ 7
      | .s8 | .s16 | .s32 | .s64 => wrapRule f.bits imm.toInt
      | _ => imm.toNat % 2 ^ f.bits))
  | _ => none

/-- The number of a vector slot in a strap. -/
def slotNo : VSlot → BitVec 4
  | .v0 => 3
  | .v1 => 4

/-- The write of a register of a vector file. -/
def vecEffect (file : VSlot) (n : BitVec 5) (val mask : VWord) : Effect :=
  match file with
  | .v0 => .v n val mask
  | .v1 => .w n val mask

/-- The base that a vector file's base-relative specifiers use (R81, R155). -/
def vecBase (c : Context) : VSlot → BitVec 5
  | .v0 => c.bv
  | .v1 => c.bw

/-- A result queue with one more entry on its way (R83, R293). -/
def State.oweOne (t : State) (n : BitVec 3) : State :=
  t.updMyCore (fun k =>
    { k.updRq n (fun q => { q with owed := q.owed ++ [{ id := t.myCore.nextId, data := 0, claimed := false }] }) with
      nextId := t.myCore.nextId + 1 })

/-- Whether a result queue takes one more entry; entries that the strap itself is to pop count as free (R293), and places that have
come free in this cycle do not yet (R292). -/
def HasRoom (t : State) (n : BitVec 3) : Prop :=
  (t.myCore.rq[n.toNat]'n.isLt).present.length + (t.myCore.rq[n.toNat]'n.isLt).owed.length +
      (t.myCore.rqHeld[n.toNat]'n.isLt) + 1 ≤
    128 + (t.me.flow.strap.rqPops.filter (· == n)).length

/-- Where a vector result goes (R84, R196), from the state that the sources' reading left: a register of a file, a
result queue, sq, or nowhere but the flags. -/
def vecDone (t : State) (slot file : VSlot) (lat : Nat) (d : Spec) (val mask : VWord) (bytes : PWord) (fl : Flags) : State :=
  match d with
  | .reg n => t.updMe (fun c => c.afterOp (slotNo slot) lat (some (vecEffect file n val mask)) fl)
  | .rel n => t.updMe (fun c => c.afterOp (slotNo slot) lat (some (vecEffect file (relRule (vecBase c file) n) val mask)) fl)
  | .rq n => (t.oweOne n).updMe (fun c => c.afterOp (slotNo slot) lat (some (.rq n t.myCore.nextId val)) fl)
  | .sq => t.updMe (fun c => c.afterOp (slotNo slot) lat (some (.sq val bytes)) fl)
  | _ => t.updMe (fun c => c.afterOp (slotNo slot) lat (some .flagsOnly) fl)

/-- What lands by R196: `val` in the enabled elements, the mask of the bits that are written, the byte mask of a store
datum, and every flag that an enabled element raises (R215). -/
structure VecRule.Lands (r : VecRule) (p : PWord) (vals : List VWord) (val mask : VWord) (bytes : PWord) (fl : Flags) :
    Prop where
  value : ∀ j : Nat, j < 1024 → val.getLsbD j =
    (decide (j < r.h.width.bits) && onRule r.h p r.e (j / r.e) && (r.val vals (j / r.e)).1.testBit (j % r.e))
  written : ∀ j : Nat, j < 1024 → mask.getLsbD j = (decide (r.h.width.bits ≤ j) || onRule r.h p r.e (j / r.e))
  unmasked : ∀ b : Nat, b < 128 → bytes.getLsbD b = (decide (r.h.width.bits ≤ 8 * b) || onRule r.h p r.e (8 * b / r.e))
  flags : ∀ j : Nat, fl.getLsbD j = (List.range (r.h.width.bits / r.e)).any (fun k =>
    onRule r.h p r.e k && (r.val vals k).2.getLsbD j)

/-- The completion of a vector instruction that follows a rule of elements. -/
def VecCompletes (i : Instr) (r : VecRule) : Prop :=
  ∀ (vals : List VWord) (s t : State), i.wf = true → IssuingUser s → ReadInOrder (srcV i r.h.slot) r.src s vals t →
    (∀ n, r.dst = .rq n → HasRoom t n) →
    ∃ (val mask : VWord) (bytes : PWord) (fl : Flags), r.Lands (s.me.p.get r.h.pred) vals val mask bytes fl ∧
      exec i s = .next (vecDone t r.h.slot r.h.slot r.lat r.dst val mask bytes fl)

end Sys2Proof.Machine

section
open Sys2Proof Sys2Proof.Machine

/-- The integer instructions of the vector slots (R193 to R198, R201, R202, R204 to R206): every element that is enabled
receives the pattern of the exact value, at the latency of R110, in a register, a result queue or sq; no flag is
raised. -/
def Sys2Proof.Claims.VectorIntegerResults : Prop :=
  ∀ (i : Instr) (r : VecRule), vecIntRule i = some r → VecCompletes i r

/-- The permutations and moves of the vector slots (R207, R209). -/
def Sys2Proof.Claims.VectorPermutationsAndMoves : Prop :=
  ∀ (i : Instr) (r : VecRule), vecMoveRule i = some r → VecCompletes i r

end
namespace Sys2Proof.Machine

/-- A NaN that is moved becomes the canonical one of its format (R215). -/
def canonRule (f : Fmt) (x : Nat) : Nat := if f.isFF = true ∧ (decodeF f x).isNaN = true then f.nanPat else x

/-- An instruction of R216 to R221 on the patterns of the elements, with their flags. -/
def vecFloat (h : VHdr) (f : Fmt) (lat : Nat) (d : Spec) (src : List Spec) (g : List Nat → Nat × Flags) : VecRule :=
  { h := h, e := f.bits, lat := lat, dst := d, src := src, val := fun vs k => g (vs.map (fun v => elemRule v f.bits k)) }

/-- One source rounded by the model's rounding of a value: the sum, the difference, the product (R51, R55, R216). -/
def roundRule (f : Fmt) (v : FVal × Flags) : Nat × Flags := ((roundNE f v.1).1, v.2 ||| (roundNE f v.1).2)

/-- The sign that source b of VFSGN supplies (R216). -/
def signRule (f : Fmt) (m : Nat) (x y : Nat) : Bool :=
  let sb := !(decodeF f y).isNaN && y.testBit (f.bits - 1)
  if m = 0 then sb else if m = 1 then !sb else x.testBit (f.bits - 1) != sb

/-- The class code of a pattern (R218). -/
def classRule (f : Fmt) (x : Nat) : Nat :=
  match decodeF f x with
  | .nan => 8
  | .inf neg => if neg then 0 else 7
  | .fin neg m _ =>
    let subnormal := x / 2 ^ f.fbits % 2 ^ f.ebits = 0
    if neg then (if m = 0 then 3 else if subnormal then 2 else 1) else if m = 0 then 4 else if subnormal then 5 else 6

/-- The floating instructions without a rounding mode (R216, R218, R221), and the readers of skived records (R227). The
rounding, the order of floating values and the transcendentals (log entry 7) are the model's named functions. -/
def vecFloatRule : Instr → Option VecRule
  | .vfadd h f d a b => some (vecFloat h f 4 d [a, b] (fun v => match v with
      | [x, y] => roundRule f ((decodeF f x).add (decodeF f y)) | _ => (0, 0)))
  | .vfsub h f d a b => some (vecFloat h f 4 d [a, b] (fun v => match v with
      | [x, y] => roundRule f ((decodeF f x).add (decodeF f y).neg) | _ => (0, 0)))
  | .vfmul h f d a b => some (vecFloat h f 4 d [a, b] (fun v => match v with
      | [x, y] => roundRule f ((decodeF f x).mul (decodeF f y)) | _ => (0, 0)))
  | .vfma h f d a b c np nc => some (vecFloat h f 4 d [a, b, c] (fun v => match v with
      | [x, y, z] =>
        let p := (if np then (decodeF f x).neg else decodeF f x).mul (decodeF f y)
        let w := p.1.add (if nc then (decodeF f z).neg else decodeF f z)
        roundRule f (w.1, p.2 ||| w.2)
      | _ => (0, 0)))
  | .vfmin h f d a b => some (vecFloat h f 2 d [a, b] (fun v => match v with
      | [x, y] => (fminPat f x y, 0) | _ => (0, 0)))
  | .vfmax h f d a b => some (vecFloat h f 2 d [a, b] (fun v => match v with
      | [x, y] => (fmaxPat f x y, 0) | _ => (0, 0)))
  | .vfsgn h f d a b m => some (vecFloat h f 2 d [a, b] (fun v => match v with
      | [x, y] => (if (decodeF f x).isNaN then f.nanPat
          else x % 2 ^ (f.bits - 1) + (if signRule f m.toNat x y then 2 ^ (f.bits - 1) else 0), 0)
      | _ => (0, 0)))
  | .vfclass h f d a => some (vecFloat h f 2 d [a] (fun v => match v with | [x] => (classRule f x, 0) | _ => (0, 0)))
  | .vfexp2 h f d a => some (vecFloat h f 8 d [a] (fun v => match v with | [x] => expPat 0 f true x | _ => (0, 0)))
  | .vfexp h f d a => some (vecFloat h f 8 d [a] (fun v => match v with | [x] => expPat 1 f false x | _ => (0, 0)))
  | .vflog2 h f d a => some (vecFloat h f 8 d [a] (fun v => match v with | [x] => logPat 2 f true x | _ => (0, 0)))
  | .vflog h f d a => some (vecFloat h f 8 d [a] (fun v => match v with | [x] => logPat 3 f false x | _ => (0, 0)))
  | .vfrcp h f d a => some (vecFloat h f 8 d [a] (fun v => match v with
      | [x] => (match decodeF f x with
        | .nan => (f.nanPat, 0)
        | .inf neg => (if neg then 2 ^ (f.bits - 1) else 0, 0)
        | .fin neg m e => if m = 0 then (f.infPat neg, flOverflow) else rcpOf 4 f neg m e)
      | _ => (0, 0)))
  | .vfrsq h f d a => some (vecFloat h f 8 d [a] (fun v => match v with
      | [x] => (match decodeF f x with
        | .nan => (f.nanPat, 0)
        | .inf neg => if neg then (f.nanPat, flInvalid) else (0, 0)
        | .fin neg m e =>
          if m = 0 then (f.infPat neg, flOverflow) else if neg then (f.nanPat, flInvalid) else rsqOf 5 f m e)
      | _ => (0, 0)))
  | .vftanh h f d a => some (vecFloat h f 8 d [a] (fun v => match v with
      | [x] => (match decodeF f x with
        | .nan => f.nanPat
        | .inf neg => (roundNE f (.fin neg 1 0)).1
        | .fin neg m e => if m = 0 then x
            else tanhOf f (x % 2 ^ (f.bits - 1)) m e + (if neg then 2 ^ (f.bits - 1) else 0), 0)
      | _ => (0, 0)))
  | .vdqnt h f d a b t => some (
      { h := h, e := f.bits, lat := 4, dst := d, src := [a, b]
        val := fun v k => match v with
          | [x, y] =>
            let e := dequantElem t x y k
            ((roundNE f e.1).1, e.2 ||| (roundNE f e.1).2)
          | _ => (0, 0) } )
  | .vrelub h f d b => some (vecWhole h f.bits 2 d [.kq, b] (fun v k => match v with
      | [q, y] => if q.getLsbD k then canonRule f (elemRule y f.bits k) else 0 | _ => 0))
  | .vmaxb h f d b w => some (vecWhole h f.bits 3 d [.kq, b] (fun v k => match v with
      | [q, y] => if q.getLsbD k then canonRule f (elemRule y f.bits (k / (w.toNat + 1))) else 0 | _ => 0))
  | .vmskb h f d b => some (vecWhole h f.bits 2 d [.kq, b] (fun v k => match v with
      | [q, y] => if q.getLsbD k then canonRule f (elemRule y f.bits k) else 0 | _ => 0))
  | .vkfull h f d => some (vecPat h f 2 d [.kq] (fun v => match v with | [x] => x | _ => 0))
  | _ => none

/-- A comparison of VCMP (R199). -/
def vcondRule (c : VCond) (x y : Int) : Bool :=
  match c with
  | .eq => decide (x = y) | .ne => decide (x ≠ y) | .lt => decide (x < y)
  | .ge => decide (y ≤ x) | .le => decide (x ≤ y) | .gt => decide (y < x)

/-- A comparison of VFCMP (R217). -/
def fcondRule (c : FCond) (x y : FVal) : Bool :=
  let un := x.isNaN || y.isNaN
  let eq := !un && !x.lt y && !y.lt x
  match c with
  | .eq => eq | .ne => !eq | .lt => !un && x.lt y | .ge => !un && (y.lt x || eq)
  | .le => !un && (x.lt y || eq) | .gt => !un && y.lt x | .un => un

/-- Header, width, destination, sources and condition of a comparison. -/
def vecCmpRule : Instr → Option (VHdr × Fmt × BitVec 4 × Spec × Spec × (Nat → Nat → Bool))
  | .vcmp h f pd a b c => some (h, f, pd, a, b, fun x y => vcondRule c (valRule f x) (valRule f y))
  | .vfcmp h f pd a b c => some (h, f, pd, a, b, fun x y => fcondRule c (decodeF f x) (decodeF f y))
  | _ => none

/-- Header, destination and byte-lane bit of a predicate operation (R211). -/
def predLogicRule : Instr → Option (VHdr × BitVec 4 × (RegFile 4 128 → Nat → Bool))
  | .pand h pd pa pb => some (h, pd, fun p b => (p.get pa).getLsbD b && (p.get pb).getLsbD b)
  | .por h pd pa pb => some (h, pd, fun p b => (p.get pa).getLsbD b || (p.get pb).getLsbD b)
  | .pxor h pd pa pb => some (h, pd, fun p b => (p.get pa).getLsbD b != (p.get pb).getLsbD b)
  | .pnot h pd pa => some (h, pd, fun p b => !(p.get pa).getLsbD b)
  | _ => none

/-- A predicate result in flight. -/
def predDone (t : State) (h : VHdr) (lat : Nat) (pd : BitVec 4) (val mask : PWord) : State :=
  t.updMe (fun c => c.afterOp (slotNo h.slot) lat (some (.p pd val mask)) 0)

end Sys2Proof.Machine

section
open Sys2Proof Sys2Proof.Machine

/-- The floating instructions without a rounding mode, and the readers of skived records (R215 to R218, R221, R226,
R227), with the model's rounding and transcendental functions. -/
def Obligations.VectorFloatAndReaderResults : Prop :=
  ∀ (i : Instr) (r : VecRule), vecFloatRule i = some r → VecCompletes i r

/-- VCMP, VFCMP (R199, R217), PAND, POR, PXOR, PNOT (R211) and PSET (R212): the byte-lane bits that are written, their
values, and zero from lane W/8 upward, at the latency of R110. -/
def Sys2Proof.Claims.PredicateRegisterResults : Prop :=
  (∀ (i : Instr) (h : VHdr) (f : Fmt) (pd : BitVec 4) (a b : Spec) (c : Nat → Nat → Bool) (x y : VWord) (s t : State),
    vecCmpRule i = some (h, f, pd, a, b, c) → i.wf = true → IssuingUser s →
    ReadInOrder (srcV i h.slot) [a, b] s [x, y] t →
    ∃ val mask : PWord, exec i s = .next (predDone t h 2 pd val mask) ∧
      ∀ n : Nat, n < 128 →
        let k := 8 * n / f.bits
        let on := onRule h (s.me.p.get h.pred) f.bits k
        mask.getLsbD n = (decide (h.width.bits ≤ 8 * n) || on) ∧
        val.getLsbD n = (decide (8 * n < h.width.bits) && on && c (elemRule x f.bits k) (elemRule y f.bits k))) ∧
  (∀ (i : Instr) (h : VHdr) (pd : BitVec 4) (g : RegFile 4 128 → Nat → Bool) (s : State),
    predLogicRule i = some (h, pd, g) → i.wf = true → IssuingUser s →
    ∃ val : PWord, exec i s = .next (predDone s h 1 pd val (BitVec.allOnes 128)) ∧
      ∀ n : Nat, n < 128 → val.getLsbD n = (decide (8 * n < h.width.bits) && g s.me.p n)) ∧
  (∀ (h : VHdr) (f : Fmt) (pd : BitVec 4) (n : ShiftBy) (src : List Spec) (vals : List VWord) (count : Nat) (s t : State),
    (Instr.pset h f pd n).wf = true → IssuingUser s →
    (match n with
     | .imm k => src = [] ∧ vals = [] ∧ count = k.toNat
     | .by a => ∃ v : VWord, src = [a] ∧ vals = [v] ∧ count = v.toNat % 2 ^ 32) →
    ReadInOrder (srcV (.pset h f pd n) h.slot) src s vals t →
    ∃ val : PWord, exec (.pset h f pd n) s = .next (predDone t h 1 pd val (BitVec.allOnes 128)) ∧
      ∀ b : Nat, b < 128 → val.getLsbD b = (decide (8 * b < h.width.bits) && decide (8 * b / f.bits < count)))

end
namespace Sys2Proof.Machine

/-- The seed after n draws (R52). -/
def seedAfter : Nat → Word → Word
  | 0, g => g
  | n + 1, g => seedAfter n (drawStep g).1

/-- The draw of element k where some elements take one each, in ascending order (R54). -/
def drawRule (rm : Rounding) (takes : Nat → Bool) (seed : Word) (k : Nat) : BitVec 32 :=
  if rm = .rs ∧ takes k = true then (drawStep (seedAfter ((List.range k).countP takes) seed)).2 else 0

/-- The generator after an operation of n elements (R54). -/
def afterDraws (rm : Rounding) (takes : Nat → Bool) (n : Nat) (t : State) : State :=
  if rm = .rs then t.updMe (fun c => { c with seed := seedAfter ((List.range n).countP takes) c.seed }) else t

/-- The source element that VFCVT converts at position j, where it converts (R220). -/
def cvtSource (w es ed q j : Nat) : Option Nat :=
  let n := w / (if es ≤ ed then ed else es)
  if es ≤ ed then some (j + q * n)
  else if q * n ≤ j ∧ j < q * n + n then some (j - q * n)
  else none

/-- The rule of VFCVT under the draws of its positions (R219, R220). -/
def cvtRule (h : VHdr) (dst src : Fmt) (d a b : Spec) (q : Nat) (rm : Rounding) (draw : Nat → BitVec 32) : VecRule :=
  { h := h, e := dst.bits, lat := 3, dst := d, src := [a, b]
    val := fun v j => match v with
      | [x, y] =>
        (match cvtSource h.width.bits src.bits dst.bits q j with
         | some n => cvtElem dst src rm (draw j) (elemRule x src.bits n)
         | none => (elemRule y dst.bits j, 0))
      | _ => (0, 0) }

/-- The enabled values of block j (R222). -/
def blockRule (h : VHdr) (p : PWord) (f : Fmt) (v : VWord) (j : Nat) : List FVal :=
  ((List.range (numRule h f)).filter (fun k => k / 32 == j && onRule h p f.bits k)).map (fun k => decodeF f (elemRule v f.bits k))

/-- The blocks of an operation (R222). -/
def blockCount (h : VHdr) (f : Fmt) : Nat := if numRule h f < 32 then 1 else numRule h f / 32

/-- The bytes that VQNT packs, with the flags of each (R225): block by block into O4, element by element into the others. -/
def quantRule (h : VHdr) (p : PWord) (f : Fmt) (t : QTarget) (rm : Rounding) (seed : Word) (x y : VWord) : List (List Byte × Flags) :=
  let on := onRule h p f.bits
  let val (k : Nat) := decodeF f (elemRule x f.bits k)
  let draw := drawRule rm (fun k => onRule h p f.bits k) seed
  if t = .o4 then (List.range (blockCount h f)).map (fun j =>
    quantO4 rm (elemRule y 8 j) ((List.range 32).map (fun n => (on (32 * j + n), val (32 * j + n), draw (32 * j + n)))))
  else (List.range (numRule h f)).map (fun k =>
    let r := quantByte t rm (draw k) (elemRule y 8 (k / 32)) (on k) (val k)
    ([BitVec.ofNat 8 r.1], r.2))

/-- The balanced tree over 2^n values, the lower half on the left (R64). -/
def treeRule {α : Type} (op : α → α → α) (d : α) : Nat → List α → α
  | 0, l => l.headD d
  | n + 1, l => op (treeRule op d n (l.take (2 ^ n))) (treeRule op d n (l.drop (2 ^ n)))

/-- What the S-file destination of the tree unit receives (R228). -/
def treeEffect (c : Context) (d : Spec) (v : Word) : Effect := (sEffect c d v).getD .flagsOnly

end Sys2Proof.Machine

section
open Sys2Proof Sys2Proof.Machine

/-- VSEL, VPXP, VCMPR, PCNT and VMOVX (R200, R203, R208, R210, R213): whole results, whatever the predicate, but for the merging
VCMPR and VMOVX. -/
def Sys2Proof.Claims.VectorWholeResults : Prop :=
  (∀ (h : VHdr) (f : Fmt) (d a b : Spec) (x y : VWord) (s t : State), (Instr.vsel h f d a b).wf = true → IssuingUser s →
    ReadInOrder (srcV (.vsel h f d a b) h.slot) [a, b] s [x, y] t → (∀ n, d = .rq n → HasRoom t n) →
    ∃ val : VWord,
      exec (.vsel h f d a b) s = .next (vecDone t h.slot h.slot 2 d val (BitVec.allOnes 1024) (BitVec.allOnes 128) 0) ∧
      ∀ j : Nat, j < 1024 → val.getLsbD j = (decide (j < h.width.bits) &&
        (if onRule h (s.me.p.get h.pred) f.bits (j / f.bits) then x.getLsbD j else y.getLsbD j))) ∧
  (∀ (h : VHdr) (f : Fmt) (d a : Spec) (n : BitVec 5) (sat : Bool) (x : VWord) (s t : State),
    (Instr.vpxp h f d a n sat).wf = true → IssuingUser s →
    ReadInOrder (srcV (.vpxp h f d a n sat) h.slot) [a] s [x] t → (∀ q, d = .rq q → HasRoom t q) →
    let w := n.toNat + 1
    let v (k : Nat) : Int := valRule f (elemRule x f.bits k)
    ∃ val : VWord,
      exec (.vpxp h f d a n sat) s = .next (vecDone t h.slot h.slot 3 d val (BitVec.allOnes 1024) (BitVec.allOnes 128) 0) ∧
      ∀ j : Nat, j < 1024 → val.getLsbD j = (decide (j / w < numRule h f) &&
        onRule h (s.me.p.get h.pred) f.bits (j / w) &&
        (wrapRule w (if sat then clampRule (loRule f w) (hiRule f w) (v (j / w)) else v (j / w))).testBit (j % w))) ∧
  (∀ (h : VHdr) (f : Fmt) (d a : Spec) (merge : Bool) (x : VWord) (s t : State), (Instr.vcmpr h f d a merge).wf = true →
    IssuingUser s → ReadInOrder (srcV (.vcmpr h f d a merge) h.slot) [a] s [x] t → (∀ q, d = .rq q → HasRoom t q) →
    let on := ((List.range (numRule h f)).filter (fun k => onRule h (s.me.p.get h.pred) f.bits k)).map (elemRule x f.bits)
    ∃ val mask : VWord,
      exec (.vcmpr h f d a merge) s = .next (vecDone t h.slot h.slot 3 d val mask (BitVec.allOnes 128) 0) ∧
      ∀ j : Nat, j < 1024 → val.getLsbD j = (on.getD (j / f.bits) 0).testBit (j % f.bits) ∧
        mask.getLsbD j = (!merge || decide (h.width.bits ≤ j) || decide (j / f.bits < on.length))) ∧
  (∀ (h : VHdr) (f : Fmt) (d : Spec) (s : State), (Instr.pcnt h f d).wf = true → IssuingUser s →
    (∀ q, d = .rq q → HasRoom s q) →
    exec (.pcnt h f d) s = .next (vecDone s h.slot h.slot 2 d
      (BitVec.ofNat 1024 ((List.range (numRule h f)).countP (fun k => onRule h (s.me.p.get h.pred) f.bits k)))
      (BitVec.allOnes 1024) (BitVec.allOnes 128) 0)) ∧
  (∀ (h : VHdr) (f : Fmt) (d a : Spec) (x : VWord) (s t : State), (Instr.vmovx h f d a).wf = true → IssuingUser s →
    ReadInOrder (srcV (.vmovx h f d a) h.slot) [a] s [x] t →
    ∃ (val mask : VWord) (bytes : PWord) (fl : Flags),
      (vecPat h f 3 d [a] (fun v => v.headD 0)).Lands (s.me.p.get h.pred) [x] val mask bytes fl ∧
      exec (.vmovx h f d a) s =
        .next (vecDone t h.slot (match h.slot with | .v0 => .v1 | .v1 => .v0) 3 d val mask bytes fl))

/-- VFCVT (R51, R54, R219, R220): each position that converts rounds once in the encoded mode; under the stochastic mode each
enabled one takes one draw, in ascending order, and the generator advances by as many. -/
def Obligations.VectorConversions : Prop :=
  ∀ (h : VHdr) (dst src : Fmt) (d a b : Spec) (q : BitVec 6) (rm : Rounding) (x y : VWord) (s t : State),
    (Instr.vfcvt h dst src d a b q rm).wf = true → IssuingUser s →
    ReadInOrder (srcV (.vfcvt h dst src d a b q rm) h.slot) [a, b] s [x, y] t → (∀ n, d = .rq n → HasRoom t n) →
    let takes (j : Nat) : Bool := onRule h (s.me.p.get h.pred) dst.bits j &&
      (cvtSource h.width.bits src.bits dst.bits q.toNat j).isSome
    let r := cvtRule h dst src d a b q.toNat rm (drawRule rm takes s.me.seed)
    ∃ (val mask : VWord) (bytes : PWord) (fl : Flags), r.Lands (s.me.p.get h.pred) [x, y] val mask bytes fl ∧
      exec (.vfcvt h dst src d a b q rm) s =
        .next (vecDone (afterDraws rm takes (h.width.bits / dst.bits) t) h.slot h.slot 3 d val mask bytes fl)

/-- VAMAX, VSCL and VQNT (R222 to R225): block maxima, scale codes and packed bytes, with a draw for each enabled element under
the stochastic mode. -/
def Obligations.QuantisationResults : Prop :=
  (∀ (h : VHdr) (f : Fmt) (d a c : Spec) (x z : VWord) (s t : State), (Instr.vamax h f d a c).wf = true → IssuingUser s →
    ReadInOrder (srcV (.vamax h f d a c) h.slot) [a, c] s [x, z] t → (∀ n, d = .rq n → HasRoom t n) →
    let p := s.me.p.get h.pred
    let r : VecRule := { h := h, e := f.bits, lat := 4, dst := d, src := [a, c], val := fun _ k =>
      (fmaxPat f (elemRule z f.bits k) (roundNE f (amaxOf (blockRule h p f x (k / 32)))).1, 0) }
    ∃ (val mask : VWord) (bytes : PWord) (fl : Flags), r.Lands p [x, z] val mask bytes fl ∧
      exec (.vamax h f d a c) s = .next (vecDone t h.slot h.slot 4 d val mask bytes fl)) ∧
  (∀ (h : VHdr) (f : Fmt) (d a : Spec) (tg : QTarget) (ol : Bool) (x : VWord) (s t : State),
    (Instr.vscl h f d a tg ol).wf = true → IssuingUser s →
    ReadInOrder (srcV (.vscl h f d a tg ol) h.slot) [a] s [x] t → (∀ n, d = .rq n → HasRoom t n) →
    let code (j : Nat) : Nat × Flags :=
      let l := blockRule h (s.me.p.get h.pred) f x j
      scaleCode tg.bound (if ol then olAmax l else amaxOf l)
    ∃ (val : VWord) (fl : Flags),
      exec (.vscl h f d a tg ol) s = .next (vecDone t h.slot h.slot 3 d val (BitVec.allOnes 1024) (BitVec.allOnes 128) fl) ∧
      (∀ j : Nat, j < 1024 → val.getLsbD j = (decide (j / 8 < blockCount h f) && (code (j / 8)).1.testBit (j % 8))) ∧
      ∀ n : Nat, fl.getLsbD n = (List.range (blockCount h f)).any (fun j => (code j).2.getLsbD n)) ∧
  (∀ (h : VHdr) (f : Fmt) (d a b : Spec) (tg : QTarget) (rm : Rounding) (x y : VWord) (s t : State),
    (Instr.vqnt h f d a b tg rm).wf = true → IssuingUser s →
    ReadInOrder (srcV (.vqnt h f d a b tg rm) h.slot) [a, b] s [x, y] t → (∀ n, d = .rq n → HasRoom t n) →
    let p := s.me.p.get h.pred
    let out := quantRule h p f tg rm s.me.seed x y
    let nanCode := tg != .o4 && (List.range (blockCount h f)).any (fun j => elemRule y 8 j == 0xFF)
    ∃ (val : VWord) (fl : Flags),
      exec (.vqnt h f d a b tg rm) s =
        .next (vecDone (afterDraws rm (fun k => onRule h p f.bits k) (numRule h f) t) h.slot h.slot 4 d val
          (BitVec.allOnes 1024) (BitVec.allOnes 128) fl) ∧
      (∀ j : Nat, j < 1024 → val.getLsbD j = ((out.flatMap (·.1)).getD (j / 8) 0).getLsbD (j % 8)) ∧
      ∀ n : Nat, fl.getLsbD n = (out.any (fun o => o.2.getLsbD n) || (nanCode && flInvalid.getLsbD n)))

/-- VRED and VSCAN (R64, R66, R228, R229): the balanced tree over the lanes, an inactive lane giving the identity, into the
S file nine ticks later; VSCAN gives each enabled element its lane's prefix as well. -/
def Obligations.TreeUnitResults : Prop :=
  (∀ (h : VHdr) (f : Fmt) (d a : Spec) (op : TreeOp) (x : VWord) (s t : State), (Instr.vred h f d a op).wf = true →
    IssuingUser s → ReadInOrder (srcV (.vred h f d a op) h.slot) [a] s [x] t →
    let r := treeRule (treeOp op f) (0, 0) (Nat.log2 (numRule h f)) (treeLanes h (s.me.p.get h.pred) f op x)
    exec (.vred h f d a op) s =
      .next (t.updMe (fun c => c.afterOp (slotNo h.slot) 9 (some (treeEffect c d (BitVec.ofNat 64 r.1))) r.2))) ∧
  (∀ (h : VHdr) (f : Fmt) (d a sd : Spec) (op : TreeOp) (x : VWord) (s t : State), (Instr.vscan h f d a sd op).wf = true →
    IssuingUser s → ReadInOrder (srcV (.vscan h f d a sd op) h.slot) [a] s [x] t → (∀ n, d = .rq n → HasRoom t n) →
    let p := s.me.p.get h.pred
    let pre (k : Nat) := scanPrefix (treeOp op f) (0, 0) (treeLanes h p f op x) k
    let total := treeRule (treeOp op f) (0, 0) (Nat.log2 (numRule h f)) (treeLanes h p f op x)
    let r : VecRule := { h := h, e := f.bits, lat := 9, dst := d, src := [a], val := fun _ k =>
      if f.isFA then ((roundNE f (decodeF .f32 (pre k).1)).1, (pre k).2 ||| (roundNE f (decodeF .f32 (pre k).1)).2)
      else ((pre k).1 % 2 ^ f.bits, (pre k).2) }
    ∃ (val mask : VWord) (bytes : PWord) (fl all : Flags), r.Lands p [x] val mask bytes fl ∧
      (∀ n : Nat, all.getLsbD n = (List.range (numRule h f)).any (fun k => (pre k).2.getLsbD n)) ∧
      exec (.vscan h f d a sd op) s =
        .next ((vecDone t h.slot h.slot 9 d val mask bytes fl).updMe (fun c =>
          c.withResult (slotNo h.slot) 9 (treeEffect c sd (BitVec.ofNat 64 total.1)) all)))

end
-- The matrix slot ---------------------------------------------------------------------------------------------------

namespace Sys2Proof.Machine

/-- The context owns the matrix slot, its strap has begun, and the partition has the features that the instruction needs
(R231, R302). -/
def IssuingM (i : Instr) (s : State) : Prop :=
  IssuingUser s ∧ s.me.mat = true ∧ featuresOk (s.part s.me.part).features i = true

/-- A way is free at this tick, or the interlock of Pyrino finds one (R98, R236). -/
def WayFree (s : State) (n : Nat) : Prop :=
  s.me.pyrino = true ∨ (s.myCore.ways.filter (fun u => decide (s.me.user.tick < u + 64))).length < n

/-- The array ways of a pair in a mode (R235). -/
def wayRule (fa fb : Fmt) (mode : MMode) : Nat :=
  let one (f : Fmt) : Bool := f == .bf16 || f == .f16
  let two (f : Fmt) : Bool := f == .e4m3 || f == .e5m2
  match mode with
  | .binary => 1
  | .int => if fa = .s8 ∨ fb = .s8 then 2 else 4
  | .float => if one fa || one fb then 1 else if two fa || two fb then 2 else 4

/-- The words that an operation starts from: zero, or what the latest earlier operation on the accumulator leaves (R239). -/
def startRule (s : State) (acc : BitVec 3) (z : Bool) (n : Nat) : AWord :=
  if z then 0 else (((s.me.user.flight ++ s.me.user.held).filterMap (fun f => match f.eff with
    | .acc m ws => if m = acc then some ws else none
    | _ => none)).getLast?.getD (s.myCore.acc[acc.toNat]'acc.isLt)).getD n 0

/-- Row r of the operand at the head of a tile queue (R232, R233); `o` is 0 for fa and 1 for fb. -/
def headRow (s : State) (tiles : List (List (List Byte))) (o : Nat) (f : Fmt) (r : Nat) : List TileElem :=
  rowElems (2 * s.draw.1 + o) r f ((tiles.headD []).getD r [])

/-- What an operation of the matrix slot leaves besides its accumulator (R236, R239): its tiles taken unless held, its way
taken, the configuration in use, and the frame. -/
structure TilesTaken (s t : State) (hla hlb : Bool) (m : MConfig) : Prop where
  fa : t.myCore.fa = (if hla then s.myCore.fa else s.myCore.fa.drop 1)
  fb : t.myCore.fb = (if hlb then s.myCore.fb else s.myCore.fb.drop 1)
  ways : s.me.pyrino = false → t.myCore.ways =
    s.myCore.ways.filter (fun u => decide (s.me.user.tick < u + 64)) ++ [s.me.user.tick]
  state : t.myCore.mstate = .configured { m with used := true }
  landed : t.myCore.acc = s.myCore.acc
  queues : t.myCore.rq = s.myCore.rq
  mem : t.mem = s.mem
  others : ∀ c : CtxId, c ≠ s.cur → t.ctx c = s.ctx c

end Sys2Proof.Machine

section
open Sys2Proof Sys2Proof.Machine

/-- MMA (R61, R62, R234 to R239): under a configuration of its formats and with a way free, every word of the accumulator
receives, 72 ticks later, what the 64 steps of its row and column give, from zero or from what the latest earlier
operation on that accumulator leaves. That the start is what the accumulator holds then, also where the copy unit has written it since, is the
model's choice (log entry 81). -/
def Sys2Proof.Claims.MatrixMultiplyResults : Prop :=
  ∀ (fa fb : Fmt) (acc : BitVec 3) (ka kb : BitVec 4) (hla hlb z : Bool) (m : MConfig) (s : State),
    let i := Instr.mma fa fb acc ka kb hla hlb z
    i.wf = true → IssuingM i s → s.myCore.mstate = .configured m → m.mode ≠ .binary → m.fa = fa → m.fb = fb →
    (m.mode = .int → (fa = .o4 → ka = 0) ∧ (fb = .o4 → kb = 0)) → WayFree s (wayRule fa fb m.mode) →
    let ra (r : Nat) := headRow s s.myCore.fa 0 fa r
    let rb (r : Nat) := headRow s s.myCore.fb 1 fb r
    let va (r : Nat) := floatRow fa (s.me.k.get ka) r (ra r)
    let vb (r : Nat) := floatRow fb (s.me.k.get kb) r (rb r)
    let float (n : Nat) := floatWord (fun k => m.cell.toNat / 4 ^ k % 4) (startRule s acc z n)
      ((va (n / 64)).map (·.val)) ((vb (n % 64)).map (·.val))
    ∃ (ws : List AWord) (fl : Flags) (t : State), exec i s = .next t ∧ TilesTaken s t hla hlb m ∧
      t.me = s.me.afterOp 5 72 (some (.acc acc ws)) fl ∧ ws.length = 4096 ∧
      (m.mode = .float → (∀ n : Nat, n < 4096 → ws.getD n 0 = (float n).1) ∧
        ∀ b : Nat, fl.getLsbD b = ((List.range 4096).any (fun n => (float n).2.getLsbD b) ||
          (List.range 64).any (fun r => (va r).any (fun e => e.flags.getLsbD b) || (vb r).any (fun e => e.flags.getLsbD b)))) ∧
      (m.mode = .int → (∀ n : Nat, n < 4096 → ws.getD n 0 = BitVec.ofInt 32 ((startRule s acc z n).toNat +
          (((intRow (ra (n / 64))).zip (intRow (rb (n % 64)))).map (fun e => e.1.1 * e.2.1)).sum)) ∧
        ∀ b : Nat, fl.getLsbD b = (List.range 64).any (fun r =>
          (intRow (ra r)).any (fun e => e.2.getLsbD b) || (intRow (rb r)).any (fun e => e.2.getLsbD b)))

/-- MMB (R63, R235, R239): every word receives, 72 ticks later, its start and the one bits of the exclusive or, or of the and,
of its row and column. -/
def Sys2Proof.Claims.BinaryMatrixResults : Prop :=
  ∀ (fa fb : Fmt) (acc : BitVec 3) (hla hlb z : Bool) (and : Bool) (m : MConfig) (s : State),
    let i := Instr.mmb fa fb acc hla hlb z and
    i.wf = true → IssuingM i s → s.myCore.mstate = .configured m → m.mode = .binary → m.fa = fa → m.fb = fb →
    WayFree s 1 →
    ∃ (ws : List AWord) (t : State), exec i s = .next t ∧ TilesTaken s t hla hlb m ∧
      t.me = s.me.afterOp 5 72 (some (.acc acc ws)) 0 ∧ ws.length = 4096 ∧
      ∀ n : Nat, n < 4096 →
        let a := bitWords (2 * s.draw.1) (n / 64) ((s.myCore.fa.headD []).getD (n / 64) [])
        let b := bitWords (2 * s.draw.1 + 1) (n % 64) ((s.myCore.fb.headD []).getD (n % 64) [])
        ws.getD n 0 = BitVec.ofNat 32 ((startRule s acc z n).toNat + ((a.zip b).map (fun e =>
          (List.range 32).countP (fun k => (if and then e.1 &&& e.2 else e.1 ^^^ e.2).getLsbD k))).sum)

/-- MCFG and MDRAIN (R235, R237, R241): a pair that is allowed, with cell codes only in float mode and none of them 3, is
configured where the array is unset, unused since its last configuration, or drained; MDRAIN starts the draining. -/
def Sys2Proof.Claims.MatrixConfiguration : Prop :=
  (∀ (fa fb : Fmt) (ka : BitVec 4) (cell int : Bool) (mode : MMode) (s : State),
    let i := Instr.mcfg fa fb ka cell int
    let codes : BitVec 128 := if cell then BitVec.ofNat 128 (s.me.k.get ka).toNat else 0
    i.wf = true → IssuingM i s → pairMode fa fb int = some mode → (∀ k, k < 64 → codes.toNat / 4 ^ k % 4 ≠ 3) →
    (mode = .float ∨ codes = 0) →
    (s.myCore.mstate = .unset ∨ (∃ m : MConfig, s.myCore.mstate = .configured m ∧ m.used = false) ∨
      ∃ u, s.myCore.mstate = .draining u ∧ (s.me.pyrino = true ∨ u + 72 ≤ s.me.user.tick)) →
    exec i s = .next ((s.updMyCore (fun k =>
      { k with mstate := .configured { fa := fa, fb := fb, mode := mode, cell := codes, used := false } })).updMe
        (fun c => c.slotDone 5))) ∧
  (∀ s : State, IssuingM .mdrain s →
    exec .mdrain s =
      .next ((s.updMyCore (fun k => { k with mstate := .draining s.me.user.tick })).updMe (fun c => c.slotDone 5)))

/-- MDRN, MCLR and MLDA (R191, R240, R242, R243): the entries of a drain, one a tick from the eighth, with 32 words each or 64
rounded to BF16; an accumulator cleared to +0 or to positive infinity one tick later; an accumulator loaded from the
core's own scratchpad eight ticks later. -/
def Sys2Proof.Claims.AccumulatorMoves : Prop :=
  (∀ (f : Fmt) (acc rq : BitVec 3) (s : State),
    let i := Instr.mdrn f acc rq
    let n := if f = .bf16 then 64 else 128
    let word (k : Nat) : AWord := (s.myCore.acc[acc.toNat]'acc.isLt).getD k 0
    i.wf = true → IssuingM i s → (s.me.pyrino = true ∨ s.myCore.drainUntil ≤ s.me.user.tick) →
    (s.myCore.rq[rq.toNat]'rq.isLt).present.length + (s.myCore.rq[rq.toNat]'rq.isLt).owed.length +
        (s.myCore.rqHeld[rq.toNat]'rq.isLt) + n ≤
      128 + (s.me.flow.strap.rqPops.filter (· == rq)).length →
    ∃ (out : List Flight) (t : State), exec i s = .next t ∧
      t.me = (s.me.updFlow (fun w => { w with flight := w.flight ++ out })).slotDone 5 ∧ out.length = n ∧
      t.myCore.drainUntil = s.me.user.tick + 8 + (n - 1) ∧ t.myCore.acc = s.myCore.acc ∧ t.mem = s.mem ∧
      ∀ j : Nat, j < n → ∃ e : Flight, out[j]? = some e ∧ e.slot = 5 ∧
        e.due = s.me.user.tick + (if s.me.pyrino then 1 else 8 + j) ∧
        ∃ v : VWord, e.eff = .rq rq (s.myCore.nextId + j) v ∧
          (f = .bf16 → (∀ k : Nat, k < 64 → elemRule v 16 k =
              (roundNE .bf16 (decodeF .f32 (word (64 * j + k)).toNat)).1 % 2 ^ 16) ∧
            ∀ b : Nat, e.flags.getLsbD b = (List.range 64).any (fun k =>
              (roundNE .bf16 (decodeF .f32 (word (64 * j + k)).toNat)).2.getLsbD b)) ∧
          (f ≠ .bf16 → (∀ k : Nat, k < 32 → elemRule v 32 k = (word (32 * j + k)).toNat) ∧ e.flags = 0)) ∧
  (∀ (acc : BitVec 3) (inf : Bool) (s : State), IssuingM (.mclr acc inf) s → accPending s.me acc = [] →
    exec (.mclr acc inf) s = .next (s.updMe (fun c =>
      c.afterOp 5 1 (some (.acc acc (List.replicate 4096 (if inf then 0x7F800000 else 0)))) 0))) ∧
  (∀ (f : Fmt) (acc : BitVec 3) (off : BitVec 14) (s : State),
    let i := Instr.mlda f acc off
    let n := if f = .bf16 then 8192 else 16384
    let at_ := padBase s.cur.core + off.toNat * 128
    i.wf = true → IssuingM i s → accPending s.me acc = [] → off.toNat * 128 + n ≤ 2 ^ 21 →
    (∀ g : Nat, g < n / 64 → s.kept (at_ + 64 * g) = false) → (∀ k < n, s.poisoned (at_ + k) = false) →
    ∃ ws : List AWord, exec i s = .next (s.updMe (fun c => c.afterOp 5 8 (some (.acc acc ws)) 0)) ∧ ws.length = 4096 ∧
      ∀ k : Nat, k < 4096 → (ws.getD k 0).toNat =
        (if f = .bf16 then 2 ^ 16 * ((memRead s.mem (at_ + 2 * k)).toNat + 2 ^ 8 * (memRead s.mem (at_ + 2 * k + 1)).toNat)
         else (memRead s.mem (at_ + 4 * k)).toNat + 2 ^ 8 * (memRead s.mem (at_ + 4 * k + 1)).toNat +
           2 ^ 16 * (memRead s.mem (at_ + 4 * k + 2)).toNat + 2 ^ 24 * (memRead s.mem (at_ + 4 * k + 3)).toNat))

end
-- The copy slot -----------------------------------------------------------------------------------------------------

namespace Sys2Proof.Machine

/-- A strap of user code that has begun, in a partition with the features that the instruction needs (R302). -/
def IssuingX (i : Instr) (s : State) : Prop := IssuingUser s ∧ featuresOk (s.part s.me.part).features i = true

/-- The two words of a stamp operand (R247). -/
def stampRule (c : Context) : XSpec → Option (Word × Word)
  | .none => none
  | .x n => some (xRegRule c n, xRegRule c (n + 1))

/-- A stamp descriptor that no fault meets (R247). -/
def StampFits : Option (Word × Word) → Prop
  | none => True
  | some (d, _) => d.toNat / 2 ^ 57 = 0 ∧ 1 ≤ d.toNat / 2 ^ 52 % 2 ^ 4 ∧ d.toNat / 2 ^ 52 % 2 ^ 4 ≤ 8 ∧ d.toNat % 8 = 0

/-- The stamp that a command carries (R247). -/
def stampFields : Option (Word × Word) → Option Stamp
  | none => none
  | some (d, w) => some { add := d.getLsbD 56, sc := (Scope.ofCode (BitVec.ofNat 4 (d.toNat / 2 ^ 52))).getD .core,
                          addr := d.toNat % 2 ^ 52, word := w }

/-- A command as it enters its lane (R250): nothing delivered, nothing started. -/
def queuedRule (id : Nat) (ctx : BitVec 2) (op : CmdOp) (st : Option Stamp) : Command :=
  { id := id, ctx := ctx, op := op, stamp := st, st := .queued, delivered := 0, cursor := 0, buf := [], shapes := [],
    trig := none, tile := none, parts := [], flags := 0, asked := false }

/-- A core whose lane has one more entry at its tail, the next number of the core taken. -/
def Core.entered (k : Core) (lane : BitVec 3) (ctx : BitVec 2) (op : CmdOp) (st : Option Stamp) : Core :=
  { k with nextId := k.nextId + 1
           lanes := k.lanes.set lane.toNat
             (k.lanes[lane.toNat]'lane.isLt ++ [.cmd (queuedRule k.nextId ctx op st)]) lane.isLt }

/-- The state after an X operation that enters one command. -/
def commandEntered (s : State) (lane : BitVec 3) (op : CmdOp) (t : XSpec) : State :=
  (s.updMyCore (fun k => k.entered lane s.cur.ctx op (stampFields (stampRule s.me t)))).updMe (fun c => c.slotDone 7)

/-- Lane, stamp operand, command, and what must hold of the operands, for the instructions that enter one command
(R257 to R260, R265, R271). -/
def copyRule (s : State) : Instr → Option (BitVec 3 × XSpec × CmdOp × Prop)
  | .xcp l d a n t kept =>
    let dst := xRegRule s.me d; let src := xRegRule s.me a; let len := (xRegRule s.me n).toNat % 2 ^ 32
    some (l, t, .xcp dst src len kept, kept = true → dst.toNat % 64 = 0 ∧ src.toNat % 64 = 0 ∧ len % 64 = 0)
  | .xcpz l d a n t dict =>
    let w := (xRegRule s.me n).toNat; let dw := (xRegRule s.me (a + 1)).toNat
    some (l, .x t, .xcpz (xRegRule s.me d) (xRegRule s.me a) (w % 2 ^ 32) (w / 2 ^ 32)
        (if dict then some (dw % 2 ^ 52, dw / 2 ^ 52 * 1024) else none),
      w / 2 ^ 32 ≠ 0 ∧ (dict = true → dw / 2 ^ 52 ≠ 0))
  | .xcpc l _ d a n t ib f =>
    let dst := xRegRule s.me d; let src := xRegRule s.me a; let cnt := (xRegRule s.me n).toNat % 2 ^ 32
    let tab := (xRegRule s.me (a + 1)).toNat
    let size := match ib with | .i2 => 8 | .i3 => 16 | .i4 => 32
    some (l, .x t, .xcpc dst src cnt tab ib f,
      1 ≤ cnt ∧ cnt ≤ 2 ^ 24 ∧ tab % size = 0 ∧ tab < 2 ^ 21 ∧ src.toNat % 4 = 0 ∧ dst.toNat % 2 = 0 ∧
        s.myCore.flagsOwned.getLsbD f.toNat = true)
  | .xsend l ch a t => some (l, t, .xsend ch (xRegRule s.me a),
      ∃ e, s.chanEntry s.me ch = some e ∧ e.receive = false ∧ (s.me.chan ch).withdrawn = false)
  | .xrecv l ch d t => some (l, t, .xrecv ch (match d with | .x d => some (xRegRule s.me d) | .none => none),
      ∃ e, s.chanEntry s.me ch = some e ∧ e.receive = true ∧ (s.me.chan ch).withdrawn = false)
  | .xstor l d a n t =>
    let w := (xRegRule s.me n).toNat
    let reg : BitVec 12 := BitVec.ofNat 12 (w / 2 ^ 16)
    let nsid : BitVec 32 := BitVec.ofNat 32 (w / 2 ^ 32)
    some (l, .x t, .xstor (xRegRule s.me d) (xRegRule s.me a) (w % 2 ^ 16) reg nsid
        ((s.registration reg.toNat).toNat / 2 ^ 40 % 2 ^ 8),
      w / 2 ^ 28 % 2 ^ 4 = 0 ∧ s.grants reg (s.vfOf s.me.part) nsid = true ∧ (xRegRule s.me d).toNat % 64 = 0)
  | _ => none

/-- The gather-index entries of the acting context, oldest first (R185). -/
def gatherRows (c : Context) : List LoadOp := c.flow.q.la.filter (fun o => o.kind == .gidx)

/-- The context without its c oldest gather-index entries (R263). -/
def rowsTaken (c : Context) (n : Nat) : Context :=
  c.updFlow (fun f => f.updQ (fun q =>
    { q with la := q.la.filter (fun o => !((gatherRows c).take n).any (fun m => m.id == o.id)) }))

end Sys2Proof.Machine

section
open Sys2Proof Sys2Proof.Machine

/-- XCP, XCPZ, XCPC, XSEND, XRECV and XSTOR (R246, R247, R250, R257, R258, R260, R265, R271): with operands that meet no fault,
one command with its operands as read at issue stands last in its lane, with its stamp, and nothing else happens yet. -/
def Sys2Proof.Claims.CopyCommandsEnterTheirLane : Prop :=
  ∀ (i : Instr) (lane : BitVec 3) (t : XSpec) (op : CmdOp) (fits : Prop) (s : State),
    copyRule s i = some (lane, t, op, fits) → i.wf = true → IssuingX i s → StampFits (stampRule s.me t) → fits →
    exec i s = .next (commandEntered s lane op t)

/-- XFILL (R261, R262): the command enters its lane, and the fill takes its place in the order of its FIFO. -/
def Sys2Proof.Claims.FillsTakeTheirPlace : Prop :=
  ∀ (lane : BitVec 3) (f : Fmt) (a : BitVec 4) (n t : XSpec) (kept fb tr : Bool) (s : State),
    let i := Instr.xfill lane f a n t kept fb tr
    let scales := (xRegRule s.me (a + 1)).toNat % 2 ^ 21
    let stride := match n with | .x n => (xRegRule s.me n).toNat % 2 ^ 32 | .none => 0
    i.wf = true → IssuingX i s → StampFits (stampRule s.me t) → (kept = true → scales % 128 = 0) →
    exec i s = .next (((s.updMyCore (fun k =>
        k.entered lane s.cur.ctx (.xfill (xRegRule s.me a) stride f kept fb tr scales) (stampFields (stampRule s.me t)))).updMyCore
      (fun k => if fb then { k with fbOrder := k.fbOrder ++ [s.myCore.nextId] }
                else { k with faOrder := k.faOrder ++ [s.myCore.nextId] })).updMe (fun c => c.slotDone 7))

/-- XGATH, XGATH to lq, XSCAT and XPOPQ (R263, R264): the oldest gather-index entries are taken as the rows, lq entries are
reserved in order, and the next unclaimed entries of a result queue are claimed. -/
def Sys2Proof.Claims.GatherScatterAndPopCommands : Prop :=
  (∀ (lane : BitVec 3) (d : XSpec) (n : BitVec 4) (t : XSpec) (s : State),
    let i := Instr.xgath lane d n t
    let rb := (xRegRule s.me n).toNat % 2 ^ 16
    let c := (xRegRule s.me n).toNat / 2 ^ 16 % 2 ^ 7
    let rows := ((gatherRows s.me).take c).map (·.ea)
    i.wf = true → IssuingX i s → StampFits (stampRule s.me t) → 1 ≤ rb → 1 ≤ c → c ≤ 64 → (d = .none → rb ≤ 128) →
    c ≤ (gatherRows s.me).length →
    ∃ u : State, exec i s = .next u ∧ u.mem = s.mem ∧ u.me.registers = s.me.registers ∧
      u.myCore.nextId = s.myCore.nextId + 1 ∧
      u.me.flow.q.la = (rowsTaken s.me c).flow.q.la ∧
      (∀ x, d = .x x → u.me.flow.q.lq = s.me.flow.q.lq ∧
        u.myCore.lane lane = s.myCore.lane lane ++
          [.cmd (queuedRule s.myCore.nextId s.cur.ctx (.xgath (xRegRule s.me x) rb rows) (stampFields (stampRule s.me t)))]) ∧
      (d = .none → u.me.flow.q.lq = s.me.flow.q.lq ++
          (List.range c).map (fun m => { id := s.myCore.nextId, part := m, st := .reserved }) ∧
        u.myCore.lane lane = s.myCore.lane lane ++
          [.cmd (queuedRule s.myCore.nextId s.cur.ctx (.xgathLq rb rows) (stampFields (stampRule s.me t)))])) ∧
  (∀ (lane : BitVec 3) (a n : BitVec 4) (t : XSpec) (s : State),
    let i := Instr.xscat lane a n t
    let rb := (xRegRule s.me n).toNat % 2 ^ 16
    let c := (xRegRule s.me n).toNat / 2 ^ 16 % 2 ^ 7
    i.wf = true → IssuingX i s → StampFits (stampRule s.me t) → 1 ≤ rb → 1 ≤ c → c ≤ 64 →
    c ≤ (gatherRows s.me).length →
    ∃ u : State, exec i s = .next u ∧ u.mem = s.mem ∧ u.me.registers = s.me.registers ∧
      u.me.flow.q.la = (rowsTaken s.me c).flow.q.la ∧ u.me.flow.q.lq = s.me.flow.q.lq ∧
      u.myCore.lane lane = s.myCore.lane lane ++
        [.cmd (queuedRule s.myCore.nextId s.cur.ctx
          (.xscat (xRegRule s.me a) rb (((gatherRows s.me).take c).map (·.ea))) (stampFields (stampRule s.me t)))]) ∧
  (∀ (lane : BitVec 3) (d : BitVec 4) (rq : BitVec 3) (n : BitVec 4) (t : XSpec) (s : State),
    let i := Instr.xpopq lane d rq n t
    let c := (xRegRule s.me n).toNat % 2 ^ 8
    let q := s.myCore.rq[rq.toNat]'rq.isLt
    let free := (q.present ++ q.owed).filter (fun e => !e.claimed)
    i.wf = true → IssuingX i s → StampFits (stampRule s.me t) → 1 ≤ c → c ≤ 128 → c ≤ free.length →
    ∃ u : State, exec i s = .next u ∧ u.mem = s.mem ∧ u.me = s.me.slotDone 7 ∧
      (∀ e : RqEntry, e ∈ (u.myCore.rq[rq.toNat]'rq.isLt).present ++ (u.myCore.rq[rq.toNat]'rq.isLt).owed →
        ∃ e0 ∈ q.present ++ q.owed, e.id = e0.id ∧ e.data = e0.data ∧
          e.claimed = (e0.claimed || ((free.take c).map (·.id)).contains e.id)) ∧
      u.myCore.lane lane = s.myCore.lane lane ++
        [.cmd (queuedRule s.myCore.nextId s.cur.ctx
          (.xpopq (xRegRule s.me d) rq ((free.take c).map (·.id)) ((xRegRule s.me n).toNat / 2 ^ 32))
          (stampFields (stampRule s.me t)))])

/-- XCOLL and XCAV (R266, R375, R377): with a declared communicator of whose group the thread is a member, and a root and a
length that the kind allows, the thread's part enters its communicator's queue, and its count of instances rises. -/
def Sys2Proof.Claims.CollectivesEnterTheSequencer : Prop :=
  ∀ (i : Instr) (kind : CollKind) (f d a n op : BitVec 4) (t : XSpec) (e : CommEntry) (s : State),
    (∃ code, i = .xcoll f d a n t op code ∧ code.toNat < 5 ∧
      kind = [CollKind.barrier, .bcast, .rscat, .agath, .allred].getD code.toNat .barrier) ∨
      (i = .xcav f d a n t op ∧ kind = .cavity) →
    let w := (xRegRule s.me n).toNat
    let comm : BitVec 8 := BitVec.ofNat 8 w
    let root := w / 2 ^ 8 % 2 ^ 8
    let len := w / 2 ^ 16 % 2 ^ 32
    let k := Assoc.get 0 s.me.issued comm.toNat
    let size := match s.collOf s.cur comm k with
      | some x => x.members.length
      | none => (s.group s.me.part e.group).members.length + (s.farMembers s.me.part e.group).length
    let elem := collElem kind op f
    i.wf = true → IssuingX i s → StampFits (stampRule s.me t) → s.commEntry s.me comm = some e →
    s.me.thread ∈ (s.group s.me.part e.group).members → w < 2 ^ 48 → (kind ≠ .bcast → root = 0) →
    (kind = .bcast → root < size) → 1 ≤ size →
    (e.alg = 2 → kind = .rscat ∨ kind = .allred → (s.part s.me.part).features.getLsbD 6 = true) →
    (match kind with
     | .barrier => len = 0
     | .bcast => len ≠ 0
     | .rscat => len % (size * elem) = 0
     | _ => len % elem = 0) →
    ∃ (u : State) (p : CollPart), exec i s = .next u ∧ u.mem = s.mem ∧ u.me.registers = s.me.registers ∧
      Assoc.get 0 u.me.issued comm.toNat = k + 1 ∧
      Assoc.get [] u.myCore.comms comm.toNat = Assoc.get [] s.myCore.comms comm.toNat ++ [p] ∧
      (p.ctx, p.comm, p.kind, p.op, p.fmt, p.len, p.root, p.k) = (s.cur.ctx, comm, kind, op, f, len, root, k) ∧
      p.src = xRegRule s.me a ∧ p.dst = xRegRule s.me d ∧ p.stamp = stampFields (stampRule s.me t) ∧
      p.steps = none ∧ p.started = false ∧ p.delivered = 0 ∧ p.status = 0

/-- XTRIG, XCAN and XQFENCE (R267, R269, R270, R294, R295): a descriptor that passes its checks arms its entry; a cancel frees an
entry of the context's own that has fired, with its commands gone from the lanes and its post never performed, leaves a free entry
alone, and names an armed one, whose end the firing of that cycle settles; the lane form leaves the context's own commands that are
queued, performed or about to write their stamp with that stamp alone to write, with status 0x08, and no command without one; a lane
fence stands last in every lane of its mask. -/
def Sys2Proof.Claims.TriggersCancelsAndLaneFences : Prop :=
  (∀ (n : BitVec 6) (a : BitVec 4) (s : State),
    let trig : Trigger := { st := .armed, cancel := false, id := s.myCore.nextId, ctx := s.cur.ctx, w0 := xRegRule s.me a, w1 := xRegRule s.me (a + 1),
                            w2 := xRegRule s.me (a + 2), w3 := xRegRule s.me (a + 3) }
    IssuingX (.xtrig n a) s → (∀ c ∈ trigChecks s s.cur n trig, c.1 = false) →
    exec (.xtrig n a) s = .next ((s.updMyCore (fun k =>
        { k with nextId := k.nextId + 1, triggers := Assoc.put k.triggers n.toNat trig })).updMe
      (fun c => c.slotDone 7))) ∧
  (∀ (n : BitVec 6) (s : State), IssuingX (.xcan n) s →
    (Assoc.find s.myCore.triggers n.toNat = none → exec (.xcan n) s = .next (s.updMe (fun c => c.slotDone 7))) ∧
    (∀ trig : Trigger, Assoc.find s.myCore.triggers n.toNat = some trig → trig.ctx = s.cur.ctx →
      (trig.st = .armed → exec (.xcan n) s = .next ((s.updMyCore (fun k =>
        { k with triggers := Assoc.put k.triggers n.toNat { trig with cancel := true } })).updMe (fun c => c.slotDone 7))) ∧
      (trig.st ≠ .armed → ∃ u : State, exec (.xcan n) s = .next u ∧ Assoc.find u.myCore.triggers n.toNat = none ∧
        (∀ m : Nat, m ≠ n.toNat → Assoc.find u.myCore.triggers m = Assoc.find s.myCore.triggers m) ∧
        (∀ l : BitVec 3, u.myCore.lane l = (s.myCore.lane l).filter (fun e => match e with
          | .cmd c => c.trig != some n
          | .fence _ _ => true)) ∧
        u.me.posts = s.me.posts.filter (fun p => p.trig != some n) ∧ u.myCore.flags = s.myCore.flags ∧ u.mem = s.mem))) ∧
  (∀ (lane : BitVec 3) (s : State), IssuingX (.xcanLane lane) s →
    ∃ u : State, exec (.xcanLane lane) s = .next u ∧ u.mem = s.mem ∧ u.me = s.me.slotDone 7 ∧ u.myCore.flags = s.myCore.flags ∧
      (∀ l : BitVec 3, l ≠ lane → u.myCore.lane l = s.myCore.lane l) ∧
      (∀ (id : Nat) (x : BitVec 2), LaneEntry.fence id x ∈ u.myCore.lane lane ↔ LaneEntry.fence id x ∈ s.myCore.lane lane) ∧
      (∀ c : Command, LaneEntry.cmd c ∈ u.myCore.lane lane → c.ctx = s.cur.ctx → c.st ≠ .queued ∧ c.st ≠ .performing) ∧
      (∀ c : Command, LaneEntry.cmd c ∈ s.myCore.lane lane → c.ctx = s.cur.ctx →
        c.st = .queued ∨ c.st = .performing ∨ (∃ code info, c.st = .stamping code info) →
        c.stamp.isSome = true → LaneEntry.cmd { c with st := .stamping 0x08 0 } ∈ u.myCore.lane lane) ∧
      (∀ c : Command, LaneEntry.cmd c ∈ s.myCore.lane lane → c.ctx ≠ s.cur.ctx → LaneEntry.cmd c ∈ u.myCore.lane lane)) ∧
  (∀ (a : BitVec 4) (s : State), IssuingX (.xqfence a) s → 1 ≤ (xRegRule s.me a).toNat → (xRegRule s.me a).toNat < 2 ^ 8 →
    ∃ u : State, exec (.xqfence a) s = .next u ∧ u.mem = s.mem ∧ u.me = s.me.slotDone 7 ∧
      u.myCore.nextId = s.myCore.nextId + 1 ∧
      ∀ l : BitVec 3, u.myCore.lane l =
        if (xRegRule s.me a).getLsbD l.toNat then s.myCore.lane l ++ [.fence s.myCore.nextId s.cur.ctx] else s.myCore.lane l)

end
-- Events of contexts ------------------------------------------------------------------------------------------------

section
open Sys2Proof Sys2Proof.Machine

/-- Release, landing, the end of a YIELD, stop, resume and save (R136, R145, R277 to R279): what each does to its context. The first,
the third, the fourth and the fifth change nothing else; landing changes no other context and no memory; saving takes the image, and
changes no other context, no other image, and of no core the lanes, queues, flags, accumulators, trigger table and communicators. That
a context which a nested fault stopped issues its strap again whole is the model's choice (log entry 90). -/
def Sys2Proof.Claims.ContextStateEvents : Prop :=
  (∀ (c : CtxId) (s : State), (s.ctx c).st = .blocked → s.canIssue c = true →
    exec (.waitingStrapRelease c) s = .next (s.updCtx c (fun x => { x with st := .ready }))) ∧
  (∀ (c : CtxId) (s : State), (s.ctx c).st ≠ .stopped → (s.ctx c).st ≠ .saved →
    ∃ t : State, exec (.resultLanding c) s = .next t ∧ t.core c.core = (s.core c.core).land c.ctx ∧ t.mem = s.mem ∧
      (t.ctx c).flow.flight = (s.ctx c).flow.flight.filter (fun r => decide ((s.ctx c).flow.tick < r.due)) ∧
      ∀ d : CtxId, d ≠ c → t.ctx d = s.ctx d) ∧
  (∀ (c : CtxId) (s : State), (s.ctx c).st = .away → (s.ctx c).wake ≤ (s.core c.core).cycle →
    exec (.yieldExpiry c) s = .next (s.updCtx c (fun x => { x with st := .ready }))) ∧
  (∀ (c : CtxId) (s : State),
    (s.ctx c).st = .ready ∨ (s.ctx c).st = .blocked ∨ (s.ctx c).st = .away ∨ (s.ctx c).st = .trapped →
    exec (.stopRequest c) s = .next (s.updCtx c (fun x => { x with before := x.st, st := .stopped, stopWhy := .debug }))) ∧
  (∀ (c : CtxId) (s : State), (s.ctx c).st = .stopped →
    exec (.contextResume c) s = .next (s.updCtx c (fun x => { x with st := x.before }))) ∧
  (∀ (c : CtxId) (s : State), (s.ctx c).st = .stopped →
    ∃ t : State, exec (.contextSave c) s = .next t ∧ t.ctx c = { s.ctx c with st := .saved } ∧ t.mem = s.mem ∧
      (∀ d : CtxId, d ≠ c → t.ctx d = s.ctx d) ∧
      (∀ k : CoreId, (t.core k).lanes = (s.core k).lanes ∧ (t.core k).rq = (s.core k).rq ∧ (t.core k).flags = (s.core k).flags ∧
        (t.core k).acc = (s.core k).acc ∧ (t.core k).triggers = (s.core k).triggers ∧ (t.core k).comms = (s.core k).comms) ∧
      (∀ n : Nat, n ≠ c.core.toNat * 4 + c.ctx.toNat → Assoc.find t.images n = Assoc.find s.images n) ∧
      ∃ i : Image, Assoc.find t.images (c.core.toNat * 4 + c.ctx.toNat) = some i ∧
        (i.acc, i.mstate, i.ways, i.drainUntil) =
          ((s.core c.core).acc, (s.core c.core).mstate, (s.core c.core).ways, (s.core c.core).drainUntil))

/-- Restoring a saved context (R277, R278): it stands, as if it had stayed STOPPED, in its own place, in another free context of its
core, or in a free context of another core of its partition in the COMPUTE role that no other launch holds. What its copy unit does for
it is its own there, under the new number; on another core the numbers of its operations move up to be new, its lane entries and the
results that result queues owe it go with it, the core is bound and owns its kernel's flags, and the matrix owner brings its
accumulators, configuration, ways and drain. That the thread number stays, what a new core's flags hold, and that a context whose copy unit has no place there
stays on its core are the model's choices (log entry 16). -/
def Sys2Proof.Claims.ContextRestore : Prop :=
  (∀ (a : CtxId) (s : State), (s.ctx a).st = .saved →
    ∃ t : State, exec (.contextRestore a a) s = .next t ∧ t.ctx a = { s.ctx a with st := .stopped } ∧ t.mem = s.mem ∧
      ∀ c : CtxId, c ≠ a → t.ctx c = s.ctx c) ∧
  (∀ (a b : CtxId) (s : State), (s.ctx a).st = .saved → b.core ∈ (s.part (s.ctx a).part).harness →
    s.coreComputes b.core = true → (s.ctx b).st = .free ∨ (s.ctx b).st = .helper → a.core = b.core →
    ∃ t : State, exec (.contextRestore a b) s = .next t ∧ t.ctx b = { s.ctx a with st := .stopped } ∧ t.mem = s.mem ∧
      t.ctx a = Context.reset ∧ (t.core b.core).rq = (s.core b.core).rq ∧
      (∀ (l : BitVec 3) (q : Command), LaneEntry.cmd q ∈ (s.core b.core).lane l → q.ctx = a.ctx →
        LaneEntry.cmd { q with ctx := b.ctx } ∈ (t.core b.core).lane l) ∧
      ∀ (n : Nat) (e : Trigger), Assoc.find (s.core b.core).triggers n = some e → e.ctx = a.ctx →
        Assoc.find (t.core b.core).triggers n = some { e with ctx := b.ctx }) ∧
  (∀ (a b : CtxId) (s : State), (s.ctx a).st = .saved → b.core ∈ (s.part (s.ctx a).part).harness →
    s.coreComputes b.core = true → (s.ctx b).st = .free ∨ (s.ctx b).st = .helper → a.core ≠ b.core →
    (s.core b.core).bound = none ∨ (s.core b.core).bound = (s.ctx a).launch →
    ((s.ctx a).mat = true → matOwner (s.core b.core) = none) →
    (s.core a.core).unitMoves (s.core b.core) a.ctx (s.ctx a).mat ((s.core a.core).image (s.ctx a)).owed = true →
    (s.core b.core).owedFits (((s.core a.core).image (s.ctx a)).owed ++ (s.core a.core).claimedOf a.ctx) = true →
    ∃ t : State, exec (.contextRestore a b) s = .next t ∧ t.mem = s.mem ∧
      t.ctx b = { ((s.ctx a).arriveFrom (s.core a.core) ((s.relayPend.filter (fun u => u.src == a)).map (·.store)).dedup).shift
        (s.core b.core).nextId with st := .stopped } ∧
      ((s.core b.core).bound = none →
        ((t.core b.core).flagsOwned, (t.core b.core).flags) = ((s.core a.core).flagsOwned, (s.core a.core).flags)) ∧
      (∀ l : BitVec 3, (t.core b.core).lane l = (s.core b.core).lane l ++
        ((s.core a.core).laneOfCtx a.ctx l).map (LaneEntry.move (s.core b.core).nextId b.ctx)) ∧
      t.ctx a = Context.reset ∧ (t.core b.core).bound = (s.ctx a).launch ∧
      (∀ i : Image, (s.ctx a).mat = true → Assoc.find s.images (a.core.toNat * 4 + a.ctx.toNat) = some i →
        ((t.core b.core).acc, (t.core b.core).mstate, (t.core b.core).ways, (t.core b.core).drainUntil) =
          (i.acc, i.mstate, i.ways, i.drainUntil)) ∧
      ∀ (q : BitVec 3) (e : RqEntry), (q, e) ∈ ((s.core a.core).image (s.ctx a)).owed →
        { e with id := e.id + (s.core b.core).nextId } ∈ ((t.core b.core).rq[q.toNat]'q.isLt).owed)

/-- The end of retirement, and the helper's start (R15, R102, R144, R277, R283, R310, R323): a RETIRING context with every access
performed is FREE, in no group and of no launch, and its registers stay as they are until the next scrub; a helper starts in the
lowest FREE context, under that context's thread number, with the landed registers of the blocked context but v, w and k, which
read zero, at offset 0 of the slice that covers the blocked strap. -/
def Sys2Proof.Claims.RetirementAndHelperStart : Prop :=
  (∀ (c : CtxId) (s : State), (s.ctx c).st = .retiring → s.drained c = true →
    ∃ t : State, exec (.retireComplete c) s = .next t ∧ (t.ctx c).st = .free ∧ (t.ctx c).launch = none ∧
      (t.ctx c).registers = (s.ctx c).registers ∧
      ∀ g : BitVec 6, (s.ctx c).thread ∉ (t.group (s.ctx c).part g).members) ∧
  (∀ (core : CoreId) (n f : BitVec 2) (code : Code) (sl : Nat) (s : State),
    let x := s.ctx { core := core, ctx := n }
    let blocked (m : BitVec 2) : Bool := s.blockedOnLq { core := core, ctx := m }
    blocked n = true → (∀ m : BitVec 2, m.toNat < n.toNat → blocked m = false) →
    s.codeOf x = some code → code.sliceAt x.user.pc = some sl →
    (s.ctx { core := core, ctx := f }).st = .free →
    (∀ m : BitVec 2, m.toNat < f.toNat → (s.ctx { core := core, ctx := m }).st ≠ .free) →
    (∀ m : BitVec 2, (s.ctx { core := core, ctx := m }).st ≠ .helper ∧
      ((s.ctx { core := core, ctx := m }).launch.isSome = true → s.canIssue { core := core, ctx := m } = false)) →
    ∃ t : State, exec (.helperStart core) s = .next t ∧
      (∀ m : BitVec 2, m ≠ f → t.ctx { core := core, ctx := m } = s.ctx { core := core, ctx := m }) ∧
      let h := t.ctx { core := core, ctx := f }
      h.st = .helper ∧ h.thread.toNat = x.thread.toNat / 4 * 4 + f.toNat ∧ h.user = { Flow.reset with sect := .slice sl } ∧ h.part = x.part ∧ h.code = x.code ∧
      (h.s, h.a, h.l, h.x, h.y, h.p, h.d) = (x.s, x.a, x.l, x.x, x.y, x.p, x.d) ∧
      (h.bs, h.ba, h.bv, h.bw, h.ringLen, h.ringOff) = (x.bs, x.ba, x.bv, x.bw, x.ringLen, x.ringOff) ∧
      (∀ r, h.v.get r = 0 ∧ h.w.get r = 0) ∧ ∀ r, h.k.get r = 0)

/-- The group barrier and the matrix ways (R236, R322, R324, R325): a member whose strap waits on its GBAR alone arrives, and its
arrival counts once its earlier accesses are performed as for a post of the scope; an instance at which every member has arrived
lets every one of them pass; a way is free 64 ticks after it was taken. -/
def Sys2Proof.Claims.GroupBarrierAndMatrixWays : Prop :=
  (∀ (c : CtxId) (g : BitVec 6) (sc : Scope) (ops : List Instr) (s : State),
    let x := s.ctx c
    let q := s.group x.part g
    s.waitingGbar c = some (g, sc, ops) → x.launch.isSome = true → x.st = .ready ∨ x.st = .blocked ∨ x.st = .trapped →
    x.thread ∈ q.members → x.thread ∉ q.coming → x.thread ∉ q.arrived → x.thread ∉ q.passed →
    ({ s with cur := c } : State).mustWait (ops.filter (fun i => match i with | .gbar _ _ => false | _ => true)) = false →
    ∃ t : State, exec (.gbarArrival c) s = .next t ∧ t.mem = s.mem ∧ t.cores = s.cores ∧
      (s.arrivalReady c sc = true → t.group x.part g = { q with arrived := q.arrived ++ [x.thread] }) ∧
      (x.priv = false → s.arrivalReady c sc = false → t.group x.part g = { q with coming := q.coming ++ [x.thread] })) ∧
  (∀ (part g : BitVec 6) (s : State), (s.group part g).arrived ≠ [] →
    (∀ m ∈ (s.group part g).members, m ∈ (s.group part g).arrived) →
    ∃ t : State, exec (.groupBarrierComplete part g) s = .next t ∧
      (t.group part g).members = (s.group part g).members ∧ (t.group part g).arrived = [] ∧
      (t.group part g).passed = (s.group part g).passed ++ (s.group part g).arrived ∧ t.mem = s.mem ∧ t.cores = s.cores) ∧
  (∀ (core : CoreId) (o : Context) (s : State), matOwner (s.core core) = some o →
    ∃ t : State, exec (.matrixWayRelease core) s = .next t ∧
      (t.core core).ways = (s.core core).ways.filter (fun u => decide (o.user.tick < u + 64)) ∧
      (t.core core).acc = (s.core core).acc ∧ (∀ c : CtxId, t.ctx c = s.ctx c) ∧ t.mem = s.mem)

end
-- The memory path ---------------------------------------------------------------------------------------------------

namespace Sys2Proof.Machine

/-- A vector word that holds some bytes in memory order, with zero above them (R3, R170). -/
def holdsList (v : VWord) (bs : List Byte) : Prop := ∀ k < 128, byteRule v k = (bs.getD k 0).toNat

/-- The addresses of an LDA or an LDS in the order of their bytes (R176). -/
def loadRule (o : LoadOp) : Option (List Nat) :=
  match o.kind with
  | .lda w _ _ => some (bytesAt o.ea (2 ^ w.toNat))
  | .lds st w => some ((strideRule o.ea st (2 ^ w.toNat)).flatMap (fun a => bytesAt a (2 ^ w.toNat)))
  | _ => none

/-- How a load reads one byte: ordinary, or strong at its scope, from the homes where it is sequentially consistent, where the
partition is in fence-strengthening mode, or where one of its bytes has to come from there (R341, R342, R345, R352). `b` is the state in
which the load begins. -/
def loadReader (b : State) (c : CtxId) (o : LoadOp) (s : State) (k : Nat) : Except (BitVec 8) Byte × State :=
  match o.kind with
  | .lda _ sc ord =>
    if ord = .ordinary then s.ordLoad c k
    else s.strongLoad c sc (ord == .seqCst || ((b.ctx c).mmr1 && decide (3 ≤ sc.rank)) ||
      (b.keysFor c o.vas).any (b.readsHome c sc false)) k
  | _ => s.ordLoad c k

/-- The queue of lq with one reserved entry of a load filled (R290). -/
def filledRule (q : List LqEntry) (id part : Nat) (st : EntryState) : List LqEntry :=
  modFirst q (fun e => e.id == id && e.part == part && e.st == .reserved) (fun e => { e with st := st })

/-- Byte k of the access of an STA under its frames, as a key. -/
def storeKey (o : StoreOp) (b : Nat) : Option Nat := frameKey o.frames (o.ea.toNat + b)

/-- The tile cache of a core has room for one more line, so that none leaves it (R337, R361). -/
def LineRoom (s : State) (c : CtxId) : Prop := (s.core c.core).lines.length < 768

/-- A load as it begins to be performed: a strong one is noted where it passes older ones (R351), and the tile cache takes the lines
of an ordinary one (R361). -/
def loadBegun (s : State) (c : CtxId) (o : LoadOp) : State :=
  if o.kind.isStrong then s.noteAhead c o.id false (s.keysFor c o.vas) none else s.takeLines c o.lines

/-- The one data entry of an STA: taken already, or at the head of sq (R171). -/
def TakesData (q : Queues) (o : StoreOp) (d : SqEntry) : Prop := o.data = [d] ∨ (o.data = [] ∧ q.sq.head? = some d)

/-- An STA of width 2^w is performed (R171, R179, R337, R340 to R342): its unmasked bytes are what the thread reads there, in
memory at once where the store is strong or the storage direct, and what a strong load of its terrace then reads; every other byte
of memory is as it was, and so are the registers, where no line has to leave the tile cache; its two entries have left their
queues. -/
structure StorePerformed (c : CtxId) (o : StoreOp) (d : SqEntry) (w : BitVec 3) (strong : Bool) (s t : State) : Prop where
  ordinary : strong = false → ∀ b k : Nat, b < 2 ^ w.toNat → d.mask.getLsbD b = true → storeKey o b = some k →
    t.ordByte c k = BitVec.ofNat 8 (byteRule d.data b)
  atHome : ∀ b k : Nat, b < 2 ^ w.toNat → d.mask.getLsbD b = true → storeKey o b = some k → strong = true ∨ isDirect k = true →
    memRead t.mem k = BitVec.ofNat 8 (byteRule d.data b)
  terrace : bmSorted (s.terrace (terraceOf c.core)).relay = true → strong = true → ∀ (e : CtxId) (b k : Nat), b < 2 ^ w.toNat →
    d.mask.getLsbD b = true → storeKey o b = some k → terraceOf e.core = terraceOf c.core →
    t.strongByte e .ter false k = BitVec.ofNat 8 (byteRule d.data b)
  frame : LineRoom s c → ∀ a : Nat, (∀ b : Nat, b < 2 ^ w.toNat → d.mask.getLsbD b = true → storeKey o b ≠ some a) →
    memRead t.mem a = memRead s.mem a
  registers : LineRoom s c → (t.ctx c).registers = (s.ctx c).registers
  data : (t.ctx c).user.q.sq = (s.ctx c).user.q.sq.drop (1 - o.data.length)
  address : (t.ctx c).user.q.sa = (s.ctx c).user.q.sa.filter (fun x => x.id != o.id)

/-- One granule of a record operation is written as one access (R121, R129, R186): what the thread then reads there, and every
byte of memory outside it, and every register, as it was, where no line has to leave the tile cache. -/
structure GranuleDone (c : CtxId) (k : Nat) (g : GranuleWrite) (s t : State) : Prop where
  bytes : ∀ (b : List Byte) (n : Nat), g.bytes = some b → n < 64 → t.ordByte c (k + n) = b.getD n 0
  kept : g.bytes = none → ∀ n : Nat, n < 64 → isDirect k = true → memRead t.mem (k + n) = memRead s.mem (k + n)
  tag : t.ordByte c (tagKey k) = (if g.tag then 1 else 0)
  frame : LineRoom s c → ∀ a : Nat, a < k ∨ k + 64 ≤ a → a ≠ tagKey k → memRead t.mem a = memRead s.mem a
  registers : LineRoom s c → (t.ctx c).registers = (s.ctx c).registers

/-- The atomic operations on a word of n bits (R182): the new word from the old one and the operand. -/
def atomRule (op : AtomOp) (n old v : Nat) : Nat :=
  match op with
  | .swap => v
  | .add => (old + v) % 2 ^ n
  | .and => old &&& v
  | .or => old ||| v
  | .xor => old ^^^ v
  | .max => if signedRule n old < signedRule n v then v else old
  | .min => if signedRule n v < signedRule n old then v else old
  | .fadd => (faddPat .f32 old v).1

end Sys2Proof.Machine

section
open Sys2Proof Sys2Proof.Machine

/-- LOAD_PERFORM of an LDA or LDS, LOAD_PERFORM of an LDK, the tile cache taking a line, and LDK_ENTRY_PUSH (R123, R124, R170, R173,
R174, R176, R289, R291): the reserved lq entry receives the bytes read, or the mark of the fault at the lowest address, which of several
there the model takes by the lowest code (log entry 39); an LDK reads its record granule by granule; a kq entry is pushed, before those of
later LDKs, where its data is read, every earlier LDK has pushed its own or been marked, and kq has room; and where no
line has to leave the tile cache, no register and no byte of memory changes but the bits that walks set. -/
def Sys2Proof.Claims.LoadPerformEvents : Prop :=
  (∀ (c : CtxId) (n : Nat) (o : LoadOp) (vas : List Nat) (bs : List Byte) (es : List (Nat × BitVec 8)) (s u : State),
    (s.ctx c).user.q.la[n]? = some o → loadRule o = some vas → s.canPerform c o = true →
    awaits (s.ctx c).user.q o.id 0 = true →
    (loadBegun s c o).loadBytes c (loadReader (loadBegun s c o) c o) (vas.map some) = ((bs, es), u) →
    ∃ t : State, exec (.loadPerform c (.entry n)) s = .next t ∧ t.mem = u.mem ∧
      ((s.core c.core).lines.length + o.lines.length ≤ 768 → (t.ctx c).registers = (s.ctx c).registers ∧
        (loadBegun s c o).mem = s.mem) ∧
      (es = [] → ∃ v : VWord, holdsList v bs ∧
        (t.ctx c).user.q.lq = filledRule (s.ctx c).user.q.lq o.id 0 (.present v)) ∧
      (es ≠ [] → (∀ st w, o.kind ≠ .lds st w) → ∃ f : FaultInfo,
        (t.ctx c).user.q.lq = filledRule (s.ctx c).user.q.lq o.id 0 (.marked f) ∧
        ∃ e ∈ es, e.2 = f.code ∧ (f.code ≠ 0x09 → f.addr.toNat = e.1 % 2 ^ 64) ∧
          ∀ d ∈ es, e.1 ≤ d.1 ∧ (d.1 = e.1 → f.code.toNat ≤ d.2.toNat))) ∧
  (∀ (c : CtxId) (n : Nat) (o : LoadOp) (cls : RClass) (b : List Byte) (kept : Bool) (s u : State),
    (s.ctx c).user.q.la[n]? = some o → o.kind = .ldk cls → s.canPerform c o = true →
    s.recordGranule c (o.ea.toNat + 64 * (o.got.length / 64)) = (.ok (b, kept), u) →
    (if o.got.length / 64 = 0 then headerReason kept (headerOf b) (some cls.code.toNat) = none else kept = true) →
    ∃ t : State, exec (.loadPerform c (.entry n)) s = .next t ∧ t.mem = u.mem ∧
      (LineRoom s c → (t.ctx c).registers = (s.ctx c).registers) ∧ (t.ctx c).user.q.kq = (s.ctx c).user.q.kq ∧
      (t.ctx c).user.q.la = (s.ctx c).user.q.la.map (fun p => if p.id = o.id then { p with got := p.got ++ b } else p)) ∧
  (∀ (c : CtxId) (va : Nat) (s : State), s.pfBlocked c [va] = false →
    ∃ t : State, exec (.loadPerform c (.fetch va)) s = .next t ∧ (t.ctx c).user.q = (s.ctx c).user.q ∧
      (LineRoom s c → t.mem = s.mem ∧ (t.ctx c).registers = (s.ctx c).registers)) ∧
  (∀ (c : CtxId) (n : Nat) (o : LoadOp) (cls : RClass) (s : State), (s.ctx c).user.q.la[n]? = some o → o.kind = .ldk cls →
    64 ≤ o.got.length → (headerOf o.got).topGranule o.pushed < o.got.length / 64 → (s.ctx c).user.q.kq.length < 32 →
    o.stuck = false → (∀ p ∈ (s.ctx c).user.q.la, p.id < o.id → p.stuck = true ∨ ∀ r, p.kind ≠ .ldk r) →
    ∃ t : State, exec (.ldkEntryPush c n) s = .next t ∧ t.mem = s.mem ∧ (t.ctx c).registers = (s.ctx c).registers ∧
      (t.ctx c).user.q.kq = (s.ctx c).user.q.kq.filter (fun e => decide (e.id ≤ o.id)) ++
        { id := o.id, data := (headerOf o.got).entryData ((o.got.drop 16).take (headerOf o.got).payload) o.pushed,
          cls := BitVec.ofNat 8 (headerOf o.got).cls, base := o.ea, mark := none } ::
        (s.ctx c).user.q.kq.filter (fun e => decide (o.id < e.id)))

/-- What a byte reads as (R122, R337, R338, R340 to R342): direct storage reads as memory holds it, for ordinary and strong
accesses alike; a thread's ordinary read of device memory gives its own latest write, else its snapshot; a strong read
below scope .ter gives the home; a kept granule is a fault for all of them, by its tag as the access reads it. -/
def Sys2Proof.Claims.OrdinaryAndStrongReads : Prop :=
  ∀ (c : CtxId) (k : Nat) (s : State), k < 2 ^ 60 →
    (isDirect k = true → s.kept k = false → s.poisoned k = false → s.ordLoad c k = (.ok (memRead s.mem k), s)) ∧
    (isDirect k = true → s.kept k = true → s.ordLoad c k = (.error 0x09, s)) ∧
    (∀ b x, isDirect k = false → bmGet (s.ctx c).own k = some b → bmGet (s.ctx c).own (tagKey k) = some x → x = 0 →
      ∃ t : State, s.ordLoad c k = (.ok b, t) ∧ t.mem = s.mem) ∧
    (∀ b, isDirect k = false → bmGet (s.ctx c).own k = none → bmGet (s.ctx c).snap k = some b →
      bmGet (s.ctx c).own (tagKey k) = some 0 → ∃ t : State, s.ordLoad c k = (.ok b, t) ∧ t.mem = s.mem) ∧
    (∀ x, isDirect k = false → bmGet (s.ctx c).own (tagKey k) = some x → x ≠ 0 →
      ∃ t : State, s.ordLoad c k = (.error 0x09, t) ∧ t.mem = s.mem) ∧
    (∀ x, isDirect k = false → bmGet (s.ctx c).own (tagKey k) = none → bmGet (s.ctx c).snap (tagKey k) = some x → x ≠ 0 →
      s.ordLoad c k = (.error 0x09, s)) ∧
    (∀ sc home, s.kept k = false → s.poisoned k = false → sc.rank < 3 ∨ home = true ∨ isDirect k = true →
      ∃ t : State, s.strongLoad c sc home k = (.ok (memRead s.mem k), t) ∧ t.mem = s.mem) ∧
    (∀ sc home, s.kept k = true → s.strongLoad c sc home k = (.error 0x09, s))

/-- ATOMIC_PERFORM (R182 to R184, R330, R353): an atomic is one indivisible access at the word's home; the old word, zero-extended,
comes to the reserved lq entry; the word is replaced as the operation says, or left where a CAS does not find what it expects; every
other byte of memory is as the checks left it, where no line has to leave the tile cache. Stores that are performed in one cycle go in
ascending thread number, and before a stamp. -/
def Sys2Proof.Claims.AtomicPerformEvent : Prop :=
  (∀ (c : CtxId) (n : Nat) (o : LoadOp) (k : Nat) (s u : State), Memory.wf s.mem = true →
    (s.ctx c).user.q.la[n]? = some o → (s.ctx c).loads.find? (fun p => p.id == o.id) = some o → s.mayLoad c o = true → awaits (s.ctx c).user.q o.id 0 = true →
    s.atomFault c o = (none, u) → (u.keysFor c [o.ea.toNat]).head? = some k →
    let old (w : BitVec 3) : Nat := bytesNat (memReadAll u.mem k (2 ^ w.toNat))
    let new : Option (BitVec 3 × Option Nat) := match o.kind with
      | .atom w _ _ op v => some (w, some (atomRule op (8 * 2 ^ w.toNat) (old w) (v.toNat % 2 ^ (8 * 2 ^ w.toNat))))
      | .cas w _ _ e v => some (w, if old w = e.toNat % 2 ^ (8 * 2 ^ w.toNat) then some (v.toNat % 2 ^ (8 * 2 ^ w.toNat)) else none)
      | _ => none
    ∀ (w : BitVec 3) (x : Option Nat), new = some (w, x) →
      ∃ t : State, exec (.atomicPerform [.load c n]) s = .next t ∧
        (t.ctx c).user.q.lq = filledRule (s.ctx c).user.q.lq o.id 0 (.present (BitVec.ofNat 1024 (old w))) ∧
        (∀ y, x = some y → bytesNat (memReadAll t.mem k (2 ^ w.toNat)) = y % 2 ^ (8 * 2 ^ w.toNat)) ∧
        (x = none → t.mem = u.mem) ∧
        (2 ≤ o.kind.scope.rank ∨ isDirect k = true ∨ LineRoom s c →
          ∀ a : Nat, a < k ∨ k + 2 ^ w.toNat ≤ a → memRead t.mem a = memRead u.mem a)) ∧
  (∀ (c d : CtxId) (s t u : State), (s.ctx c).thread.toNat < (s.ctx d).thread.toNat →
    exec (.atomicPerform [.store c]) s = .next t → exec (.atomicPerform [.store d]) t = .next u →
    exec (.atomicPerform [.store c, .store d]) s = .next u ∧ exec (.atomicPerform [.store d, .store c]) s = .next u) ∧
  (∀ (c : CtxId) (core : CoreId) (lane : BitVec 3) (s t u : State),
    exec (.atomicPerform [.store c]) s = .next t → exec (.atomicPerform [.stamp core lane]) t = .next u →
    exec (.atomicPerform [.stamp core lane, .store c]) s = .next u)

/-- STORE_PERFORM and RELEASE_WEIR_PASS (R171, R175, R179, R337, R340, R341, R343, R346): the store at the head of its queue, with its
data there and its orders met, writes its unmasked bytes and nothing else; a release that must wait at scope .quad or
wider is handed to its weir, and is performed once its thread's earlier accesses are, at .pod and .sys its writes to other modules too. -/
def Sys2Proof.Claims.StorePerformEvents : Prop :=
  (∀ (c : CtxId) (o : StoreOp) (r : List StoreOp) (d : SqEntry) (w : BitVec 3) (sc : Scope) (ord : Order) (s : State),
    Memory.wf s.mem = true → (s.ctx c).user.q.sa = o :: r → TakesData (s.ctx c).user.q o d → o.kind = .sta w sc ord →
    o.ea.toNat % 2 ^ w.toNat = 0 → (∀ b, b < 2 ^ w.toNat → storeKey o b ≠ none) →
    (∀ b k, storeKey o b = some k → s.poisoned k = false) → s.mayStore c o = true →
    (storeReleases (s.ctx c) o.kind = false ∨ s.released c o.id sc = true) →
    (o.held = false → ∃ t : State, exec (.storePerform c) s = .next t ∧ StorePerformed c o d w (ord != .ordinary) s t) ∧
    (o.held = true → o.data = [d] → s.released c o.id sc = true →
      ∃ t : State, exec (.releaseWeirPass c) s = .next t ∧ StorePerformed c o d w (ord != .ordinary) s t)) ∧
  (∀ (c : CtxId) (o : StoreOp) (r : List StoreOp) (d : SqEntry) (w : BitVec 3) (sc : Scope) (ord : Order) (s : State),
    (s.ctx c).user.q.sa = o :: r → TakesData (s.ctx c).user.q o d → o.kind = .sta w sc ord → o.held = false →
    s.mayStore c o = true → storeReleases (s.ctx c) o.kind = true → s.storeReleased c o = false → 2 ≤ sc.rank →
    ∃ t : State, exec (.storePerform c) s = .next t ∧ t.mem = s.mem ∧
      (t.ctx c).user.q.sa = { o with data := [d], held := true } :: r ∧
      (t.ctx c).user.q.sq = (s.ctx c).user.q.sq.drop (1 - o.data.length))

/-- SKST_RECORD_WRITE, SKRTG_REWRITE and SKDROP_CLEAR (R121, R128, R129, R186, R188, R189): the next granule of the operation is written
with its tag as one access, and the granules that are left follow; a tag that the thread's own operations have set is no change by another
thread (R420). -/
def Sys2Proof.Claims.RecordGranuleEvents : Prop :=
  (∀ (c : CtxId) (o : StoreOp) (r : List StoreOp) (cls : RClass) (w : Word) (g : GranuleWrite) (p : List GranuleWrite) (k : Nat)
      (s : State),
    Memory.wf s.mem = true → (s.ctx c).user.q.sa = o :: r → o.kind = .skst cls w → o.kind.entries ≤ o.data.length →
    o.plan = some (g :: p) → p ≠ [] →
    acquirePending (s.ctx c) (fun _ => false) o.id = false → frameKey o.frames g.va = some k → k % 64 = 0 → k + 64 ≤ 2 ^ 60 →
    (∀ b, g.bytes = some b → b.length = 64) → (∀ n < 64, s.poisoned (k + n) = false) →
    ((s.fixSnap c (tagKey k)).ordKept c k = false ∨
      bmGet (s.ctx c).tagsSet (tagKey k) = some ((s.fixSnap c (tagKey k)).ordByte c (tagKey k))) →
    ∃ t : State, exec (.skstRecordWrite c) s = .next t ∧ GranuleDone c k g s t ∧
      (t.ctx c).user.q.sa = { o with plan := some p } :: r) ∧
  (∀ (c : CtxId) (drop : Bool) (o : TileOp) (r : List TileOp) (g : GranuleWrite) (p : List GranuleWrite) (k : Nat) (s : State),
    Memory.wf s.mem = true → (s.ctx c).tileOps = o :: r → o.drop = drop → o.plan = g :: p → p ≠ [] →
    acquirePending (s.ctx c) (fun _ => false) o.id = false → frameKey o.frames g.va = some k → k % 64 = 0 → k + 64 ≤ 2 ^ 60 →
    (∀ b, g.bytes = some b → b.length = 64) → (∀ n < 64, s.poisoned (k + n) = false) →
    (drop = false → (s.fixSnap c (tagKey k)).ordKept c k = true ∨
      bmGet (s.ctx c).tagsSet (tagKey k) = some ((s.fixSnap c (tagKey k)).ordByte c (tagKey k))) →
    ∃ t : State, exec (if drop then .skdropClear c else .skrtgRewrite c) s = .next t ∧ GranuleDone c k g s t ∧
      (t.ctx c).tileOps = { o with plan := p } :: r)

/-- POSTF_PERFORM and WAITW_PERIODIC_READ (R159, R329, R331, R422): a post that may be performed adds to its flag modulo 2^32, or
does nothing where another launch or none holds the core, or the flag is not declared; a watched word that holds lets its strap
go on, once the thread's earlier acquires are performed (R343). -/
def Sys2Proof.Claims.PostsAndWatchedWords : Prop :=
  (∀ (c : CtxId) (a b : List Post) (p : Post) (s : State), (s.ctx c).posts = a ++ p :: b →
    (∀ q ∈ a, s.mayPost c q = false) → s.mayPost c p = true →
    ∃ t : State, exec (.postfPerform c) s = .next t ∧ t.mem = s.mem ∧
      (t.ctx c).posts = (s.ctx c).posts.filter (fun q => q.id != p.id) ∧
      (∀ f, f ≠ p.flag → (t.core p.core).flag f = (s.core p.core).flag f) ∧
      ((t.core p.core).flag p.flag).toNat =
        (if (s.core p.core).bound = some p.uid ∧ (s.core p.core).flagsOwned.getLsbD p.flag.toNat = true then (((s.core p.core).flag p.flag).toNat + p.add.toNat) % 2 ^ 32
         else ((s.core p.core).flag p.flag).toNat)) ∧
  (∀ (c : CtxId) (w : Watch) (s : State), (s.ctx c).watch = some w → w.cond.holds (s.watchWord c w &&& w.mask) w.ref = true →
    acquireOpen (s.ctx c) = false → s.aheadHolds c false ((List.range 8).map (w.key + ·)) = false →
    exec (.waitwPeriodicRead c) s = .next (s.updCtx c (fun x => { x with waitOk := true })))

/-- The events of caches and relay copies (R175, R337, R339, R342, R356, R357, R360, R365): a probe's answer, a page's translation and
a shape record come into their caches, the translation into those of every core of the cascade that asks for the page; a PHASE makes
its thread's dirty bytes reach their point; an evicted line leaves no dirty byte of it behind, nor one that an STI ties to it; a tile
cache never holds more than its 768 lines; a relay copy takes an update. -/
def Sys2Proof.Claims.CacheAndRelayEvents : Prop :=
  (∀ (c : CtxId) (va : Nat) (s : State),
    va / 64 * 64 ∈ remoteGranules { s with cur := c } (s.nextVas c) →
    ∃ t : State, exec (.tagProbe c va) s = .next t ∧ va / 64 * 64 ∈ (t.ctx c).probes ∧ t.mem = s.mem ∧
      (t.ctx c).registers = (s.ctx c).registers) ∧
  (∀ (core : CoreId) (va drop : Nat) (e : TlbEntry) (s u : State), (s.core core).bound.isSome = true → va < tensorBase →
    va < windowBase ∨ windowEnd ≤ va → s.wantsPage core va = true →
    s.walkLeaf (s.core core).boundPart va false false = (.ok e, u) → s.physFault (e.pa + (va - e.va)) = false →
    ∃ t : State, exec (.translationWalk core va drop) s = .next t ∧ t.mem = u.mem ∧ e.covers va = true ∧
      ∀ d ∈ s.pageSharers core va, e ∈ (t.core d).tlb) ∧
  (∀ (core : CoreId) (n drop : Nat) (b : List Byte) (s u : State), (s.core core).bound.isSome = true →
    s.wantsRecord core n = true →
    (s.updCore core (fun k => { k with records := (k.records : List (Nat × List Byte)).eraseIdx drop })).takeRecord core
      (s.core core).boundPart n = (.bytes b, u) →
    exec (.shapeRecordFetch core n drop) s = .next u ∧ Assoc.find (u.core core).records n = some b) ∧
  (∀ (c : CtxId) (sc : Scope) (s : State), s.waitingPhase c = some sc →
    ∃ t : State, exec (.phaseWriteBack c) s = .next t ∧ (t.ctx c).dirty = [] ∧ (sc ≠ .core → (t.ctx c).pubDirty = []) ∧
      (sc = .core → t.mem = s.mem ∧ ∀ k b, ((s.ctx c).dirty.map (·.1)).Nodup → (k, b) ∈ (s.ctx c).dirty →
        bmGet (t.core c.core).pub k = some b) ∧
      (sc ≠ .core → ∀ k b, Memory.wf s.mem = true → ((s.ctx c).dirty.map (·.1)).Nodup → (k, b) ∈ (s.ctx c).dirty →
        memRead t.mem k = b)) ∧
  (∀ (core : CoreId) (line : Nat) (l : LineTag) (s : State), (s.core core).lines[line]? = some l →
    let keys := s.lineKeys core (s.core core).boundPart l
    let gone (n : BitVec 2) : List Nat :=
      tieClosure (s.ctx { core := core, ctx := n }).tied (s.ctx { core := core, ctx := n }).tied.length keys
    ∃ t : State, exec (.tileCacheEviction core line) s = .next t ∧ (t.core core).lines = (s.core core).lines.filter (· != l) ∧
      (∀ n : BitVec 2, (t.ctx { core := core, ctx := n }).dirty =
        (s.ctx { core := core, ctx := n }).dirty.filter (fun e => !(gone n).contains e.1)) ∧
      (∀ e ∈ (t.core core).pub, e.1 ∉ keys) ∧
      (∀ (n : BitVec 2) (k : Nat) (b : Byte), Memory.wf s.mem = true →
        (∀ m : BitVec 2, m ≠ n → (s.ctx { core := core, ctx := m }).dirty = [] ∧ (s.ctx { core := core, ctx := m }).pubDirty = []) →
        ((s.ctx { core := core, ctx := n }).dirty.map (·.1)).Nodup → (k, b) ∈ (s.ctx { core := core, ctx := n }).dirty →
        k ∈ gone n → memRead t.mem k = b)) ∧
  (∀ (c : CtxId) (l : LineTag) (s : State), (s.core c.core).lines.length ≤ 768 →
    ((s.takeLine c l).core c.core).lines.length ≤ 768) ∧
  (∀ (tr : BitVec 4) (n i : Nat) (u : RelayUpdate) (s : State), relayIndex s.relayPend tr n = some i →
    s.relayPend[i]? = some u → s.mayRelay i u = true →
    ∃ t : State, exec (.relayCopyUpdate tr n) s = .next t ∧ t.mem = s.mem ∧
      (∀ k b, bmSorted (s.terrace tr.toNat).relay = true → (u.bytes.map (·.1)).Nodup → (k, b) ∈ u.bytes →
        bmGet (t.terrace tr.toNat).relay k =
          (if (s.relayPend.drop (i + 1)).any (fun v => v.terrace == tr && (bmGet v.bytes k).isSome) then some b else none)))

end
-- The copy unit and the collective sequencer ------------------------------------------------------------------------

namespace Sys2Proof.Machine

/-- A command whose work is over (R58, R248, R268): its stamp is still to be written, or it is gone from its lane; its flags are
in STICKY; an error frees the trigger entry that fired it; and memory is as it was. -/
structure CommandOver (core : CoreId) (lane : BitVec 3) (c : Command) (status : BitVec 8) (detail : BitVec 15) (s t : State) : Prop where
  stamped : c.stamp ≠ none → t.cmdAt core lane = some { c with st := .stamping status detail, flags := 0 }
  gone : c.stamp = none → (t.core core).lane lane = ((s.core core).lane lane).filter (fun e => !e.isCmd c.id)
  others : ∀ l : BitVec 3, l ≠ lane → (t.core core).lane l = (s.core core).lane l
  flags : (t.ctx (c.at core)).sticky = (s.ctx (c.at core)).sticky ||| c.flags
  entry : ∀ n : BitVec 6, c.trig = some n → status ≠ 0 → Assoc.find (t.core core).triggers n.toNat = none
  armed : status = 0 → (t.core core).triggers = (s.core core).triggers
  mem : t.mem = s.mem

/-- Whether byte `i` of a chunk goes to key `k`. -/
def SpotAt (ps : List (Option Spot)) (i k : Nat) : Prop := ∃ v : Nat, ps[i]? = some (some (Place.mem k, v))

/-- Bytes written at the places of a chunk: each byte whose place no other byte of the chunk has is in memory; and where the tile cache
has room for the lines they lie in, every other byte of memory, but for the tags of `tags`, is as it was. -/
structure BytesAt (core : CoreId) (ps : List (Option Spot)) (bs : List Byte) (tags : List Nat) (s t : State) : Prop where
  bytes : ∀ i k : Nat, SpotAt ps i k → (∀ j, j ≠ i → ¬SpotAt ps j k) → k ∉ tags → i < bs.length → memRead t.mem k = bs.getD i 0
  frame : (s.core core).lines.length + ps.length ≤ 768 → ∀ a : Nat, (∀ i : Nat, ¬SpotAt ps i a) → a ∉ tags →
    memRead t.mem a = memRead s.mem a

/-- A chunk written as a whole (R252), and the command with what it has delivered; what goes to another module waits at one link of its
route on virtual channel 7, as one flit (R392, R393; that a chunk is one flit with one credit is the model's choice, log entry 71). -/
structure ChunkWritten (core : CoreId) (lane : BitVec 3) (c : Command) (ps : List (Option Spot)) (bs : List Byte) (tags : List Nat)
    (s t : State) : Prop where
  head : t.cmdAt core lane = some c
  others : ∀ l : BitVec 3, l ≠ lane → (t.core core).lane l = (s.core core).lane l
  written : BytesAt core ps bs tags s t
  near : (∀ (i pa v : Nat), i < bs.length → ps[i]? ≠ some (some (Place.far pa, v))) → t.links = s.links
  far : ∀ m : BitVec 16, s.reaches m = true →
    (∀ (i pa v : Nat), i < bs.length → ps[i]? = some (some (Place.far pa, v)) → Config.farModule (pa / 2 ^ 16) = some m) →
    (∃ i pa v : Nat, i < bs.length ∧ ps[i]? = some (some (Place.far pa, v))) →
    ∃ l ∈ s.usableRoute m, ∃ f : Flit, (t.link l).flits = (s.link l).flits ++ [f] ∧ f.vc = 7 ∧ f.src = c.at core ∧ f.owner = c.id ∧
      f.sent = false

/-- The byte order of a copy (R257): a source byte whose place an earlier byte of the chunk has gone to is the latest of those. -/
def ForwardRule (src dst : List (Option Place)) (bs r : List Byte) : Prop :=
  r.length = bs.length ∧ ∀ i : Nat, i < bs.length →
    ((∀ (p : Place) (j : Nat), src[i]? = some (some p) → j < i → dst[j]? ≠ some (some p)) → r.getD i 0 = bs.getD i 0) ∧
    ∀ (p : Place) (j : Nat), src[i]? = some (some p) → j < i → dst[j]? = some (some p) →
      (∀ l : Nat, j < l → l < i → dst[l]? ≠ some (some p)) → r.getD i 0 = r.getD j 0

/-- The tags of a kept copy whose granules do not overlap (R131): each destination granule has the tag that the copy unit reads at its
source granule. -/
def TagsCopied (c : CtxId) (src dst : List (Option Place)) (w t : State) : Prop :=
  ∀ i k d : Nat, src[i]? = some (some (Place.mem k)) → dst[i]? = some (some (Place.mem d)) →
    (∀ (j d' : Nat), dst[j]? = some (some (Place.mem d')) → tagKey d' ≠ tagKey k ∧
      (tagKey d' = tagKey d → ∃ k' : Nat, src[j]? = some (some (Place.mem k')) ∧ tagKey k' = tagKey k)) →
    memRead t.mem (tagKey d) = w.engineByte c (tagKey k)

/-- The tags of the granules that some places lie in. -/
def tagsOf (ps : List (Option Place)) : List Nat :=
  ps.filterMap (fun p => match p with | some (.mem k) => some (tagKey k) | _ => none)

/-- Consecutive addresses of a register operand, modulo 2^64. -/
def wrapAt (ea : Word) (n : Nat) : List Nat := (List.range n).map (fun k => (ea.toNat + k) % 2 ^ 64)

/-- The bytes of a chunk from address `dst` on with n bytes left (R252): none crosses a 128-byte boundary. -/
def chunkRule (dst n : Nat) : Nat := if n < 128 - dst % 128 then n else 128 - dst % 128

/-- The error word of a stamp (R248). -/
def errorWordRule (status detail delivered : Nat) : Nat :=
  2 ^ 63 + detail * 2 ^ 48 + status * 2 ^ 40 + delivered % 2 ^ 32

/-- What a word of a slot becomes (R372): the arriving word, or each of its elements combined with the one that is there. -/
def CombinedWord (mode : BitVec 2) (f : Fmt) (old new r : Word) : Prop :=
  (mode = 0 → r = new) ∧
  (mode ≠ 0 → ∀ i : Nat, f.bits * i + f.bits ≤ 64 → r.toNat / 2 ^ (f.bits * i) % 2 ^ f.bits =
    modeCombine mode f (old.toNat / 2 ^ (f.bits * i) % 2 ^ f.bits) (new.toNat / 2 ^ (f.bits * i) % 2 ^ f.bits) % 2 ^ f.bits)

end Sys2Proof.Machine

section
open Sys2Proof Sys2Proof.Machine

/-- LANE_COMMAND_START and XCPC_BLOCK_RESUME (R251, R260, R294, R365, R393): the command at the head of its lane starts once its
context's earlier stores and posts are performed, with the shape records it takes, and ends with status 0x0A where the other
modules it leads to cannot be reached; an XCPC goes on with a block once its flag has reached the block's number. -/
def Sys2Proof.Claims.LaneStartEvents : Prop :=
  (∀ (core : CoreId) (lane : BitVec 3) (c : Command) (sh : List (Nat × RecordOr)) (s u : State),
    s.cmdAt core lane = some c → c.st = .queued → s.mayStart (c.at core) c.id = true →
    s.takeShapes (c.at core) c.tensorVas = (sh, u) →
    let d := { c with st := .performing, shapes := sh }
    ((∀ m ∈ u.farModules core d d.op.words, u.reaches m = true) →
      ∃ t : State, exec (.laneCommandStart core lane) s = .next t ∧ t.cmdAt core lane = some d ∧ t.mem = u.mem ∧
        (∀ l : BitVec 3, l ≠ lane → (t.core core).lane l = (u.core core).lane l) ∧ ∀ x : CtxId, t.ctx x = u.ctx x) ∧
    ((∃ m ∈ u.farModules core d d.op.words, u.reaches m = false) →
      ∃ t : State, exec (.laneCommandStart core lane) s = .next t ∧ CommandOver core lane d 0x0A 0 u t)) ∧
  (∀ (core : CoreId) (lane : BitVec 3) (c : Command) (dst src : Word) (count tab : Nat) (ib : IBits) (flag : BitVec 5)
      (bs : List Byte) (s u : State),
    s.cmdAt core lane = some c → c.st = .performing → c.op = .xcpc dst src count tab ib flag → c.cursor < count →
    c.tile ≠ some (c.cursor / 128) → c.cursor / 128 + 1 ≤ ((s.core core).flag flag).toNat →
    let size := match ib with | .i2 => 8 | .i3 => 16 | .i4 => 32
    let off := tab + c.cursor / 128 * size
    off + size ≤ 2 ^ 21 →
    s.engReadAll (c.at core) c.shapes false (vaRange (s.windowVa (s.ctx (c.at core)).part core off) size) =
      ((bs, []), u) →
    ∃ t : State, exec (.xcpcBlockResume core lane) s = .next t ∧
      t.cmdAt core lane = some { c with tile := some (c.cursor / 128), buf := bs } ∧ t.mem = u.mem)

/-- Chunks of XCP, XGATH, XSCAT and XPOPQ and rows of XFILL. -/
def Sys2Proof.Claims.PlainChunks : Prop :=
  (∀ (core : CoreId) (lane : BitVec 3) (c : Command) (dst src : Word) (len : Nat) (kept : Bool) (s₀ s : State),
    s₀.linkProgress = s → s.cmdAt core lane = some c → c.st = .performing → s.chunkGate core lane c = none → c.op = .xcp dst src len kept →
    let e : Command := { c with asked := false }
    let o := c.delivered
    let n := chunkRule (dst + BitVec.ofNat 64 o).toNat (len - o)
    let from_ := wrapAt (src + BitVec.ofNat 64 o) n
    (len ≤ o → s.owing core c.id = [] → ∃ t : State, exec (.copyChunk core lane) s₀ = .next t ∧ CommandOver core lane e 0 0 s t) ∧
    (len ≤ o → s.owing core c.id ≠ [] → exec (.copyChunk core lane) s₀ = .next s) ∧
    (∀ (bs : List Byte) (ps : List (Option Spot)) (qs : List (Option Place)) (u v w : State), o < len →
      s.engReadAll (c.at core) c.shapes kept from_ = ((bs, []), u) →
      u.engTargets (c.at core) c.shapes kept false (wrapAt (dst + BitVec.ofNat 64 o) n) = ((ps, []), v) →
      v.sourcePlaces core e from_ = (qs, w) → Memory.wf w.mem = true →
      let ds := ps.map (fun p => p.map (·.1))
      ∃ (t : State) (r : List Byte), exec (.copyChunk core lane) s₀ = .next t ∧ ForwardRule qs ds bs r ∧
        ChunkWritten core lane { e with delivered := o + n } ps r (if kept then tagsOf ds else []) w t ∧
        (kept = true → TagsCopied (c.at core) qs ds w t))) ∧
  (∀ (core : CoreId) (lane : BitVec 3) (c : Command) (base row : Word) (rb : Nat) (rows : List Word) (scatter : Bool) (s₀ s : State),
    s₀.linkProgress = s → s.cmdAt core lane = some c → c.st = .performing → s.chunkGate core lane c = none →
    c.op = (if scatter then .xscat base rb rows else .xgath base rb rows) →
    let e : Command := { c with asked := false }
    let o := c.delivered
    (rows[o / rb]? = none → 1 ≤ rb → s.owing core c.id = [] →
      ∃ t : State, exec (.copyChunk core lane) s₀ = .next t ∧ CommandOver core lane e 0 0 s t) ∧
    (∀ (bs : List Byte) (ps : List (Option Spot)) (u v : State), 1 ≤ rb → rows[o / rb]? = some row →
      let inBase := base + BitVec.ofNat 64 o
      let inRow := row + BitVec.ofNat 64 (o % rb)
      let n := chunkRule (if scatter then inRow else inBase).toNat (rb - o % rb)
      s.engReadAll (c.at core) c.shapes false (wrapAt (if scatter then inBase else inRow) n) = ((bs, []), u) →
      u.engTargets (c.at core) c.shapes false scatter (wrapAt (if scatter then inRow else inBase) n) = ((ps, []), v) →
      Memory.wf v.mem = true →
      ∃ t : State, exec (.copyChunk core lane) s₀ = .next t ∧
        ChunkWritten core lane { e with delivered := o + n } ps bs [] v t)) ∧
  (∀ (core : CoreId) (lane : BitVec 3) (c : Command) (dst : Word) (q : BitVec 3) (ids : List Nat) (stride id : Nat) (v : VWord)
      (ps : List (Option Spot)) (s₀ s u : State),
    s₀.linkProgress = s → s.cmdAt core lane = some c → c.st = .performing → s.chunkGate core lane c = none → c.op = .xpopq dst q ids stride →
    let e : Command := { c with asked := false }
    let o := c.delivered
    ids[o / 128]? = some id → (s.core core).claimedData q id = some v →
    let d := dst + BitVec.ofNat 64 (o / 128 * stride + o % 128)
    let n := chunkRule d.toNat (128 - o % 128)
    s.engTargets (c.at core) c.shapes false false (wrapAt d n) = ((ps, []), u) → Memory.wf u.mem = true →
    ∃ t : State, exec (.copyChunk core lane) s₀ = .next t ∧
      ChunkWritten core lane { e with delivered := o + n } ps
        ((List.range n).map (fun i => BitVec.ofNat 8 (byteRule v (o % 128 + i)))) [] u t ∧
      (o % 128 + n = 128 → ∀ x ∈ ((t.core core).rq[q.toNat]'q.isLt).present ++ ((t.core core).rq[q.toNat]'q.isLt).owed, x.id ≠ id)) ∧
  (∀ (core : CoreId) (lane : BitVec 3) (c : Command) (src : Word) (stride : Nat) (f : Fmt) (fb tr : Bool) (scales : Nat)
      (bs : List Byte) (s₀ s u : State), s₀.linkProgress = s →
    s.cmdAt core lane = some c → c.st = .performing → s.chunkGate core lane c = none → c.op = .xfill src stride f false fb tr scales → c.tile = none → c.cursor < 64 →
    let row := if tr then (List.range 64).flatMap (fun k =>
          wrapAt (src + BitVec.ofNat 64 (k * stride + c.cursor * (f.bits / 8))) (f.bits / 8))
      else wrapAt (src + BitVec.ofNat 64 (c.cursor * stride)) (match f with | .o4 => 40 | .b1 => 256 | f => 8 * f.bits)
    s.engReadAll (c.at core) c.shapes false row = ((bs, []), u) →
    ∃ t : State, exec (.copyChunk core lane) s₀ = .next t ∧ t.mem = u.mem ∧
      t.cmdAt core lane = some { c with asked := false, cursor := c.cursor + 1, buf := c.buf ++ bs })

/-- Chunks of XCPZ and XCPC (R252, R258 to R260): what an XCPZ expands to, with how it ends, is settled at its first step, and its bytes then
go out chunk by chunk; at the end the command is over, well or with the status of the error. An XCPC whose block's table is read writes
elements of 16 bits, each the table's entry at the element's index of the stream. -/
def Sys2Proof.Claims.ExpandedChunks : Prop :=
  (∀ (core : CoreId) (lane : BitVec 3) (c : Command) (dst src : Word) (len bound : Nat) (dict : Option (Nat × Nat)) (s₀ s : State),
    s₀.linkProgress = s → s.cmdAt core lane = some c → c.st = .performing → s.chunkGate core lane c = none →
    c.op = .xcpz dst src len bound dict →
    let e : Command := { c with asked := false }
    let o := c.delivered
    (c.cursor = 0 → dict = none → ∀ (b : List Byte) (es : List EngFault) (u : State),
      s.readUpTo core e (wrapAt src len) = (b, es, u) →
      let r := inflate none bound es.isEmpty b
      ∃ t : State, exec (.copyChunk core lane) s₀ = .next t ∧ t.mem = u.mem ∧
        t.cmdAt core lane = some { e with buf := r.out, cursor := match r.fin with | .ok => 1 | .short => 2 | .err st => 3 + st.toNat }) ∧
    (∀ (ps : List (Option Spot)) (u : State), c.cursor ≠ 0 → o < c.buf.length →
      let n := chunkRule (dst + BitVec.ofNat 64 o).toNat (c.buf.length - o)
      s.engTargets (c.at core) c.shapes false false (wrapAt (dst + BitVec.ofNat 64 o) n) = ((ps, []), u) → Memory.wf u.mem = true →
      ∃ t : State, exec (.copyChunk core lane) s₀ = .next t ∧
        ChunkWritten core lane { e with delivered := o + n } ps ((c.buf.drop o).take n) [] u t) ∧
    (c.cursor = 1 → c.buf.length ≤ o → s.owing core c.id = [] →
      ∃ t : State, exec (.copyChunk core lane) s₀ = .next t ∧ CommandOver core lane { e with buf := [] } 0 0 s t) ∧
    (∀ st : BitVec 8, c.cursor = 3 + st.toNat → st ≠ 0 → c.buf.length ≤ o →
      ∃ t : State, exec (.copyChunk core lane) s₀ = .next t ∧ CommandOver core lane { e with buf := [] } st 0 s t)) ∧
  (∀ (core : CoreId) (lane : BitVec 3) (c : Command) (dst src : Word) (count tab : Nat) (ib : IBits) (flag : BitVec 5) (s₀ s : State),
    s₀.linkProgress = s → s.cmdAt core lane = some c → c.st = .performing → s.chunkGate core lane c = none →
    c.op = .xcpc dst src count tab ib flag →
    let e : Command := { c with asked := false }
    let i := c.cursor
    let w := match ib with | .i2 => 2 | .i3 => 3 | .i4 => 4
    (count ≤ i → s.owing core c.id = [] →
      ∃ t : State, exec (.copyChunk core lane) s₀ = .next t ∧ CommandOver core lane { e with buf := [] } 0 0 s t) ∧
    (i < count → c.tile ≠ some (i / 128) → exec (.copyChunk core lane) s₀ = .next s) ∧
    (∀ (bs : List Byte) (ps : List (Option Spot)) (u v : State), i < count → c.tile = some (i / 128) → c.buf.length = 2 * 2 ^ w →
      let stop := if count < 128 * (i / 128) + 128 then count else 128 * (i / 128) + 128
      let n := chunkRule (dst + BitVec.ofNat 64 (2 * i)).toNat (2 * (stop - i)) / 2
      let first := w * i / 32
      let last := (w * (i + n) - 1) / 32
      s.engReadAll (c.at core) c.shapes false (wrapAt (src + BitVec.ofNat 64 (4 * first)) (4 * (last - first + 1))) = ((bs, []), u) →
      u.engTargets (c.at core) c.shapes false false (wrapAt (dst + BitVec.ofNat 64 (2 * i)) (2 * n)) = ((ps, []), v) →
      Memory.wf v.mem = true → 1 ≤ n →
      ∃ (t : State) (r : List Byte), exec (.copyChunk core lane) s₀ = .next t ∧ r.length = 2 * n ∧
        (∀ k : Nat, k < n →
          let x := bytesNat bs / 2 ^ (w * (i + k) - 32 * first) % 2 ^ w
          r.getD (2 * k) 0 = c.buf.getD (2 * x) 0 ∧ r.getD (2 * k + 1) 0 = c.buf.getD (2 * x + 1) 0) ∧
        ChunkWritten core lane { e with cursor := i + n, delivered := 2 * (i + n) } ps r [] v t))

/-- Chunks of XSEND and XRECV (R265, R372, R373, R378): the words of a tile leave for the receiver, in this module as words on their way and for
another as one flit on the channel's own virtual channel; the send is over when every word is performed; an XRECV copies its slot out, then
writes the identity of an accumulating mode back, then posts the credit, and is over when the post is performed. -/
def Sys2Proof.Claims.ChannelChunks : Prop :=
  (∀ (core : CoreId) (lane : BitVec 3) (c : Command) (ch : BitVec 8) (src : Word) (tile : Nat) (x : ChanEntry) (s₀ s : State),
    s₀.linkProgress = s → s.cmdAt core lane = some c → c.st = .performing → s.chunkGate core lane c = none →
    c.op = .xsend ch src → c.tile = some tile → s.chanEntry (s.ctx (c.at core)) ch = some x →
    ((s.ctx (c.at core)).chan ch).withdrawn = false → x.peerModule = 0xFFFF ∨ s.reaches x.peerModule = true →
    let e : Command := { c with asked := false }
    let size := x.rows * x.cols * x.fmt.bits / 8
    let n := if size - c.cursor < 128 then size - c.cursor else 128
    (∀ (bs : List Byte) (u : State), c.cursor < size →
      s.engReadAll (c.at core) c.shapes false (wrapAt (src + BitVec.ofNat 64 c.cursor) n) = ((bs, []), u) →
      (x.peerModule ≠ 0xFFFF → ∃ t : State, exec (.copyChunk core lane) s₀ = .next t ∧ t.mem = u.mem ∧
        t.cmdAt core lane = some { e with cursor := c.cursor + n, delivered := c.delivered + n } ∧
        ∃ l ∈ s.usableRoute x.peerModule, ∃ f : Flit, (t.link l).flits = (s.link l).flits ++ [f] ∧ f.vc = x.vc ∧ f.owner = c.id ∧
          f.data.map (·.2) = bs) ∧
      (∀ p : CtxId, x.peerModule = 0xFFFF → s.peerOf (c.at core) x = some p →
        ∃ t : State, exec (.copyChunk core lane) s₀ = .next t ∧ t.mem = u.mem ∧
          t.cmdAt core lane = some { e with cursor := c.cursor + n } ∧
          t.words = s.words ++ (List.range (n / 8)).map (fun i =>
            { src := c.at core, cmd := c.id, dst := p, chan := ch, tile := tile, word := c.cursor / 8 + i,
              data := bytesWord ((bs.drop (8 * i)).take 8) }))) ∧
    (size ≤ c.cursor → c.delivered < size → exec (.copyChunk core lane) s₀ = .next s) ∧
    (size ≤ c.cursor → size ≤ c.delivered → s.owing core c.id = [] →
      ∃ t : State, exec (.copyChunk core lane) s₀ = .next t ∧ CommandOver core lane e 0 0 s t)) ∧
  (∀ (core : CoreId) (lane : BitVec 3) (c : Command) (ch : BitVec 8) (d : Option Word) (tile : Nat) (x : ChanEntry) (s₀ s : State),
    s₀.linkProgress = s → s.cmdAt core lane = some c → c.st = .performing → s.chunkGate core lane c = none →
    c.op = .xrecv ch d → c.tile = some tile → s.chanEntry (s.ctx (c.at core)) ch = some x →
    let e : Command := { c with asked := false }
    let size := x.rows * x.cols * x.fmt.bits / 8
    let base := s.windowVa (s.ctx (c.at core)).part core (x.wordOff tile 0)
    (∀ (w : Word) (bs : List Byte) (ps : List (Option Spot)) (u v : State), d = some w → c.cursor = 0 → c.delivered < size →
      let n := chunkRule (w + BitVec.ofNat 64 c.delivered).toNat (size - c.delivered)
      s.engReadAll (c.at core) c.shapes false (vaRange (base + c.delivered) n) = ((bs, []), u) →
      u.engTargets (c.at core) c.shapes false false (wrapAt (w + BitVec.ofNat 64 c.delivered) n) = ((ps, []), v) →
      Memory.wf v.mem = true →
      ∃ t : State, exec (.copyChunk core lane) s₀ = .next t ∧
        ChunkWritten core lane { e with delivered := c.delivered + n } ps bs [] v t) ∧
    (∀ (ps : List (Option Spot)) (u : State), d = none ∨ c.cursor ≠ 0 ∨ size ≤ c.delivered → x.mode ≠ 0 → c.cursor < 2 ^ 17 →
      c.cursor - 1 < size →
      let o := c.cursor - 1
      let n := chunkRule (base + o) (size - o)
      let one := natBytes (x.fmt.bits / 8) (modeIdentity x.mode x.fmt)
      s.engTargets (c.at core) c.shapes false false (vaRange (base + o) n) = ((ps, []), u) → Memory.wf u.mem = true →
      ∃ t : State, exec (.copyChunk core lane) s₀ = .next t ∧
        ChunkWritten core lane { e with cursor := 1 + o + n } ps ((List.range n).map (fun i => one.getD ((o + i) % one.length) 0)) [] u t) ∧
    (∀ (p : CtxId) (y : ChanEntry), d = none ∨ c.cursor ≠ 0 ∨ size ≤ c.delivered → x.mode = 0 ∨ size ≤ c.cursor - 1 → c.cursor < 2 ^ 17 →
      x.peerModule = 0xFFFF → s.peerOf (c.at core) x = some p → s.chanEntry (s.ctx p) ch = some y →
      ∃ (t : State) (post : Post), exec (.copyChunk core lane) s₀ = .next t ∧ t.mem = s.mem ∧
        (t.ctx (c.at core)).posts = (s.ctx (c.at core)).posts ++ [post] ∧
        (post.core, post.flag, post.add, post.id) = (p.core, y.flag, 1, (s.core core).nextId) ∧
        t.cmdAt core lane = some { e with cursor := 2 ^ 17 + (s.core core).nextId + 1 }) ∧
    (2 ^ 17 ≤ c.cursor → (∀ p ∈ (s.ctx (c.at core)).posts, 2 ^ 17 + p.id + 1 ≠ c.cursor) → s.owing core c.id = [] →
      ∃ t : State, exec (.copyChunk core lane) s₀ = .next t ∧ CommandOver core lane e 0 0 s t))

/-- XSTOR, and the granules of a kept XFILL (R121, R123, R126, R262, R271): an XSTOR checks its whole destination and then asks for its
blocks; a kept fill reads its record granule by granule, each with its tag, and one that fails its check suspends the command with fault
0x09; then the record's block scales are written to the scratchpad and the rows stand in the fill. -/
def Sys2Proof.Claims.StorageAndKeptFillChunks : Prop :=
  (∀ (core : CoreId) (lane : BitVec 3) (c : Command) (dst lba : Word) (nlb : Nat) (reg : BitVec 12) (nsid : BitVec 32) (log : Nat)
      (s₀ s : State), s₀.linkProgress = s → s.cmdAt core lane = some c → c.st = .performing → s.chunkGate core lane c = none →
    c.op = .xstor dst lba nlb reg nsid log →
    (∀ (ps : List (Option Spot)) (u : State), c.cursor = 0 →
      s.engTargets (c.at core) c.shapes false false (wrapAt dst ((nlb + 1) * 2 ^ log)) = ((ps, []), u) →
      ∃ t : State, exec (.copyChunk core lane) s₀ = .next t ∧ t.mem = u.mem ∧
        t.cmdAt core lane = some { c with asked := false, cursor := 1 }) ∧
    (c.cursor ≠ 0 → exec (.copyChunk core lane) s₀ = .next s)) ∧
  (∀ (core : CoreId) (lane : BitVec 3) (c : Command) (src : Word) (stride : Nat) (f : Fmt) (fb tr : Bool) (scales : Nat) (s₀ s : State),
    s₀.linkProgress = s → s.cmdAt core lane = some c → c.st = .performing → s.chunkGate core lane c = none →
    c.op = .xfill src stride f true fb tr scales → c.tile = none →
    let e : Command := { c with asked := false }
    let granules := if f = .o4 then 41 else 67
    (∀ (bs : List Byte) (kept : Bool) (u v : State), c.cursor < granules →
      let vas := wrapAt (src + BitVec.ofNat 64 (64 * c.cursor)) 64
      s.engReadAll (c.at core) c.shapes true vas = ((bs, []), u) → u.tagsSet core e vas = (kept, v) →
      let h := headerOf (c.buf ++ bs)
      (keptReason f c.cursor kept h = none → ∃ t : State, exec (.copyChunk core lane) s₀ = .next t ∧ t.mem = v.mem ∧
        t.cmdAt core lane = some { e with cursor := c.cursor + 1, buf := c.buf ++ bs }) ∧
      (∀ why : BitVec 8, keptReason f c.cursor kept h = some why → (v.ctx (c.at core)).alive = true →
        ∃ t : State, exec (.copyChunk core lane) s₀ = .next t ∧ t.mem = v.mem ∧ t.cmdAt core lane = some { e with st := .suspended } ∧
          t.ctx (c.at core) = (v.ctx (c.at core)).asyncFault
            { code := 0x09, detail := detailWord why 0 0x04 7 (recordedClass why h), addr := src })) ∧
    (∀ (ps : List (Option Spot)) (u : State), granules ≤ c.cursor →
      let body := c.buf.drop 16
      let codes := (List.range 128).map (fun b => if f = .o4 then body.getD (20 * b + 18) 0 else body.getD (4096 + b) 0)
      s.engTargets (c.at core) c.shapes false false (vaRange (s.windowVa (s.ctx (c.at core)).part core scales) 128) = ((ps, []), u) →
      Memory.wf u.mem = true →
      ∃ t : State, exec (.copyChunk core lane) s₀ = .next t ∧
        ChunkWritten core lane { e with tile := some 0, buf := body.take (64 * (match f with | .o4 => 40 | .b1 => 256 | f => 8 * f.bits)) }
          ps codes [] u t))

/-- What stands before a chunk (R351, R392, R393): where a module that it reads from or writes to has lost every usable link the command ends
with status 0x0A; bytes of another module are asked for by a flit without bytes on virtual channel 7, that of plain copies and fills, and
the chunk waits until it is acknowledged. That one flit asks for all that a step reads is the model's choice (log entry 71). -/
def Sys2Proof.Claims.ChunkGates : Prop :=
  ∀ (core : CoreId) (lane : BitVec 3) (c : Command) (s₀ s : State), s₀.linkProgress = s → s.cmdAt core lane = some c → c.st = .performing →
    let rd := s.lookPlaces core c (s.nextSpan core c).1
    let wr := s.lookPlaces core c (s.nextSpan core c).2
    ((∃ m ∈ farsOf rd ++ farsOf wr, s.reaches m = false) →
      ∃ t : State, exec (.copyChunk core lane) s₀ = .next t ∧ CommandOver core lane c 0x0A 0 s t) ∧
    ((∀ m ∈ farsOf rd ++ farsOf wr, s.reaches m = true) →
      (s.aheadHolds (c.at core) false (memKeys rd) = true ∨ s.aheadHolds (c.at core) true (memKeys wr) = true →
        exec (.copyChunk core lane) s₀ = .next s) ∧
      (s.aheadHolds (c.at core) false (memKeys rd) = false → s.aheadHolds (c.at core) true (memKeys wr) = false →
        ∀ m : BitVec 16, farsOf rd = [m] →
        (c.asked = false → ∃ t : State, exec (.copyChunk core lane) s₀ = .next t ∧ t.mem = s.mem ∧
          t.cmdAt core lane = some { c with asked := true } ∧
          ∃ l ∈ s.usableRoute m, (t.link l).flits = (s.link l).flits ++
            [{ vc := 7, src := c.at core, owner := c.id, data := [], counts := false, sent := false }]) ∧
        (c.asked = true → (∃ f ∈ s.owing core c.id, f.data = []) → exec (.copyChunk core lane) s₀ = .next s)))

/-- COPY_CHUNK (R131, R252, R257 to R265, R271, R392 to R394): the links go on. Where nothing stands before it, the next chunk of an XCP, of a
row of an XGATH or XSCAT or of a claimed entry of an XPOPQ ends at a 128-byte boundary of its destination and is written as a whole, an
XCP's in the byte order and a kept one with its tags; a row of an XFILL comes into the fill, and a kept fill's record granule by granule,
each checked; an XCPZ's bytes go out as its source expands, and an XCPC's as its tables say; an XSEND's words leave, and an XRECV's slot is
copied out; an XSTOR asks for its blocks; and with nothing left and nothing owing to the links a command is over. What goes to another
module, or is asked of one, is a flit on virtual channel 7, but for channel words; that a chunk is one flit is the model's choice (log
entry 71). -/
def Obligations.CopyChunkEvent : Prop :=
  Claims.PlainChunks ∧ Claims.ExpandedChunks ∧ Claims.ChannelChunks ∧ Claims.StorageAndKeptFillChunks ∧ Claims.ChunkGates

/-- FIFO_FILL_PUSH and NVME_COMPLETION (R248, R261, R271): a whole fill enters its FIFO as 64 rows when it is the oldest fill of the FIFO
and there is room; the data of a storage read is written chunk by chunk, in whatever order it comes in; a good completion ends the
read when all of it is there, and an error's status goes to the stamp with status 0x07. -/
def Sys2Proof.Claims.FillAndStorageEvents : Prop :=
  (∀ (core : CoreId) (lane : BitVec 3) (c : Command) (src : Word) (stride n : Nat) (f : Fmt) (kept fb tr : Bool) (scales : Nat) (s : State),
    s.cmdAt core lane = some c → c.st = .performing → c.op = .xfill src stride f kept fb tr scales → c.tile = some n →
    (if fb then (s.core core).fbOrder else (s.core core).faOrder).head? = some c.id →
    (if fb then (s.core core).fb else (s.core core).fa).length < 4 →
    s.owing core c.id = [] →
    let rb := match f with | .o4 => 40 | .b1 => 256 | f => 8 * f.bits
    let entry : List (List Byte) := (List.range 64).map (fun r => (c.buf.drop (r * rb)).take rb)
    ∃ t : State, exec (.fifoFillPush core lane) s = .next t ∧
      (t.core core).fa = (if fb then (s.core core).fa else (s.core core).fa ++ [entry]) ∧
      (t.core core).fb = (if fb then (s.core core).fb ++ [entry] else (s.core core).fb) ∧
      (t.core core).faOrder = (if fb then (s.core core).faOrder else (s.core core).faOrder.drop 1) ∧
      (t.core core).fbOrder = (if fb then (s.core core).fbOrder.drop 1 else (s.core core).fbOrder) ∧
      CommandOver core lane { c with buf := [], delivered := 64 * rb } 0 0 s t) ∧
  (∀ (core : CoreId) (lane : BitVec 3) (c : Command) (dst lba : Word) (nlb : Nat) (reg : BitVec 12) (nsid : BitVec 32) (log : Nat) (s : State),
    s.cmdAt core lane = some c → c.st = .performing → c.op = .xstor dst lba nlb reg nsid log → c.cursor ≠ 0 →
    let n := (nlb + 1) * 2 ^ log
    (∀ status : BitVec 15, status ≠ 0 →
      ∃ t : State, exec (.nvmeCompletion core lane status none) s = .next t ∧ CommandOver core lane c 0x07 status s t) ∧
    (c.delivered = n → s.owing core c.id = [] →
      ∃ t : State, exec (.nvmeCompletion core lane 0 none) s = .next t ∧ CommandOver core lane c 0 0 s t) ∧
    (∀ (off : Nat) (bs : List Byte) (ps : List (Option Spot)) (u : State), bs ≠ [] → off + bs.length ≤ n →
      chunkRule (dst + BitVec.ofNat 64 off).toNat bs.length = bs.length →
      (∀ p ∈ c.parts, off + bs.length ≤ p.1 ∨ p.1 + p.2 ≤ off) →
      (∀ m ∈ farsOf (s.lookPlaces core c (wrapAt (dst + BitVec.ofNat 64 off) bs.length)), s.reaches m = true) →
      s.engTargets (c.at core) c.shapes false false (wrapAt (dst + BitVec.ofNat 64 off) bs.length) = ((ps, []), u) →
      Memory.wf u.mem = true →
      ∀ status : BitVec 15, ∃ t : State, exec (.nvmeCompletion core lane status (some (off, bs))) s = .next t ∧
        ChunkWritten core lane { c with delivered := c.delivered + bs.length, parts := c.parts ++ [(off, bs.length)] } ps bs [] u t))

/-- STAMP_WRITE and LANE_FENCE_RELEASE (R248, R270, R294, R343, R421): the stamp's word, the sum with the word that is there, or the
error word comes to the stamp's address, and the command leaves its lane; a stamp in another module goes there on virtual channel 7, as
one flit (R392; log entry 71); the entries of a lane fence that stand at the heads of all their lanes leave together. -/
def Sys2Proof.Claims.StampAndFenceEvents : Prop :=
  (∀ (core : CoreId) (lane : BitVec 3) (c : Command) (st : Stamp) (status : BitVec 8) (detail : BitVec 15) (k : Nat)
      (vs : List Nat) (r : List Byte × List EngFault) (s₀ s u v : State),
    s₀.linkProgress = s → s.stampAt core lane = some c → c.st = .stamping status detail → c.stamp = some st →
    s.owing core c.id = [] → s.released (c.at core) c.id st.sc = true →
    s.aheadHolds (c.at core) true (memKeys (s.lookPlaces core { c with shapes := [] } (vaRange st.addr 8))) = false →
    ¬(0x400000000000 ≤ st.addr ∧ st.addr < 0x800000000000) → vs.length = 8 →
    s.engTargets (c.at core) [] false false (vaRange st.addr 8) =
      ((vs.zipIdx.map (fun x => some (Place.mem (k + x.2), x.1)), []), u) →
    (∀ i, i < 8 → u.poisoned (k + i) = false) →
    (u.evictKeys (c.at core) ((List.range 8).map (k + ·))).engReadAll (c.at core) [] true (vaRange st.addr 8) = (r, v) →
    Memory.wf v.mem = true →
    ∃ t : State, exec (.stampWrite core lane) s₀ = .next t ∧
      bytesNat (memReadAll t.mem k 8) =
        (if status ≠ 0 then errorWordRule status.toNat detail.toNat c.delivered
         else if st.add then (bytesNat (memReadAll v.mem k 8) + st.word.toNat) % 2 ^ 64 else st.word.toNat) ∧
      ((v.core core).lines.length + 2 ≤ 768 → ∀ a : Nat, a < k ∨ k + 8 ≤ a → memRead t.mem a = memRead v.mem a) ∧
      (t.core core).lane lane = ((s.core core).lane lane).filter (fun e => !e.isCmd c.id)) ∧
  (∀ (core : CoreId) (lane : BitVec 3) (c : Command) (s : State), s.cmdAt core lane = some c →
    (∃ status detail, c.st = .stamping status detail) → s.stampAt core lane = some c) ∧
  (∀ (core : CoreId) (lane : BitVec 3) (c : Command) (st : Stamp) (status : BitVec 8) (detail : BitVec 15) (m : BitVec 16)
      (ps : List (Option Spot)) (s₀ s u : State),
    s₀.linkProgress = s → s.stampAt core lane = some c → c.st = .stamping status detail → c.stamp = some st →
    s.owing core c.id = [] → s.released (c.at core) c.id st.sc = true →
    s.aheadHolds (c.at core) true (memKeys (s.lookPlaces core { c with shapes := [] } (vaRange st.addr 8))) = false →
    ¬(0x400000000000 ≤ st.addr ∧ st.addr < 0x800000000000) → s.reaches m = true →
    s.engTargets (c.at core) [] false false (vaRange st.addr 8) = ((ps, []), u) → ps ≠ [] →
    (∀ p ∈ ps, ∃ pa v : Nat, p = some (Place.far pa, v) ∧ Config.farModule (pa / 2 ^ 16) = some m) →
    ∃ t : State, exec (.stampWrite core lane) s₀ = .next t ∧
      LaneEntry.cmd { c with st := .stampSent status } ∈ (t.core core).lane lane ∧
      ∃ l ∈ s.usableRoute m, ∃ f : Flit, (t.link l).flits = (s.link l).flits ++ [f] ∧ f.vc = 7 ∧ f.src = c.at core ∧ f.owner = c.id) ∧
  (∀ (core : CoreId) (id : Nat) (s : State),
    let k := s.core core
    (∃ l c, (k.lane l).head? = some (.fence id c)) → k.fenceReady id = true →
    (∀ l n c, (k.lane l).head? = some (.fence n c) → n ≠ id → k.fenceReady n = false) →
    ∃ t : State, exec (.laneFenceRelease core) s = .next t ∧ t.mem = s.mem ∧
      ∀ l : BitVec 3, (t.core core).lane l =
        (k.lane l).filter (fun e => match e with | .fence n _ => n != id | .cmd _ => true))

/-- The channel events (R265, R297, R371 to R373): an XSEND takes a credit, from its free tiles or from its flag; a word on its way is
performed in its slot and counted, and a slot that is whole raises the ready flag; an XRECV takes the oldest whole slot and
lowers the flag. -/
def Sys2Proof.Claims.ChannelEvents : Prop :=
  (∀ (core : CoreId) (lane : BitVec 3) (c : Command) (ch : BitVec 8) (src : Word) (e : ChanEntry) (s : State),
    s.cmdAt core lane = some c → c.st = .performing → c.op = .xsend ch src → c.tile = none →
    s.chanEntry (s.ctx (c.at core)) ch = some e →
    let n := (s.ctx (c.at core)).chan ch
    let flag := (s.core core).flag e.flag
    e.peerModule = 0xFFFF ∨ (s.reaches e.peerModule = true ∧ n.tiles ≠ 0) → n.withdrawn = false → n.tiles < e.depth ∨ flag ≠ 0 →
    ∃ t : State, exec (.xsendCreditTake core lane) s = .next t ∧ t.mem = s.mem ∧
      t.cmdAt core lane = some { c with tile := some n.tiles, cursor := 0, delivered := 0 } ∧
      (t.ctx (c.at core)).chan ch = { n with tiles := n.tiles + 1 } ∧
      ((t.core core).flag e.flag).toNat = (if n.tiles < e.depth then flag.toNat else flag.toNat - 1) ∧
      ∀ f, f ≠ e.flag → (t.core core).flag f = (s.core core).flag f) ∧
  (∀ (n : Nat) (f : FlightWord) (lane : BitVec 3) (c : Command) (e : ChanEntry) (s : State),
    Memory.wf s.mem = true → s.words[n]? = some f → s.laneOf f.src.core f.cmd = some (lane, c) → c.st = .performing →
    s.chanEntry (s.ctx f.dst) f.chan = some e → ((s.ctx f.dst).chan f.chan).withdrawn = false → 1 ≤ e.slots →
    let size := (e.rows * e.cols * e.fmt.bits / 8 + 127) / 128 * 128
    let k := padBase f.dst.core + (e.base + f.tile % e.slots * size + 8 * f.word)
    s.kept k = false → (∀ i, i < 8 → s.poisoned (k + i) = false) → (s.core f.dst.core).owns e.flag = true →
    ∃ t : State, exec (.channelWordArrival (.flight n)) s = .next t ∧
      CombinedWord e.mode e.fmt (bytesWord (memReadAll s.mem k 8)) f.data (bytesWord (memReadAll t.mem k 8)) ∧
      (∀ a : Nat, a < k ∨ k + 8 ≤ a → memRead t.mem a = memRead s.mem a) ∧
      t.words = s.words.eraseIdx n ∧ LaneEntry.cmd { c with delivered := c.delivered + 8 } ∈ (t.core f.src.core).lane lane ∧
      let after := (((s.ctx f.dst).chan f.chan).count f.tile).settle (e.tileBytes / 8)
      (t.ctx f.dst).chan f.chan = after.1 ∧
      ((t.core f.dst.core).flag e.flag).toNat = (((s.core f.dst.core).flag e.flag).toNat + after.2) % 2 ^ 32) ∧
  (∀ (core : CoreId) (lane : BitVec 3) (c : Command) (ch : BitVec 8) (d : Option Word) (e : ChanEntry) (x : Nat) (r : List Nat) (s : State),
    s.cmdAt core lane = some c → c.st = .performing → c.op = .xrecv ch d → c.tile = none →
    s.chanEntry (s.ctx (c.at core)) ch = some e → e.peerModule = 0xFFFF ∨ s.reaches e.peerModule = true →
    let n := (s.ctx (c.at core)).chan ch
    n.withdrawn = false → n.complete = x :: r → (s.core core).flag e.flag ≠ 0 →
    ∃ t : State, exec (.xrecvSlotTake core lane) s = .next t ∧ t.mem = s.mem ∧
      t.cmdAt core lane = some { c with tile := some x, cursor := 0, delivered := 0 } ∧
      (t.ctx (c.at core)).chan ch = { n with complete := r, tiles := n.tiles + 1 } ∧
      ((t.core core).flag e.flag).toNat + 1 = ((s.core core).flag e.flag).toNat ∧
      ∀ f, f ≠ e.flag → (t.core core).flag f = (s.core core).flag f)

/-- The far end of a channel (R371, R373): the credit of a receiver in another module raises the sender's flag by one, as long as
there are fewer credits than tiles taken; ends that a far sender's first tile finds unequal withdraw the channel here, and so does an end
whose own flag its kernel does not declare. -/
def Sys2Proof.Claims.FarChannelEvents : Prop :=
  ∀ (c : CtxId) (ch : BitVec 8) (e : ChanEntry) (s : State),
    s.chanEntry (s.ctx c) ch = some e → (s.ctx c).launch ≠ none → e.peerModule ≠ 0xFFFF → s.reaches e.peerModule = true →
    let n := (s.ctx c).chan ch
    n.withdrawn = false →
    (e.receive = false → (s.core c.core).owns e.flag = true →
      ((s.core c.core).flag e.flag).toNat + (n.tiles - e.depth) < n.tiles → n.tiles < 2 ^ 32 →
      ∃ t : State, exec (.channelWordArrival (.credit c ch)) s = .next t ∧ t.mem = s.mem ∧
        ((t.core c.core).flag e.flag).toNat = ((s.core c.core).flag e.flag).toNat + 1 ∧
        ∀ f, f ≠ e.flag → (t.core c.core).flag f = (s.core c.core).flag f) ∧
    (e.receive = true → n.tiles = 0 → n.complete = [] → n.filling = [] →
      ∃ t : State, exec (.channelWordArrival (.mismatch c ch)) s = .next t ∧ t.mem = s.mem ∧ ((t.ctx c).chan ch).withdrawn = true) ∧
    (e.receive = true → (s.core c.core).owns e.flag = false → ∀ (word : Nat) (data : Word),
      ∃ t : State, exec (.channelWordArrival (.remote c ch word data)) s = .next t ∧ t.mem = s.mem ∧ ((t.ctx c).chan ch).withdrawn = true) ∧
    (∀ (lane : BitVec 3) (q : Command) (src : Word), s.cmdAt c.core lane = some q → q.ctx = c.ctx → q.st = .performing →
      q.op = .xsend ch src → q.tile = none → n.tiles = 0 → 1 ≤ e.depth → (s.core c.core).owns e.flag = false →
      ∃ t : State, exec (.xsendCreditTake c.core lane) s = .next t ∧ t.mem = s.mem ∧ ((t.ctx c).chan ch).withdrawn = true ∧
        (q.stamp ≠ none → t.cmdAt c.core lane = some { q with st := .stamping 0x09 0, flags := 0 }))

/-- TRIGGER_FIRE, TRIGGER_LANE_ENTRY and TRIGGER_COMPLETE (R268, R269, R295, R328): a satisfied entry fires, after what waiting WAITFs are to
take of its flag, taking its threshold from the flag where it is to; its copy enters its lane with no stamp, or waits for room there; and
when the operation is over each enabled done flag rises by one and the entry is free. An armed entry that an XCAN has named fires none the
less where it is satisfied in that cycle, and is then cancelled, or is free with no flag changed. -/
def Sys2Proof.Claims.TriggerEvents : Prop :=
  (∀ (core : CoreId) (n : BitVec 6) (x : Trigger) (s : State),
    let k := s.core core
    Assoc.find k.triggers n.toNat = some x → x.st = .armed → x.cancel = false → x.id < k.nextId → k.owns x.watch = true → x.oper = 0 →
    x.threshold.toNat + s.pledged core x.watch ≤ (k.flag x.watch).toNat →
    (∀ m : Nat, m ≠ n.toNat → ∀ y, Assoc.find k.triggers m = some y → y.st ≠ .armed ∧ y.cancel = false) →
    ∃ t : State, exec (.triggerFire core) s = .next t ∧ t.mem = s.mem ∧
      ((t.core core).flag x.watch).toNat = (k.flag x.watch).toNat - (if x.take then x.threshold.toNat else 0) ∧
      (∀ f, f ≠ x.watch → (t.core core).flag f = k.flag f) ∧
      let lane := x.w3.extractLsb' 32 3
      (if (k.lane lane).length < 16 then
        Assoc.find (t.core core).triggers n.toNat = some { x with st := .running } ∧
          (t.core core).lane lane = k.lane lane ++
            [.cmd { queuedRule k.nextId x.ctx (.xcp x.w1 x.w2 (x.w3.toNat % 2 ^ 32) false) none with trig := some n }]
       else Assoc.find (t.core core).triggers n.toNat = some { x with st := .fired } ∧ (t.core core).lanes = k.lanes)) ∧
  (∀ (core : CoreId) (n : BitVec 6) (x : Trigger) (s : State),
    let k := s.core core
    let lane := x.w3.extractLsb' 32 3
    Assoc.find k.triggers n.toNat = some x → x.st = .fired → x.oper = 0 → (k.lane lane).length < 16 →
    ∃ t : State, exec (.triggerLaneEntry core n) s = .next t ∧ t.mem = s.mem ∧ (t.core core).flags = k.flags ∧
      Assoc.find (t.core core).triggers n.toNat = some { x with st := .running } ∧
      (t.core core).lane lane = k.lane lane ++
        [.cmd { queuedRule k.nextId x.ctx (.xcp x.w1 x.w2 (x.w3.toNat % 2 ^ 32) false) none with trig := some n }]) ∧
  (∀ (core : CoreId) (n : BitVec 6) (x : Trigger) (s : State),
    let k := s.core core
    Assoc.find k.triggers n.toNat = some x → x.st = .running → s.opOver core n x = true →
    releaseDone (s.ctx { core := core, ctx := x.ctx }) x.id .core = true →
    (x.w0.getLsbD 13 = true → k.owns (x.w0.extractLsb' 8 5) = true) → (x.w0.getLsbD 19 = true → k.owns (x.w0.extractLsb' 14 5) = true) →
    ∃ t : State, exec (.triggerComplete core n) s = .next t ∧ t.mem = s.mem ∧
      Assoc.find (t.core core).triggers n.toNat = none ∧
      (∀ m : Nat, m ≠ n.toNat → Assoc.find (t.core core).triggers m = Assoc.find k.triggers m) ∧
      ∀ f : BitVec 5, ((t.core core).flag f).toNat = ((k.flag f).toNat +
        (if x.w0.getLsbD 13 && x.w0.extractLsb' 8 5 == f then 1 else 0) +
        (if x.w0.getLsbD 19 && x.w0.extractLsb' 14 5 == f then 1 else 0)) % 2 ^ 32) ∧
  (∀ (core : CoreId) (n : BitVec 6) (x : Trigger) (before : Nat) (first : BitVec 5 → Nat) (s : State),
    (s.core core).triggers = [(n.toNat, x)] → x.cancel = true →
    let fires := x.id < before ∧ (s.core core).satisfied x = true ∧
      x.threshold.toNat + first x.watch ≤ ((s.core core).flag x.watch).toNat
    (fires → s.fireAll core before first = (s.fire core n x).cancelTrig core x.ctx n) ∧
    (¬fires → s.fireAll core before first = s.cancelTrig core x.ctx n) ∧
    Assoc.find (((s.cancelTrig core x.ctx n).core core).triggers) n.toNat = none ∧
    ((s.cancelTrig core x.ctx n).core core).flags = (s.core core).flags)

/-- COLLECTIVE_CHUNK, COLLECTIVE_COMPLETE and SWITCH_SLOT_REQUEST (R58, R376, R377, R380, R381, R385), of the part that the sequencer serves
next: it starts, with its shape records and, for a barrier, the writes of its context that it then finds performed; a descriptor unequal
to another contributor's ends the instance with status 0x09 on all of them, and a part issued after its instance has ended takes the status
with which that ended; or a chunk of its source comes to the receiver's destination; or its round ends; a part whose rounds are
over raises its flags and leaves its queue; rank 0 takes one of the 32 reduction slots, those of lower partitions first, or goes without
where it may. -/
def Sys2Proof.Claims.CollectiveEvents : Prop :=
  (∀ (core : CoreId) (comm : BitVec 8) (cs : List (BitVec 8)) (p : CollPart) (ps : List CollPart) (x : Coll) (e : CommEntry) (s₀ s : State),
    let c : CtxId := { core := core, ctx := p.ctx }
    let n := x.members.length
    let q := x.rank c
    s₀.linkProgress = s → s.commOrder core = comm :: cs → (s.core core).activeParts comm = p :: ps → p.comm = comm →
    s.collOf c comm p.k = some x → s.commEntry (s.ctx c) comm = some e → p.suspended = false → p.atEnd n = false → x.ended = false →
    (∀ (sh : List (Nat × RecordOr)) (u : State), p.started = false → s.mayStart c p.id = true →
      s.takeShapes c [p.src.toNat, p.dst.toNat] = (sh, u) →
      ∃ t : State, exec (.collectiveChunk core) s₀ = .next t ∧ t.mem = u.mem ∧ (t.core core).lastComm = (s.core core).lastComm ∧
        (t.core core).parts comm =
          ((s.core core).parts comm).map (fun y => if y.id = p.id then { p with started := true, shapes := sh } else y) ∧
        t.colls = s.colls.map (fun y => if y.uid = x.uid then { y with seen := (y.seen ++ u.coverOf c).dedup } else y)) ∧
    (p.started = true → s.mismatched x p = true → exec (.collectiveChunk core) s₀ = .next (s.endInstance x 0x09 none)) ∧
    (∀ (m : Msg) (off : Nat) (d : Member) (o : CollPart) (bs : List Byte) (pl : List (Option Spot)) (u v : State),
      p.started = true → s.mismatched x p = false → x.slot ≠ none → p.released = true → s.partCut c x p = false →
      p.kind = .bcast ∨ p.kind = .agath → nextMsg (p.msgs n q p.round) p.sent = some (m, off) →
      x.members[m.dest]? = some d → d.far = none → s.partOf x d.at_ = some o → o.started = true → o.suspended = false → o.status = 0 →
      let most := 2 ^ e.chunk / max 1 p.elem * p.elem
      let len := if most < m.len - off then most else m.len - off
      let at_ := (if p.kind = .agath then q * p.len else 0) + off
      s.engReadAll c p.shapes false (wrapAt (p.src + BitVec.ofNat 64 off) len) = ((bs, []), u) →
      u.engTargets d.at_ o.shapes false false (wrapAt (o.dst + BitVec.ofNat 64 at_) len) = ((pl, []), v) → Memory.wf v.mem = true →
      ∃ t : State, exec (.collectiveChunk core) s₀ = .next t ∧ BytesAt d.at_.core pl bs [] v t ∧
        (t.core core).lastComm = comm.toNat) ∧
    (p.started = true → s.mismatched x p = false → x.slot ≠ none → p.released = true → s.partCut c x p = false → p.kind = .barrier →
      p.out = none → nextMsg (p.msgs n q p.round) p.sent = none → p.whole n q p.round = true → s.unmet x p n q = false →
      ∃ t : State, exec (.collectiveChunk core) s₀ = .next t ∧ t.mem = s.mem ∧
        (t.core core).parts comm = ((s.core core).parts comm).map (fun y => if y.id = p.id then
          { p with round := p.round + 1, sent := 0, work := 0, out := none, trig := if p.round = 0 then p.trig else none } else y))) ∧
  (∀ (core : CoreId) (comm : BitVec 8) (cs : List (BitVec 8)) (p : CollPart) (ps : List CollPart) (x : Coll) (e : CommEntry) (s₀ s : State),
    let c : CtxId := { core := core, ctx := p.ctx }
    s₀.linkProgress = s → s.commOrder core = comm :: cs → (s.core core).activeParts comm = p :: ps → p.comm = comm →
    s.collOf c comm p.k = some x → s.commEntry (s.ctx c) comm = some e → p.suspended = false → p.atEnd x.members.length = false →
    x.ended = true → exec (.collectiveChunk core) s₀ = .next (s.setPartOf core { p with status := x.why })) ∧
  (∀ (core : CoreId) (comm : BitVec 8) (p : CollPart) (ps : List CollPart) (x : Coll) (s₀ s : State),
    let c : CtxId := { core := core, ctx := p.ctx }
    let rounds := match p.kind with | .allred => 2 * (x.members.length - 1) | _ => x.members.length - 1
    s₀.linkProgress = s →
    (s.core core).activeParts comm = p :: ps → p.comm = comm → s.collOf c comm p.k = some x → p.suspended = false →
    p.status ≠ 0 ∨ rounds < p.round → s.owing core p.id = [] → p.stamp = none →
    ∃ t : State, exec (.collectiveComplete core comm) s₀ = .next t ∧ t.mem = s.mem ∧
      (t.ctx c).sticky = (s.ctx c).sticky ||| p.flags ∧
      (t.core core).parts comm = ((s.core core).parts comm).filter (fun y => y.id != p.id) ∧
      (∀ m : BitVec 6, p.trig = some m → p.status ≠ 0 → Assoc.find (t.core core).triggers m.toNat = none)) ∧
  (∀ (core : CoreId) (comm : BitVec 8) (p : CollPart) (ps : List CollPart) (x : Coll) (e : CommEntry) (m : Member) (s : State),
    let c : CtxId := { core := core, ctx := p.ctx }
    let here (y : Coll) : Bool := match y.members[0]? with | some m => m.far.isNone | none => true
    let used := (s.colls.filter (fun y => y.slot == some true && here y)).length
    let before := (s.colls.filter (fun y => decide (y.part.toNat < x.part.toNat) && s.asksSlot y)).length
    (s.core core).activeParts comm = p :: ps → s.collOf c comm p.k = some x → s.commEntry (s.ctx c) comm = some e →
    p.started = true → x.members[0]? = some m → m.far = none → m.at_ = c → x.slot = none → x.ended = false →
    used + before < 32 ∨ e.alg ≠ 2 →
    ∃ t : State, exec (.switchSlotRequest core comm) s = .next t ∧ t.mem = s.mem ∧ t.cores = s.cores ∧
      t.colls = s.colls.map (fun y => if y.uid = x.uid then { y with slot := some (decide (used + before < 32)) } else y))

end
-- Launches and virtual devices --------------------------------------------------------------------------------------

namespace Sys2Proof.Machine

/-- The graph in progress of a partition: fetched, with its launches under different numbers. -/
def InProgress (s : State) (part : BitVec 6) (g : Graph) : Prop :=
  s.graphOf part = some g ∧ g.fetched = true ∧ (g.launches.map (·.uid)).Nodup

/-- What a launch becomes when its graph stops (R307): one that has not reached RUNNING ends with status 0x0F. -/
def stoppedRule (l : Launch) : Nat × LState × BitVec 8 :=
  match l.st with
  | .pending | .loading | .binding => (l.uid, .ended, 0x0F)
  | st => (l.uid, st, l.status)

/-- Number, state and status of every launch of the graph in progress. -/
def State.launchStates (s : State) (part : BitVec 6) : Option (List (Nat × LState × BitVec 8)) :=
  (s.graphOf part).map (fun g => g.launches.map (fun l => (l.uid, l.st, l.status)))

/-- The launches of a graph in which one ends with a status and every other stops (R307). -/
def endedRule (g : Graph) (uid : Nat) (status : BitVec 8) : List (Nat × LState × BitVec 8) :=
  g.launches.map (fun l => if l.uid = uid then (uid, .ended, status) else stoppedRule l)

/-- The lowest context number of a mask. -/
def lowestIn (mask : BitVec 4) (n : BitVec 2) : Bool :=
  mask.getLsbD n.toNat && (List.range n.toNat).all (fun m => !mask.getLsbD m)

/-- A context as a launch binds it (R102, R277, R281, R305): scrubbed, at the offset of its entry. -/
def boundRule (part : BitVec 6) (l : Launch) (c : Code) (logical : Nat) (n : BitVec 2) (e : Entry) : Context :=
  { Context.reset with
    st := .scrub, launch := some l.uid, part := part, code := l.code, thread := BitVec.ofNat 13 (4 * logical + n.toNat)
    mat := e.mat && lowestIn e.mask n, prio := l.prio, mmr1 := decide (c.mmr = 1), pyrino := c.pyrino, entryOff := e.off
    user := { Flow.reset with pc := e.off.setWidth 32 } }

/-- Cores that can take a launch (R20, R305, R307): their terraces compute, and no context of them is bound. -/
def CoresOpen (s : State) (part : BitVec 6) (l : Launch) : Prop :=
  ∀ x ∈ s.coresOf part l, (s.terrace (terraceOf x.2)).st = .compute ∧ ∀ n : BitVec 2, (s.ctx { core := x.2, ctx := n }).launch = none

/-- A key of a core's scratchpad, or of its kept tags. -/
def padKeyRule (g : CoreId) (k : Nat) : Bool :=
  (decide (2 ^ 56 + g.toNat * 2 ^ 24 ≤ k) && decide (k < 2 ^ 56 + g.toNat * 2 ^ 24 + 2 ^ 24)) ||
    (decide (2 ^ 60 + 2 ^ 50 + g.toNat * 2 ^ 18 ≤ k) && decide (k < 2 ^ 60 + 2 ^ 50 + g.toNat * 2 ^ 18 + 2 ^ 18))

end Sys2Proof.Machine

section
open Sys2Proof Sys2Proof.Machine

/-- LAUNCH_LOADING and DICTIONARY_PRELOAD (R303, R305, R307, R308): a PENDING launch whose predecessors are complete, whose cores are
free and whose object and record pass every check is LOADING; one with a predecessor that ended otherwise ends with status
0x0F and stops its graph; a dictionary comes into the half of each core that its running contexts do not use. -/
def Sys2Proof.Claims.LaunchLoadingEvents : Prop :=
  (∀ (part : BitVec 6) (uid : Nat) (g : Graph) (l : Launch) (c : Code) (s : State),
    InProgress s part g → l ∈ g.launches → l.uid = uid → l.st = .pending →
    (∀ i ∈ l.preds, ∀ p, g.launches[i]? = some p → p.st = .complete) → s.draining part = false →
    CoresOpen s part l → Assoc.find (s.part part).codes l.code = some c →
    c.status = 0 → c.dataWritten = true → l.recordBad g.launches.length (s.part part).harness.length = false →
    ∃ t : State, exec (.launchLoading part uid) s = .next t ∧ t.mem = s.mem ∧ t.cores = s.cores ∧
      t.graphOf part =
        some { g with launches := g.launches.map (fun x => if x.uid = uid then { x with st := .loading } else x) }) ∧
  (∀ (part : BitVec 6) (uid : Nat) (g : Graph) (l m : Launch) (s : State),
    InProgress s part g → l ∈ g.launches → l.uid = uid → l.st = .pending →
    (∃ i ∈ l.preds, ∃ p, g.launches[i]? = some p ∧ p.st = .ended) → m ∈ g.launches → m.st = .running →
    ∃ t : State, exec (.launchLoading part uid) s = .next t ∧ t.launchStates part = some (endedRule g uid 0x0F)) ∧
  (∀ (part : BitVec 6) (uid : Nat) (g : Graph) (l : Launch) (c : Code) (s : State),
    InProgress s part g → l ∈ g.launches → l.uid = uid → l.st = .binding →
    Assoc.find (s.part part).codes l.code = some c → c.status = 0 →
    ∃ t : State, exec (.dictionaryPreload part uid) s = .next t ∧ t.mem = s.mem ∧ (∀ x : CtxId, t.ctx x = s.ctx x) ∧
      ∀ y ∈ s.coresOf part l,
        (((s.core y.2).dictHalf (c.uid)).isSome = true → t.core y.2 = s.core y.2) ∧
        (((s.core y.2).dictHalf (c.uid)).isSome = false →
          let used : Prop := ∃ n : BitVec 2, ((s.core y.2).ctx n).launch ≠ none ∧ ((s.core y.2).ctx n).st ≠ .scrub ∧
            ((s.core y.2).ctx n).half = false
          (used → (t.core y.2).dict[1] = c.dict ∧ (t.core y.2).dictOf[1] = some (c.uid) ∧
            (t.core y.2).dict[0] = (s.core y.2).dict[0]) ∧
          (¬ used → (t.core y.2).dict[0] = c.dict ∧ (t.core y.2).dictOf[0] = some (c.uid) ∧
            (t.core y.2).dict[1] = (s.core y.2).dict[1])))

/-- LAUNCH_BIND, LAUNCH_RUNNING and WALKER_PLACE (R26, R305, R307, R310, R327, R408): on every core of a loaded launch the contexts
that its entries name are bound and scrubbed, the others are FREE, the declared flags are zero and owned, the queues are
empty, and a scratchpad that another tenant used is zero. That its kept tags are then cleared, that the core's caches and published bytes
are empty at a binding, and that the matrix engine belongs to the lowest context of the entry's mask on each core are the model's choice
(log entries 25, 26 and 59). Once the dictionary is resident the contexts become READY; and
the walker places a returned point first, else the next one in lexicographic order. -/
def Sys2Proof.Claims.LaunchStartEvents : Prop :=
  (∀ (part : BitVec 6) (uid : Nat) (g : Graph) (l : Launch) (c : Code) (s : State),
    Memory.wf s.mem = true → InProgress s part g → l ∈ g.launches → l.uid = uid → l.st = .loading →
    Assoc.find (s.part part).codes l.code = some c → c.symm = none → CoresOpen s part l →
    (∀ x ∈ s.coresOf part l, ∀ n : BitVec 3, (s.core x.2).lane n = []) →
    (∀ v, (s.part part).running = some v → (s.vdev v).forms = []) → ((s.coresOf part l).map (·.2)).Nodup →
    let tenant : BitVec 16 := (s.vdev ((s.part part).running.getD 0)).cfg.extractLsb' 48 16
    ∃ t : State, exec (.launchBind part uid) s = .next t ∧
      t.graphOf part =
        some { g with launches := g.launches.map (fun x => if x.uid = uid then { x with st := .binding } else x) } ∧
      (∀ k : Nat, memRead t.mem k =
        (if (s.coresOf part l).any (fun y => (s.core y.2).lastTenant != some tenant && padKeyRule y.2 k) then 0 else memRead s.mem k)) ∧
      ∀ y ∈ s.coresOf part l,
        (∀ n : BitVec 2, match c.entries.find? (fun e => e.mask.getLsbD n.toNat) with
          | some e => ∃ chans, t.ctx { core := y.2, ctx := n } = { boundRule part l c y.1 n e with chans := chans }
          | none => (t.ctx { core := y.2, ctx := n }).st = .free ∧ (t.ctx { core := y.2, ctx := n }).launch = none ∧
            (t.ctx { core := y.2, ctx := n }).registers = (s.ctx { core := y.2, ctx := n }).registers) ∧
        (t.core y.2).bound = some uid ∧ (t.core y.2).boundPart = part ∧ (t.core y.2).flagsOwned = c.flags ∧
        (t.core y.2).lastTenant = some tenant ∧
        (∀ f : BitVec 5, (t.core y.2).flag f = if c.flags.getLsbD f.toNat then 0 else (s.core y.2).flag f) ∧
        (t.core y.2).pub = [] ∧ (t.core y.2).lines = [] ∧ (t.core y.2).tlb = [] ∧ (t.core y.2).records = [] ∧
        (t.core y.2).fa = [] ∧ (t.core y.2).fb = [] ∧ (∀ q : Fin 8, (t.core y.2).rq[q] = RQueue.empty) ∧
        ((∃ e ∈ c.entries, e.mat = true) → (t.core y.2).mstate = .unset)) ∧
  (∀ (part : BitVec 6) (uid : Nat) (g : Graph) (l : Launch) (c : Code) (s : State),
    InProgress s part g → l ∈ g.launches → l.uid = uid → l.st = .binding → Assoc.find (s.part part).codes l.code = some c →
    (∀ y ∈ s.coresOf part l, ((s.core y.2).dictHalf (c.uid)).isSome = true) →
    ∃ t : State, exec (.launchRunning part uid) s = .next t ∧ t.mem = s.mem ∧
      t.graphOf part =
        some { g with launches := g.launches.map (fun x => if x.uid = uid then { x with st := .running } else x) } ∧
      (∀ x ∈ s.launchCtxs uid, t.ctx x =
        { s.ctx x with st := .ready, half := ((s.core x.core).dictHalf (c.uid)).getD false }) ∧
      ∀ x : CtxId, (s.ctx x).launch ≠ some uid → t.ctx x = s.ctx x) ∧
  (∀ (part : BitVec 6) (uid : Nat) (core : CoreId) (g : Graph) (l : Launch) (n : BitVec 2) (s : State),
    InProgress s part g → l ∈ g.launches → l.uid = uid → l.st = .running → (s.core core).bound = some uid →
    (s.core core).points.length < 8 → ((s.core core).ctx n).launch = some uid →
    (∀ (p : Point) (r : List Point), l.returned = p :: r → ((s.core core).ctx n).mayDraw p = true →
      ∃ t : State, exec (.walkerPlace part uid core) s = .next t ∧ (t.core core).points = (s.core core).points ++ [p] ∧
        t.graphOf part =
          some { g with launches := g.launches.map (fun x => if x.uid = uid then { x with returned := r } else x) }) ∧
    (l.returned = [] → l.elems = [] →
      let e1 := l.extents.getD 1 1
      let e2 := l.extents.getD 2 1
      l.nextPoint < l.extents.prod →
      let p : Point := { i0 := BitVec.ofNat 24 (l.nextPoint / (e1 * e2)), i1 := BitVec.ofNat 24 (l.nextPoint / e2 % e1),
                         i2 := BitVec.ofNat 24 (l.nextPoint % e2) }
      ((s.core core).ctx n).mayDraw p = true →
      ∃ t : State, exec (.walkerPlace part uid core) s = .next t ∧ (t.core core).points = (s.core core).points ++ [p] ∧
        t.graphOf part =
          some { g with launches := g.launches.map (fun x => if x.uid = uid then { x with nextPoint := l.nextPoint + 1 } else x) }))

/-- LAUNCH_COMPLETE, OPERATOR_OVERRUN and END_OPERATOR (R277, R285, R306, R307, R309, R327), in a graph where another launch runs on: a
launch whose contexts are all FREE is COMPLETE with status 0, its record says so, and its cores are free for the next; an
overrun stops every context that has not exited with code 0x11 and ends the launch with status 0x0D; system software ends
one with status 0x0E and its contexts are FREE. -/
def Obligations.LaunchEndEvents : Prop :=
  (∀ (part : BitVec 6) (uid : Nat) (g : Graph) (l m : Launch) (c : Code) (s : State),
    InProgress s part g → l ∈ g.launches → l.uid = uid → l.st = .running → m ∈ g.launches → m.uid ≠ uid → m.st = .running →
    (∀ x : CtxId, (s.ctx x).launch ≠ some uid) → Assoc.find (s.part part).codes l.code = some c → c.status = 0 → c.symm = none →
    l.elems = [] →
    let done := g.launches.map (fun x => if x.uid = uid then { x with st := .complete, status := 0 } else x)
    ∃ (t u : State) (elapsed : Nat), exec (.launchComplete part uid) s = .next t ∧ t.graphOf part = some { g with launches := done } ∧
      (∀ core : CoreId, (s.core core).bound = some uid → (t.core core).bound = none ∧ (t.core core).flagsOwned = 0) ∧
      u.mem = s.mem ∧ u.cores = s.cores ∧ u.parts = s.parts ∧ elapsed < 2 ^ 32 ∧
      t.mem = (u.sequencerWrite part (s.vfOf part) l.completion
        (natBytes 8 0 ++ natBytes 4 (min (l.extents.prod - l.drawnCount) (2 ^ 32 - 1)) ++ natBytes 4 elapsed) (s.threadsOf part l 0)).mem) ∧
  (∀ (part : BitVec 6) (uid : Nat) (g : Graph) (l m : Launch) (s : State),
    InProgress s part g → l ∈ g.launches → l.uid = uid → l.st = .running → m ∈ g.launches → m.uid ≠ uid → m.st = .running →
    (∀ x ∈ s.launchCtxs uid, (s.ctx x).st = .stopped → (s.ctx x).stopWhy ≠ .debug) →
    ∃ t : State, exec (.operatorOverrun part uid) s = .next t ∧ t.launchStates part = some (endedRule g uid 0x0D) ∧
      ∀ x ∈ s.launchCtxs uid,
        (s.ctx x).st ∈ [CState.ready, .blocked, .away, .trapped, .stopped, .saved] →
        (t.ctx x).fcause = causeWord 0x11 0xF (s.ctx x).pyrino false 0 ∧
        (t.ctx x).st = (if (s.ctx x).st = .saved then .saved else .stopped) ∧ (t.ctx x).user = (s.ctx x).user) ∧
  (∀ (part : BitVec 6) (uid : Nat) (g : Graph) (l m : Launch) (s : State),
    InProgress s part g → l ∈ g.launches → l.uid = uid → l.st = .running ∨ l.st = .binding →
    m ∈ g.launches → m.uid ≠ uid → m.st = .running →
    (∀ x : CtxId, (s.ctx x).launch = some uid → (s.ctx x).part = part) →
    ∃ t : State, exec (.endOperator part uid) s = .next t ∧ t.launchStates part = some (endedRule g uid 0x0E) ∧
      ∀ x ∈ s.launchCtxs uid, (t.ctx x).st = .free ∧ (t.ctx x).launch = none)

/-- LAUNCH_BIND where the device brings restartable commands (R256, R409): the first that its lane has room for stands last there, with
the bytes that it had delivered, before any context is bound; one for which there is no room stays with the device. The lane,
the number and the context 0 of the launch's first core are the model's choice (log entry 64). -/
def Sys2Proof.Claims.RestartableCommandsResume : Prop :=
  ∀ (part : BitVec 6) (uid v : Nat) (g : Graph) (l : Launch) (c : Code) (form : List Byte) (lane : BitVec 3) (op : CmdOp)
      (stamp : Option Stamp) (done : Nat) (logical : Nat) (core : CoreId) (rest : List (Nat × CoreId)) (s : State),
    InProgress s part g → l ∈ g.launches → l.uid = uid → l.st = .loading →
    Assoc.find (s.part part).codes l.code = some c → c.symm = none → CoresOpen s part l → (s.part part).running = some v →
    (s.vdev v).forms = [form] → commandOfForm form = some (lane, op, stamp, done) → s.coresOf part l = (logical, core) :: rest →
    let k := s.core core
    ∃ t : State, exec (.launchBind part uid) s = .next t ∧ t.mem = s.mem ∧ t.graphOf part = s.graphOf part ∧
      (if (k.lane lane).length < 16 then
        (t.core core).lane lane = k.lane lane ++ [.cmd { queuedRule k.nextId 0 op stamp with delivered := done }] ∧ (t.vdev v).forms = []
       else (t.core core).lanes = k.lanes ∧ (t.vdev v).forms = [form])

/-- SWITCH_POINT (R405, R406): the running device leaves at an operator boundary, its vt raised by its time times 256 over its
weight; of the READY devices, weighted before unweighted, one with the least vt and of those the lowest number runs. A context that an overrun
has left bound counts as an operator under way, which is the model's choice (log entry 93). -/
def Sys2Proof.Claims.SwitchPointEvent : Prop :=
  (∀ (part : BitVec 6) (v : Nat) (s : State),
    let d (n : Nat) : VDev := s.vdev n
    let rival (n : Nat) : Prop := n ∈ s.devicesOf part ∧ (d n).isReady = true
    let weight (n : Nat) : Nat := (d n).cfg.toNat / 2 ^ 24 % 2 ^ 8
    (s.part part).formed = true → (s.part part).running = none → s.someBound part = false → s.draining part = false →
    (∀ n, (d n).nextCfg = none) → (s.vdevs.map (·.1)).Nodup → rival v →
    (weight v = 0 → ∀ n, rival n → weight n = 0) →
    (∀ n, rival n → (weight n = 0 ↔ weight v = 0) → (d v).vt < (d n).vt ∨ ((d v).vt = (d n).vt ∧ v ≤ n)) →
    ∃ t : State, exec (.switchPoint part) s = .next t ∧ (t.part part).running = some v ∧ (t.vdev v).st = .running) ∧
  (∀ (part : BitVec 6) (v : Nat) (s : State),
    (s.part part).formed = true → (s.part part).running = some v → s.atBoundary part = true → s.draining part = true →
    (∀ n, (s.vdev n).nextCfg = none) →
    let weight := (s.vdev v).cfg.toNat / 2 ^ 24 % 2 ^ 8
    ∃ (t : State) (micros : Nat), exec (.switchPoint part) s = .next t ∧ t.mem = s.mem ∧ (t.part part).running = none ∧
      (t.vdev v).st = (if (s.vdev v).st = .running then (if (s.vdev v).graphs = [] then .idle else .ready) else (s.vdev v).st) ∧
      (t.vdev v).vt = (if weight = 0 then (s.vdev v).vt else (s.vdev v).vt + micros * 256 / weight)) ∧
  (∀ (part : BitVec 6) (s : State), s.someBound part = true →
    ∃ t : State, exec (.switchPoint part) s = .next t ∧ t.mem = s.mem ∧ t.cores = s.cores ∧ t.parts = s.parts ∧ t.vdevs = s.vdevs)

/-- GSUBMIT and GSTAT_WRITE (R410, R411): a graph that a device can take stands last in its queue; otherwise, and only then, the
overflow bit is set; the device whose time slice it is and which had nothing left to run, and no context of an overrun launch still bound (log entry 93), gives the slice up first (R406); writing 1 to that
bit clears it. -/
def Sys2Proof.Claims.GraphSubmission : Prop :=
  (∀ (vf : BitVec 10) (v : Word) (s : State),
    let d := s.vdev vf.toNat
    let takes : Prop := d.st ≠ .resetting ∧ d.st ≠ .disabled ∧ d.graphs.length < 4 ∧ v.toNat < 2 ^ 52 ∧ v.toNat % 64 = 0
    (¬ takes → exec (.gsubmit vf v) s = .next (s.updVdev vf.toNat (fun d => { d with overflow := true }))) ∧
    (takes → (s.part d.part).running ≠ some vf.toNat ∨ (∃ g r, d.graphs = g :: r ∧ g.fetched = true) →
      ∃ t : State, exec (.gsubmit vf v) s = .next t ∧ t.mem = s.mem ∧
        (t.vdev vf.toNat).graphs =
          d.graphs ++ [{ addr := v.toNat, fetched := false, completion := 0, status := 0, launches := [] }] ∧
        (t.vdev vf.toNat).st = (if d.st = .idle then .ready else d.st) ∧ (t.vdev vf.toNat).overflow = d.overflow) ∧
    (takes → (s.part d.part).running = some vf.toNat → d.st = .running → d.graphs = [] → s.someBound d.part = false →
      let weight := d.cfg.toNat / 2 ^ 24 % 2 ^ 8
      ∃ (t : State) (micros : Nat), exec (.gsubmit vf v) s = .next t ∧ t.mem = s.mem ∧ (t.part d.part).running = none ∧
        (t.vdev vf.toNat).graphs = [{ addr := v.toNat, fetched := false, completion := 0, status := 0, launches := [] }] ∧
        (t.vdev vf.toNat).st = .ready ∧
        (if weight = 0 then d.vt else d.vt + micros * 256 / weight) ≤ (t.vdev vf.toNat).vt)) ∧
  (∀ (vf : BitVec 10) (v : Word) (s : State), ∃ t : State, exec (.gstatWrite vf v) s = .next t ∧ t.mem = s.mem ∧
    (t.vdev vf.toNat).overflow = ((s.vdev vf.toNat).overflow && !v.getLsbD 3) ∧
    (t.vdev vf.toNat).graphs = (s.vdev vf.toNat).graphs)

end
-- Terraces, partitions and virtual devices --------------------------------------------------------------------------

namespace Sys2Proof.Machine

/-- The role code of a terrace in a map (R396). -/
def roleRule (map t : Nat) : Nat := map / 4 ^ t % 4

/-- The state that a role leads to. -/
def roleGoal (c : Nat) : TState := if c = 1 then .compute else if c = 2 then .reservoir else .offline

/-- Compute terraces of a cascade in a map, and the heat budget (R17, R397). -/
def computeIn (map c : Nat) : Nat := ((List.range 4).filter (fun t => roleRule map (4 * c + t) == 1)).length
def heatRule (high : Bool) (map : Nat) : Bool := (List.range 4).all (fun c => high || decide (computeIn map c ≤ 3))

/-- The status of a ROLEMAP write (R396, R397), with only terrace (0,0) allowed a role in trickle mode (R415). -/
def rolemapRule (s : State) (v : Word) : BitVec 8 :=
  let map := v.toNat % 2 ^ 32
  let old := s.rolemap.toNat
  let some_ (p : Nat → Bool) : Bool := (List.range 16).any p
  if decide (2 ^ 32 ≤ v.toNat) || some_ (fun t => roleRule map t == 3) || (s.bootTrickle && decide (4 ≤ map)) then 0x03
  else if some_ (fun t => (s.terrace t).busy) then 0x02
  else if some_ (fun t => roleRule map t != roleRule old t && decide ((s.terrace t).st = .failed)) then 0x04
  else if heatRule s.coolantHigh map = false then 0x01
  else if some_ (fun t => decide ((s.terrace t).st = .compute) && roleRule map t != 1 && s.terraceHeld t) then 0x05
  else 0

/-- What a terrace does when its role becomes `want` (R399): its sequence starts. -/
def SequenceStarts (want : TState) (x y : Terrace) : Prop :=
  (x.st = .offline → want = .compute → y.st = .enumerating ∧ y.busy = true ∧ (y.target = .compute ∨ y.target = .failed)) ∧
  (x.st = .offline → want = .reservoir → y.st = .flushing ∧ y.busy = true ∧ y.target = .reservoir) ∧
  (x.st = .compute ∨ x.st = .reservoir → want ≠ x.st → y.st = .draining ∧ y.busy = true ∧ y.target = want ∧ y.leaving = x.st)

/-- The status of a VDCFG write (R405): its reserved bits are ignored (R7), and the order of the checks is the model's choice (log
entry 28). -/
def cfgRule (s : State) (v : Word) : BitVec 8 :=
  let p := s.part (BitVec.ofNat 6 v.toNat)
  let quantum := v.toNat / 2 ^ 32 % 2 ^ 16
  if quantum = 0 then 0x20
  else if p.formed = false then 0x22
  else if quantum < p.opBound + 16 then 0x21
  else 0

/-- A VDCFG value as it is kept (R7, R405): its reserved bits [23:7] read zero. -/
def cfgKeptRule (v : Word) : Word := BitVec.ofNat 64 (v.toNat / 2 ^ 24 * 2 ^ 24 + v.toNat % 2 ^ 7)

/-- The range of a TINV (R359): its first address and its size. -/
def invalidRule (v : Word) : Nat × Nat :=
  let code := v.toNat / 2 ^ 56 % 4
  let size := if code = 0 then 2 ^ 16 else if code = 1 then 2 ^ 21 else 2 ^ 30
  let base := v.toNat / 2 ^ 16 % 2 ^ 36 * 2 ^ 16
  if code = 3 then (0, 2 ^ 52) else (base - base % size, size)

/-- A translation that no address of a range uses. -/
def outsideRange (e : TlbEntry) (r : Nat × Nat) : Bool := decide (e.va + e.size ≤ r.1) || decide (r.1 + r.2 ≤ e.va)

/-- A byte of the pages that system software releases (R408): which those are is free (log entry 99). -/
def releasedRule (pages : List (Nat × Nat)) (k : Nat) : Prop :=
  ∃ r ∈ pages, (r.1 + r.2) * 2 ^ 16 ≤ 2 ^ 52 ∧ r.1 * 2 ^ 16 ≤ k ∧ k < (r.1 + r.2) * 2 ^ 16

/-- A virtual function that is reset (R408): it is RESETTING with no graph, and where it ran, its partition has no device and its
contexts there are FREE. -/
structure ResetStarted (v : Nat) (s t : State) : Prop where
  st : (t.vdev v).st = .resetting
  graphs : (t.vdev v).graphs = []
  slice : (s.part (s.vdev v).part).running = some v → (t.part (s.vdev v).part).running = none
  contexts : (s.part (s.vdev v).part).running = some v → ∀ x : CtxId, (s.ctx x).launch ≠ none → (s.ctx x).part = (s.vdev v).part →
    (t.ctx x).st = .free ∧ (t.ctx x).launch = none

end Sys2Proof.Machine

section
open Sys2Proof Sys2Proof.Machine

/-- ROLEMAP, ROLEBOOT and TCTL (R396 to R399, R415): a write is judged by the checks in their order; a refused one changes nothing
but the status; an accepted map is in force, and every terrace whose role changes starts its sequence; a re-enumerate
drains a COMPUTE terrace, and a release takes a FAILED one to OFFLINE. That a release of a terrace which is not FAILED answers 0x03, and that
ROLEMAP then holds OFFLINE for a released one, are the model's choice (log entry 62). -/
def Obligations.RoleEvents : Prop :=
  (∀ (v : Word) (s : State),
    (rolemapRule s v ≠ 0 → exec (.rolemapWrite v) s = .next { s with mstatus := rolemapRule s v }) ∧
    (rolemapRule s v = 0 → ∃ t : State, exec (.rolemapWrite v) s = .next t ∧ t.mstatus = 0 ∧ t.rolemap.toNat = v.toNat ∧
      t.mem = s.mem ∧
      ∀ n : Nat, n < 16 → roleGoal (roleRule s.rolemap.toNat n) = (s.terrace n).st →
        SequenceStarts (roleGoal (roleRule v.toNat n)) (s.terrace n) (t.terrace n) ∧
        (roleRule v.toNat n = roleRule s.rolemap.toNat n → (t.terrace n).st = (s.terrace n).st ∧ (t.terrace n).busy = false))) ∧
  (∀ (v : Word) (s : State),
    let bad := 2 ^ 32 ≤ v.toNat ∨ ∃ t < 16, roleRule v.toNat t = 3
    let hot := heatRule s.coolantHigh (v.toNat % 2 ^ 32) = false
    (bad → exec (.rolebootWrite v) s = .next { s with mstatus := 0x03 }) ∧
    (¬ bad → hot → exec (.rolebootWrite v) s = .next { s with mstatus := 0x01 }) ∧
    (¬ bad → ¬ hot → exec (.rolebootWrite v) s = .next { s with mstatus := 0, roleboot := v })) ∧
  (∀ (n : BitVec 4) (s : State), (∀ t < 16, (s.terrace t).busy = false) → (s.terrace n.toNat).st = .compute →
    ∃ t : State, exec (.tctlReEnumerate n) s = .next t ∧ t.mstatus = 0 ∧ t.rolemap = s.rolemap ∧
      (t.terrace n.toNat).st = .draining ∧ (t.terrace n.toNat).busy = true ∧ (t.terrace n.toNat).target = .compute ∧
      (t.terrace n.toNat).leaving = .compute ∧ ∀ m : Nat, m ≠ n.toNat → t.terrace m = s.terrace m) ∧
  (∀ (n : BitVec 4) (s : State),
    ((s.terrace n.toNat).st ≠ .failed → exec (.tctlReleaseFailed n) s = .next { s with mstatus := 0x03 }) ∧
    ((s.terrace n.toNat).st = .failed → ∃ t : State, exec (.tctlReleaseFailed n) s = .next t ∧ t.mstatus = 0 ∧
      (t.terrace n.toNat).st = .offline ∧ roleRule t.rolemap.toNat n.toNat = 0 ∧
      ∀ m : Nat, m < 16 → m ≠ n.toNat → t.terrace m = s.terrace m ∧ roleRule t.rolemap.toNat m = roleRule s.rolemap.toNat m))

/-- The sequences of a terrace (R399 to R402): a drain is complete once every core of the terrace is idle; a flush leads to OFFLINE
with the busy bit clear, or on to ENUMERATING, with a reservoir's bytes and tags copied to the address that its first eight bytes
name, or its range zero; enumeration leads to the requested role, or to FAILED with cause 1; an error in terrace logic leads
to FAILED with cause 2. That a core of a terrace which gives its role up has no last tenant any more is the model's choice (log entry 100). -/
def Obligations.TerraceSequences : Prop :=
  (∀ (n : BitVec 4) (s : State), (s.terrace n.toNat).st = .draining → (s.terrace n.toNat).leaving = .compute →
    (∀ phys < 100, (s.core (BitVec.ofNat 11 (128 * n.toNat + phys))).idle = true) →
    ∃ t : State, exec (.drainComplete n) s = .next t ∧ t.terrace n.toNat = { s.terrace n.toNat with st := .flushing } ∧
      t.mem = s.mem ∧ t.cores = s.cores) ∧
  (∀ (n : BitVec 4) (s : State), (s.terrace n.toNat).st = .flushing → (s.terrace n.toNat).leaving = .compute →
    (s.terrace n.toNat).target = .offline →
    ∃ t : State, exec (.flushComplete n) s = .next t ∧ (t.terrace n.toNat).st = .offline ∧ (t.terrace n.toNat).busy = false ∧
      t.mem = s.mem ∧ ∀ phys < 100, (t.core (BitVec.ofNat 11 (128 * n.toNat + phys))).pub = [] ∧
        (t.core (BitVec.ofNat 11 (128 * n.toNat + phys))).lines = [] ∧
        (t.core (BitVec.ofNat 11 (128 * n.toNat + phys))).lastTenant = none) ∧
  (∀ (n : BitVec 4) (s : State), Memory.wf s.mem = true → (s.terrace n.toNat).st = .flushing →
    (s.terrace n.toNat).leaving = .reservoir → (s.terrace n.toNat).target = .offline ∨ (s.terrace n.toNat).target = .compute →
    let base := 2 ^ 40 + n.toNat / 4 * 2 ^ 36 + n.toNat % 4 * 2 ^ 29
    let size := 264 * 2 ^ 20
    let dest := bytesNat (memReadAll s.mem base 8) - bytesNat (memReadAll s.mem base 8) % 2 ^ 16
    (∀ k ∈ s.poison, k < base ∨ (base + size ≤ k ∧ k < 2 ^ 60)) → dest + size ≤ 2 ^ 52 → dest + size ≤ base ∨ base + size ≤ dest →
    ∃ t : State, exec (.flushComplete n) s = .next t ∧
      (t.terrace n.toNat).st = (if (s.terrace n.toNat).target = .offline then .offline else .enumerating) ∧
      (∀ o < size, memRead t.mem (dest + o) = memRead s.mem (base + o) ∧
        memRead t.mem (tagKey (dest + o)) = memRead s.mem (tagKey (base + o))) ∧
      ∀ k : Nat, k < 2 ^ 60 → k < dest ∨ dest + size ≤ k → memRead t.mem k = memRead s.mem k) ∧
  (∀ (n : BitVec 4) (s : State), Memory.wf s.mem = true → (s.terrace n.toNat).st = .flushing →
    (s.terrace n.toNat).leaving ≠ .reservoir → (s.terrace n.toNat).target = .reservoir →
    let base := 2 ^ 40 + n.toNat / 4 * 2 ^ 36 + n.toNat % 4 * 2 ^ 29
    let size := 264 * 2 ^ 20
    ∃ t : State, exec (.flushComplete n) s = .next t ∧ (t.terrace n.toNat).st = .enumerating ∧
      (∀ o < size, memRead t.mem (base + o) = 0 ∧ memRead t.mem (tagKey (base + o)) = 0) ∧
      ∀ k : Nat, k < 2 ^ 60 → k < base ∨ base + size ≤ k → memRead t.mem k = memRead s.mem k) ∧
  (∀ (n : BitVec 4) (s : State), (s.terrace n.toNat).st = .enumerating →
    ∃ t : State, exec (.enumerationComplete n) s = .next t ∧ (t.terrace n.toNat).busy = false ∧ t.mem = s.mem ∧
      (if (s.terrace n.toNat).target = .failed then (t.terrace n.toNat).st = .failed ∧ (t.terrace n.toNat).cause = 1
       else (t.terrace n.toNat).st = (s.terrace n.toNat).target)) ∧
  (∀ (n : BitVec 4) (s : State), ∃ t : State, exec (.terraceLogicError n) s = .next t ∧
    (t.terrace n.toNat).st = .failed ∧ (t.terrace n.toNat).cause = 2 ∧ (t.terrace n.toNat).busy = false)

/-- PCTL (R395, R403): a form whose record keeps its limits gives the partition its harness, tables and bounds; each refusal has
its status and changes nothing else, and reserved bits of the register are ignored (R7); a dissolve ends the partition's launches, frees
its contexts and empties the queues of its devices, and the copy commands in flight go to its running device (R256; log entry 64).
The order of the checks is the model's choice (log entry 28), and so is that an RTCOUNT outside its range is taken as it stands (log entry 108). -/
def Sys2Proof.Claims.PartitionEvents : Prop :=
  (∀ (part : BitVec 6) (addr : Word) (p : Partition) (cores ports : List Nat) (s : State),
    s.partRecord (addr.toNat % 2 ^ 52 / 64 * 64) = some (p, cores, ports) →
    ((s.part part).formed = true → exec (.pctlForm part addr) s = .next { s with mstatus := 0x22 }) ∧
    ((s.part part).formed = false → (∀ g ∈ cores, g < 2 ^ 11) → (∀ x ∈ ports, x ≤ 8) →
      (p.opBound < 250 ∨ 50000 < p.opBound → exec (.pctlForm part addr) s = .next { s with mstatus := 0x11 }) ∧
      (250 ≤ p.opBound → p.opBound ≤ 50000 →
        let usable (g : CoreId) : Prop := s.enabledCore g = true ∧ (s.terrace (g.toNat / 128)).st = .compute ∧
          ∀ q ∈ s.parts, q.2.formed = true → g ∉ q.2.harness
        let quantaFit : Prop := ∀ v ∈ s.vdevs, v.2.cfg.getLsbD 6 = true → v.2.cfg.toNat % 2 ^ 6 = part.toNat →
          p.opBound + 16 ≤ v.2.cfg.toNat / 2 ^ 32 % 2 ^ 16
        ((∃ g ∈ p.harness, ¬ usable g) → exec (.pctlForm part addr) s = .next { s with mstatus := 0x10 }) ∧
        ((∀ g ∈ p.harness, usable g) → p.harness.Nodup →
          (¬ quantaFit → exec (.pctlForm part addr) s = .next { s with mstatus := 0x21 }) ∧
          (quantaFit → exec (.pctlForm part addr) s = .next (({ s with mstatus := 0 } : State).setPart part p)))))) ∧
  (∀ (part : BitVec 6) (addr : Word) (s : State), (s.part part).formed = false → s.partRecord (addr.toNat % 2 ^ 52 / 64 * 64) = none →
    exec (.pctlForm part addr) s = .next { s with mstatus := 0x03 }) ∧
  (∀ (part : BitVec 6) (s : State),
    ((s.part part).formed = false → exec (.pctlDissolve part) s = .next { s with mstatus := 0x22 }) ∧
    ((s.part part).formed = true → ∃ t : State, exec (.pctlDissolve part) s = .next t ∧ t.mstatus = 0 ∧
      t.part part = Partition.reset ∧
      (∀ v : Nat, (s.part part).running = some v →
        (t.vdev v).forms = (s.vdev v).forms ++ (s.takeForms (s.part part).harness).1) ∧
      (∀ x : CtxId, (s.ctx x).launch ≠ none → (s.ctx x).part = part → (t.ctx x).st = .free ∧ (t.ctx x).launch = none) ∧
      ∀ n : Nat, (s.vdevs.map (·.1)).Nodup → n ∈ s.vdevs.map (·.1) → (s.vdev n).cfg.toNat % 2 ^ 6 = part.toNat →
        (t.vdev n).graphs = [] ∧ (t.vdev n).st ≠ .ready ∧ (t.vdev n).st ≠ .running))

/-- VDCFG, VDSTAT and resets of a virtual function (R405, R408): a VDCFG write is judged by its checks and an accepted one waits for
the next switch point; a reset ends what the function runs and empties its queue; and once no word or flit of its threads is on
its way and nothing is left in their lanes, its scratchpads and the memory that system software releases, by a free choice (log entry 99), are zero, tags cleared, and it is IDLE. The order of the checks of a
VDCFG (log entry 28), and that a reset ends IDLE also where the enable bit is clear (log entry 97), are the model's choice. -/
def Sys2Proof.Claims.VirtualDeviceEvents : Prop :=
  (∀ (vf : BitVec 10) (v : Word) (s : State),
    ∃ t : State, exec (.vdcfgWrite vf v) s = .next t ∧ t.mem = s.mem ∧ t.mstatus = cfgRule s v ∧
      t.vdev vf.toNat = { s.vdev vf.toNat with
        code := cfgRule s v, nextCfg := if cfgRule s v = 0 then some (cfgKeptRule v) else (s.vdev vf.toNat).nextCfg }) ∧
  (∀ (vf : BitVec 10) (v : Word) (s : State), (s.vdev vf.toNat).st ≠ .resetting →
    (v.getLsbD 63 = false → exec (.vdstatReset vf v) s = .next s) ∧
    (v.getLsbD 63 = true → ∃ t : State, exec (.vdstatReset vf v) s = .next t ∧ ResetStarted vf.toNat s t) ∧
    ∃ t : State, exec (.functionLevelReset vf) s = .next t ∧ ResetStarted vf.toNat s t) ∧
  (∀ (vf : BitVec 10) (s : State), Memory.wf s.mem = true → (s.vdev vf.toNat).st = .resetting →
    let d := s.vdev vf.toNat
    let mine (g : CoreId) : Prop := g ∈ (s.part d.part).harness ∧ (s.core g).bound = none ∧
      (s.core g).lastTenant = some (BitVec.ofNat 16 (d.cfg.toNat / 2 ^ 48))
    (∀ w ∈ s.words, ¬ mine w.src.core ∧ ¬ mine w.dst.core) → (∀ l ∈ s.links.toList, ∀ f ∈ l.flits, ¬ mine f.src.core) →
    (∀ g : CoreId, mine g → ∀ n : BitVec 3, (s.core g).lane n = []) →
    ∃ t : State, exec (.resetFlitDrain vf) s = .next t ∧ (t.vdev vf.toNat).st = .idle ∧
      (∀ (g : CoreId) (k : Nat), mine g → padKeyRule g k = true → memRead t.mem k = 0) ∧
      ∀ k : Nat, k < 2 ^ 60 →
        (releasedRule (Config.releasedMemory s.fresh) k → memRead t.mem k = 0 ∧ memRead t.mem (tagKey k) = 0) ∧
        (¬ releasedRule (Config.releasedMemory s.fresh) k →
          ((∀ g, mine g → padKeyRule g k = false) → memRead t.mem k = memRead s.mem k) ∧
          ((∀ g, mine g → padKeyRule g (tagKey k) = false) → memRead t.mem (tagKey k) = memRead s.mem (tagKey k))))

/-- MIGRATION_BOUNDARY and the restartable copy command (R256, R409): at the boundary of the launches that run, their lanes are
empty, their contexts are FREE, their copy commands go on with the device and they are complete; and the 64 bytes of an XCP in flight are
its source, destination, length with the bytes delivered, stamp descriptor, addend and control. That the forms wait with the
device, and that the area at which they are written is a device virtual address of the partition, are the model's choice (log entries 64
and 63). -/
def Sys2Proof.Claims.MigrationEvent : Prop :=
  (∀ (part : BitVec 6) (area : Nat) (g : Graph) (l m : Launch) (s : State),
    InProgress s part g → l ∈ g.launches → l.st = .running → (∀ x ∈ g.launches, x.st = .running → s.atMigration x.uid = true) →
    m ∈ g.launches → m.st = .pending →
    let live := g.launches.filter (fun x => decide (x.st = .running))
    ∃ t : State, exec (.migrationBoundary part area) s = .next t ∧
      (∀ r ∈ live, ∀ x ∈ s.launchCtxs r.uid,
        (t.ctx x).st = .free ∧ (t.ctx x).launch = none ∧ ∀ lane : BitVec 3, (t.core x.core).lane lane = []) ∧
      (∀ v : Nat, v < 2 ^ 10 → (s.part part).running = some v →
        (t.vdev v).forms = (s.vdev v).forms ++ (s.takeForms ((live.flatMap (fun r => s.launchCtxs r.uid)).map (·.core)).dedup).1) ∧
      t.launchStates part =
        some (g.launches.map (fun x => if x.st = .running then (x.uid, .complete, 0) else (x.uid, x.st, x.status)))) ∧
  (∀ (lane : BitVec 3) (c : Command) (dst src : Word) (len : Nat) (kept : Bool),
    c.op = .xcp dst src len kept → len < 2 ^ 32 → c.delivered < 2 ^ 32 →
    ∃ b : List Byte, restartable lane c = some b ∧ b.length = 64 ∧ fieldNat b 0 8 = src.toNat ∧ fieldNat b 8 8 = dst.toNat ∧
      fieldNat b 16 4 = len ∧ fieldNat b 20 4 = c.delivered ∧
      (∀ st : Stamp, c.stamp = some st → st.addr < 2 ^ 52 →
        fieldNat b 24 8 = st.addr + 2 ^ 52 * st.sc.code.toNat + 2 ^ 56 * st.add.toNat ∧ fieldNat b 32 8 = st.word.toNat) ∧
      (c.stamp = none → fieldNat b 24 16 = 0) ∧
      fieldNat b 40 8 = 1 + 2 ^ 8 * lane.toNat + 2 ^ 12 * kept.toNat ∧ fieldNat b 48 16 = 0)

/-- TINV_START, TINV_COMPLETE and HOST_MEMORY_ACCESS (R348, R358, R359, R419, R420): a TINV takes the translations of its range out of
every core of the partition, and at its completion their dirty bytes are written to memory, the lines
of plain addresses in the range have left their tile caches, and it is no longer busy; a host's write reaches memory whole or, where it meets a fault, not at
all. -/
def Sys2Proof.Claims.InvalidationAndHostAccess : Prop :=
  (∀ (part : BitVec 6) (v : Word) (s : State), (s.part part).formed = true → v.getLsbD 0 = true →
    ((s.part part).tinv ≠ none → exec (.tinvStart part v) s = .next s) ∧
    ((s.part part).tinv = none → ∃ t : State, exec (.tinvStart part v) s = .next t ∧ (t.part part).tinv = some v ∧ t.mem = s.mem ∧
      (∀ x : CtxId, t.ctx x = s.ctx x) ∧
      ∀ core : CoreId,
        let left := (s.core core).tlb.filter (fun e => outsideRange e (invalidRule v))
        (t.core core).tlb = left ∨
          (((s.core core).bound = none ∨ (s.core core).boundPart ≠ part) ∧ (t.core core).tlb = (s.core core).tlb))) ∧
  (∀ (part : BitVec 6) (v : Word) (s : State), (s.part part).tinv = some v →
    ∃ t : State, exec (.tinvComplete part) s = .next t ∧ (t.part part).tinv = none ∧
      ∀ core : CoreId, (s.core core).bound ≠ none → (s.core core).boundPart = part →
        (∀ e ∈ (t.core core).tlb, outsideRange e (invalidRule v) = true) ∧ (t.core core).pub = [] ∧
        ∀ n : BitVec 2, (t.ctx { core := core, ctx := n }).dirty = [] ∧
          (s.poison = [] → (t.ctx { core := core, ctx := n }).registers = (s.ctx { core := core, ctx := n }).registers)) ∧
  (∀ (part : BitVec 6) (v : Word) (s : State), (s.part part).tinv = some v → Memory.wf s.mem = true →
    ∃ t : State, exec (.tinvComplete part) s = .next t ∧
      ∀ core : CoreId, (s.core core).bound ≠ none → (s.core core).boundPart = part →
        (∀ va : Nat, LineTag.plain va ∈ (t.core core).lines →
          va + 1024 ≤ (invalidRule v).1 ∨ (invalidRule v).1 + (invalidRule v).2 ≤ va) ∧
        ∀ (n : BitVec 2) (k : Nat) (b : Byte), (k, b) ∈ (s.ctx { core := core, ctx := n }).dirty →
          (∀ d ∈ (s.ctx { core := core, ctx := n }).dirty, d.1 = k → d.2 = b) →
          (∀ x : CtxId, x ≠ { core := core, ctx := n } → ∀ d : Host.Cell, d ∈ (s.ctx x).dirty ∨ d ∈ (s.ctx x).pubDirty → d.1 ≠ k) →
          memRead t.mem k = b) ∧
  (∀ (vf : BitVec 10) (addr len : Nat) (s : State), ∃ t : State, exec (.hostMemoryAccess vf (.read addr len)) s = .next t ∧
    (∀ x : CtxId, (t.ctx x).registers = (s.ctx x).registers) ∧ t.vdevs = s.vdevs) ∧
  (∀ (vf : BitVec 10) (addr : Nat) (bs : List Byte) (s u : State), hostMisses addr = false →
    let p := (s.vdev vf.toNat).part
    (∀ ks : List (Option Nat), s.writeKeys p (piecesOf addr bs.length) = (.ok ks, u) → Memory.wf u.mem = true →
      ∃ t : State, exec (.hostMemoryAccess vf (.write addr bs)) s = .next t ∧
        (∀ i k : Nat, ks[i]? = some (some k) → (∀ j, j ≠ i → ks[j]? ≠ some (some k)) → i < bs.length →
          memRead t.mem k = bs.getD i 0) ∧
        ∀ a : Nat, (∀ i : Nat, ks[i]? ≠ some (some a)) → memRead t.mem a = memRead u.mem a) ∧
    (∀ c : BitVec 8, s.writeKeys p (piecesOf addr bs.length) = (.error c, u) →
      ∃ t : State, exec (.hostMemoryAccess vf (.write addr bs)) s = .next t ∧ t.mem = u.mem ∧
        t.elogCount = u.elogCount + (if c = 0x0B ∨ c = 0x0C ∨ c = 0x12 then 1 else 0)))

end
-- Bring-up, health and links ----------------------------------------------------------------------------------------

namespace Sys2Proof.Machine

/-- The reason for which a start fails at once (R398, R414): none is 0. -/
def bootRule (f : BootFacts) (high : Bool) (map : Nat) : BitVec 8 :=
  if f.signatureOk = false then 0x01
  else if f.digestOk = false then 0x02
  else if f.aboveFloor = false then 0x03
  else if f.dramOk = false then 0x04
  else if (List.range 16).any (fun t => roleRule map t == 3) || !heatRule high map then 0x07
  else 0

/-- What every start leaves (R398, R415, R418): no core, partition, device or memory holds anything, the links are DOWN, and the
non-volatile parts are as they were. What a restart leaves of the rest, its empty memory and cores and the coolant's grade among it, is the
model's choice (log entry 30). -/
structure Restarted (s t : State) : Prop where
  mem : t.mem = []
  cores : t.cores = []
  vdevs : t.vdevs = []
  parts : t.parts = []
  links : ∀ n : BitVec 4, (t.link n).st = .down
  roleboot : t.roleboot = s.roleboot
  coolant : t.coolantHigh = s.coolantHigh
  marks : ∀ n : Nat, n < 16 → (t.terrace n).coresMarked = (s.terrace n).coresMarked ∧ (t.terrace n).rowsMarked = (s.terrace n).rowsMarked ∧
    (t.terrace n).viasMarked = (s.terrace n).viasMarked ∧ (t.terrace n).channelsMarked = (s.terrace n).channelsMarked

/-- A start on the role map `map` (R398, R414): every terrace with a role begins its sequence. -/
def RolesStart (map : Nat) (t : State) : Prop :=
  t.rolemap.toNat = map ∧ ∀ n : Nat, n < 16 →
    (t.terrace n).st = (if roleRule map n = 1 then .enumerating else if roleRule map n = 2 then .flushing else .offline) ∧
    (t.terrace n).busy = (roleRule map n == 1 || roleRule map n == 2)

/-- The failed starts counted, to 3 (R415). -/
def failsRule (n : BitVec 2) : Nat := if n.toNat = 3 then 3 else n.toNat + 1

/-- A number in bytes, the highest first. -/
def bigRule (n x : Nat) : List Byte := (List.range n).map (fun i => BitVec.ofNat 8 (x / 256 ^ (n - 1 - i)))

/-- A link that is left (R389, R394): its new state and cause, no flit and no credit on it, and nothing of another link. Whether it was
released is kept for its next training (log entry 96). -/
structure LinkLeft (n : BitVec 4) (st : LinkState) (cause : BitVec 4) (released : Bool) (s t : State) : Prop where
  link : t.link n = { s.link n with
    st := st, cause := cause, peerModule := if st = .down then 0xFFFF else (s.link n).peerModule, flits := [],
    credits := Vector.replicate 8 0, fromRelease := released || (s.link n).fromRelease }
  others : ∀ m : BitVec 4, m ≠ n → t.link m = s.link m
  mem : t.mem = s.mem

/-- A link that has come up (R389, R392): as `up` says, with at least one credit on each virtual channel; how many the peer grants the
model leaves free (log entry 71). -/
structure LinkUp (n : BitVec 4) (up : Link) (s t : State) : Prop where
  link : ∃ cr : Vector Nat 8, (∀ i : Fin 8, 1 ≤ cr[i]) ∧ t.link n = { up with credits := cr }
  others : ∀ m : BitVec 4, m ≠ n → t.link m = s.link m
  mem : t.mem = s.mem
  cores : t.cores = s.cores

/-- The flits of a virtual channel on a link, in their order, with no word of which have been sent. -/
def flitsOf (l : Link) (vc : BitVec 3) : List (CtxId × Nat × List Host.Cell) :=
  (l.flits.filter (fun f => f.vc == vc)).map (fun f => (f.src, f.owner, f.data))

/-- The credits of a virtual channel, those that its sent flits hold among them. -/
def allCredits (l : Link) (vc : BitVec 3) : Nat :=
  l.credits[vc.toNat]'vc.isLt + (l.flits.filter (fun f => f.vc == vc && f.sent)).length

end Sys2Proof.Machine

section
open Sys2Proof Sys2Proof.Machine

/-- POWER_ON_RESET, BOOT_START_TIMEOUT and BOOTCTL_RESTART (R398, R414, R415): a start that fails at once says why and counts; one
that does not puts ROLEBOOT in force; after three failed ones only terrace (0,0) starts, in trickle mode, with the
firmware of an image whose signature, digest and floor are good and otherwise the one it had; a start that is still
under way at the timeout fails with 0x06; and a write of 1 to BOOTCTL clears the count and starts anew, with
the error ring that a power-on would empty (R395). What a start leaves of cores, partitions, devices, memory and the coolant's grade is the
model's choice (log entry 30). -/
def Obligations.BootEvents : Prop :=
  (∀ (f : BootFacts) (s : State),
    let map := s.roleboot.toNat % 2 ^ 32
    let r := bootRule f s.coolantHigh map
    ∃ t : State, exec (.powerOnReset f) s = .next t ∧ Restarted s t ∧
      (s.bootFails ≠ 3 → r ≠ 0 → t.bootReason = r ∧ t.bootFails.toNat = failsRule s.bootFails ∧ t.starting = false ∧
        t.bootTrickle = false ∧ ∀ n : Nat, n < 16 → (t.terrace n).st = .offline) ∧
      (s.bootFails ≠ 3 → r = 0 → t.bootVersion = f.version ∧ t.urmonDigest = f.urmonDigest ∧ t.deviceDigest = f.deviceDigest ∧ t.bootTrickle = false ∧ RolesStart map t ∧
        (t.starting = true ↔ ∃ n < 16, roleRule map n = 1 ∨ roleRule map n = 2)) ∧
      (s.bootFails = 3 → t.bootTrickle = true ∧ RolesStart 1 t ∧
        (t.bootVersion, t.urmonDigest, t.deviceDigest) =
          (if f.signatureOk = true ∧ f.digestOk = true ∧ f.aboveFloor = true then (f.version, f.urmonDigest, f.deviceDigest)
           else (s.bootVersion, s.urmonDigest, s.deviceDigest))) ∧
      t.elogCount = 0 ∧ t.elog = []) ∧
  (∀ s : State,
    (s.starting = false → exec .bootStartTimeout s = .next s) ∧
    (s.starting = true → ∃ t : State, exec .bootStartTimeout s = .next t ∧ t.starting = false ∧ t.bootReason = 0x06 ∧
      t.bootFails.toNat = failsRule s.bootFails ∧ t.mem = s.mem ∧ t.cores = s.cores)) ∧
  (∀ (v : Word) (f : BootFacts) (s : State),
    (v.getLsbD 0 = false → exec (.bootctlRestart v f) s = .next s) ∧
    (v.getLsbD 0 = true → ∃ t u : State, exec (.bootctlRestart v f) s = .next t ∧
      exec (.powerOnReset f) { s with bootFails := 0 } = .next u ∧ t = { u with elog := s.elog, elogCount := s.elogCount }))

/-- Attestation, storage registrations and the nonce (R7, R413, R416): a request makes the engine busy; its report is the nonce, the
two digests, the firmware version, ROLEMAP and the signature of the SHA-512 digest of all these; a nonce write takes eight bytes unless a report is built; a
write to LCTL of a link is the command of its bits [1:0] (R390); and a registration that loses its valid bit waits for the storage reads in
flight on it. The order of the bytes of digests and signature, that the numbers are little-endian and the widths of the report's fields are
the model's choice (log entry 9). -/
def Obligations.AttestationAndRegistrations : Prop :=
  (∀ (v : Word) (s : State),
    exec (.attestationRequest v) s = .next (if v.getLsbD 0 then { s with attestBusy := true } else s)) ∧
  (∀ s : State, s.attestBusy = true → s.nonce.length = 64 →
    ∃ t : State, exec .attestationComplete s = .next t ∧ t.attestBusy = false ∧ t.report.length = 714 ∧
      t.report.take 64 = s.nonce ∧ (t.report.drop 64).take 64 = bigRule 64 s.urmonDigest.toNat ∧
      (t.report.drop 128).take 64 = bigRule 64 s.deviceDigest.toNat ∧
      fieldNat t.report 192 2 = s.bootVersion.toNat ∧ fieldNat t.report 194 8 = s.rolemap.toNat ∧
      t.report.drop 202 = bigRule 512 (Config.identitySign (sha512 (t.report.take 202))).toNat ∧
      t.mem = s.mem ∧ t.cores = s.cores) ∧
  (∀ (i : Nat) (v : Word) (s : State), i < 8 → s.nonce.length = 64 → s.attestBusy = false →
    ∃ t : State, exec (.registerWrite (0x2040 + 8 * i) v) s = .next t ∧ t.nonce.length = 64 ∧ fieldNat t.nonce (8 * i) 8 = v.toNat ∧
      (∀ b : Nat, b < 8 * i ∨ 8 * i + 8 ≤ b → t.nonce[b]? = s.nonce[b]?) ∧ t.mem = s.mem ∧ t.cores = s.cores) ∧
  (∀ (off : Nat) (v : Word) (s : State), off < 0x2040 ∨ 0x2080 ≤ off ∨ off % 8 ≠ 0 ∨ s.attestBusy = true →
    0x400 ≤ off ∨ off % 0x40 ≠ 8 → exec (.registerWrite off v) s = .next s) ∧
  (∀ (n : BitVec 4) (v : Word) (s : State),
    let command := v.toNat % 4
    exec (.registerWrite (0x40 * n.toNat + 8) v) s =
      (if command = 0 then .next s else if command = 1 then exec (.lctlTrain n) s
       else if command = 2 then exec (.lctlQuarantine n) s else exec (.lctlRelease n) s)) ∧
  (∀ (r : BitVec 12) (v : BitVec 256) (s : State),
    let old := Assoc.find s.registrations r.toNat
    let waits := (∃ o, old = some o ∧ o.getLsbD 0 = true) ∧ v.getLsbD 0 = false ∧ s.storing r.toNat = true
    ∃ t : State, exec (.registrationWrite r v) s = .next t ∧ t.mem = s.mem ∧ t.cores = s.cores ∧
      (¬ waits → Assoc.find t.registrations r.toNat = some v ∧ Assoc.find t.regPending r.toNat = none) ∧
      (waits → Assoc.find t.registrations r.toNat = old ∧ Assoc.find t.regPending r.toNat = some v) ∧
      ∀ m : Nat, m ≠ r.toNat → Assoc.find t.registrations m = Assoc.find s.registrations m)

/-- The health events (R29, R398, R399, R417, R418): a monitor's value is kept; a temperature past 105 degrees lowers the clock of its
cascade until all of its temperatures are below 100, and past 115 the terrace fails; a grade change is kept; an uncorrectable error marks its core
at once, and the byte that has it is known; a correctable error of a core is counted, and marks the core at 16; the second of a DRAM row
and the fourth of a via mark them. -/
def Sys2Proof.Claims.HealthEvents : Prop :=
  (∀ (n : BitVec 4) (m : BitVec 5) (v : BitVec 16) (s : State), m.toNat < 28 →
    ∃ (t : State) (k : Cascade), exec (.thermalEvent n m v) s = .next t ∧ t.cascades[n.toNat / 4]? = some k ∧
      (t.terrace n.toNat).monitors[m.toNat]? = some v ∧
      (m.toNat < 16 → 105 * 16 < v.toInt → k.lowered = true) ∧
      (m.toNat < 16 → v.toInt ≤ 105 * 16 →
        (∀ i < 4, ∀ x ∈ (t.terrace (n.toNat / 4 * 4 + i)).monitors.toList.take 16, x.toInt < 100 * 16) → k.lowered = false) ∧
      (m.toNat < 16 → 115 * 16 < v.toInt → (t.terrace n.toNat).st = .failed ∧ (t.terrace n.toNat).cause = 2) ∧
      (16 ≤ m.toNat ∨ v.toInt ≤ 115 * 16 → (t.terrace n.toNat).st = (s.terrace n.toNat).st ∧ t.mem = s.mem) ∧
      (16 ≤ m.toNat → t.cascades = s.cascades)) ∧
  (∀ (high : Bool) (s : State), exec (.coolantGradeChange high) s = .next { s with coolantHigh := high }) ∧
  (∀ (c : CoreId) (addr : Option Nat) (s : State),
    ∃ t : State, exec (.uncorrectableError (.core c) addr) s = .next t ∧ c.toNat % 128 ∈ (t.terrace (c.toNat / 128)).coresMarked ∧
      t.mem = s.mem ∧ t.cores = s.cores ∧ (∀ k, addr = some k → s.poison.length = 0 → t.poison = [k])) ∧
  (∀ (c : CoreId) (s : State),
    let n0 := (Assoc.find (s.terrace (c.toNat / 128)).coreErrors (c.toNat % 128)).getD 0
    ∃ (t : State) (n : Nat), exec (.correctableError (.core c)) s = .next t ∧ 1 ≤ n ∧ n ≤ n0 + 1 ∧ t.mem = s.mem ∧
      Assoc.find (t.terrace (c.toNat / 128)).coreErrors (c.toNat % 128) = some n ∧
      (16 ≤ n → c.toNat % 128 ∈ (t.terrace (c.toNat / 128)).coresMarked) ∧
      (n < 16 → (t.terrace (c.toNat / 128)).coresMarked = (s.terrace (c.toNat / 128)).coresMarked)) ∧
  (∀ (n : BitVec 4) (ch : BitVec 3) (row via : Nat) (s : State),
    let rows := (Assoc.find (s.terrace n.toNat).rowErrors (8 * row + ch.toNat)).getD 0
    let vias := (Assoc.find (s.terrace n.toNat).viaErrors via).getD 0
    (∃ t : State, exec (.correctableError (.row n ch row)) s = .next t ∧ t.mem = s.mem ∧
      Assoc.find (t.terrace n.toNat).rowErrors (8 * row + ch.toNat) = some (rows + 1) ∧
      (1 ≤ rows → (ch.toNat, row) ∈ (t.terrace n.toNat).rowsMarked) ∧
      (rows = 0 → (t.terrace n.toNat).rowsMarked = (s.terrace n.toNat).rowsMarked)) ∧
    ∃ t : State, exec (.correctableError (.via n via)) s = .next t ∧ t.mem = s.mem ∧
      Assoc.find (t.terrace n.toNat).viaErrors via = some (vias + 1) ∧
      (3 ≤ vias → via ∈ (t.terrace n.toNat).viasMarked) ∧
      (vias < 3 → (t.terrace n.toNat).viasMarked = (s.terrace n.toNat).viasMarked))

/-- The links' control and training (R389, R415): a DOWN link trains, but not in trickle mode; with all eight data lanes it is UP,
with one lane replaced by the spare DEGRADED, and otherwise, or at a timeout, DOWN with cause 1; a link in use can be
quarantined and a QUARANTINED one released, a failure that stands in the same cycle's agenda being taken first. A release leaving cause 5
(log entry 61), and the count of retries starting anew when a released link comes up (log entry 96), are the model's choice. -/
def Sys2Proof.Claims.LinkControlEvents : Prop :=
  (∀ (n : BitVec 4) (s : State),
    ((s.link n).st = .down → s.bootTrickle = false →
      exec (.lctlTrain n) s = .next (s.setLink n { s.link n with st := .training })) ∧
    ((s.link n).st ≠ .down ∨ s.bootTrickle = true → exec (.lctlTrain n) s = .next s) ∧
    ((s.link n).st = .up ∨ (s.link n).st = .degraded → s.agenda.filter (failsLink n) = [] →
      ∃ t : State, exec (.lctlQuarantine n) s = .next t ∧ LinkLeft n .quarantined 5 false s t) ∧
    (∀ cause : BitVec 4, (s.link n).st = .up ∨ (s.link n).st = .degraded → cause = 2 ∨ cause = 3 ∨ cause = 4 →
      s.agenda.filter (failsLink n) = [.linkFailure n cause] →
      ∃ t : State, exec (.lctlQuarantine n) s = .next t ∧ LinkLeft n .quarantined cause false s t) ∧
    ((s.link n).st = .quarantined → ∃ t : State, exec (.lctlRelease n) s = .next t ∧ LinkLeft n .down 5 true s t) ∧
    ((s.link n).st = .training → ∃ t : State, exec (.linkTrainingTimeout n) s = .next t ∧ LinkLeft n .down 1 false s t)) ∧
  (∀ (n pl : BitVec 4) (passed : BitVec 9) (pm : BitVec 16) (s : State), (s.link n).st = .training →
    let up : Link := { s.link n with
      st := .up, failed := ~~~passed, spareFor := 0xF, peerLink := pl, peerModule := pm
      retries := if (s.link n).fromRelease then 0 else (s.link n).retries, fromRelease := false }
    ((∀ i < 8, passed.getLsbD i = true) →
      ∃ t : State, exec (.linkTrainingDone n passed pm pl) s = .next t ∧ LinkUp n up s t) ∧
    (∀ k : BitVec 4, k.toNat < 8 → passed.getLsbD k.toNat = false → (∀ i < 8, i ≠ k.toNat → passed.getLsbD i = true) →
      (passed.getLsbD 8 = true →
        ∃ t : State, exec (.linkTrainingDone n passed pm pl) s = .next t ∧ LinkUp n { up with st := .degraded, spareFor := k } s t) ∧
      (passed.getLsbD 8 = false →
        ∃ t : State, exec (.linkTrainingDone n passed pm pl) s = .next t ∧ LinkLeft n .down 1 false s t)) ∧
    (∀ i j : Nat, i < j → j < 8 → passed.getLsbD i = false → passed.getLsbD j = false →
      ∃ t : State, exec (.linkTrainingDone n passed pm pl) s = .next t ∧ LinkLeft n .down 1 false s t))

/-- What happens to a link in use (R389 to R391): a first failed data lane is replaced by the spare and the link is DEGRADED; a second
failure, exhausted retries or a lost peer quarantines it with its cause; and the retries are counted, to 65,535. -/
def Sys2Proof.Claims.LinkFailureEvents : Prop :=
  (∀ (n lane : BitVec 4) (s : State), lane.toNat ≤ 8 → (s.link n).failed.getLsbD lane.toNat = false →
    let l := s.link n
    (l.st = .up → l.failed.getLsbD 8 = false → lane.toNat < 8 → ∃ t : State, exec (.linkLaneFailure n lane) s = .next t ∧
      t.link n = { l with st := .degraded, failed := BitVec.ofNat 9 (l.failed.toNat + 2 ^ lane.toNat), spareFor := lane } ∧
      (∀ m, m ≠ n → t.link m = s.link m) ∧ t.cores = s.cores) ∧
    (l.st = .up → lane.toNat = 8 → ∃ t : State, exec (.linkLaneFailure n lane) s = .next t ∧
      t.link n = { l with failed := BitVec.ofNat 9 (l.failed.toNat + 2 ^ 8) } ∧ (∀ m, m ≠ n → t.link m = s.link m) ∧ t.cores = s.cores) ∧
    (l.st = .degraded ∨ (l.st = .up ∧ l.failed.getLsbD 8 = true) → ∃ t : State, exec (.linkLaneFailure n lane) s = .next t ∧
      (t.link n).st = .quarantined ∧ (t.link n).cause = 2 ∧ ∀ m, m ≠ n → t.link m = s.link m)) ∧
  (∀ (n cause : BitVec 4) (s : State), (s.link n).st = .up ∨ (s.link n).st = .degraded →
    (cause = 2 ∨ cause = 3 ∨ cause = 4 → ∃ t : State, exec (.linkFailure n cause) s = .next t ∧ LinkLeft n .quarantined cause false s t) ∧
    exec (.flitRetry n) s = .next (s.setLink n
      { s.link n with retries := BitVec.ofNat 16 (if (s.link n).retries.toNat = 65535 then 65535 else (s.link n).retries.toNat + 1) }))

/-- Traffic on the links (R372, R392 to R394): as the links go on, each virtual channel keeps its credits, those that flits on their way
hold among them, and its flits are acknowledged in their order; a chunk of an XSEND to another module waits on one usable link
of the route; and what owns flits of a link that is lost ends with status 0x0A, its count without their bytes. That
a chunk goes as one entry of the link with one credit, and what the credits then are, is the model's choice (log entries 66 and 71). -/
def Sys2Proof.Claims.LinkTraffic : Prop :=
  (∀ s : State, s.linkProgress.mem = s.mem ∧ s.linkProgress.cores = s.cores ∧
    ∀ (n : BitVec 4) (vc : BitVec 3), allCredits (s.linkProgress.link n) vc = allCredits (s.link n) vc ∧
      ∃ k : Nat, flitsOf (s.linkProgress.link n) vc = (flitsOf (s.link n) vc).drop k) ∧
  (∀ (core : CoreId) (lane : BitVec 3) (c : Command) (ch : BitVec 8) (src : Word) (e : ChanEntry) (tile : Nat) (bs : List Byte)
      (s₀ s u : State),
    s₀.linkProgress = s → s.cmdAt core lane = some c → c.st = .performing → c.op = .xsend ch src → c.tile = some tile →
    s.chanEntry (s.ctx (c.at core)) ch = some e → ((s.ctx (c.at core)).chan ch).withdrawn = false → e.peerModule ≠ 0xFFFF →
    s.chunkGate core lane c = none → s.usableRoute e.peerModule ≠ [] →
    let size := e.rows * e.cols * e.fmt.bits / 8
    c.cursor < size →
    let n := if size - c.cursor < 128 then size - c.cursor else 128
    s.engReadAll (c.at core) c.shapes false (wrapAt (src + BitVec.ofNat 64 c.cursor) n) = ((bs, []), u) →
    ∃ (t : State) (l : BitVec 4), exec (.copyChunk core lane) s₀ = .next t ∧ l ∈ s.usableRoute e.peerModule ∧
      (t.link l).flits = (u.link l).flits ++
        [{ vc := e.vc, src := c.at core, owner := c.id, data := bs.zipIdx.map (fun b => (c.cursor + b.2, b.1)), counts := true,
           sent := false }] ∧
      (∀ m, m ≠ l → t.link m = u.link m) ∧ t.mem = u.mem ∧
      t.cmdAt core lane = some { c with asked := false, cursor := c.cursor + n, delivered := c.delivered + n }) ∧
  (∀ (n cause : BitVec 4) (core : CoreId) (lane : BitVec 3) (c : Command) (s : State),
    (s.link n).st = .up ∨ (s.link n).st = .degraded → cause = 2 ∨ cause = 3 ∨ cause = 4 →
    s.cmdAt core lane = some c → s.laneOf core c.id = some (lane, c) → c.st = .performing → c.stamp ≠ none → (s.link n).flits ≠ [] →
    (∀ f ∈ (s.link n).flits, f.src.core = core ∧ f.owner = c.id) →
    ∃ t : State, exec (.linkFailure n cause) s = .next t ∧ t.cmdAt core lane =
      some { c with
        delivered := c.delivered - ((s.link n).flits.map (fun f => if f.counts then f.data.length else 0)).sum, st := .stamping 0x0A 0, flags := 0 })

/-- What the management registers read (R7, R390, R395 to R398, R413, R417): LSTAT, ROLEMAP, ROLEBOOT, the coolant's grade and the monitors
by their fields, registrations with their reserved bytes zero, and nothing else below the first window but the link registers. -/
def Sys2Proof.Claims.ManagementReads : Prop :=
  ∀ s : State,
    (∀ n : BitVec 4,
      let l := s.link n
      let st := match l.st with | .down => 0 | .training => 1 | .up => 2 | .degraded => 3 | .quarantined => 4
      (s.readManagement (0x40 * n.toNat)).toNat = st + 2 ^ 3 * l.failed.toNat + 2 ^ 12 * l.spareFor.toNat + 2 ^ 16 * l.cause.toNat +
        2 ^ 20 * l.peerLink.toNat + 2 ^ 24 * l.peerModule.toNat + 2 ^ 40 * l.retries.toNat) ∧
    (s.readManagement 0x800).toNat = s.rolemap.toNat ∧ s.readManagement 0x8A8 = s.roleboot ∧
    (s.readManagement 0x8A0).toNat = (if s.coolantHigh then 1 else 0) ∧
    (∀ (n : BitVec 4) (m : Nat) (v : BitVec 16), (s.terrace n.toNat).monitors[m]? = some v →
      (s.readManagement (0x3000 + 0x40 * n.toNat + 2 * m)).toNat = v.toNat) ∧
    (∀ (r : BitVec 12) (v : BitVec 256), Assoc.find s.registrations r.toNat = some v →
      let at_ (i : Nat) : Nat := (s.readManagement (0x20000 + 32 * r.toNat + 8 * i)).toNat
      at_ 0 = v.toNat % 2 ^ 64 / 2 ^ 16 * 2 ^ 16 + v.toNat % 2 ^ 8 ∧ at_ 1 = 0 ∧ at_ 2 = v.toNat / 2 ^ 128 % 2 ^ 64 ∧
        at_ 3 = v.toNat / 2 ^ 192) ∧
    (∀ off : Nat, off < 0x400 → off % 0x40 ≠ 0 → s.readManagement off = 0)

end

namespace Sys2Proof.Machine

/-- The words of the section that context `c` fetches from hold, from offset `at_`, the literal bundle of one encoding. -/
def LiteralAt (s : State) (c : Context) (at_ : Nat) (o : OpWord) : Prop :=
  ∀ (k : Nat) (w : BitVec 16), (literalTokens o)[k]? = some w → (s.tokens c).1 (at_ + k) = some w

/-- A core's turn has begun, up to its straps (R281, R328): its cycle begins, and what reaches flags and groups before the straps has done
so. -/
def State.turnBegun (s : State) (core : CoreId) : State :=
  (({ s with turn := s.turn + 1 } : State).beginCycle core).beforeStraps core

/-- The next context to issue at its core, on a terrace that issues straps, is `c`, at a literal bundle of the encoding `o` of `i`, which nothing holds back: no background
event could happen at the core, no other context is ranked, the strap is not squashed, a fault left no part of it, and its slots are
allowed in the context. -/
structure AtStrap (s : State) (c : CtxId) (i : Instr) (o : OpWord) : Prop where
  agenda : s.agenda = []
  turn : s.cores[s.turn % (s.cores.length + 1)]?.map (·.1) = some c.core.toNat
  quiet : backgroundOf (({ s with turn := s.turn + 1 } : State).beginCycle c.core) c.core = []
  issues : (s.turnBegun c.core).coreIssues c.core = true
  alone : ((s.turnBegun c.core).core c.core).ranking = [c.ctx]
  native : ((s.turnBegun c.core).ctx c).pyrino = false ∨ ((s.turnBegun c.core).ctx c).priv = true
  literal : LiteralAt (s.turnBegun c.core) ((s.turnBegun c.core).ctx c) ((s.turnBegun c.core).ctx c).flow.pc.toNat o
  whole : ((s.turnBegun c.core).ctx c).resume = none
  taken : ((s.turnBegun c.core).ctx c).flow.squash = 0
  mode : privWord o = true → ((s.turnBegun c.core).ctx c).priv = true
  slots : decodeFault { s.turnBegun c.core with cur := c } ((s.turnBegun c.core).ctx c) i = none
  ready : ({ s.turnBegun c.core with cur := c } : State).mustWait [i] = false

/-- What the merge stage knows of a literal bundle of one encoding at an offset. -/
def literalInfo (o : OpWord) (at_ : Nat) : StrapInfo :=
  { present := (1 : BitVec 9) <<< o.slot.num, next := BitVec.ofNat 32 (at_ + 2 + o.slot.words), ops := [o],
    groups := match o.slot with | .v0 | .v1 => o.width.groups | _ => 0 }

end Sys2Proof.Machine

section
open Sys2Proof Sys2Proof.Machine

/-- A literal bundle of one slot encoding is fetched and decoded to the instruction (R71 to R73, R76 to R79): the slots present are
the one, and the offset after it is past the token, the header and its two or three words. -/
def Obligations.LiteralBundleFetched : Prop :=
  ∀ (s : State) (c : Context) (i : Instr) (o : OpWord), i.wf = true → i.encode = some o →
    (c.pyrino = false ∨ c.priv = true) → LiteralAt s c c.flow.pc.toNat o → c.resume = none →
    (privWord o = true → c.priv = true) → decodeFault s c i = none →
    s.nextStrap c = .ok (literalInfo o c.flow.pc.toNat, [i])

/-- A step runs the decoded instruction. An event on the agenda is the next thing that happens; and where the turn is a core's and its one
ranked context stands at a literal bundle of instruction `i` that may issue, the step is `exec i` of the state in which that strap
has begun, then the strap's end, what reaches flags and groups after the straps, and the end of the cycle (R277, R281, R328; log entry 3). -/
def Obligations.StepRunsTheDecodedInstruction : Prop :=
  (∀ (i : Instr) (r : List Instr) (s : State), s.agenda = i :: r → step s = exec i { s with agenda := r }) ∧
  (∀ (s t : State) (c : CtxId) (i : Instr) (o : OpWord), i.wf = true → i.encode = some o → AtStrap s c i o →
    let u : State := s.turnBegun c.core
    let info : StrapInfo := literalInfo o (u.ctx c).flow.pc.toNat
    let b : State := { (({ u.updCtx c Context.unblock with cur := c } : State).arm [i]).updCore c.core Core.endHelpers with cur := c }
    exec i (b.updMe (fun x => x.beginStrap info [i])) = .next t →
    step s = .next (((t.finishStrap c).afterStraps c.core (s.core c.core).nextId).endCycle c.core))

/-- Nothing stops the machine: every instruction and every event answers a next state, and so does every step. -/
def Obligations.NothingStopsTheMachine : Prop :=
  (∀ (i : Instr) (s : State), ∃ t : State, exec i s = .next t) ∧ (∀ s : State, ∃ t : State, step s = .next t)

/-- At reset memory lists nothing, every byte reads as zero, and it is canonical; no partition is formed and no core is bound; ROLEBOOT holds the roles a module
ships with (R398), and each link is DOWN, which leaves its peer module 0xFFFF (R390). That links are DOWN at reset and that nothing is bound (log
entry 1), and that a byte which nothing has written reads as zero (log entry 2), are the model's choice. -/
def Obligations.ResetState : Prop :=
  Memory.wf State.reset.mem = true ∧ (∀ k, memRead State.reset.mem k = 0) ∧ State.reset.parts = [] ∧
    State.reset.roleboot.toNat = 0x95959595 ∧
    (∀ n : BitVec 4, (State.reset.link n).st = .down ∧ (State.reset.link n).peerModule.toNat = 0xFFFF) ∧
    (∀ c : CtxId, (State.reset.ctx c).st = .free)

/-- Every step keeps memory in its canonical form: addresses strictly rising, no byte listed that reads as an unlisted one does. -/
def Obligations.StepsKeepMemoryCanonical : Prop :=
  ∀ s t : State, Memory.wf s.mem = true → step s = .next t → Memory.wf t.mem = true

/-- Decoding the encoding of a well-formed instruction gives it back, with every operand at every value the encoding admits, and an
encoding is no longer than its slot; what decodes is well formed. -/
def Obligations.DecodeEncode : Prop :=
  (∀ (i : Instr) (o : OpWord), i.wf = true → i.encode = some o → decodeOp o = .ok i ∧ o.word.toNat < 2 ^ (16 * o.slot.words)) ∧
  (∀ (o : OpWord) (i : Instr), decodeOp o = .ok i → i.wf = true)

/-- Each word has one meaning: a word that decodes is the encoding of what it decodes to, so a field an operation does not read, and every
reserved bit, is zero in it (R86). Words are as wide as their slot, and only a vector slot has a width. -/
def Obligations.EncodeDecode : Prop :=
  ∀ (o : OpWord) (i : Instr), o.word.toNat < 2 ^ (16 * o.slot.words) → (o.slot ≠ .v0 → o.slot ≠ .v1 → o.width = .w256) →
    decodeOp o = .ok i → i.encode = some o

/-- Words written out from the encodings decode to what they stand for: one or more of every slot (R86 to R97 and the opcode tables). -/
def Obligations.WordsDecode : Prop :=
  let d (slot : Slot) (w : BitVec 48) : Option Instr := (decodeOp { slot := slot, width := .w256, word := w }).toOption
  d .c 0x08A47FFF = some (.loop 5 1 0 32767) ∧
  d .c 0x30000000 = some .eret ∧
  d .s 0x21068008 = some (.cmpi (.p 1) .lq 0 .eq) ∧
  d .s 0x210C40AA = some (.cmpi (.p 3) (.reg 4) 10 .lt) ∧
  d .s 0x38600010 = some (.csrr (.reg 24) 0x010) ∧
  d .s 0x0B618E00 = some (.andi (.reg 24) (.reg 24) (-512)) ∧
  d .a 0x1012B600 = some (.lda (.reg 4) .zero 3 .ctx .ordinary) ∧
  d .m 0x011100000001 = some (.mma .bf16 .bf16 0 0 0 true false false) ∧
  d .m 0x013560480000 = some (.mma .e4m3 .o4 3 1 2 false false false) ∧
  d .m 0x086500000002 = some (.mcfg .s8 .o4 0 false true) ∧
  d .x 0x01011870C400 = some (.xcp 1 6 7 3 (.x 4) false) ∧
  d .v0 0x2070060D600B = some (.vpxu { slot := .v0, width := .w256, pred := 0, neg := false } .s16 (.reg 3) (.reg 1) .zero 11) ∧
  d .v1 0x61100F484003 = some (.vmaxb { slot := .v1, width := .w256, pred := 0, neg := false } .bf16 (.reg 7) (.reg 2) 3) ∧
  d .k 0x02300078 = some (.kset 3 0x78) ∧
  d .k 0x032140FF = some (.kmovAdj 2 1 (-1)) ∧
  d .y 0x02001101 = some (.postf 0 0 1 .core 1) ∧
  (decodeOp { slot := .v0, width := .w512, word := 0x13720A084002 }).toOption =
    some (.vcmp { slot := .v0, width := .w512, pred := 2, neg := false } .s16 5 (.reg 1) (.reg 2) .lt) ∧
  (decodeOp { slot := .v1, width := .w1024, word := 0x430008084180 }).toOption =
    some (.vfma { slot := .v1, width := .w1024, pred := 0, neg := false } .f32 (.reg 4) (.reg 1) (.reg 2) (.reg 3) false false)

end

section
open Sys2Proof

/-- The rest of the S slot: compares, selection and insertion; moves between the files; the system registers read and written. -/
def Obligations.ScalarComparesMovesAndSystemRegisters : Prop :=
  Claims.ScalarCompareSelectInsert ∧ Claims.ScalarMovesBetweenFiles ∧ Claims.SystemRegisterReadsAndWrites

/-- Loads and atomics enter their queue with the address and what they take; a prefetch changes no state. -/
def Obligations.LoadsAndAtomicsEnterTheQueue : Prop :=
  Claims.LoadsEnterTheQueue ∧ Claims.AtomicsEnterTheQueue ∧ Claims.PrefetchChangesNoState

/-- Stores, tile stores and record stores enter their queues, and the record operations enter the background. -/
def Obligations.StoresEnterTheirQueues : Prop :=
  Claims.StoresEnterTheQueue ∧ Claims.TileAndRecordStoresEnterTheQueue ∧ Claims.RecordOperationsEnterTheBackground

/-- The Y slot: counting flags, fences, barriers and record fences, and a strap that waits. -/
def Obligations.SynchronisationInstructions : Prop :=
  Claims.CountingFlagInstructions ∧ Claims.SynchronisationInstructionsComplete ∧ Claims.RecordFencesDropRecords ∧ Claims.WaitingStrapBlocks

/-- The C slot: transfers, skips and loops. -/
def Obligations.TransfersSkipsAndLoops : Prop :=
  Claims.TransfersAndSkips ∧ Claims.LoopInstructions

/-- EXIT and YIELD leave the core, NEXT draws a point, JOIN and LEAVE change a group. -/
def Obligations.ThreadControl : Prop :=
  Claims.ExitAndYieldLeaveTheCore ∧ Claims.NextDrawsAPoint ∧ Claims.GroupMembership

/-- A fault of an operation and a fault of a whole strap are precise, and name their Pyrino bundle. -/
def Obligations.SynchronousFaults : Prop :=
  Claims.IssueFaultIsPrecise ∧ Claims.WholeStrapFaultIsPrecise ∧ Claims.FaultsNameTheirPyrinoBundle

/-- Privileged operations fault in user mode, and illegal ones everywhere. -/
def Obligations.PrivilegedAndIllegalFault : Prop :=
  Claims.PrivilegedOperationsFaultInUserMode ∧ Claims.IllegalOperationsFault

/-- Vector integer results, permutations and moves. -/
def Obligations.VectorIntegerAndPermutation : Prop :=
  Claims.VectorIntegerResults ∧ Claims.VectorPermutationsAndMoves

/-- Results of predicate registers, and results over the whole width of a vector. -/
def Obligations.PredicateAndWholeResults : Prop :=
  Claims.PredicateRegisterResults ∧ Claims.VectorWholeResults

/-- The matrix engine: products of all formats and of one bit. -/
def Obligations.MatrixProducts : Prop :=
  Claims.MatrixMultiplyResults ∧ Claims.BinaryMatrixResults

/-- The matrix engine: its configuration and the moves of accumulators. -/
def Obligations.MatrixConfigurationAndMoves : Prop :=
  Claims.MatrixConfiguration ∧ Claims.AccumulatorMoves

/-- The X slot: copies, fills, gathers and pops take their place in a lane. -/
def Obligations.CopyAndFillCommands : Prop :=
  Claims.CopyCommandsEnterTheirLane ∧ Claims.FillsTakeTheirPlace ∧ Claims.GatherScatterAndPopCommands

/-- The X slot: collectives, triggers, cancels and lane fences. -/
def Obligations.CollectiveAndTriggerCommands : Prop :=
  Claims.CollectivesEnterTheSequencer ∧ Claims.TriggersCancelsAndLaneFences

/-- The states of a context, and its restoration. -/
def Obligations.ContextSaveAndRestore : Prop :=
  Claims.ContextStateEvents ∧ Claims.ContextRestore

/-- Retirement, helpers, group barriers and matrix ways. -/
def Obligations.RetirementHelpersAndBarriers : Prop :=
  Claims.RetirementAndHelperStart ∧ Claims.GroupBarrierAndMatrixWays

/-- Loads perform, with what ordinary and strong ones may read. -/
def Obligations.LoadsPerform : Prop :=
  Claims.LoadPerformEvents ∧ Claims.OrdinaryAndStrongReads

/-- Stores and atomics perform. -/
def Obligations.StoresAndAtomicsPerform : Prop :=
  Claims.AtomicPerformEvent ∧ Claims.StorePerformEvents

/-- Record granules, posts, watched words, caches and relays. -/
def Obligations.BackgroundMemoryEvents : Prop :=
  Claims.RecordGranuleEvents ∧ Claims.PostsAndWatchedWords ∧ Claims.CacheAndRelayEvents

/-- The lanes: starts, fills, storage, stamps and fences. -/
def Obligations.LaneEvents : Prop :=
  Claims.LaneStartEvents ∧ Claims.FillAndStorageEvents ∧ Claims.StampAndFenceEvents

/-- Channels: credits, words and slots, here and of another module. -/
def Obligations.ChannelWordsAndCredits : Prop :=
  Claims.ChannelEvents ∧ Claims.FarChannelEvents

/-- Triggers fire, and collectives go on. -/
def Obligations.TriggerAndCollectiveEvents : Prop :=
  Claims.TriggerEvents ∧ Claims.CollectiveEvents

/-- A launch is loaded, bound and started. -/
def Obligations.LaunchLoadingAndStart : Prop :=
  Claims.LaunchLoadingEvents ∧ Claims.LaunchStartEvents ∧ Claims.RestartableCommandsResume

/-- Graphs are submitted, and the switch point. -/
def Obligations.GraphsAndSwitchPoints : Prop :=
  Claims.SwitchPointEvent ∧ Claims.GraphSubmission

/-- Partitions and virtual devices. -/
def Obligations.PartitionsAndVirtualDevices : Prop :=
  Claims.PartitionEvents ∧ Claims.VirtualDeviceEvents

/-- Migration, invalidation and the access of the host. -/
def Obligations.MigrationAndInvalidation : Prop :=
  Claims.MigrationEvent ∧ Claims.InvalidationAndHostAccess

/-- Links: control, training, failure and what travels on them. -/
def Obligations.LinkEvents : Prop :=
  Claims.LinkControlEvents ∧ Claims.LinkFailureEvents ∧ Claims.LinkTraffic

/-- Monitors, wear and the management registers. -/
def Obligations.HealthAndRegisters : Prop :=
  Claims.HealthEvents ∧ Claims.ManagementReads

end
end

