-- ==== Sys2Proof/Laws/Codec.lean ====
section
/-! SUPPORT. Each field of an encoding read back: the small lemmas that the round trips of Laws/PerInstr.lean cite. -/

namespace Sys2Proof

-- Codes ---------------------------------------------------------------------------------------------------------

@[simp] theorem Spec.ofCode_code (s : Spec) : Spec.ofCode s.code = some s := by
  cases s with
  | reg n => revert n; decide
  | rq n => revert n; decide
  | rel n => revert n; decide
  | lq => decide
  | kq => decide
  | sq => decide
  | zero => decide

@[simp] theorem XSpec.ofCode_code (s : XSpec) : XSpec.ofCode s.code = some s := by
  cases s with
  | x n => revert n; decide
  | none => decide

@[simp] theorem Fmt.ofCode_code (f : Fmt) : Fmt.ofCode f.code = some f := by cases f <;> rfl
@[simp] theorem Scope.ofCode_code (s : Scope) : Scope.ofCode s.code = some s := by cases s <;> rfl
@[simp] theorem Order.ofCode_code (o : Order) : Order.ofCode o.code = o := by cases o <;> rfl
@[simp] theorem Rounding.ofCode_code (r : Rounding) : Rounding.ofCode r.code = some r := by cases r <;> rfl
@[simp] theorem RClass.ofCode_code (c : RClass) : RClass.ofCode c.code = some c := by cases c <;> rfl
@[simp] theorem SCond.ofCode_code (c : SCond) : SCond.ofCode c.code = some c := by cases c <;> rfl
@[simp] theorem VCond.ofCode_code (c : VCond) : VCond.ofCode c.code = some c := by cases c <;> rfl
@[simp] theorem FCond.ofCode_code (c : FCond) : FCond.ofCode c.code = some c := by cases c <;> rfl
@[simp] theorem WCond.ofCode_code (c : WCond) : WCond.ofCode c.code = c := by cases c <;> rfl
@[simp] theorem AtomOp.ofCode_code (c : AtomOp) : AtomOp.ofCode c.code = c := by cases c <;> rfl
@[simp] theorem TreeOp.ofCode_code (c : TreeOp) : TreeOp.ofCode c.code = some c := by cases c <;> rfl
@[simp] theorem QTarget.ofCode_code (c : QTarget) : QTarget.ofCode c.code = c := by cases c <;> rfl
@[simp] theorem IBits.ofCode_code (c : IBits) : IBits.ofCode c.code = some c := by cases c <;> rfl
@[simp] theorem FenceOrd.ofCode_code (c : FenceOrd) : FenceOrd.ofCode c.code = some c := by cases c <;> rfl
@[simp] theorem Base.ofCode_code (c : Base) : Base.ofCode c.code = c := by cases c <;> rfl

-- Readers of fields ---------------------------------------------------------------------------------------------

@[simp] theorem specOf_code (s : Spec) : specOf s.code = .ok s := by simp [specOf, orErr]
@[simp] theorem xspecOf_code (s : XSpec) : xspecOf s.code = .ok s := by simp [xspecOf, orErr]
@[simp] theorem fmtOf_code (f : Fmt) : fmtOf f.code = .ok f := by simp [fmtOf, orErr]
@[simp] theorem scopeOf_code (s : Scope) : scopeOf s.code = .ok s := by simp [scopeOf, orErr]
@[simp] theorem roundOf_code (r : Rounding) : roundOf r.code = .ok r := by simp [roundOf, orErr]
@[simp] theorem classOf_code (c : RClass) : classOf c.code = .ok c := by simp [classOf, orErr]
@[simp] theorem xregOf_xr (n : BitVec 4) : xregOf (xr n) = .ok n := by revert n; decide
@[simp] theorem pregOf_xr (n : BitVec 4) : pregOf (xr n) = .ok n := by revert n; decide
@[simp] theorem pregOf_setWidth (n : BitVec 4) : pregOf (n.setWidth 6) = .ok n := by revert n; decide
@[simp] theorem laneOf_pad (n : BitVec 3) : laneOf (0#1 ++ n) = .ok n := by revert n; decide
@[simp] theorem rqOf_code (n : BitVec 3) : rqOf (0b100#3 ++ n) = .ok n := by revert n; decide
@[simp] theorem absentOf_absent : absentOf 0x2B = .ok () := rfl
@[simp] theorem mustBeZero_zero {n : Nat} : mustBeZero (0#n) = .ok () := by simp [mustBeZero, needs]
@[simp] theorem finish_wf {i : Instr} (h : i.wf = true) : finish i = .ok i := by simp [finish, h]

@[simp] theorem CmpDst.cmpDstOf_field (d : CmpDst) : cmpDstOf (d.toP == 1) d.field = .ok d := by
  cases d with
  | s sp => simp [cmpDstOf, CmpDst.toP, CmpDst.field]
  | p n => simp [cmpDstOf, CmpDst.toP, CmpDst.field]

@[simp] theorem MovLoc.movLocOf_field (m : MovLoc) : movLocOf m.file.toNat m.field = .ok m := by
  cases m with
  | s sp => simp [movLocOf, MovLoc.file, MovLoc.field]
  | a sp => simp [movLocOf, MovLoc.file, MovLoc.field]
  | l n => revert n; decide
  | x n => revert n; decide
  | y n => revert n; decide

@[simp] theorem ShiftBy.shiftByOf_fields (s : ShiftBy) : shiftByOf s.shiftFields.1 s.shiftFields.2 = .ok s := by
  rcases s with b | k
  · simp [shiftByOf, ShiftBy.shiftFields]; rfl
  · revert k; decide

-- Formats -------------------------------------------------------------------------------------------------------

@[simp] theorem fieldsOfCT_pack (r : CT) : fieldsOfCT (packWordCT r) = r := by
  simp (disch := decide) only [fieldsOfCT, packWordCT, BitVec.extractLsb'_append_eq_of_le,
    BitVec.extractLsb'_append_eq_of_add_le]
  simp only [Nat.reduceSub, BitVec.extractLsb'_eq_self]

@[simp] theorem fieldsOfCI_pack (r : CI) : fieldsOfCI (packWordCI r) = r := by
  simp (disch := decide) only [fieldsOfCI, packWordCI, BitVec.extractLsb'_append_eq_of_le,
    BitVec.extractLsb'_append_eq_of_add_le]
  simp only [Nat.reduceSub, BitVec.extractLsb'_eq_self]

@[simp] theorem fieldsOfSR_pack (r : SR) : fieldsOfSR (packWordSR r) = r := by
  simp (disch := decide) only [fieldsOfSR, packWordSR, BitVec.extractLsb'_append_eq_of_le,
    BitVec.extractLsb'_append_eq_of_add_le]
  simp only [Nat.reduceSub, BitVec.extractLsb'_eq_self]

@[simp] theorem fieldsOfSI_pack (r : SI) : fieldsOfSI (packWordSI r) = r := by
  simp (disch := decide) only [fieldsOfSI, packWordSI, BitVec.extractLsb'_append_eq_of_le,
    BitVec.extractLsb'_append_eq_of_add_le]
  simp only [Nat.reduceSub, BitVec.extractLsb'_eq_self]

@[simp] theorem fieldsOfAM_pack (r : AM) : fieldsOfAM (packWordAM r) = r := by
  simp (disch := decide) only [fieldsOfAM, packWordAM, BitVec.extractLsb'_append_eq_of_le,
    BitVec.extractLsb'_append_eq_of_add_le]
  simp only [Nat.reduceSub, BitVec.extractLsb'_eq_self]

@[simp] theorem fieldsOfKF_pack (r : KF) : fieldsOfKF (packWordKF r) = r := by
  simp (disch := decide) only [fieldsOfKF, packWordKF, BitVec.extractLsb'_append_eq_of_le,
    BitVec.extractLsb'_append_eq_of_add_le]
  simp only [Nat.reduceSub, BitVec.extractLsb'_eq_self]

@[simp] theorem fieldsOfYG_pack (r : YG) : fieldsOfYG (packWordYG r) = r := by
  simp (disch := decide) only [fieldsOfYG, packWordYG, BitVec.extractLsb'_append_eq_of_le,
    BitVec.extractLsb'_append_eq_of_add_le]
  simp only [Nat.reduceSub, BitVec.extractLsb'_eq_self]

@[simp] theorem fieldsOfVF_pack (r : VF) : fieldsOfVF (packWordVF r) = r := by
  simp (disch := decide) only [fieldsOfVF, packWordVF, BitVec.extractLsb'_append_eq_of_le,
    BitVec.extractLsb'_append_eq_of_add_le]
  simp only [Nat.reduceSub, BitVec.extractLsb'_eq_self]

@[simp] theorem fieldsOfMF_pack (r : MF) : fieldsOfMF (packWordMF r) = r := by
  simp (disch := decide) only [fieldsOfMF, packWordMF, BitVec.extractLsb'_append_eq_of_le,
    BitVec.extractLsb'_append_eq_of_add_le]
  simp only [Nat.reduceSub, BitVec.extractLsb'_eq_self]

@[simp] theorem fieldsOfXF_pack (r : XF) : fieldsOfXF (packWordXF r) = r := by
  simp (disch := decide) only [fieldsOfXF, packWordXF, BitVec.extractLsb'_append_eq_of_le,
    BitVec.extractLsb'_append_eq_of_add_le]
  simp only [Nat.reduceSub, BitVec.extractLsb'_eq_self]

@[simp] theorem fieldsOfCT_packCI_op (r : CI) : (fieldsOfCT (packWordCI r)).op = r.op := by
  simp (disch := decide) only [fieldsOfCT, packWordCI, BitVec.extractLsb'_append_eq_of_le,
    BitVec.extractLsb'_append_eq_of_add_le]
  simp only [Nat.reduceSub, BitVec.extractLsb'_eq_self]

@[simp] theorem fieldsOfSR_packSI_op (r : SI) : (fieldsOfSR (packWordSI r)).op = r.op := by
  simp (disch := decide) only [fieldsOfSR, packWordSI, BitVec.extractLsb'_append_eq_of_le,
    BitVec.extractLsb'_append_eq_of_add_le]
  simp only [Nat.reduceSub, BitVec.extractLsb'_eq_self]

@[simp] theorem fieldsOfSR_packAM_op (r : AM) : (fieldsOfSR (packWordAM r)).op = r.op := by
  simp (disch := decide) only [fieldsOfSR, packWordAM, BitVec.extractLsb'_append_eq_of_le,
    BitVec.extractLsb'_append_eq_of_add_le]
  simp only [Nat.reduceSub, BitVec.extractLsb'_eq_self]

@[simp] theorem fieldsOfYG_packSR_op (r : SR) : (fieldsOfYG (packWordSR r)).op = r.op := by
  simp (disch := decide) only [fieldsOfYG, packWordSR, BitVec.extractLsb'_append_eq_of_le,
    BitVec.extractLsb'_append_eq_of_add_le]
  simp only [Nat.reduceSub, BitVec.extractLsb'_eq_self]

/-- A 32-bit encoding comes back from the 48 bits that hold it. -/
theorem setWidth_48_32 (w : BitVec 32) : (w.setWidth 48).setWidth 32 = w := by
  apply BitVec.eq_of_toNat_eq
  simp

@[simp] theorem VF.hdr_mk (h : VHdr) (op : BitVec 8) (f : BitVec 4) (d a b c : BitVec 6) (fn : BitVec 7) :
    VF.hdr { op := op, f := f, p := h.pred, n := ob h.neg, d := d, a := a, b := b, c := c, fn := fn } h.slot h.width = h := by
  rcases h with ⟨s, w, p, n⟩
  cases n <;> rfl

-- The decoder of each encoder's word ----------------------------------------------------------------------------

theorem decodeOp_encCT (op : BitVec 8) (l : BitVec 3) (p : BitVec 4) (n : BitVec 1) (t : BitVec 16) :
    decodeOp (encCT op l p n t) = decodeC (packWordCT { op := op, l := l, p := p, n := n, t := t }) :=
  congrArg decodeC (setWidth_48_32 _)

theorem decodeOp_encCI (op : BitVec 8) (l aux : BitVec 3) (imm : BitVec 18) :
    decodeOp (encCI op l aux imm) = decodeC (packWordCI { op := op, l := l, aux := aux, imm := imm }) :=
  congrArg decodeC (setWidth_48_32 _)

theorem decodeOp_encR_s (op : BitVec 8) (d a b c : BitVec 6) :
    decodeOp (encR .s op d a b c) = decodeS (packWordSR { op := op, d := d, a := a, b := b, c := c }) :=
  congrArg decodeS (setWidth_48_32 _)

theorem decodeOp_encR_a (op : BitVec 8) (d a b c : BitVec 6) :
    decodeOp (encR .a op d a b c) = decodeA (packWordSR { op := op, d := d, a := a, b := b, c := c }) :=
  congrArg decodeA (setWidth_48_32 _)

theorem decodeOp_encR_y (op : BitVec 8) (d a b c : BitVec 6) :
    decodeOp (encR .y op d a b c) = decodeY (packWordSR { op := op, d := d, a := a, b := b, c := c }) :=
  congrArg decodeY (setWidth_48_32 _)

theorem decodeOp_encI_s (op : BitVec 8) (d a : BitVec 6) (imm : BitVec 12) :
    decodeOp (encI .s op d a imm) = decodeS (packWordSI { op := op, d := d, a := a, imm := imm }) :=
  congrArg decodeS (setWidth_48_32 _)

theorem decodeOp_encI_a (op : BitVec 8) (d a : BitVec 6) (imm : BitVec 12) :
    decodeOp (encI .a op d a imm) = decodeA (packWordSI { op := op, d := d, a := a, imm := imm }) :=
  congrArg decodeA (setWidth_48_32 _)

theorem decodeOp_encAM (op : BitVec 8) (b x : Spec) (w : BitVec 3) (sc : BitVec 4) (o : BitVec 2) (m : BitVec 3) :
    decodeOp (encAM op b x w sc o m) =
      decodeA (packWordAM { op := op, b := b.code, x := x.code, w := w, sc := sc, o := o, m := m }) :=
  congrArg decodeA (setWidth_48_32 _)

theorem decodeOp_encK (op : BitVec 8) (d s : BitVec 4) (fn : BitVec 2) (imm : BitVec 14) :
    decodeOp (encK op d s fn imm) = decodeK (packWordKF { op := op, d := d, s := s, fn := fn, imm := imm }) :=
  congrArg decodeK (setWidth_48_32 _)

theorem decodeOp_encY (op : BitVec 8) (ya yb : BitVec 3) (obj : BitVec 6) (sc : BitVec 4) (o : BitVec 2) (imm : BitVec 6) :
    decodeOp (encY op ya yb obj sc o imm) =
      decodeY (packWordYG { op := op, ya := ya, yb := yb, obj := obj, sc := sc, o := o, imm := imm }) :=
  congrArg decodeY (setWidth_48_32 _)

theorem decodeOp_encV (h : VHdr) (op : BitVec 8) (f : BitVec 4) (d a b c : BitVec 6) (fn : BitVec 7) :
    decodeOp (encV h op f d a b c fn) = decodeV h.slot h.width
      (packWordVF { op := op, f := f, p := h.pred, n := ob h.neg, d := d, a := a, b := b, c := c, fn := fn }) := by
  rcases h with ⟨s, w, p, n⟩
  cases s <;> rfl

theorem decodeOp_encM (op : BitVec 8) (fa fb : BitVec 4) (acc rq : BitVec 3) (ka kb : BitVec 4) (imm : BitVec 18) :
    decodeOp (encM op fa fb acc rq ka kb imm) =
      decodeM (packWordMF { op := op, fa := fa, fb := fb, acc := acc, rq := rq, ka := ka, kb := kb, imm := imm }) := rfl

theorem decodeOp_encX (op : BitVec 8) (f lane : BitVec 4) (d a b c : BitVec 6) (m : BitVec 8) :
    decodeOp (encX op f lane d a b c m) =
      decodeX (packWordXF { op := op, f := f, lane := lane, d := d, a := a, b := b, c := c, m := m }) := rfl

-- The shared decoders of operand shapes -------------------------------------------------------------------------

/-- A reader that succeeds hands its value on. -/
theorem bindOk {α β : Type} {x : Except DecodeError α} {a : α} {f : α → Except DecodeError β} {r : Except DecodeError β}
    (h : x = .ok a) (k : f a = r) : (x >>= f) = r := by subst h; exact k

theorem srDab_code {op : BitVec 8} {d a b : Spec} {c : BitVec 6} {k : Spec → Spec → Spec → Instr}
    (h : (k d a b).wf = true) : srDab { op := op, d := d.code, a := a.code, b := b.code, c := c } k = .ok (k d a b) :=
  bindOk (specOf_code d) (bindOk (specOf_code a) (bindOk (specOf_code b) (finish_wf h)))

theorem srDa_code {op : BitVec 8} {d a : Spec} {k : Spec → Spec → Instr} (h : (k d a).wf = true) :
    srDa { op := op, d := d.code, a := a.code, b := 0, c := 0 } k = .ok (k d a) :=
  bindOk mustBeZero_zero (bindOk mustBeZero_zero (bindOk (specOf_code d) (bindOk (specOf_code a) (finish_wf h))))

theorem siDa_code {op : BitVec 8} {d a : Spec} {i : BitVec 12} {k : Spec → Spec → BitVec 12 → Instr}
    (h : (k d a i).wf = true) : siDa { op := op, d := d.code, a := a.code, imm := i } k = .ok (k d a i) :=
  bindOk (specOf_code d) (bindOk (specOf_code a) (finish_wf h))

theorem amFull_code {op : BitVec 8} {b x : Spec} {w : BitVec 3} {sc : Scope} {o : Order}
    {k : Spec → Spec → BitVec 3 → Scope → Order → Instr} (h : (k b x w sc o).wf = true) :
    amFull { op := op, b := b.code, x := x.code, w := w, sc := sc.code, o := o.code, m := 0 } k = .ok (k b x w sc o) :=
  bindOk mustBeZero_zero (bindOk (specOf_code b) (bindOk (specOf_code x) (bindOk (scopeOf_code sc) (by
    simp only [Order.ofCode_code]
    exact finish_wf h))))

theorem amWidth_code {op : BitVec 8} {b x : Spec} {w : BitVec 3} {k : Spec → Spec → BitVec 3 → Instr}
    (h : (k b x w).wf = true) :
    amWidth { op := op, b := b.code, x := x.code, w := w, sc := 0, o := 0, m := 0 } k = .ok (k b x w) :=
  bindOk mustBeZero_zero (bindOk mustBeZero_zero (bindOk mustBeZero_zero (bindOk (specOf_code b)
    (bindOk (specOf_code x) (finish_wf h)))))

theorem amMod_code {op : BitVec 8} {b x : Spec} {m : BitVec 3} {k : Spec → Spec → BitVec 3 → Except DecodeError Instr}
    {i : Instr} (h : k b x m = .ok i) :
    amMod { op := op, b := b.code, x := x.code, w := 0, sc := 0, o := 0, m := m } k = .ok i :=
  bindOk mustBeZero_zero (bindOk mustBeZero_zero (bindOk mustBeZero_zero (bindOk (specOf_code b)
    (bindOk (specOf_code x) h))))

theorem vDab_code {op : BitVec 8} {f : Fmt} {p : BitVec 4} {n : BitVec 1} {d a b : Spec}
    {k : Fmt → Spec → Spec → Spec → Instr} (h : (k f d a b).wf = true) :
    vDab { op := op, f := f.code, p := p, n := n, d := d.code, a := a.code, b := b.code, c := 0, fn := 0 } k =
      .ok (k f d a b) :=
  bindOk mustBeZero_zero (bindOk mustBeZero_zero (bindOk (fmtOf_code f) (bindOk (specOf_code d) (bindOk (specOf_code a)
    (bindOk (specOf_code b) (finish_wf h))))))

/-- A 7-bit function field that holds one flag. -/
theorem flag7 (x : Bool) : mustBeZero (((0 : BitVec 6) ++ ob x).extractLsb' 1 6) = .ok () ∧
    bit ((0 : BitVec 6) ++ ob x) 0 = x := by cases x <;> decide

theorem vDabF_code {op : BitVec 8} {f : Fmt} {p : BitVec 4} {n : BitVec 1} {d a b : Spec} {x : Bool}
    {k : Fmt → Spec → Spec → Spec → Bool → Instr} (h : (k f d a b x).wf = true) :
    vDabF { op := op, f := f.code, p := p, n := n, d := d.code, a := a.code, b := b.code, c := 0,
            fn := (0 : BitVec 6) ++ ob x } k = .ok (k f d a b x) :=
  bindOk mustBeZero_zero (bindOk (flag7 x).1 (bindOk (fmtOf_code f) (bindOk (specOf_code d) (bindOk (specOf_code a)
    (bindOk (specOf_code b) (by rw [(flag7 x).2]; exact finish_wf h))))))

theorem vDa_code {op : BitVec 8} {f : Fmt} {p : BitVec 4} {n : BitVec 1} {d a : Spec} {k : Fmt → Spec → Spec → Instr}
    (h : (k f d a).wf = true) :
    vDa { op := op, f := f.code, p := p, n := n, d := d.code, a := a.code, b := 0, c := 0, fn := 0 } k =
      .ok (k f d a) :=
  bindOk mustBeZero_zero (bindOk mustBeZero_zero (bindOk mustBeZero_zero (bindOk (fmtOf_code f) (bindOk (specOf_code d)
    (bindOk (specOf_code a) (finish_wf h))))))

theorem vDaI_code {op : BitVec 8} {f : Fmt} {p : BitVec 4} {n : BitVec 1} {d a : Spec} {m : BitVec 7}
    {k : Fmt → Spec → Spec → BitVec 7 → Instr} (h : (k f d a m).wf = true) :
    vDaI { op := op, f := f.code, p := p, n := n, d := d.code, a := a.code, b := 0, c := 0, fn := m } k =
      .ok (k f d a m) :=
  bindOk mustBeZero_zero (bindOk mustBeZero_zero (bindOk (fmtOf_code f) (bindOk (specOf_code d)
    (bindOk (specOf_code a) (finish_wf h)))))

theorem vDabc_code {op : BitVec 8} {f : Fmt} {p : BitVec 4} {n : BitVec 1} {d a b c : Spec}
    {k : Fmt → Spec → Spec → Spec → Spec → Instr} (h : (k f d a b c).wf = true) :
    vDabc { op := op, f := f.code, p := p, n := n, d := d.code, a := a.code, b := b.code, c := c.code, fn := 0 } k =
      .ok (k f d a b c) :=
  bindOk mustBeZero_zero (bindOk (fmtOf_code f) (bindOk (specOf_code d) (bindOk (specOf_code a)
    (bindOk (specOf_code b) (bindOk (specOf_code c) (finish_wf h))))))

theorem vShift_code {op : BitVec 8} {f : Fmt} {p : BitVec 4} {n : BitVec 1} {d a : Spec} {s : ShiftBy}
    {k : Fmt → Spec → Spec → ShiftBy → Instr} (h : (k f d a s).wf = true) :
    vShift { op := op, f := f.code, p := p, n := n, d := d.code, a := a.code, b := s.shiftFields.1, c := 0,
             fn := s.shiftFields.2 } k = .ok (k f d a s) :=
  bindOk mustBeZero_zero (bindOk (fmtOf_code f) (bindOk (specOf_code d) (bindOk (specOf_code a)
    (bindOk (ShiftBy.shiftByOf_fields s) (finish_wf h)))))

theorem vPred_code {op : BitVec 8} {p : BitVec 4} {n : BitVec 1} {d a b : BitVec 4}
    {k : BitVec 4 → BitVec 4 → BitVec 4 → Instr} (h : (k d a b).wf = true) :
    vPred { op := op, f := 0, p := p, n := n, d := xr d, a := xr a, b := xr b, c := 0, fn := 0 } k = .ok (k d a b) :=
  bindOk mustBeZero_zero (bindOk mustBeZero_zero (bindOk mustBeZero_zero (bindOk (pregOf_xr d) (bindOk (pregOf_xr a)
    (bindOk (pregOf_xr b) (finish_wf h))))))

theorem kqSource_code {op : BitVec 8} {f p : BitVec 4} {n : BitVec 1} {d b : BitVec 6} {fn : BitVec 7} :
    kqSource { op := op, f := f, p := p, n := n, d := d, a := 0x29, b := b, c := 0, fn := fn } = .ok () :=
  bindOk (a := ()) rfl mustBeZero_zero

-- Fields that share a word --------------------------------------------------------------------------------------

theorem finish_eq {i j : Instr} (h : i = j) (hw : j.wf = true) : finish i = .ok j := by subst h; exact finish_wf hw

@[simp] theorem scondOf_code (e : DecodeError) (c : SCond) : orErr e (SCond.ofCode c.code) = .ok c := by simp [orErr]
@[simp] theorem vcondOf_code (e : DecodeError) (c : VCond) : orErr e (VCond.ofCode c.code) = .ok c := by simp [orErr]
@[simp] theorem fcondOf_code (e : DecodeError) (c : FCond) : orErr e (FCond.ofCode c.code) = .ok c := by simp [orErr]
@[simp] theorem treeOpOf_code (e : DecodeError) (c : TreeOp) : orErr e (TreeOp.ofCode c.code) = .ok c := by simp [orErr]
@[simp] theorem fenceOf_code (e : DecodeError) (c : FenceOrd) : orErr e (FenceOrd.ofCode c.code) = .ok c := by
  simp [orErr]
@[simp] theorem ibitsOf_code (e : DecodeError) (c : IBits) : orErr e (IBits.ofCode c.code) = .ok c := by simp [orErr]

theorem loop_imm (d : BitVec 3) (n : BitVec 15) :
    (d ++ n : BitVec 18).extractLsb' 15 3 = d ∧ (d ++ n : BitVec 18).extractLsb' 0 15 = n := by
  constructor <;> simp (disch := decide) only [BitVec.extractLsb'_append_eq_of_le,
    BitVec.extractLsb'_append_eq_of_add_le] <;> simp only [Nat.reduceSub, BitVec.extractLsb'_eq_self]

theorem lset_imm (d : BitVec 3) : mustBeZero ((d ++ (0 : BitVec 15) : BitVec 18).extractLsb' 0 15) = .ok () := by
  rw [(loop_imm d 0).2]; exact mustBeZero_zero

theorem byte_imm (c : BitVec 8) : mustBeZero (((0 : BitVec 6) ++ c : BitVec 14).extractLsb' 8 6) = .ok () ∧
    ((0 : BitVec 6) ++ c : BitVec 14).extractLsb' 0 8 = c := by
  constructor
  · rw [show ((0 : BitVec 6) ++ c : BitVec 14).extractLsb' 8 6 = 0#6 from by
      simp (disch := decide) only [BitVec.extractLsb'_append_eq_of_le]; rfl]
    exact mustBeZero_zero
  · simp (disch := decide) only [BitVec.extractLsb'_append_eq_of_add_le]
    simp only [BitVec.extractLsb'_eq_self]

theorem off_imm (c : BitVec 14) : mustBeZero (((0 : BitVec 4) ++ c : BitVec 18).extractLsb' 14 4) = .ok () ∧
    ((0 : BitVec 4) ++ c : BitVec 18).extractLsb' 0 14 = c := by
  constructor
  · rw [show ((0 : BitVec 4) ++ c : BitVec 18).extractLsb' 14 4 = 0#4 from by
      simp (disch := decide) only [BitVec.extractLsb'_append_eq_of_le]; rfl]
    exact mustBeZero_zero
  · simp (disch := decide) only [BitVec.extractLsb'_append_eq_of_add_le]
    simp only [BitVec.extractLsb'_eq_self]

theorem cmpi_imm (v : BitVec 8) (t : BitVec 1) (c : BitVec 3) : bit (v ++ t ++ c : BitVec 12) 3 = (t == 1) ∧
    (v ++ t ++ c : BitVec 12).extractLsb' 0 3 = c ∧ (v ++ t ++ c : BitVec 12).extractLsb' 4 8 = v := by
  refine ⟨?_, ?_, ?_⟩
  · have h : (v ++ t ++ c : BitVec 12).getLsbD 3 = t.getLsbD 0 := by
      rw [BitVec.getLsbD_append, BitVec.getLsbD_append]; rfl
    rw [bit, h]; clear h; revert t; decide
  · simp (disch := decide) only [BitVec.extractLsb'_append_eq_of_add_le]
    simp only [BitVec.extractLsb'_eq_self]
  · simp (disch := decide) only [BitVec.extractLsb'_append_eq_of_le]
    simp only [Nat.reduceSub, BitVec.extractLsb'_eq_self]

theorem vli_imm (i : BitVec 25) :
    (i.extractLsb' 19 6 ++ i.extractLsb' 13 6 ++ i.extractLsb' 7 6 ++ i.extractLsb' 0 7 : BitVec 25) = i := by
  apply BitVec.eq_of_getLsbD_eq
  intro k hk
  simp only [BitVec.getLsbD_append, BitVec.getLsbD_extractLsb']
  rcases Nat.lt_or_ge k 7 with h | h
  · simp [h]
  · rcases Nat.lt_or_ge k 13 with h2 | h2
    · simp [show ¬ k < 7 from by omega, show k - 7 < 6 from by omega, show 7 + (k - 7) = k from by omega]
    · rcases Nat.lt_or_ge k 19 with h3 | h3
      · simp [show ¬ k < 7 from by omega, show ¬ k - 7 < 6 from by omega, show k - 7 - 6 < 6 from by omega,
          show 13 + (k - 7 - 6) = k from by omega]
      · simp [show ¬ k < 7 from by omega, show ¬ k - 7 < 6 from by omega, show ¬ k - 7 - 6 < 6 from by omega,
          show k - 7 - 6 - 6 < 6 from by omega, show 19 + (k - 7 - 6 - 6) = k from by omega]

theorem shi_imm (k : BitVec 2) (n : BitVec 6) :
    mustBeZero (((0 : BitVec 4) ++ k ++ n : BitVec 12).extractLsb' 8 4) = .ok () ∧
    ((0 : BitVec 4) ++ k ++ n : BitVec 12).extractLsb' 6 2 = k ∧
    ((0 : BitVec 4) ++ k ++ n : BitVec 12).extractLsb' 0 6 = n := by
  revert k n; decide

theorem cmp_fn (t : BitVec 1) (c : BitVec 3) :
    mustBeZero (((0 : BitVec 2) ++ t ++ c : BitVec 6).extractLsb' 4 2) = .ok () ∧
    bit ((0 : BitVec 2) ++ t ++ c : BitVec 6) 3 = (t == 1) ∧
    ((0 : BitVec 2) ++ t ++ c : BitVec 6).extractLsb' 0 3 = c := by
  revert t c; decide

theorem sel_fn (n : Bool) (p : BitVec 4) :
    mustBeZero (((0 : BitVec 1) ++ ob n ++ p : BitVec 6).extractLsb' 5 1) = .ok () ∧
    bit ((0 : BitVec 1) ++ ob n ++ p : BitVec 6) 4 = n ∧
    ((0 : BitVec 1) ++ ob n ++ p : BitVec 6).extractLsb' 0 4 = p := by
  revert n p; decide

theorem movx_fn (s d : BitVec 3) :
    (s ++ d : BitVec 6).extractLsb' 3 3 = s ∧
    (s ++ d : BitVec 6).extractLsb' 0 3 = d := by
  revert s d; decide

theorem pad2_4 (c : BitVec 4) :
    mustBeZero (((0 : BitVec 2) ++ c : BitVec 6).extractLsb' 4 2) = .ok () ∧
    ((0 : BitVec 2) ++ c : BitVec 6).extractLsb' 0 4 = c := by
  revert c; decide

theorem pad4_2 (c : BitVec 2) :
    mustBeZero (((0 : BitVec 4) ++ c : BitVec 6).extractLsb' 2 4) = .ok () ∧
    ((0 : BitVec 4) ++ c : BitVec 6).extractLsb' 0 2 = c := by
  revert c; decide

theorem flag3 (n : Bool) :
    mustBeZero (((0 : BitVec 2) ++ ob n : BitVec 3).extractLsb' 1 2) = .ok () ∧
    bit ((0 : BitVec 2) ++ ob n : BitVec 3) 0 = n := by
  revert n; decide

theorem flag6 (n : Bool) :
    mustBeZero (((0 : BitVec 5) ++ ob n : BitVec 6).extractLsb' 1 5) = .ok () ∧
    bit ((0 : BitVec 5) ++ ob n : BitVec 6) 0 = n := by
  revert n; decide

theorem pad4_3 (c : BitVec 3) :
    mustBeZero (((0 : BitVec 4) ++ c : BitVec 7).extractLsb' 3 4) = .ok () ∧
    ((0 : BitVec 4) ++ c : BitVec 7).extractLsb' 0 3 = c := by
  revert c; decide

theorem vnarw_fn (s : BitVec 4) (r g t : Bool) :
    bit (s ++ ob r ++ ob g ++ ob t : BitVec 7) 0 = t ∧
    bit (s ++ ob r ++ ob g ++ ob t : BitVec 7) 1 = g ∧
    bit (s ++ ob r ++ ob g ++ ob t : BitVec 7) 2 = r ∧
    (s ++ ob r ++ ob g ++ ob t : BitVec 7).extractLsb' 3 4 = s := by
  revert s r g t; decide

theorem pad2_5 (c : BitVec 5) :
    mustBeZero (((0 : BitVec 2) ++ c : BitVec 7).extractLsb' 5 2) = .ok () ∧
    ((0 : BitVec 2) ++ c : BitVec 7).extractLsb' 0 5 = c := by
  revert c; decide

theorem vpxp_fn (t : Bool) (c : BitVec 5) :
    mustBeZero (((0 : BitVec 1) ++ ob t ++ c : BitVec 7).extractLsb' 6 1) = .ok () ∧
    ((0 : BitVec 1) ++ ob t ++ c : BitVec 7).extractLsb' 0 5 = c ∧
    bit ((0 : BitVec 1) ++ ob t ++ c : BitVec 7) 5 = t := by
  revert t c; decide

theorem pad1_6 (c : BitVec 6) :
    mustBeZero (((0 : BitVec 1) ++ c : BitVec 7).extractLsb' 6 1) = .ok () ∧
    ((0 : BitVec 1) ++ c : BitVec 7).extractLsb' 0 6 = c := by
  revert c; decide

theorem vfma_fn (x y : Bool) :
    mustBeZero (((0 : BitVec 5) ++ ob x ++ ob y : BitVec 7).extractLsb' 2 5) = .ok () ∧
    bit ((0 : BitVec 5) ++ ob x ++ ob y : BitVec 7) 0 = y ∧
    bit ((0 : BitVec 5) ++ ob x ++ ob y : BitVec 7) 1 = x := by
  revert x y; decide

theorem pad5_2 (c : BitVec 2) :
    mustBeZero (((0 : BitVec 5) ++ c : BitVec 7).extractLsb' 2 5) = .ok () ∧
    ((0 : BitVec 5) ++ c : BitVec 7).extractLsb' 0 2 = c := by
  revert c; decide

theorem vfcvt_fn (x : BitVec 4) (y : BitVec 3) :
    (x ++ y : BitVec 7).extractLsb' 3 4 = x ∧
    (x ++ y : BitVec 7).extractLsb' 0 3 = y := by
  revert x y; decide

theorem vscl_fn (x : Bool) (c : BitVec 2) :
    mustBeZero (((0 : BitVec 4) ++ ob x ++ c : BitVec 7).extractLsb' 3 4) = .ok () ∧
    ((0 : BitVec 4) ++ ob x ++ c : BitVec 7).extractLsb' 0 2 = c ∧
    bit ((0 : BitVec 4) ++ ob x ++ c : BitVec 7) 2 = x := by
  revert x c; decide

theorem vqnt_fn (x : BitVec 2) (y : BitVec 3) :
    mustBeZero (((0 : BitVec 2) ++ x ++ y : BitVec 7).extractLsb' 5 2) = .ok () ∧
    ((0 : BitVec 2) ++ x ++ y : BitVec 7).extractLsb' 3 2 = x ∧
    ((0 : BitVec 2) ++ x ++ y : BitVec 7).extractLsb' 0 3 = y := by
  revert x y; decide

theorem pad3_4 (c : BitVec 4) :
    mustBeZero (((0 : BitVec 3) ++ c : BitVec 7).extractLsb' 4 3) = .ok () ∧
    ((0 : BitVec 3) ++ c : BitVec 7).extractLsb' 0 4 = c := by
  revert c; decide

theorem mma_imm (x y z : Bool) :
    mustBeZero (((0 : BitVec 15) ++ ob x ++ ob y ++ ob z : BitVec 18).extractLsb' 3 15) = .ok () ∧
    bit ((0 : BitVec 15) ++ ob x ++ ob y ++ ob z : BitVec 18) 0 = z ∧
    bit ((0 : BitVec 15) ++ ob x ++ ob y ++ ob z : BitVec 18) 1 = y ∧
    bit ((0 : BitVec 15) ++ ob x ++ ob y ++ ob z : BitVec 18) 2 = x := by
  revert x y z; decide

theorem mmb_imm (w x y z : Bool) :
    mustBeZero (((0 : BitVec 14) ++ ob w ++ ob x ++ ob y ++ ob z : BitVec 18).extractLsb' 5 13) = .ok () ∧
    bit ((0 : BitVec 14) ++ ob w ++ ob x ++ ob y ++ ob z : BitVec 18) 4 = false ∧
    bit ((0 : BitVec 14) ++ ob w ++ ob x ++ ob y ++ ob z : BitVec 18) 0 = z ∧
    bit ((0 : BitVec 14) ++ ob w ++ ob x ++ ob y ++ ob z : BitVec 18) 1 = y ∧
    bit ((0 : BitVec 14) ++ ob w ++ ob x ++ ob y ++ ob z : BitVec 18) 2 = x ∧
    bit ((0 : BitVec 14) ++ ob w ++ ob x ++ ob y ++ ob z : BitVec 18) 3 = w := by
  revert w x y z; decide

theorem mcfg_imm (y z : Bool) :
    mustBeZero (((0 : BitVec 16) ++ ob y ++ ob z : BitVec 18).extractLsb' 2 16) = .ok () ∧
    bit ((0 : BitVec 16) ++ ob y ++ ob z : BitVec 18) 0 = z ∧
    bit ((0 : BitVec 16) ++ ob y ++ ob z : BitVec 18) 1 = y := by
  revert y z; decide

theorem mclr_imm (z : Bool) :
    mustBeZero (((0 : BitVec 17) ++ ob z : BitVec 18).extractLsb' 1 17) = .ok () ∧
    bit ((0 : BitVec 17) ++ ob z : BitVec 18) 0 = z := by
  revert z; decide

theorem flag8 (z : Bool) :
    mustBeZero (((0 : BitVec 7) ++ ob z : BitVec 8).extractLsb' 1 7) = .ok () ∧
    bit ((0 : BitVec 7) ++ ob z : BitVec 8) 0 = z := by
  revert z; decide

theorem flag8b (z : Bool) :
    mustBeZero (((0 : BitVec 6) ++ ob z ++ (0 : BitVec 1) : BitVec 8).extractLsb' 2 6) = .ok () ∧
    mustBeZero (((0 : BitVec 6) ++ ob z ++ (0 : BitVec 1) : BitVec 8).extractLsb' 0 1) = .ok () ∧
    bit ((0 : BitVec 6) ++ ob z ++ (0 : BitVec 1) : BitVec 8) 1 = z := by
  revert z; decide

theorem xcpc_m (x : BitVec 5) (y : BitVec 2) :
    mustBeZero (((0 : BitVec 1) ++ x ++ y : BitVec 8).extractLsb' 7 1) = .ok () ∧
    ((0 : BitVec 1) ++ x ++ y : BitVec 8).extractLsb' 0 2 = y ∧
    ((0 : BitVec 1) ++ x ++ y : BitVec 8).extractLsb' 2 5 = x := by
  revert x y; decide

theorem xfill_m (x y z : Bool) :
    mustBeZero (((0 : BitVec 5) ++ ob x ++ ob y ++ ob z : BitVec 8).extractLsb' 3 5) = .ok () ∧
    bit ((0 : BitVec 5) ++ ob x ++ ob y ++ ob z : BitVec 8) 0 = z ∧
    bit ((0 : BitVec 5) ++ ob x ++ ob y ++ ob z : BitVec 8) 1 = y ∧
    bit ((0 : BitVec 5) ++ ob x ++ ob y ++ ob z : BitVec 8) 2 = x := by
  revert x y z; decide

theorem xcoll_m (x : BitVec 3) (y : BitVec 4) :
    mustBeZero (((0 : BitVec 1) ++ x ++ y : BitVec 8).extractLsb' 7 1) = .ok () ∧
    ((0 : BitVec 1) ++ x ++ y : BitVec 8).extractLsb' 0 4 = y ∧
    ((0 : BitVec 1) ++ x ++ y : BitVec 8).extractLsb' 4 3 = x := by
  revert x y; decide

theorem pad4_4 (y : BitVec 4) :
    mustBeZero (((0 : BitVec 4) ++ y : BitVec 8).extractLsb' 4 4) = .ok () ∧
    ((0 : BitVec 4) ++ y : BitVec 8).extractLsb' 0 4 = y := by
  revert y; decide

theorem pad2_6 (y : BitVec 6) :
    mustBeZero (((0 : BitVec 2) ++ y : BitVec 8).extractLsb' 6 2) = .ok () ∧
    mustBeZero (((0 : BitVec 2) ++ y : BitVec 8).extractLsb' 6 1) = .ok () ∧
    bit ((0 : BitVec 2) ++ y : BitVec 8) 7 = false ∧
    ((0 : BitVec 2) ++ y : BitVec 8).extractLsb' 0 6 = y := by
  revert y; decide

/-- Five bits in a six-bit object field (R91). -/
theorem obj5 (e : DecodeError) (f : BitVec 5) : needs e (((0 : BitVec 1) ++ f : BitVec 6).toNat < 32) = .ok () ∧
    ((0 : BitVec 1) ++ f : BitVec 6).extractLsb' 0 5 = f := by
  constructor
  · have h : ∀ f : BitVec 5, (((0 : BitVec 1) ++ f : BitVec 6).toNat < 32) := by decide
    simp only [needs, h f, decide_true, if_true]
  · revert f; decide

theorem iteT {α : Type} {c : Bool} {x y r : α} (h : c = true) (k : x = r) : (if c = true then x else y) = r := by
  rw [if_pos h]; exact k

theorem iteF {α : Type} {c : Bool} {x y r : α} (h : c = false) (k : y = r) : (if c = true then x else y) = r := by
  rw [h]; exact k

theorem needs_ok (e : DecodeError) {c : Bool} (h : c = true) : needs e c = .ok () := by simp [needs, h]

theorem mustBeZero_of {n : Nat} {b : BitVec n} (h : b = 0#n) : mustBeZero b = .ok () := by subst h; exact mustBeZero_zero

theorem psetOf_by (a : Spec) : psetOf a.code (1#1 ++ (0 : BitVec 6)) = .ok (.by a) := by
  simp [psetOf]; rfl

theorem psetOf_imm (k : BitVec 6) : psetOf 0 (0#1 ++ k) = .ok (.imm k) := by revert k; decide

theorem decodeMovx_code {op : BitVec 8} (d : MovLoc) (a : MovSrc) (hw : (Instr.movx d a).wf = true) :
    decodeMovx { op := op, d := d.field, a := a.field, b := 0, c := a.file ++ d.file } = .ok (.movx d a) := by
  have hd : ¬ 6 ≤ d.file.toNat := by cases d <;> simp [MovLoc.file]
  simp only [decodeMovx, (movx_fn a.file d.file).1, (movx_fn a.file d.file).2, if_neg hd]
  refine bindOk mustBeZero_zero (bindOk (a := a) ?_ (bindOk (MovLoc.movLocOf_field d) (finish_wf hw)))
  rcases a with m | n
  · have h5 : ¬ m.file = 5 := by cases m <;> simp [MovLoc.file]
    show (if m.file = 5 then _ else _) = _
    rw [if_neg h5]
    exact bindOk (MovLoc.movLocOf_field m) rfl
  · rfl

end Sys2Proof
end

