-- ==== Sys2Proof/Laws/State.lean ====
section
/-! SUPPORT. The state's updates field by field, and what is read after what is written. -/

namespace Sys2Proof

-- Association lists and register files ---------------------------------------------------------------------------

@[simp] theorem Assoc.get_put_same {α : Type} (d : α) (m : Assoc α) (k : Nat) (v : α) : (m.put k v).get d k = v := by
  induction m with
  | nil => simp [Assoc.put, Assoc.get]
  | cons e r ih =>
    obtain ⟨j, w⟩ := e
    by_cases h : j = k <;> simp [Assoc.put, Assoc.get, h, ih]

theorem Assoc.get_put_other {α : Type} (d : α) (m : Assoc α) {k j : Nat} (v : α) (h : k ≠ j) :
    (m.put k v).get d j = m.get d j := by
  induction m with
  | nil => simp [Assoc.put, Assoc.get, h]
  | cons e r ih =>
    obtain ⟨i, w⟩ := e
    by_cases hk : i = k
    · subst hk; simp [Assoc.put, Assoc.get, h]
    · by_cases hj : i = j
      · subst hj; simp [Assoc.put, Assoc.get, hk]
      · simp [Assoc.put, Assoc.get, hk, hj, ih]

@[simp] theorem Assoc.find_put_same {α : Type} (m : Assoc α) (k : Nat) (v : α) : (m.put k v).find k = some v := by
  induction m with
  | nil => simp [Assoc.put, Assoc.find]
  | cons e r ih =>
    obtain ⟨j, w⟩ := e
    by_cases h : j = k <;> simp [Assoc.put, Assoc.find, h, ih]

theorem Assoc.find_put_other {α : Type} (m : Assoc α) {k j : Nat} (v : α) (h : k ≠ j) :
    (m.put k v).find j = m.find j := by
  induction m with
  | nil => simp [Assoc.put, Assoc.find, h]
  | cons e r ih =>
    obtain ⟨i, w⟩ := e
    by_cases hk : i = k
    · subst hk; simp [Assoc.put, Assoc.find, h]
    · by_cases hj : i = j
      · subst hj; simp [Assoc.put, Assoc.find, hk]
      · simp [Assoc.put, Assoc.find, hk, hj, ih]

@[simp] theorem Assoc.put_put {α : Type} (m : Assoc α) (k : Nat) (v v' : α) : (m.put k v).put k v' = m.put k v' := by
  induction m with
  | nil => simp [Assoc.put]
  | cons e r ih =>
    obtain ⟨j, w⟩ := e
    by_cases h : j = k <;> simp [Assoc.put, h, ih]

@[simp] theorem RegFile.get_put_same {n w : Nat} (f : RegFile n w) (r : BitVec n) (v : BitVec w) :
    (f.put r v).get r = v := by
  simp [RegFile.get, RegFile.put]

theorem RegFile.get_put_other {n w : Nat} (f : RegFile n w) {r q : BitVec n} (v : BitVec w) (h : r ≠ q) :
    (f.put r v).get q = f.get q := by
  have : r.toNat ≠ q.toNat := fun e => h (BitVec.eq_of_toNat_eq e)
  simp [RegFile.get, RegFile.put, this]

namespace Machine

-- Contexts of a core ----------------------------------------------------------------------------------------------

@[simp] theorem Core.ctx_setCtx_same (k : Core) (n : BitVec 2) (c : Context) : (k.setCtx n c).ctx n = c := by
  simp [Core.ctx, Core.setCtx]

theorem Core.ctx_setCtx_other (k : Core) {n m : BitVec 2} (c : Context) (h : n ≠ m) :
    (k.setCtx n c).ctx m = k.ctx m := by
  have : n.toNat ≠ m.toNat := fun e => h (BitVec.eq_of_toNat_eq e)
  simp [Core.ctx, Core.setCtx, this]

@[simp] theorem Core.setCtx_setCtx (k : Core) (n : BitVec 2) (c d : Context) :
    (k.setCtx n c).setCtx n d = k.setCtx n d := by
  simp [Core.setCtx]

@[simp] theorem Core.ctx_updCtx_same (k : Core) (n : BitVec 2) (f : Context → Context) :
    (k.updCtx n f).ctx n = f (k.ctx n) := by
  simp [Core.updCtx]

@[simp] theorem Core.setCtx_acc (k : Core) (n : BitVec 2) (c : Context) : (k.setCtx n c).acc = k.acc := rfl
@[simp] theorem Core.updCtx_acc (k : Core) (n : BitVec 2) (f : Context → Context) : (k.updCtx n f).acc = k.acc := rfl
@[simp] theorem Core.setCtx_mstate (k : Core) (n : BitVec 2) (c : Context) : (k.setCtx n c).mstate = k.mstate := rfl
@[simp] theorem Core.updCtx_mstate (k : Core) (n : BitVec 2) (f : Context → Context) : (k.updCtx n f).mstate = k.mstate := rfl
@[simp] theorem Core.setCtx_ways (k : Core) (n : BitVec 2) (c : Context) : (k.setCtx n c).ways = k.ways := rfl
@[simp] theorem Core.updCtx_ways (k : Core) (n : BitVec 2) (f : Context → Context) : (k.updCtx n f).ways = k.ways := rfl
@[simp] theorem Core.setCtx_drainUntil (k : Core) (n : BitVec 2) (c : Context) : (k.setCtx n c).drainUntil = k.drainUntil := rfl
@[simp] theorem Core.updCtx_drainUntil (k : Core) (n : BitVec 2) (f : Context → Context) : (k.updCtx n f).drainUntil = k.drainUntil := rfl
@[simp] theorem Core.setCtx_fa (k : Core) (n : BitVec 2) (c : Context) : (k.setCtx n c).fa = k.fa := rfl
@[simp] theorem Core.updCtx_fa (k : Core) (n : BitVec 2) (f : Context → Context) : (k.updCtx n f).fa = k.fa := rfl
@[simp] theorem Core.setCtx_fb (k : Core) (n : BitVec 2) (c : Context) : (k.setCtx n c).fb = k.fb := rfl
@[simp] theorem Core.updCtx_fb (k : Core) (n : BitVec 2) (f : Context → Context) : (k.updCtx n f).fb = k.fb := rfl
@[simp] theorem Core.setCtx_faOrder (k : Core) (n : BitVec 2) (c : Context) : (k.setCtx n c).faOrder = k.faOrder := rfl
@[simp] theorem Core.updCtx_faOrder (k : Core) (n : BitVec 2) (f : Context → Context) : (k.updCtx n f).faOrder = k.faOrder := rfl
@[simp] theorem Core.setCtx_fbOrder (k : Core) (n : BitVec 2) (c : Context) : (k.setCtx n c).fbOrder = k.fbOrder := rfl
@[simp] theorem Core.updCtx_fbOrder (k : Core) (n : BitVec 2) (f : Context → Context) : (k.updCtx n f).fbOrder = k.fbOrder := rfl
@[simp] theorem Core.setCtx_rq (k : Core) (n : BitVec 2) (c : Context) : (k.setCtx n c).rq = k.rq := rfl
@[simp] theorem Core.updCtx_rq (k : Core) (n : BitVec 2) (f : Context → Context) : (k.updCtx n f).rq = k.rq := rfl
@[simp] theorem Core.setCtx_flags (k : Core) (n : BitVec 2) (c : Context) : (k.setCtx n c).flags = k.flags := rfl
@[simp] theorem Core.updCtx_flags (k : Core) (n : BitVec 2) (f : Context → Context) : (k.updCtx n f).flags = k.flags := rfl
@[simp] theorem Core.setCtx_flagsOwned (k : Core) (n : BitVec 2) (c : Context) : (k.setCtx n c).flagsOwned = k.flagsOwned := rfl
@[simp] theorem Core.updCtx_flagsOwned (k : Core) (n : BitVec 2) (f : Context → Context) : (k.updCtx n f).flagsOwned = k.flagsOwned := rfl
@[simp] theorem Core.setCtx_triggers (k : Core) (n : BitVec 2) (c : Context) : (k.setCtx n c).triggers = k.triggers := rfl
@[simp] theorem Core.updCtx_triggers (k : Core) (n : BitVec 2) (f : Context → Context) : (k.updCtx n f).triggers = k.triggers := rfl
@[simp] theorem Core.setCtx_lanes (k : Core) (n : BitVec 2) (c : Context) : (k.setCtx n c).lanes = k.lanes := rfl
@[simp] theorem Core.updCtx_lanes (k : Core) (n : BitVec 2) (f : Context → Context) : (k.updCtx n f).lanes = k.lanes := rfl
@[simp] theorem Core.setCtx_comms (k : Core) (n : BitVec 2) (c : Context) : (k.setCtx n c).comms = k.comms := rfl
@[simp] theorem Core.updCtx_comms (k : Core) (n : BitVec 2) (f : Context → Context) : (k.updCtx n f).comms = k.comms := rfl
@[simp] theorem Core.setCtx_lastComm (k : Core) (n : BitVec 2) (c : Context) : (k.setCtx n c).lastComm = k.lastComm := rfl
@[simp] theorem Core.updCtx_lastComm (k : Core) (n : BitVec 2) (f : Context → Context) : (k.updCtx n f).lastComm = k.lastComm := rfl
@[simp] theorem Core.setCtx_pub (k : Core) (n : BitVec 2) (c : Context) : (k.setCtx n c).pub = k.pub := rfl
@[simp] theorem Core.setCtx_rqHeld (k : Core) (n : BitVec 2) (c : Context) : (k.setCtx n c).rqHeld = k.rqHeld := rfl
@[simp] theorem Core.setCtx_lines (k : Core) (n : BitVec 2) (c : Context) : (k.setCtx n c).lines = k.lines := rfl
@[simp] theorem Core.updCtx_pub (k : Core) (n : BitVec 2) (f : Context → Context) : (k.updCtx n f).pub = k.pub := rfl
@[simp] theorem Core.updCtx_rqHeld (k : Core) (n : BitVec 2) (f : Context → Context) : (k.updCtx n f).rqHeld = k.rqHeld := rfl
@[simp] theorem Core.updCtx_lines (k : Core) (n : BitVec 2) (f : Context → Context) : (k.updCtx n f).lines = k.lines := rfl
@[simp] theorem Core.setCtx_tlb (k : Core) (n : BitVec 2) (c : Context) : (k.setCtx n c).tlb = k.tlb := rfl
@[simp] theorem Core.updCtx_tlb (k : Core) (n : BitVec 2) (f : Context → Context) : (k.updCtx n f).tlb = k.tlb := rfl
@[simp] theorem Core.setCtx_records (k : Core) (n : BitVec 2) (c : Context) : (k.setCtx n c).records = k.records := rfl
@[simp] theorem Core.updCtx_records (k : Core) (n : BitVec 2) (f : Context → Context) : (k.updCtx n f).records = k.records := rfl
@[simp] theorem Core.setCtx_dict (k : Core) (n : BitVec 2) (c : Context) : (k.setCtx n c).dict = k.dict := rfl
@[simp] theorem Core.updCtx_dict (k : Core) (n : BitVec 2) (f : Context → Context) : (k.updCtx n f).dict = k.dict := rfl
@[simp] theorem Core.setCtx_dictOf (k : Core) (n : BitVec 2) (c : Context) : (k.setCtx n c).dictOf = k.dictOf := rfl
@[simp] theorem Core.updCtx_dictOf (k : Core) (n : BitVec 2) (f : Context → Context) : (k.updCtx n f).dictOf = k.dictOf := rfl
@[simp] theorem Core.setCtx_points (k : Core) (n : BitVec 2) (c : Context) : (k.setCtx n c).points = k.points := rfl
@[simp] theorem Core.updCtx_points (k : Core) (n : BitVec 2) (f : Context → Context) : (k.updCtx n f).points = k.points := rfl
@[simp] theorem Core.setCtx_bound (k : Core) (n : BitVec 2) (c : Context) : (k.setCtx n c).bound = k.bound := rfl
@[simp] theorem Core.updCtx_bound (k : Core) (n : BitVec 2) (f : Context → Context) : (k.updCtx n f).bound = k.bound := rfl
@[simp] theorem Core.setCtx_boundPart (k : Core) (n : BitVec 2) (c : Context) : (k.setCtx n c).boundPart = k.boundPart := rfl
@[simp] theorem Core.updCtx_boundPart (k : Core) (n : BitVec 2) (f : Context → Context) : (k.updCtx n f).boundPart = k.boundPart := rfl
@[simp] theorem Core.setCtx_lastTenant (k : Core) (n : BitVec 2) (c : Context) : (k.setCtx n c).lastTenant = k.lastTenant := rfl
@[simp] theorem Core.updCtx_lastTenant (k : Core) (n : BitVec 2) (f : Context → Context) : (k.updCtx n f).lastTenant = k.lastTenant := rfl
@[simp] theorem Core.setCtx_cycle (k : Core) (n : BitVec 2) (c : Context) : (k.setCtx n c).cycle = k.cycle := rfl
@[simp] theorem Core.updCtx_cycle (k : Core) (n : BitVec 2) (f : Context → Context) : (k.updCtx n f).cycle = k.cycle := rfl
@[simp] theorem Core.setCtx_nextId (k : Core) (n : BitVec 2) (c : Context) : (k.setCtx n c).nextId = k.nextId := rfl
@[simp] theorem Core.updCtx_nextId (k : Core) (n : BitVec 2) (f : Context → Context) : (k.updCtx n f).nextId = k.nextId := rfl

-- Cores and contexts of the machine -------------------------------------------------------------------------------

@[simp] theorem State.core_setCore_same (s : State) (c : CoreId) (k : Core) : (s.setCore c k).core c = k := by
  simp [State.core, State.setCore]

theorem State.core_setCore_other (s : State) {c d : CoreId} (k : Core) (h : c ≠ d) :
    (s.setCore c k).core d = s.core d := by
  have : c.toNat ≠ d.toNat := fun e => h (BitVec.eq_of_toNat_eq e)
  simp [State.core, State.setCore, Assoc.get_put_other _ _ _ this]

@[simp] theorem State.setCore_setCore (s : State) (c : CoreId) (k l : Core) :
    (s.setCore c k).setCore c l = s.setCore c l := by
  simp [State.setCore]

@[simp] theorem State.core_updCore_same (s : State) (c : CoreId) (f : Core → Core) :
    (s.updCore c f).core c = f (s.core c) := by
  simp [State.updCore]

@[simp] theorem State.ctx_setCtx_same (s : State) (c : CtxId) (x : Context) : (s.setCtx c x).ctx c = x := by
  simp [State.ctx, State.setCtx]

@[simp] theorem State.ctx_updCtx_same (s : State) (c : CtxId) (f : Context → Context) :
    (s.updCtx c f).ctx c = f (s.ctx c) := by
  simp [State.updCtx]

@[simp] theorem State.setCtx_setCtx (s : State) (c : CtxId) (x y : Context) :
    (s.setCtx c x).setCtx c y = s.setCtx c y := by
  simp [State.setCtx, State.updCore]

/-- A context that is not the one written keeps its record. -/
theorem State.ctx_setCtx_other (s : State) {c d : CtxId} (x : Context) (h : c ≠ d) :
    (s.setCtx c x).ctx d = s.ctx d := by
  obtain ⟨c, n⟩ := c
  obtain ⟨d, m⟩ := d
  by_cases hc : c = d
  · subst hc
    have hn : n ≠ m := fun e => h (by rw [e])
    simp [State.ctx, State.setCtx, State.updCore, Core.ctx_setCtx_other _ _ hn]
  · simp [State.ctx, State.setCtx, State.updCore, State.core_setCore_other _ _ hc]

@[simp] theorem State.me_updMe (s : State) (f : Context → Context) : (s.updMe f).me = f s.me := by
  simp [State.me, State.updMe, State.updCtx, State.setCtx, State.updCore, State.setCore, State.ctx, State.core]

@[simp] theorem State.me_updMyCore (s : State) (f : Core → Core) : (s.updMyCore f).me = (f s.myCore).ctx s.cur.ctx := by
  simp [State.me, State.updMyCore, State.updCore, State.setCore, State.ctx, State.core, State.myCore]

@[simp] theorem State.myCore_updMyCore (s : State) (f : Core → Core) : (s.updMyCore f).myCore = f s.myCore := by
  simp [State.updMyCore, State.updCore, State.setCore, State.core, State.myCore]

@[simp] theorem State.myCore_updMe (s : State) (f : Context → Context) :
    (s.updMe f).myCore = s.myCore.updCtx s.cur.ctx f := by
  simp [State.updMe, State.updCtx, State.setCtx, State.updCore, State.setCore, State.ctx, State.core, State.myCore,
    Core.updCtx]

@[simp] theorem State.updMe_updMe (s : State) (f g : Context → Context) :
    (s.updMe f).updMe g = s.updMe (fun c => g (f c)) := by
  simp [State.updMe, State.updCtx, State.setCtx, State.updCore, State.setCore, State.ctx, State.core]

@[simp] theorem State.setCore_cur (s : State) (c : CoreId) (k : Core) : (s.setCore c k).cur = s.cur := rfl
@[simp] theorem State.updCore_cur (s : State) (c : CoreId) (f : Core → Core) : (s.updCore c f).cur = s.cur := rfl
@[simp] theorem State.setCtx_cur (s : State) (c : CtxId) (x : Context) : (s.setCtx c x).cur = s.cur := rfl
@[simp] theorem State.updCtx_cur (s : State) (c : CtxId) (f : Context → Context) : (s.updCtx c f).cur = s.cur := rfl
@[simp] theorem State.updMe_cur (s : State) (f : Context → Context) : (s.updMe f).cur = s.cur := rfl
@[simp] theorem State.updMyCore_cur (s : State) (f : Core → Core) : (s.updMyCore f).cur = s.cur := rfl
@[simp] theorem State.setCore_agenda (s : State) (c : CoreId) (k : Core) : (s.setCore c k).agenda = s.agenda := rfl
@[simp] theorem State.updCore_agenda (s : State) (c : CoreId) (f : Core → Core) : (s.updCore c f).agenda = s.agenda := rfl
@[simp] theorem State.setCtx_agenda (s : State) (c : CtxId) (x : Context) : (s.setCtx c x).agenda = s.agenda := rfl
@[simp] theorem State.updCtx_agenda (s : State) (c : CtxId) (f : Context → Context) : (s.updCtx c f).agenda = s.agenda := rfl
@[simp] theorem State.updMe_agenda (s : State) (f : Context → Context) : (s.updMe f).agenda = s.agenda := rfl
@[simp] theorem State.updMyCore_agenda (s : State) (f : Core → Core) : (s.updMyCore f).agenda = s.agenda := rfl
@[simp] theorem State.setCore_turn (s : State) (c : CoreId) (k : Core) : (s.setCore c k).turn = s.turn := rfl
@[simp] theorem State.updCore_turn (s : State) (c : CoreId) (f : Core → Core) : (s.updCore c f).turn = s.turn := rfl
@[simp] theorem State.setCtx_turn (s : State) (c : CtxId) (x : Context) : (s.setCtx c x).turn = s.turn := rfl
@[simp] theorem State.updCtx_turn (s : State) (c : CtxId) (f : Context → Context) : (s.updCtx c f).turn = s.turn := rfl
@[simp] theorem State.updMe_turn (s : State) (f : Context → Context) : (s.updMe f).turn = s.turn := rfl
@[simp] theorem State.updMyCore_turn (s : State) (f : Core → Core) : (s.updMyCore f).turn = s.turn := rfl
@[simp] theorem State.setCore_fresh (s : State) (c : CoreId) (k : Core) : (s.setCore c k).fresh = s.fresh := rfl
@[simp] theorem State.updCore_fresh (s : State) (c : CoreId) (f : Core → Core) : (s.updCore c f).fresh = s.fresh := rfl
@[simp] theorem State.setCtx_fresh (s : State) (c : CtxId) (x : Context) : (s.setCtx c x).fresh = s.fresh := rfl
@[simp] theorem State.updCtx_fresh (s : State) (c : CtxId) (f : Context → Context) : (s.updCtx c f).fresh = s.fresh := rfl
@[simp] theorem State.updMe_fresh (s : State) (f : Context → Context) : (s.updMe f).fresh = s.fresh := rfl
@[simp] theorem State.updMyCore_fresh (s : State) (f : Core → Core) : (s.updMyCore f).fresh = s.fresh := rfl
@[simp] theorem State.setCore_nextUid (s : State) (c : CoreId) (k : Core) : (s.setCore c k).nextUid = s.nextUid := rfl
@[simp] theorem State.updCore_nextUid (s : State) (c : CoreId) (f : Core → Core) : (s.updCore c f).nextUid = s.nextUid := rfl
@[simp] theorem State.setCtx_nextUid (s : State) (c : CtxId) (x : Context) : (s.setCtx c x).nextUid = s.nextUid := rfl
@[simp] theorem State.updCtx_nextUid (s : State) (c : CtxId) (f : Context → Context) : (s.updCtx c f).nextUid = s.nextUid := rfl
@[simp] theorem State.updMe_nextUid (s : State) (f : Context → Context) : (s.updMe f).nextUid = s.nextUid := rfl
@[simp] theorem State.updMyCore_nextUid (s : State) (f : Core → Core) : (s.updMyCore f).nextUid = s.nextUid := rfl
@[simp] theorem State.setCore_mem (s : State) (c : CoreId) (k : Core) : (s.setCore c k).mem = s.mem := rfl
@[simp] theorem State.updCore_mem (s : State) (c : CoreId) (f : Core → Core) : (s.updCore c f).mem = s.mem := rfl
@[simp] theorem State.setCtx_mem (s : State) (c : CtxId) (x : Context) : (s.setCtx c x).mem = s.mem := rfl
@[simp] theorem State.updCtx_mem (s : State) (c : CtxId) (f : Context → Context) : (s.updCtx c f).mem = s.mem := rfl
@[simp] theorem State.updMe_mem (s : State) (f : Context → Context) : (s.updMe f).mem = s.mem := rfl
@[simp] theorem State.updMyCore_mem (s : State) (f : Core → Core) : (s.updMyCore f).mem = s.mem := rfl
@[simp] theorem State.setCore_poison (s : State) (c : CoreId) (k : Core) : (s.setCore c k).poison = s.poison := rfl
@[simp] theorem State.updCore_poison (s : State) (c : CoreId) (f : Core → Core) : (s.updCore c f).poison = s.poison := rfl
@[simp] theorem State.setCtx_poison (s : State) (c : CtxId) (x : Context) : (s.setCtx c x).poison = s.poison := rfl
@[simp] theorem State.updCtx_poison (s : State) (c : CtxId) (f : Context → Context) : (s.updCtx c f).poison = s.poison := rfl
@[simp] theorem State.updMe_poison (s : State) (f : Context → Context) : (s.updMe f).poison = s.poison := rfl
@[simp] theorem State.updMyCore_poison (s : State) (f : Core → Core) : (s.updMyCore f).poison = s.poison := rfl
@[simp] theorem State.setCore_cover (s : State) (c : CoreId) (k : Core) : (s.setCore c k).cover = s.cover := rfl
@[simp] theorem State.updCore_cover (s : State) (c : CoreId) (f : Core → Core) : (s.updCore c f).cover = s.cover := rfl
@[simp] theorem State.setCtx_cover (s : State) (c : CtxId) (x : Context) : (s.setCtx c x).cover = s.cover := rfl
@[simp] theorem State.updCtx_cover (s : State) (c : CtxId) (f : Context → Context) : (s.updCtx c f).cover = s.cover := rfl
@[simp] theorem State.updMe_cover (s : State) (f : Context → Context) : (s.updMe f).cover = s.cover := rfl
@[simp] theorem State.updMyCore_cover (s : State) (f : Core → Core) : (s.updMyCore f).cover = s.cover := rfl
@[simp] theorem State.setCore_relayPend (s : State) (c : CoreId) (k : Core) : (s.setCore c k).relayPend = s.relayPend := rfl
@[simp] theorem State.updCore_relayPend (s : State) (c : CoreId) (f : Core → Core) : (s.updCore c f).relayPend = s.relayPend := rfl
@[simp] theorem State.setCtx_relayPend (s : State) (c : CtxId) (x : Context) : (s.setCtx c x).relayPend = s.relayPend := rfl
@[simp] theorem State.updCtx_relayPend (s : State) (c : CtxId) (f : Context → Context) : (s.updCtx c f).relayPend = s.relayPend := rfl
@[simp] theorem State.updMe_relayPend (s : State) (f : Context → Context) : (s.updMe f).relayPend = s.relayPend := rfl
@[simp] theorem State.updMyCore_relayPend (s : State) (f : Core → Core) : (s.updMyCore f).relayPend = s.relayPend := rfl
@[simp] theorem State.setCore_images (s : State) (c : CoreId) (k : Core) : (s.setCore c k).images = s.images := rfl
@[simp] theorem State.setCore_left (s : State) (c : CoreId) (k : Core) : (s.setCore c k).left = s.left := rfl
@[simp] theorem State.updCore_images (s : State) (c : CoreId) (f : Core → Core) : (s.updCore c f).images = s.images := rfl
@[simp] theorem State.updCore_left (s : State) (c : CoreId) (f : Core → Core) : (s.updCore c f).left = s.left := rfl
@[simp] theorem State.setCtx_images (s : State) (c : CtxId) (x : Context) : (s.setCtx c x).images = s.images := rfl
@[simp] theorem State.setCtx_left (s : State) (c : CtxId) (x : Context) : (s.setCtx c x).left = s.left := rfl
@[simp] theorem State.updCtx_images (s : State) (c : CtxId) (f : Context → Context) : (s.updCtx c f).images = s.images := rfl
@[simp] theorem State.updCtx_left (s : State) (c : CtxId) (f : Context → Context) : (s.updCtx c f).left = s.left := rfl
@[simp] theorem State.updMe_images (s : State) (f : Context → Context) : (s.updMe f).images = s.images := rfl
@[simp] theorem State.updMe_left (s : State) (f : Context → Context) : (s.updMe f).left = s.left := rfl
@[simp] theorem State.updMyCore_images (s : State) (f : Core → Core) : (s.updMyCore f).images = s.images := rfl
@[simp] theorem State.updMyCore_left (s : State) (f : Core → Core) : (s.updMyCore f).left = s.left := rfl
@[simp] theorem State.setCore_terraces (s : State) (c : CoreId) (k : Core) : (s.setCore c k).terraces = s.terraces := rfl
@[simp] theorem State.updCore_terraces (s : State) (c : CoreId) (f : Core → Core) : (s.updCore c f).terraces = s.terraces := rfl
@[simp] theorem State.setCtx_terraces (s : State) (c : CtxId) (x : Context) : (s.setCtx c x).terraces = s.terraces := rfl
@[simp] theorem State.updCtx_terraces (s : State) (c : CtxId) (f : Context → Context) : (s.updCtx c f).terraces = s.terraces := rfl
@[simp] theorem State.updMe_terraces (s : State) (f : Context → Context) : (s.updMe f).terraces = s.terraces := rfl
@[simp] theorem State.updMyCore_terraces (s : State) (f : Core → Core) : (s.updMyCore f).terraces = s.terraces := rfl
@[simp] theorem State.setCore_cascades (s : State) (c : CoreId) (k : Core) : (s.setCore c k).cascades = s.cascades := rfl
@[simp] theorem State.updCore_cascades (s : State) (c : CoreId) (f : Core → Core) : (s.updCore c f).cascades = s.cascades := rfl
@[simp] theorem State.setCtx_cascades (s : State) (c : CtxId) (x : Context) : (s.setCtx c x).cascades = s.cascades := rfl
@[simp] theorem State.updCtx_cascades (s : State) (c : CtxId) (f : Context → Context) : (s.updCtx c f).cascades = s.cascades := rfl
@[simp] theorem State.updMe_cascades (s : State) (f : Context → Context) : (s.updMe f).cascades = s.cascades := rfl
@[simp] theorem State.updMyCore_cascades (s : State) (f : Core → Core) : (s.updMyCore f).cascades = s.cascades := rfl
@[simp] theorem State.setCore_parts (s : State) (c : CoreId) (k : Core) : (s.setCore c k).parts = s.parts := rfl
@[simp] theorem State.updCore_parts (s : State) (c : CoreId) (f : Core → Core) : (s.updCore c f).parts = s.parts := rfl
@[simp] theorem State.setCtx_parts (s : State) (c : CtxId) (x : Context) : (s.setCtx c x).parts = s.parts := rfl
@[simp] theorem State.updCtx_parts (s : State) (c : CtxId) (f : Context → Context) : (s.updCtx c f).parts = s.parts := rfl
@[simp] theorem State.updMe_parts (s : State) (f : Context → Context) : (s.updMe f).parts = s.parts := rfl
@[simp] theorem State.updMyCore_parts (s : State) (f : Core → Core) : (s.updMyCore f).parts = s.parts := rfl
@[simp] theorem State.setCore_vdevs (s : State) (c : CoreId) (k : Core) : (s.setCore c k).vdevs = s.vdevs := rfl
@[simp] theorem State.updCore_vdevs (s : State) (c : CoreId) (f : Core → Core) : (s.updCore c f).vdevs = s.vdevs := rfl
@[simp] theorem State.setCtx_vdevs (s : State) (c : CtxId) (x : Context) : (s.setCtx c x).vdevs = s.vdevs := rfl
@[simp] theorem State.updCtx_vdevs (s : State) (c : CtxId) (f : Context → Context) : (s.updCtx c f).vdevs = s.vdevs := rfl
@[simp] theorem State.updMe_vdevs (s : State) (f : Context → Context) : (s.updMe f).vdevs = s.vdevs := rfl
@[simp] theorem State.updMyCore_vdevs (s : State) (f : Core → Core) : (s.updMyCore f).vdevs = s.vdevs := rfl
@[simp] theorem State.setCore_colls (s : State) (c : CoreId) (k : Core) : (s.setCore c k).colls = s.colls := rfl
@[simp] theorem State.updCore_colls (s : State) (c : CoreId) (f : Core → Core) : (s.updCore c f).colls = s.colls := rfl
@[simp] theorem State.setCtx_colls (s : State) (c : CtxId) (x : Context) : (s.setCtx c x).colls = s.colls := rfl
@[simp] theorem State.updCtx_colls (s : State) (c : CtxId) (f : Context → Context) : (s.updCtx c f).colls = s.colls := rfl
@[simp] theorem State.updMe_colls (s : State) (f : Context → Context) : (s.updMe f).colls = s.colls := rfl
@[simp] theorem State.updMyCore_colls (s : State) (f : Core → Core) : (s.updMyCore f).colls = s.colls := rfl
@[simp] theorem State.setCore_words (s : State) (c : CoreId) (k : Core) : (s.setCore c k).words = s.words := rfl
@[simp] theorem State.updCore_words (s : State) (c : CoreId) (f : Core → Core) : (s.updCore c f).words = s.words := rfl
@[simp] theorem State.setCtx_words (s : State) (c : CtxId) (x : Context) : (s.setCtx c x).words = s.words := rfl
@[simp] theorem State.updCtx_words (s : State) (c : CtxId) (f : Context → Context) : (s.updCtx c f).words = s.words := rfl
@[simp] theorem State.updMe_words (s : State) (f : Context → Context) : (s.updMe f).words = s.words := rfl
@[simp] theorem State.updMyCore_words (s : State) (f : Core → Core) : (s.updMyCore f).words = s.words := rfl
@[simp] theorem State.setCore_rolemap (s : State) (c : CoreId) (k : Core) : (s.setCore c k).rolemap = s.rolemap := rfl
@[simp] theorem State.updCore_rolemap (s : State) (c : CoreId) (f : Core → Core) : (s.updCore c f).rolemap = s.rolemap := rfl
@[simp] theorem State.setCtx_rolemap (s : State) (c : CtxId) (x : Context) : (s.setCtx c x).rolemap = s.rolemap := rfl
@[simp] theorem State.updCtx_rolemap (s : State) (c : CtxId) (f : Context → Context) : (s.updCtx c f).rolemap = s.rolemap := rfl
@[simp] theorem State.updMe_rolemap (s : State) (f : Context → Context) : (s.updMe f).rolemap = s.rolemap := rfl
@[simp] theorem State.updMyCore_rolemap (s : State) (f : Core → Core) : (s.updMyCore f).rolemap = s.rolemap := rfl
@[simp] theorem State.setCore_roleboot (s : State) (c : CoreId) (k : Core) : (s.setCore c k).roleboot = s.roleboot := rfl
@[simp] theorem State.updCore_roleboot (s : State) (c : CoreId) (f : Core → Core) : (s.updCore c f).roleboot = s.roleboot := rfl
@[simp] theorem State.setCtx_roleboot (s : State) (c : CtxId) (x : Context) : (s.setCtx c x).roleboot = s.roleboot := rfl
@[simp] theorem State.updCtx_roleboot (s : State) (c : CtxId) (f : Context → Context) : (s.updCtx c f).roleboot = s.roleboot := rfl
@[simp] theorem State.updMe_roleboot (s : State) (f : Context → Context) : (s.updMe f).roleboot = s.roleboot := rfl
@[simp] theorem State.updMyCore_roleboot (s : State) (f : Core → Core) : (s.updMyCore f).roleboot = s.roleboot := rfl
@[simp] theorem State.setCore_mstatus (s : State) (c : CoreId) (k : Core) : (s.setCore c k).mstatus = s.mstatus := rfl
@[simp] theorem State.updCore_mstatus (s : State) (c : CoreId) (f : Core → Core) : (s.updCore c f).mstatus = s.mstatus := rfl
@[simp] theorem State.setCtx_mstatus (s : State) (c : CtxId) (x : Context) : (s.setCtx c x).mstatus = s.mstatus := rfl
@[simp] theorem State.updCtx_mstatus (s : State) (c : CtxId) (f : Context → Context) : (s.updCtx c f).mstatus = s.mstatus := rfl
@[simp] theorem State.updMe_mstatus (s : State) (f : Context → Context) : (s.updMe f).mstatus = s.mstatus := rfl
@[simp] theorem State.updMyCore_mstatus (s : State) (f : Core → Core) : (s.updMyCore f).mstatus = s.mstatus := rfl
@[simp] theorem State.setCore_elog (s : State) (c : CoreId) (k : Core) : (s.setCore c k).elog = s.elog := rfl
@[simp] theorem State.updCore_elog (s : State) (c : CoreId) (f : Core → Core) : (s.updCore c f).elog = s.elog := rfl
@[simp] theorem State.setCtx_elog (s : State) (c : CtxId) (x : Context) : (s.setCtx c x).elog = s.elog := rfl
@[simp] theorem State.updCtx_elog (s : State) (c : CtxId) (f : Context → Context) : (s.updCtx c f).elog = s.elog := rfl
@[simp] theorem State.updMe_elog (s : State) (f : Context → Context) : (s.updMe f).elog = s.elog := rfl
@[simp] theorem State.updMyCore_elog (s : State) (f : Core → Core) : (s.updMyCore f).elog = s.elog := rfl
@[simp] theorem State.setCore_elogCount (s : State) (c : CoreId) (k : Core) : (s.setCore c k).elogCount = s.elogCount := rfl
@[simp] theorem State.updCore_elogCount (s : State) (c : CoreId) (f : Core → Core) : (s.updCore c f).elogCount = s.elogCount := rfl
@[simp] theorem State.setCtx_elogCount (s : State) (c : CtxId) (x : Context) : (s.setCtx c x).elogCount = s.elogCount := rfl
@[simp] theorem State.updCtx_elogCount (s : State) (c : CtxId) (f : Context → Context) : (s.updCtx c f).elogCount = s.elogCount := rfl
@[simp] theorem State.updMe_elogCount (s : State) (f : Context → Context) : (s.updMe f).elogCount = s.elogCount := rfl
@[simp] theorem State.updMyCore_elogCount (s : State) (f : Core → Core) : (s.updMyCore f).elogCount = s.elogCount := rfl
@[simp] theorem State.setCore_coolantHigh (s : State) (c : CoreId) (k : Core) : (s.setCore c k).coolantHigh = s.coolantHigh := rfl
@[simp] theorem State.updCore_coolantHigh (s : State) (c : CoreId) (f : Core → Core) : (s.updCore c f).coolantHigh = s.coolantHigh := rfl
@[simp] theorem State.setCtx_coolantHigh (s : State) (c : CtxId) (x : Context) : (s.setCtx c x).coolantHigh = s.coolantHigh := rfl
@[simp] theorem State.updCtx_coolantHigh (s : State) (c : CtxId) (f : Context → Context) : (s.updCtx c f).coolantHigh = s.coolantHigh := rfl
@[simp] theorem State.updMe_coolantHigh (s : State) (f : Context → Context) : (s.updMe f).coolantHigh = s.coolantHigh := rfl
@[simp] theorem State.updMyCore_coolantHigh (s : State) (f : Core → Core) : (s.updMyCore f).coolantHigh = s.coolantHigh := rfl
@[simp] theorem State.setCore_links (s : State) (c : CoreId) (k : Core) : (s.setCore c k).links = s.links := rfl
@[simp] theorem State.updCore_links (s : State) (c : CoreId) (f : Core → Core) : (s.updCore c f).links = s.links := rfl
@[simp] theorem State.setCtx_links (s : State) (c : CtxId) (x : Context) : (s.setCtx c x).links = s.links := rfl
@[simp] theorem State.updCtx_links (s : State) (c : CtxId) (f : Context → Context) : (s.updCtx c f).links = s.links := rfl
@[simp] theorem State.updMe_links (s : State) (f : Context → Context) : (s.updMe f).links = s.links := rfl
@[simp] theorem State.updMyCore_links (s : State) (f : Core → Core) : (s.updMyCore f).links = s.links := rfl
@[simp] theorem State.setCore_registrations (s : State) (c : CoreId) (k : Core) : (s.setCore c k).registrations = s.registrations := rfl
@[simp] theorem State.updCore_registrations (s : State) (c : CoreId) (f : Core → Core) : (s.updCore c f).registrations = s.registrations := rfl
@[simp] theorem State.setCtx_registrations (s : State) (c : CtxId) (x : Context) : (s.setCtx c x).registrations = s.registrations := rfl
@[simp] theorem State.updCtx_registrations (s : State) (c : CtxId) (f : Context → Context) : (s.updCtx c f).registrations = s.registrations := rfl
@[simp] theorem State.updMe_registrations (s : State) (f : Context → Context) : (s.updMe f).registrations = s.registrations := rfl
@[simp] theorem State.updMyCore_registrations (s : State) (f : Core → Core) : (s.updMyCore f).registrations = s.registrations := rfl
@[simp] theorem State.setCore_regPending (s : State) (c : CoreId) (k : Core) : (s.setCore c k).regPending = s.regPending := rfl
@[simp] theorem State.updCore_regPending (s : State) (c : CoreId) (f : Core → Core) : (s.updCore c f).regPending = s.regPending := rfl
@[simp] theorem State.setCtx_regPending (s : State) (c : CtxId) (x : Context) : (s.setCtx c x).regPending = s.regPending := rfl
@[simp] theorem State.updCtx_regPending (s : State) (c : CtxId) (f : Context → Context) : (s.updCtx c f).regPending = s.regPending := rfl
@[simp] theorem State.updMe_regPending (s : State) (f : Context → Context) : (s.updMe f).regPending = s.regPending := rfl
@[simp] theorem State.updMyCore_regPending (s : State) (f : Core → Core) : (s.updMyCore f).regPending = s.regPending := rfl
@[simp] theorem State.setCore_bootVersion (s : State) (c : CoreId) (k : Core) : (s.setCore c k).bootVersion = s.bootVersion := rfl
@[simp] theorem State.updCore_bootVersion (s : State) (c : CoreId) (f : Core → Core) : (s.updCore c f).bootVersion = s.bootVersion := rfl
@[simp] theorem State.setCtx_bootVersion (s : State) (c : CtxId) (x : Context) : (s.setCtx c x).bootVersion = s.bootVersion := rfl
@[simp] theorem State.updCtx_bootVersion (s : State) (c : CtxId) (f : Context → Context) : (s.updCtx c f).bootVersion = s.bootVersion := rfl
@[simp] theorem State.updMe_bootVersion (s : State) (f : Context → Context) : (s.updMe f).bootVersion = s.bootVersion := rfl
@[simp] theorem State.updMyCore_bootVersion (s : State) (f : Core → Core) : (s.updMyCore f).bootVersion = s.bootVersion := rfl
@[simp] theorem State.setCore_bootTrickle (s : State) (c : CoreId) (k : Core) : (s.setCore c k).bootTrickle = s.bootTrickle := rfl
@[simp] theorem State.updCore_bootTrickle (s : State) (c : CoreId) (f : Core → Core) : (s.updCore c f).bootTrickle = s.bootTrickle := rfl
@[simp] theorem State.setCtx_bootTrickle (s : State) (c : CtxId) (x : Context) : (s.setCtx c x).bootTrickle = s.bootTrickle := rfl
@[simp] theorem State.updCtx_bootTrickle (s : State) (c : CtxId) (f : Context → Context) : (s.updCtx c f).bootTrickle = s.bootTrickle := rfl
@[simp] theorem State.updMe_bootTrickle (s : State) (f : Context → Context) : (s.updMe f).bootTrickle = s.bootTrickle := rfl
@[simp] theorem State.updMyCore_bootTrickle (s : State) (f : Core → Core) : (s.updMyCore f).bootTrickle = s.bootTrickle := rfl
@[simp] theorem State.setCore_bootFails (s : State) (c : CoreId) (k : Core) : (s.setCore c k).bootFails = s.bootFails := rfl
@[simp] theorem State.updCore_bootFails (s : State) (c : CoreId) (f : Core → Core) : (s.updCore c f).bootFails = s.bootFails := rfl
@[simp] theorem State.setCtx_bootFails (s : State) (c : CtxId) (x : Context) : (s.setCtx c x).bootFails = s.bootFails := rfl
@[simp] theorem State.updCtx_bootFails (s : State) (c : CtxId) (f : Context → Context) : (s.updCtx c f).bootFails = s.bootFails := rfl
@[simp] theorem State.updMe_bootFails (s : State) (f : Context → Context) : (s.updMe f).bootFails = s.bootFails := rfl
@[simp] theorem State.updMyCore_bootFails (s : State) (f : Core → Core) : (s.updMyCore f).bootFails = s.bootFails := rfl
@[simp] theorem State.setCore_bootReason (s : State) (c : CoreId) (k : Core) : (s.setCore c k).bootReason = s.bootReason := rfl
@[simp] theorem State.setCore_urmonDigest (s : State) (c : CoreId) (k : Core) : (s.setCore c k).urmonDigest = s.urmonDigest := rfl
@[simp] theorem State.setCore_deviceDigest (s : State) (c : CoreId) (k : Core) : (s.setCore c k).deviceDigest = s.deviceDigest := rfl
@[simp] theorem State.updCore_bootReason (s : State) (c : CoreId) (f : Core → Core) : (s.updCore c f).bootReason = s.bootReason := rfl
@[simp] theorem State.updCore_urmonDigest (s : State) (c : CoreId) (f : Core → Core) : (s.updCore c f).urmonDigest = s.urmonDigest := rfl
@[simp] theorem State.updCore_deviceDigest (s : State) (c : CoreId) (f : Core → Core) : (s.updCore c f).deviceDigest = s.deviceDigest := rfl
@[simp] theorem State.setCtx_bootReason (s : State) (c : CtxId) (x : Context) : (s.setCtx c x).bootReason = s.bootReason := rfl
@[simp] theorem State.setCtx_urmonDigest (s : State) (c : CtxId) (x : Context) : (s.setCtx c x).urmonDigest = s.urmonDigest := rfl
@[simp] theorem State.setCtx_deviceDigest (s : State) (c : CtxId) (x : Context) : (s.setCtx c x).deviceDigest = s.deviceDigest := rfl
@[simp] theorem State.updCtx_bootReason (s : State) (c : CtxId) (f : Context → Context) : (s.updCtx c f).bootReason = s.bootReason := rfl
@[simp] theorem State.updCtx_urmonDigest (s : State) (c : CtxId) (f : Context → Context) : (s.updCtx c f).urmonDigest = s.urmonDigest := rfl
@[simp] theorem State.updCtx_deviceDigest (s : State) (c : CtxId) (f : Context → Context) : (s.updCtx c f).deviceDigest = s.deviceDigest := rfl
@[simp] theorem State.updMe_bootReason (s : State) (f : Context → Context) : (s.updMe f).bootReason = s.bootReason := rfl
@[simp] theorem State.updMe_urmonDigest (s : State) (f : Context → Context) : (s.updMe f).urmonDigest = s.urmonDigest := rfl
@[simp] theorem State.updMe_deviceDigest (s : State) (f : Context → Context) : (s.updMe f).deviceDigest = s.deviceDigest := rfl
@[simp] theorem State.updMyCore_bootReason (s : State) (f : Core → Core) : (s.updMyCore f).bootReason = s.bootReason := rfl
@[simp] theorem State.updMyCore_urmonDigest (s : State) (f : Core → Core) : (s.updMyCore f).urmonDigest = s.urmonDigest := rfl
@[simp] theorem State.updMyCore_deviceDigest (s : State) (f : Core → Core) : (s.updMyCore f).deviceDigest = s.deviceDigest := rfl
@[simp] theorem State.setCore_starting (s : State) (c : CoreId) (k : Core) : (s.setCore c k).starting = s.starting := rfl
@[simp] theorem State.updCore_starting (s : State) (c : CoreId) (f : Core → Core) : (s.updCore c f).starting = s.starting := rfl
@[simp] theorem State.setCtx_starting (s : State) (c : CtxId) (x : Context) : (s.setCtx c x).starting = s.starting := rfl
@[simp] theorem State.updCtx_starting (s : State) (c : CtxId) (f : Context → Context) : (s.updCtx c f).starting = s.starting := rfl
@[simp] theorem State.updMe_starting (s : State) (f : Context → Context) : (s.updMe f).starting = s.starting := rfl
@[simp] theorem State.updMyCore_starting (s : State) (f : Core → Core) : (s.updMyCore f).starting = s.starting := rfl
@[simp] theorem State.setCore_nonce (s : State) (c : CoreId) (k : Core) : (s.setCore c k).nonce = s.nonce := rfl
@[simp] theorem State.updCore_nonce (s : State) (c : CoreId) (f : Core → Core) : (s.updCore c f).nonce = s.nonce := rfl
@[simp] theorem State.setCtx_nonce (s : State) (c : CtxId) (x : Context) : (s.setCtx c x).nonce = s.nonce := rfl
@[simp] theorem State.updCtx_nonce (s : State) (c : CtxId) (f : Context → Context) : (s.updCtx c f).nonce = s.nonce := rfl
@[simp] theorem State.updMe_nonce (s : State) (f : Context → Context) : (s.updMe f).nonce = s.nonce := rfl
@[simp] theorem State.updMyCore_nonce (s : State) (f : Core → Core) : (s.updMyCore f).nonce = s.nonce := rfl
@[simp] theorem State.setCore_attestBusy (s : State) (c : CoreId) (k : Core) : (s.setCore c k).attestBusy = s.attestBusy := rfl
@[simp] theorem State.updCore_attestBusy (s : State) (c : CoreId) (f : Core → Core) : (s.updCore c f).attestBusy = s.attestBusy := rfl
@[simp] theorem State.setCtx_attestBusy (s : State) (c : CtxId) (x : Context) : (s.setCtx c x).attestBusy = s.attestBusy := rfl
@[simp] theorem State.updCtx_attestBusy (s : State) (c : CtxId) (f : Context → Context) : (s.updCtx c f).attestBusy = s.attestBusy := rfl
@[simp] theorem State.updMe_attestBusy (s : State) (f : Context → Context) : (s.updMe f).attestBusy = s.attestBusy := rfl
@[simp] theorem State.updMyCore_attestBusy (s : State) (f : Core → Core) : (s.updMyCore f).attestBusy = s.attestBusy := rfl
@[simp] theorem State.setCore_report (s : State) (c : CoreId) (k : Core) : (s.setCore c k).report = s.report := rfl
@[simp] theorem State.updCore_report (s : State) (c : CoreId) (f : Core → Core) : (s.updCore c f).report = s.report := rfl
@[simp] theorem State.setCtx_report (s : State) (c : CtxId) (x : Context) : (s.setCtx c x).report = s.report := rfl
@[simp] theorem State.updCtx_report (s : State) (c : CtxId) (f : Context → Context) : (s.updCtx c f).report = s.report := rfl
@[simp] theorem State.updMe_report (s : State) (f : Context → Context) : (s.updMe f).report = s.report := rfl
@[simp] theorem State.updMyCore_report (s : State) (f : Core → Core) : (s.updMyCore f).report = s.report := rfl

-- Partitions, virtual devices, terraces -----------------------------------------------------------------------------

@[simp] theorem State.part_setPart_same (s : State) (p : BitVec 6) (x : Partition) : (s.setPart p x).part p = x := by
  simp [State.part, State.setPart]

theorem State.part_setPart_other (s : State) {p q : BitVec 6} (x : Partition) (h : p ≠ q) :
    (s.setPart p x).part q = s.part q := by
  have : p.toNat ≠ q.toNat := fun e => h (BitVec.eq_of_toNat_eq e)
  simp [State.part, State.setPart, Assoc.get_put_other _ _ _ this]

@[simp] theorem State.vdev_setVdev_same (s : State) (v : Nat) (x : VDev) : (s.setVdev v x).vdev v = x := by
  simp [State.vdev, State.setVdev]

theorem State.vdev_setVdev_other (s : State) {v u : Nat} (x : VDev) (h : v ≠ u) :
    (s.setVdev v x).vdev u = s.vdev u := by
  simp [State.vdev, State.setVdev, Assoc.get_put_other _ _ _ h]

theorem State.terrace_setTerrace_same (s : State) {t : Nat} (x : Terrace) (h : t < 16) :
    (s.setTerrace t x).terrace t = x := by
  simp [State.terrace, State.setTerrace, h]

theorem State.terrace_setTerrace_other (s : State) {t u : Nat} (x : Terrace) (h : t ≠ u) :
    (s.setTerrace t x).terrace u = s.terrace u := by
  simp [State.terrace, State.setTerrace, Vector.getElem?_setIfInBounds, h]

@[simp] theorem State.setPart_cur (s : State) (p : BitVec 6) (x : Partition) : (s.setPart p x).cur = s.cur := rfl
@[simp] theorem State.setVdev_cur (s : State) (v : Nat) (x : VDev) : (s.setVdev v x).cur = s.cur := rfl
@[simp] theorem State.setTerrace_cur (s : State) (t : Nat) (x : Terrace) : (s.setTerrace t x).cur = s.cur := rfl
@[simp] theorem State.setPart_agenda (s : State) (p : BitVec 6) (x : Partition) : (s.setPart p x).agenda = s.agenda := rfl
@[simp] theorem State.setVdev_agenda (s : State) (v : Nat) (x : VDev) : (s.setVdev v x).agenda = s.agenda := rfl
@[simp] theorem State.setTerrace_agenda (s : State) (t : Nat) (x : Terrace) : (s.setTerrace t x).agenda = s.agenda := rfl
@[simp] theorem State.setPart_turn (s : State) (p : BitVec 6) (x : Partition) : (s.setPart p x).turn = s.turn := rfl
@[simp] theorem State.setVdev_turn (s : State) (v : Nat) (x : VDev) : (s.setVdev v x).turn = s.turn := rfl
@[simp] theorem State.setTerrace_turn (s : State) (t : Nat) (x : Terrace) : (s.setTerrace t x).turn = s.turn := rfl
@[simp] theorem State.setPart_fresh (s : State) (p : BitVec 6) (x : Partition) : (s.setPart p x).fresh = s.fresh := rfl
@[simp] theorem State.setVdev_fresh (s : State) (v : Nat) (x : VDev) : (s.setVdev v x).fresh = s.fresh := rfl
@[simp] theorem State.setTerrace_fresh (s : State) (t : Nat) (x : Terrace) : (s.setTerrace t x).fresh = s.fresh := rfl
@[simp] theorem State.setPart_nextUid (s : State) (p : BitVec 6) (x : Partition) : (s.setPart p x).nextUid = s.nextUid := rfl
@[simp] theorem State.setVdev_nextUid (s : State) (v : Nat) (x : VDev) : (s.setVdev v x).nextUid = s.nextUid := rfl
@[simp] theorem State.setTerrace_nextUid (s : State) (t : Nat) (x : Terrace) : (s.setTerrace t x).nextUid = s.nextUid := rfl
@[simp] theorem State.setPart_mem (s : State) (p : BitVec 6) (x : Partition) : (s.setPart p x).mem = s.mem := rfl
@[simp] theorem State.setVdev_mem (s : State) (v : Nat) (x : VDev) : (s.setVdev v x).mem = s.mem := rfl
@[simp] theorem State.setTerrace_mem (s : State) (t : Nat) (x : Terrace) : (s.setTerrace t x).mem = s.mem := rfl
@[simp] theorem State.setPart_poison (s : State) (p : BitVec 6) (x : Partition) : (s.setPart p x).poison = s.poison := rfl
@[simp] theorem State.setVdev_poison (s : State) (v : Nat) (x : VDev) : (s.setVdev v x).poison = s.poison := rfl
@[simp] theorem State.setTerrace_poison (s : State) (t : Nat) (x : Terrace) : (s.setTerrace t x).poison = s.poison := rfl
@[simp] theorem State.setPart_cover (s : State) (p : BitVec 6) (x : Partition) : (s.setPart p x).cover = s.cover := rfl
@[simp] theorem State.setVdev_cover (s : State) (v : Nat) (x : VDev) : (s.setVdev v x).cover = s.cover := rfl
@[simp] theorem State.setTerrace_cover (s : State) (t : Nat) (x : Terrace) : (s.setTerrace t x).cover = s.cover := rfl
@[simp] theorem State.setPart_relayPend (s : State) (p : BitVec 6) (x : Partition) : (s.setPart p x).relayPend = s.relayPend := rfl
@[simp] theorem State.setVdev_relayPend (s : State) (v : Nat) (x : VDev) : (s.setVdev v x).relayPend = s.relayPend := rfl
@[simp] theorem State.setTerrace_relayPend (s : State) (t : Nat) (x : Terrace) : (s.setTerrace t x).relayPend = s.relayPend := rfl
@[simp] theorem State.setPart_cores (s : State) (p : BitVec 6) (x : Partition) : (s.setPart p x).cores = s.cores := rfl
@[simp] theorem State.setVdev_cores (s : State) (v : Nat) (x : VDev) : (s.setVdev v x).cores = s.cores := rfl
@[simp] theorem State.setTerrace_cores (s : State) (t : Nat) (x : Terrace) : (s.setTerrace t x).cores = s.cores := rfl
@[simp] theorem State.setPart_images (s : State) (p : BitVec 6) (x : Partition) : (s.setPart p x).images = s.images := rfl
@[simp] theorem State.setPart_left (s : State) (p : BitVec 6) (x : Partition) : (s.setPart p x).left = s.left := rfl
@[simp] theorem State.setVdev_images (s : State) (v : Nat) (x : VDev) : (s.setVdev v x).images = s.images := rfl
@[simp] theorem State.setVdev_left (s : State) (v : Nat) (x : VDev) : (s.setVdev v x).left = s.left := rfl
@[simp] theorem State.setTerrace_images (s : State) (t : Nat) (x : Terrace) : (s.setTerrace t x).images = s.images := rfl
@[simp] theorem State.setTerrace_left (s : State) (t : Nat) (x : Terrace) : (s.setTerrace t x).left = s.left := rfl
@[simp] theorem State.setPart_terraces (s : State) (p : BitVec 6) (x : Partition) : (s.setPart p x).terraces = s.terraces := rfl
@[simp] theorem State.setVdev_terraces (s : State) (v : Nat) (x : VDev) : (s.setVdev v x).terraces = s.terraces := rfl
@[simp] theorem State.setPart_cascades (s : State) (p : BitVec 6) (x : Partition) : (s.setPart p x).cascades = s.cascades := rfl
@[simp] theorem State.setVdev_cascades (s : State) (v : Nat) (x : VDev) : (s.setVdev v x).cascades = s.cascades := rfl
@[simp] theorem State.setTerrace_cascades (s : State) (t : Nat) (x : Terrace) : (s.setTerrace t x).cascades = s.cascades := rfl
@[simp] theorem State.setVdev_parts (s : State) (v : Nat) (x : VDev) : (s.setVdev v x).parts = s.parts := rfl
@[simp] theorem State.setTerrace_parts (s : State) (t : Nat) (x : Terrace) : (s.setTerrace t x).parts = s.parts := rfl
@[simp] theorem State.setPart_vdevs (s : State) (p : BitVec 6) (x : Partition) : (s.setPart p x).vdevs = s.vdevs := rfl
@[simp] theorem State.setTerrace_vdevs (s : State) (t : Nat) (x : Terrace) : (s.setTerrace t x).vdevs = s.vdevs := rfl
@[simp] theorem State.setPart_colls (s : State) (p : BitVec 6) (x : Partition) : (s.setPart p x).colls = s.colls := rfl
@[simp] theorem State.setVdev_colls (s : State) (v : Nat) (x : VDev) : (s.setVdev v x).colls = s.colls := rfl
@[simp] theorem State.setTerrace_colls (s : State) (t : Nat) (x : Terrace) : (s.setTerrace t x).colls = s.colls := rfl
@[simp] theorem State.setPart_words (s : State) (p : BitVec 6) (x : Partition) : (s.setPart p x).words = s.words := rfl
@[simp] theorem State.setVdev_words (s : State) (v : Nat) (x : VDev) : (s.setVdev v x).words = s.words := rfl
@[simp] theorem State.setTerrace_words (s : State) (t : Nat) (x : Terrace) : (s.setTerrace t x).words = s.words := rfl
@[simp] theorem State.setPart_rolemap (s : State) (p : BitVec 6) (x : Partition) : (s.setPart p x).rolemap = s.rolemap := rfl
@[simp] theorem State.setVdev_rolemap (s : State) (v : Nat) (x : VDev) : (s.setVdev v x).rolemap = s.rolemap := rfl
@[simp] theorem State.setTerrace_rolemap (s : State) (t : Nat) (x : Terrace) : (s.setTerrace t x).rolemap = s.rolemap := rfl
@[simp] theorem State.setPart_roleboot (s : State) (p : BitVec 6) (x : Partition) : (s.setPart p x).roleboot = s.roleboot := rfl
@[simp] theorem State.setVdev_roleboot (s : State) (v : Nat) (x : VDev) : (s.setVdev v x).roleboot = s.roleboot := rfl
@[simp] theorem State.setTerrace_roleboot (s : State) (t : Nat) (x : Terrace) : (s.setTerrace t x).roleboot = s.roleboot := rfl
@[simp] theorem State.setPart_mstatus (s : State) (p : BitVec 6) (x : Partition) : (s.setPart p x).mstatus = s.mstatus := rfl
@[simp] theorem State.setVdev_mstatus (s : State) (v : Nat) (x : VDev) : (s.setVdev v x).mstatus = s.mstatus := rfl
@[simp] theorem State.setTerrace_mstatus (s : State) (t : Nat) (x : Terrace) : (s.setTerrace t x).mstatus = s.mstatus := rfl
@[simp] theorem State.setPart_elog (s : State) (p : BitVec 6) (x : Partition) : (s.setPart p x).elog = s.elog := rfl
@[simp] theorem State.setVdev_elog (s : State) (v : Nat) (x : VDev) : (s.setVdev v x).elog = s.elog := rfl
@[simp] theorem State.setTerrace_elog (s : State) (t : Nat) (x : Terrace) : (s.setTerrace t x).elog = s.elog := rfl
@[simp] theorem State.setPart_elogCount (s : State) (p : BitVec 6) (x : Partition) : (s.setPart p x).elogCount = s.elogCount := rfl
@[simp] theorem State.setVdev_elogCount (s : State) (v : Nat) (x : VDev) : (s.setVdev v x).elogCount = s.elogCount := rfl
@[simp] theorem State.setTerrace_elogCount (s : State) (t : Nat) (x : Terrace) : (s.setTerrace t x).elogCount = s.elogCount := rfl
@[simp] theorem State.setPart_coolantHigh (s : State) (p : BitVec 6) (x : Partition) : (s.setPart p x).coolantHigh = s.coolantHigh := rfl
@[simp] theorem State.setVdev_coolantHigh (s : State) (v : Nat) (x : VDev) : (s.setVdev v x).coolantHigh = s.coolantHigh := rfl
@[simp] theorem State.setTerrace_coolantHigh (s : State) (t : Nat) (x : Terrace) : (s.setTerrace t x).coolantHigh = s.coolantHigh := rfl
@[simp] theorem State.setPart_links (s : State) (p : BitVec 6) (x : Partition) : (s.setPart p x).links = s.links := rfl
@[simp] theorem State.setVdev_links (s : State) (v : Nat) (x : VDev) : (s.setVdev v x).links = s.links := rfl
@[simp] theorem State.setTerrace_links (s : State) (t : Nat) (x : Terrace) : (s.setTerrace t x).links = s.links := rfl
@[simp] theorem State.setPart_registrations (s : State) (p : BitVec 6) (x : Partition) : (s.setPart p x).registrations = s.registrations := rfl
@[simp] theorem State.setVdev_registrations (s : State) (v : Nat) (x : VDev) : (s.setVdev v x).registrations = s.registrations := rfl
@[simp] theorem State.setTerrace_registrations (s : State) (t : Nat) (x : Terrace) : (s.setTerrace t x).registrations = s.registrations := rfl
@[simp] theorem State.setPart_regPending (s : State) (p : BitVec 6) (x : Partition) : (s.setPart p x).regPending = s.regPending := rfl
@[simp] theorem State.setVdev_regPending (s : State) (v : Nat) (x : VDev) : (s.setVdev v x).regPending = s.regPending := rfl
@[simp] theorem State.setTerrace_regPending (s : State) (t : Nat) (x : Terrace) : (s.setTerrace t x).regPending = s.regPending := rfl
@[simp] theorem State.setPart_bootVersion (s : State) (p : BitVec 6) (x : Partition) : (s.setPart p x).bootVersion = s.bootVersion := rfl
@[simp] theorem State.setVdev_bootVersion (s : State) (v : Nat) (x : VDev) : (s.setVdev v x).bootVersion = s.bootVersion := rfl
@[simp] theorem State.setTerrace_bootVersion (s : State) (t : Nat) (x : Terrace) : (s.setTerrace t x).bootVersion = s.bootVersion := rfl
@[simp] theorem State.setPart_bootTrickle (s : State) (p : BitVec 6) (x : Partition) : (s.setPart p x).bootTrickle = s.bootTrickle := rfl
@[simp] theorem State.setVdev_bootTrickle (s : State) (v : Nat) (x : VDev) : (s.setVdev v x).bootTrickle = s.bootTrickle := rfl
@[simp] theorem State.setTerrace_bootTrickle (s : State) (t : Nat) (x : Terrace) : (s.setTerrace t x).bootTrickle = s.bootTrickle := rfl
@[simp] theorem State.setPart_bootFails (s : State) (p : BitVec 6) (x : Partition) : (s.setPart p x).bootFails = s.bootFails := rfl
@[simp] theorem State.setVdev_bootFails (s : State) (v : Nat) (x : VDev) : (s.setVdev v x).bootFails = s.bootFails := rfl
@[simp] theorem State.setTerrace_bootFails (s : State) (t : Nat) (x : Terrace) : (s.setTerrace t x).bootFails = s.bootFails := rfl
@[simp] theorem State.setPart_bootReason (s : State) (p : BitVec 6) (x : Partition) : (s.setPart p x).bootReason = s.bootReason := rfl
@[simp] theorem State.setPart_urmonDigest (s : State) (p : BitVec 6) (x : Partition) : (s.setPart p x).urmonDigest = s.urmonDigest := rfl
@[simp] theorem State.setPart_deviceDigest (s : State) (p : BitVec 6) (x : Partition) : (s.setPart p x).deviceDigest = s.deviceDigest := rfl
@[simp] theorem State.setVdev_bootReason (s : State) (v : Nat) (x : VDev) : (s.setVdev v x).bootReason = s.bootReason := rfl
@[simp] theorem State.setVdev_urmonDigest (s : State) (v : Nat) (x : VDev) : (s.setVdev v x).urmonDigest = s.urmonDigest := rfl
@[simp] theorem State.setVdev_deviceDigest (s : State) (v : Nat) (x : VDev) : (s.setVdev v x).deviceDigest = s.deviceDigest := rfl
@[simp] theorem State.setTerrace_bootReason (s : State) (t : Nat) (x : Terrace) : (s.setTerrace t x).bootReason = s.bootReason := rfl
@[simp] theorem State.setTerrace_urmonDigest (s : State) (t : Nat) (x : Terrace) : (s.setTerrace t x).urmonDigest = s.urmonDigest := rfl
@[simp] theorem State.setTerrace_deviceDigest (s : State) (t : Nat) (x : Terrace) : (s.setTerrace t x).deviceDigest = s.deviceDigest := rfl
@[simp] theorem State.setPart_starting (s : State) (p : BitVec 6) (x : Partition) : (s.setPart p x).starting = s.starting := rfl
@[simp] theorem State.setVdev_starting (s : State) (v : Nat) (x : VDev) : (s.setVdev v x).starting = s.starting := rfl
@[simp] theorem State.setTerrace_starting (s : State) (t : Nat) (x : Terrace) : (s.setTerrace t x).starting = s.starting := rfl
@[simp] theorem State.setPart_nonce (s : State) (p : BitVec 6) (x : Partition) : (s.setPart p x).nonce = s.nonce := rfl
@[simp] theorem State.setVdev_nonce (s : State) (v : Nat) (x : VDev) : (s.setVdev v x).nonce = s.nonce := rfl
@[simp] theorem State.setTerrace_nonce (s : State) (t : Nat) (x : Terrace) : (s.setTerrace t x).nonce = s.nonce := rfl
@[simp] theorem State.setPart_attestBusy (s : State) (p : BitVec 6) (x : Partition) : (s.setPart p x).attestBusy = s.attestBusy := rfl
@[simp] theorem State.setVdev_attestBusy (s : State) (v : Nat) (x : VDev) : (s.setVdev v x).attestBusy = s.attestBusy := rfl
@[simp] theorem State.setTerrace_attestBusy (s : State) (t : Nat) (x : Terrace) : (s.setTerrace t x).attestBusy = s.attestBusy := rfl
@[simp] theorem State.setPart_report (s : State) (p : BitVec 6) (x : Partition) : (s.setPart p x).report = s.report := rfl
@[simp] theorem State.setVdev_report (s : State) (v : Nat) (x : VDev) : (s.setVdev v x).report = s.report := rfl
@[simp] theorem State.setTerrace_report (s : State) (t : Nat) (x : Terrace) : (s.setTerrace t x).report = s.report := rfl

-- The course of a context ---------------------------------------------------------------------------------------------

@[simp] theorem Context.flow_setFlow (c : Context) (f : Flow) : (c.setFlow f).flow = f := by
  unfold Context.setFlow Context.flow
  cases h : c.priv <;> simp [h]

@[simp] theorem Context.flow_updFlow (c : Context) (g : Flow → Flow) : (c.updFlow g).flow = g c.flow := by
  simp [Context.updFlow]

@[simp] theorem Context.setFlow_setFlow (c : Context) (f g : Flow) : (c.setFlow f).setFlow g = c.setFlow g := by
  unfold Context.setFlow
  cases h : c.priv <;> simp [h]

@[simp] theorem Context.updFlow_updFlow (c : Context) (f g : Flow → Flow) :
    (c.updFlow f).updFlow g = c.updFlow (fun x => g (f x)) := by
  simp [Context.updFlow]

@[simp] theorem Context.setFlow_st (c : Context) (f : Flow) : (c.setFlow f).st = c.st := by
  unfold Context.setFlow; split <;> rfl
@[simp] theorem Context.updFlow_st (c : Context) (g : Flow → Flow) : (c.updFlow g).st = c.st := by
  simp [Context.updFlow]
@[simp] theorem Context.setFlow_before (c : Context) (f : Flow) : (c.setFlow f).before = c.before := by
  unfold Context.setFlow; split <;> rfl
@[simp] theorem Context.updFlow_before (c : Context) (g : Flow → Flow) : (c.updFlow g).before = c.before := by
  simp [Context.updFlow]
@[simp] theorem Context.setFlow_priv (c : Context) (f : Flow) : (c.setFlow f).priv = c.priv := by
  unfold Context.setFlow; split <;> rfl
@[simp] theorem Context.updFlow_priv (c : Context) (g : Flow → Flow) : (c.updFlow g).priv = c.priv := by
  simp [Context.updFlow]
@[simp] theorem Context.setFlow_resume (c : Context) (f : Flow) : (c.setFlow f).resume = c.resume := by
  unfold Context.setFlow; split <;> rfl
@[simp] theorem Context.updFlow_resume (c : Context) (g : Flow → Flow) : (c.updFlow g).resume = c.resume := by
  simp [Context.updFlow]
@[simp] theorem Context.setFlow_launch (c : Context) (f : Flow) : (c.setFlow f).launch = c.launch := by
  unfold Context.setFlow; split <;> rfl
@[simp] theorem Context.updFlow_launch (c : Context) (g : Flow → Flow) : (c.updFlow g).launch = c.launch := by
  simp [Context.updFlow]
@[simp] theorem Context.setFlow_part (c : Context) (f : Flow) : (c.setFlow f).part = c.part := by
  unfold Context.setFlow; split <;> rfl
@[simp] theorem Context.updFlow_part (c : Context) (g : Flow → Flow) : (c.updFlow g).part = c.part := by
  simp [Context.updFlow]
@[simp] theorem Context.setFlow_code (c : Context) (f : Flow) : (c.setFlow f).code = c.code := by
  unfold Context.setFlow; split <;> rfl
@[simp] theorem Context.updFlow_code (c : Context) (g : Flow → Flow) : (c.updFlow g).code = c.code := by
  simp [Context.updFlow]
@[simp] theorem Context.setFlow_half (c : Context) (f : Flow) : (c.setFlow f).half = c.half := by
  unfold Context.setFlow; split <;> rfl
@[simp] theorem Context.updFlow_half (c : Context) (g : Flow → Flow) : (c.updFlow g).half = c.half := by
  simp [Context.updFlow]
@[simp] theorem Context.setFlow_thread (c : Context) (f : Flow) : (c.setFlow f).thread = c.thread := by
  unfold Context.setFlow; split <;> rfl
@[simp] theorem Context.updFlow_thread (c : Context) (g : Flow → Flow) : (c.updFlow g).thread = c.thread := by
  simp [Context.updFlow]
@[simp] theorem Context.setFlow_mat (c : Context) (f : Flow) : (c.setFlow f).mat = c.mat := by
  unfold Context.setFlow; split <;> rfl
@[simp] theorem Context.updFlow_mat (c : Context) (g : Flow → Flow) : (c.updFlow g).mat = c.mat := by
  simp [Context.updFlow]
@[simp] theorem Context.setFlow_prio (c : Context) (f : Flow) : (c.setFlow f).prio = c.prio := by
  unfold Context.setFlow; split <;> rfl
@[simp] theorem Context.updFlow_prio (c : Context) (g : Flow → Flow) : (c.updFlow g).prio = c.prio := by
  simp [Context.updFlow]
@[simp] theorem Context.setFlow_mmr1 (c : Context) (f : Flow) : (c.setFlow f).mmr1 = c.mmr1 := by
  unfold Context.setFlow; split <;> rfl
@[simp] theorem Context.updFlow_mmr1 (c : Context) (g : Flow → Flow) : (c.updFlow g).mmr1 = c.mmr1 := by
  simp [Context.updFlow]
@[simp] theorem Context.setFlow_pyrino (c : Context) (f : Flow) : (c.setFlow f).pyrino = c.pyrino := by
  unfold Context.setFlow; split <;> rfl
@[simp] theorem Context.updFlow_pyrino (c : Context) (g : Flow → Flow) : (c.updFlow g).pyrino = c.pyrino := by
  simp [Context.updFlow]
@[simp] theorem Context.setFlow_entryOff (c : Context) (f : Flow) : (c.setFlow f).entryOff = c.entryOff := by
  unfold Context.setFlow; split <;> rfl
@[simp] theorem Context.updFlow_entryOff (c : Context) (g : Flow → Flow) : (c.updFlow g).entryOff = c.entryOff := by
  simp [Context.updFlow]
@[simp] theorem Context.setFlow_l (c : Context) (f : Flow) : (c.setFlow f).l = c.l := by
  unfold Context.setFlow; split <;> rfl
@[simp] theorem Context.updFlow_l (c : Context) (g : Flow → Flow) : (c.updFlow g).l = c.l := by
  simp [Context.updFlow]
@[simp] theorem Context.setFlow_s (c : Context) (f : Flow) : (c.setFlow f).s = c.s := by
  unfold Context.setFlow; split <;> rfl
@[simp] theorem Context.updFlow_s (c : Context) (g : Flow → Flow) : (c.updFlow g).s = c.s := by
  simp [Context.updFlow]
@[simp] theorem Context.setFlow_a (c : Context) (f : Flow) : (c.setFlow f).a = c.a := by
  unfold Context.setFlow; split <;> rfl
@[simp] theorem Context.updFlow_a (c : Context) (g : Flow → Flow) : (c.updFlow g).a = c.a := by
  simp [Context.updFlow]
@[simp] theorem Context.setFlow_x (c : Context) (f : Flow) : (c.setFlow f).x = c.x := by
  unfold Context.setFlow; split <;> rfl
@[simp] theorem Context.updFlow_x (c : Context) (g : Flow → Flow) : (c.updFlow g).x = c.x := by
  simp [Context.updFlow]
@[simp] theorem Context.setFlow_d (c : Context) (f : Flow) : (c.setFlow f).d = c.d := by
  unfold Context.setFlow; split <;> rfl
@[simp] theorem Context.updFlow_d (c : Context) (g : Flow → Flow) : (c.updFlow g).d = c.d := by
  simp [Context.updFlow]
@[simp] theorem Context.setFlow_y (c : Context) (f : Flow) : (c.setFlow f).y = c.y := by
  unfold Context.setFlow; split <;> rfl
@[simp] theorem Context.updFlow_y (c : Context) (g : Flow → Flow) : (c.updFlow g).y = c.y := by
  simp [Context.updFlow]
@[simp] theorem Context.setFlow_v (c : Context) (f : Flow) : (c.setFlow f).v = c.v := by
  unfold Context.setFlow; split <;> rfl
@[simp] theorem Context.updFlow_v (c : Context) (g : Flow → Flow) : (c.updFlow g).v = c.v := by
  simp [Context.updFlow]
@[simp] theorem Context.setFlow_w (c : Context) (f : Flow) : (c.setFlow f).w = c.w := by
  unfold Context.setFlow; split <;> rfl
@[simp] theorem Context.updFlow_w (c : Context) (g : Flow → Flow) : (c.updFlow g).w = c.w := by
  simp [Context.updFlow]
@[simp] theorem Context.setFlow_k (c : Context) (f : Flow) : (c.setFlow f).k = c.k := by
  unfold Context.setFlow; split <;> rfl
@[simp] theorem Context.updFlow_k (c : Context) (g : Flow → Flow) : (c.updFlow g).k = c.k := by
  simp [Context.updFlow]
@[simp] theorem Context.setFlow_p (c : Context) (f : Flow) : (c.setFlow f).p = c.p := by
  unfold Context.setFlow; split <;> rfl
@[simp] theorem Context.updFlow_p (c : Context) (g : Flow → Flow) : (c.updFlow g).p = c.p := by
  simp [Context.updFlow]
@[simp] theorem Context.setFlow_bs (c : Context) (f : Flow) : (c.setFlow f).bs = c.bs := by
  unfold Context.setFlow; split <;> rfl
@[simp] theorem Context.updFlow_bs (c : Context) (g : Flow → Flow) : (c.updFlow g).bs = c.bs := by
  simp [Context.updFlow]
@[simp] theorem Context.setFlow_ba (c : Context) (f : Flow) : (c.setFlow f).ba = c.ba := by
  unfold Context.setFlow; split <;> rfl
@[simp] theorem Context.updFlow_ba (c : Context) (g : Flow → Flow) : (c.updFlow g).ba = c.ba := by
  simp [Context.updFlow]
@[simp] theorem Context.setFlow_bv (c : Context) (f : Flow) : (c.setFlow f).bv = c.bv := by
  unfold Context.setFlow; split <;> rfl
@[simp] theorem Context.updFlow_bv (c : Context) (g : Flow → Flow) : (c.updFlow g).bv = c.bv := by
  simp [Context.updFlow]
@[simp] theorem Context.setFlow_bw (c : Context) (f : Flow) : (c.setFlow f).bw = c.bw := by
  unfold Context.setFlow; split <;> rfl
@[simp] theorem Context.updFlow_bw (c : Context) (g : Flow → Flow) : (c.updFlow g).bw = c.bw := by
  simp [Context.updFlow]
@[simp] theorem Context.setFlow_ringLen (c : Context) (f : Flow) : (c.setFlow f).ringLen = c.ringLen := by
  unfold Context.setFlow; split <;> rfl
@[simp] theorem Context.updFlow_ringLen (c : Context) (g : Flow → Flow) : (c.updFlow g).ringLen = c.ringLen := by
  simp [Context.updFlow]
@[simp] theorem Context.setFlow_ringOff (c : Context) (f : Flow) : (c.setFlow f).ringOff = c.ringOff := by
  unfold Context.setFlow; split <;> rfl
@[simp] theorem Context.updFlow_ringOff (c : Context) (g : Flow → Flow) : (c.updFlow g).ringOff = c.ringOff := by
  simp [Context.updFlow]
@[simp] theorem Context.setFlow_sticky (c : Context) (f : Flow) : (c.setFlow f).sticky = c.sticky := by
  unfold Context.setFlow; split <;> rfl
@[simp] theorem Context.updFlow_sticky (c : Context) (g : Flow → Flow) : (c.updFlow g).sticky = c.sticky := by
  simp [Context.updFlow]
@[simp] theorem Context.setFlow_seed (c : Context) (f : Flow) : (c.setFlow f).seed = c.seed := by
  unfold Context.setFlow; split <;> rfl
@[simp] theorem Context.updFlow_seed (c : Context) (g : Flow → Flow) : (c.updFlow g).seed = c.seed := by
  simp [Context.updFlow]
@[simp] theorem Context.setFlow_fcause (c : Context) (f : Flow) : (c.setFlow f).fcause = c.fcause := by
  unfold Context.setFlow; split <;> rfl
@[simp] theorem Context.updFlow_fcause (c : Context) (g : Flow → Flow) : (c.updFlow g).fcause = c.fcause := by
  simp [Context.updFlow]
@[simp] theorem Context.setFlow_fdetail (c : Context) (f : Flow) : (c.setFlow f).fdetail = c.fdetail := by
  unfold Context.setFlow; split <;> rfl
@[simp] theorem Context.updFlow_fdetail (c : Context) (g : Flow → Flow) : (c.updFlow g).fdetail = c.fdetail := by
  simp [Context.updFlow]
@[simp] theorem Context.setFlow_faddr (c : Context) (f : Flow) : (c.setFlow f).faddr = c.faddr := by
  unfold Context.setFlow; split <;> rfl
@[simp] theorem Context.updFlow_faddr (c : Context) (g : Flow → Flow) : (c.updFlow g).faddr = c.faddr := by
  simp [Context.updFlow]
@[simp] theorem Context.setFlow_fret (c : Context) (f : Flow) : (c.setFlow f).fret = c.fret := by
  unfold Context.setFlow; split <;> rfl
@[simp] theorem Context.updFlow_fret (c : Context) (g : Flow → Flow) : (c.updFlow g).fret = c.fret := by
  simp [Context.updFlow]
@[simp] theorem Context.setFlow_ftick (c : Context) (f : Flow) : (c.setFlow f).ftick = c.ftick := by
  unfold Context.setFlow; split <;> rfl
@[simp] theorem Context.updFlow_ftick (c : Context) (g : Flow → Flow) : (c.updFlow g).ftick = c.ftick := by
  simp [Context.updFlow]
@[simp] theorem Context.setFlow_fpyr (c : Context) (f : Flow) : (c.setFlow f).fpyr = c.fpyr := by
  unfold Context.setFlow; split <;> rfl
@[simp] theorem Context.updFlow_fpyr (c : Context) (g : Flow → Flow) : (c.updFlow g).fpyr = c.fpyr := by
  simp [Context.updFlow]
@[simp] theorem Context.setFlow_dvbase (c : Context) (f : Flow) : (c.setFlow f).dvbase = c.dvbase := by
  unfold Context.setFlow; split <;> rfl
@[simp] theorem Context.updFlow_dvbase (c : Context) (g : Flow → Flow) : (c.updFlow g).dvbase = c.dvbase := by
  simp [Context.updFlow]
@[simp] theorem Context.setFlow_dvsel (c : Context) (f : Flow) : (c.setFlow f).dvsel = c.dvsel := by
  unfold Context.setFlow; split <;> rfl
@[simp] theorem Context.updFlow_dvsel (c : Context) (g : Flow → Flow) : (c.updFlow g).dvsel = c.dvsel := by
  simp [Context.updFlow]
@[simp] theorem Context.setFlow_h (c : Context) (f : Flow) : (c.setFlow f).h = c.h := by
  unfold Context.setFlow; split <;> rfl
@[simp] theorem Context.updFlow_h (c : Context) (g : Flow → Flow) : (c.updFlow g).h = c.h := by
  simp [Context.updFlow]
@[simp] theorem Context.setFlow_pendingFaults (c : Context) (f : Flow) : (c.setFlow f).pendingFaults = c.pendingFaults := by
  unfold Context.setFlow; split <;> rfl
@[simp] theorem Context.updFlow_pendingFaults (c : Context) (g : Flow → Flow) : (c.updFlow g).pendingFaults = c.pendingFaults := by
  simp [Context.updFlow]
@[simp] theorem Context.setFlow_posts (c : Context) (f : Flow) : (c.setFlow f).posts = c.posts := by
  unfold Context.setFlow; split <;> rfl
@[simp] theorem Context.updFlow_posts (c : Context) (g : Flow → Flow) : (c.updFlow g).posts = c.posts := by
  simp [Context.updFlow]
@[simp] theorem Context.setFlow_tileOps (c : Context) (f : Flow) : (c.setFlow f).tileOps = c.tileOps := by
  unfold Context.setFlow; split <;> rfl
@[simp] theorem Context.updFlow_tileOps (c : Context) (g : Flow → Flow) : (c.updFlow g).tileOps = c.tileOps := by
  simp [Context.updFlow]
@[simp] theorem Context.setFlow_own (c : Context) (f : Flow) : (c.setFlow f).own = c.own := by
  unfold Context.setFlow; split <;> rfl
@[simp] theorem Context.updFlow_own (c : Context) (g : Flow → Flow) : (c.updFlow g).own = c.own := by
  simp [Context.updFlow]
@[simp] theorem Context.setFlow_dirty (c : Context) (f : Flow) : (c.setFlow f).dirty = c.dirty := by
  unfold Context.setFlow; split <;> rfl
@[simp] theorem Context.updFlow_dirty (c : Context) (g : Flow → Flow) : (c.updFlow g).dirty = c.dirty := by
  simp [Context.updFlow]
@[simp] theorem Context.setFlow_pubDirty (c : Context) (f : Flow) : (c.setFlow f).pubDirty = c.pubDirty := by
  unfold Context.setFlow; split <;> rfl
@[simp] theorem Context.updFlow_pubDirty (c : Context) (g : Flow → Flow) : (c.updFlow g).pubDirty = c.pubDirty := by
  simp [Context.updFlow]
@[simp] theorem Context.setFlow_snap (c : Context) (f : Flow) : (c.setFlow f).snap = c.snap := by
  unfold Context.setFlow; split <;> rfl
@[simp] theorem Context.setFlow_stopWhy (c : Context) (f : Flow) : (c.setFlow f).stopWhy = c.stopWhy := by
  unfold Context.setFlow; split <;> rfl
@[simp] theorem Context.setFlow_nested (c : Context) (f : Flow) : (c.setFlow f).nested = c.nested := by
  unfold Context.setFlow; split <;> rfl
@[simp] theorem Context.setFlow_tied (c : Context) (f : Flow) : (c.setFlow f).tied = c.tied := by
  unfold Context.setFlow; split <;> rfl
@[simp] theorem Context.setFlow_ahead (c : Context) (f : Flow) : (c.setFlow f).ahead = c.ahead := by
  unfold Context.setFlow; split <;> rfl
@[simp] theorem Context.setFlow_tagsSet (c : Context) (f : Flow) : (c.setFlow f).tagsSet = c.tagsSet := by
  unfold Context.setFlow; split <;> rfl
@[simp] theorem Context.setFlow_walked (c : Context) (f : Flow) : (c.setFlow f).walked = c.walked := by
  unfold Context.setFlow; split <;> rfl
@[simp] theorem Context.setFlow_retag (c : Context) (f : Flow) : (c.setFlow f).retag = c.retag := by
  unfold Context.setFlow; split <;> rfl
@[simp] theorem Context.updFlow_snap (c : Context) (g : Flow → Flow) : (c.updFlow g).snap = c.snap := by
  simp [Context.updFlow]
@[simp] theorem Context.updFlow_stopWhy (c : Context) (g : Flow → Flow) : (c.updFlow g).stopWhy = c.stopWhy := by
  simp [Context.updFlow]
@[simp] theorem Context.updFlow_nested (c : Context) (g : Flow → Flow) : (c.updFlow g).nested = c.nested := by
  simp [Context.updFlow]
@[simp] theorem Context.updFlow_tied (c : Context) (g : Flow → Flow) : (c.updFlow g).tied = c.tied := by
  simp [Context.updFlow]
@[simp] theorem Context.updFlow_ahead (c : Context) (g : Flow → Flow) : (c.updFlow g).ahead = c.ahead := by
  simp [Context.updFlow]
@[simp] theorem Context.updFlow_tagsSet (c : Context) (g : Flow → Flow) : (c.updFlow g).tagsSet = c.tagsSet := by
  simp [Context.updFlow]
@[simp] theorem Context.updFlow_walked (c : Context) (g : Flow → Flow) : (c.updFlow g).walked = c.walked := by
  simp [Context.updFlow]
@[simp] theorem Context.updFlow_retag (c : Context) (g : Flow → Flow) : (c.updFlow g).retag = c.retag := by
  simp [Context.updFlow]
@[simp] theorem Context.setFlow_snapScope (c : Context) (f : Flow) : (c.setFlow f).snapScope = c.snapScope := by
  unfold Context.setFlow; split <;> rfl
@[simp] theorem Context.updFlow_snapScope (c : Context) (g : Flow → Flow) : (c.updFlow g).snapScope = c.snapScope := by
  simp [Context.updFlow]
@[simp] theorem Context.setFlow_fenceSc (c : Context) (f : Flow) : (c.setFlow f).fenceSc = c.fenceSc := by
  unfold Context.setFlow; split <;> rfl
@[simp] theorem Context.updFlow_fenceSc (c : Context) (g : Flow → Flow) : (c.updFlow g).fenceSc = c.fenceSc := by
  simp [Context.updFlow]
@[simp] theorem Context.setFlow_must (c : Context) (f : Flow) : (c.setFlow f).must = c.must := by
  unfold Context.setFlow; split <;> rfl
@[simp] theorem Context.updFlow_must (c : Context) (g : Flow → Flow) : (c.updFlow g).must = c.must := by
  simp [Context.updFlow]
@[simp] theorem Context.setFlow_probes (c : Context) (f : Flow) : (c.setFlow f).probes = c.probes := by
  unfold Context.setFlow; split <;> rfl
@[simp] theorem Context.updFlow_probes (c : Context) (g : Flow → Flow) : (c.updFlow g).probes = c.probes := by
  simp [Context.updFlow]
@[simp] theorem Context.setFlow_watch (c : Context) (f : Flow) : (c.setFlow f).watch = c.watch := by
  unfold Context.setFlow; split <;> rfl
@[simp] theorem Context.updFlow_watch (c : Context) (g : Flow → Flow) : (c.updFlow g).watch = c.watch := by
  simp [Context.updFlow]
@[simp] theorem Context.setFlow_waitOk (c : Context) (f : Flow) : (c.setFlow f).waitOk = c.waitOk := by
  unfold Context.setFlow; split <;> rfl
@[simp] theorem Context.updFlow_waitOk (c : Context) (g : Flow → Flow) : (c.updFlow g).waitOk = c.waitOk := by
  simp [Context.updFlow]
@[simp] theorem Context.setFlow_lastPoint (c : Context) (f : Flow) : (c.setFlow f).lastPoint = c.lastPoint := by
  unfold Context.setFlow; split <;> rfl
@[simp] theorem Context.updFlow_lastPoint (c : Context) (g : Flow → Flow) : (c.updFlow g).lastPoint = c.lastPoint := by
  simp [Context.updFlow]
@[simp] theorem Context.setFlow_helps (c : Context) (f : Flow) : (c.setFlow f).helps = c.helps := by
  unfold Context.setFlow; split <;> rfl
@[simp] theorem Context.updFlow_helps (c : Context) (g : Flow → Flow) : (c.updFlow g).helps = c.helps := by
  simp [Context.updFlow]
@[simp] theorem Context.setFlow_wake (c : Context) (f : Flow) : (c.setFlow f).wake = c.wake := by
  unfold Context.setFlow; split <;> rfl
@[simp] theorem Context.updFlow_wake (c : Context) (g : Flow → Flow) : (c.updFlow g).wake = c.wake := by
  simp [Context.updFlow]
@[simp] theorem Context.setFlow_chans (c : Context) (f : Flow) : (c.setFlow f).chans = c.chans := by
  unfold Context.setFlow; split <;> rfl
@[simp] theorem Context.updFlow_chans (c : Context) (g : Flow → Flow) : (c.updFlow g).chans = c.chans := by
  simp [Context.updFlow]
@[simp] theorem Context.setFlow_issued (c : Context) (f : Flow) : (c.setFlow f).issued = c.issued := by
  unfold Context.setFlow; split <;> rfl
@[simp] theorem Context.updFlow_issued (c : Context) (g : Flow → Flow) : (c.updFlow g).issued = c.issued := by
  simp [Context.updFlow]
@[simp] theorem Flow.updStrap_pc (f : Flow) (g : Strap → Strap) : (f.updStrap g).pc = f.pc := rfl
@[simp] theorem Flow.updQ_pc (f : Flow) (g : Queues → Queues) : (f.updQ g).pc = f.pc := rfl
@[simp] theorem Flow.updStrap_sect (f : Flow) (g : Strap → Strap) : (f.updStrap g).sect = f.sect := rfl
@[simp] theorem Flow.updQ_sect (f : Flow) (g : Queues → Queues) : (f.updQ g).sect = f.sect := rfl
@[simp] theorem Flow.updStrap_delayTo (f : Flow) (g : Strap → Strap) : (f.updStrap g).delayTo = f.delayTo := rfl
@[simp] theorem Flow.updQ_delayTo (f : Flow) (g : Queues → Queues) : (f.updQ g).delayTo = f.delayTo := rfl
@[simp] theorem Flow.updStrap_squash (f : Flow) (g : Strap → Strap) : (f.updStrap g).squash = f.squash := rfl
@[simp] theorem Flow.updQ_squash (f : Flow) (g : Queues → Queues) : (f.updQ g).squash = f.squash := rfl
@[simp] theorem Flow.updStrap_tick (f : Flow) (g : Strap → Strap) : (f.updStrap g).tick = f.tick := rfl
@[simp] theorem Flow.updQ_tick (f : Flow) (g : Queues → Queues) : (f.updQ g).tick = f.tick := rfl
@[simp] theorem Flow.updStrap_flight (f : Flow) (g : Strap → Strap) : (f.updStrap g).flight = f.flight := rfl
@[simp] theorem Flow.updQ_flight (f : Flow) (g : Queues → Queues) : (f.updQ g).flight = f.flight := rfl
@[simp] theorem Flow.updStrap_held (f : Flow) (g : Strap → Strap) : (f.updStrap g).held = f.held := rfl
@[simp] theorem Flow.updQ_held (f : Flow) (g : Queues → Queues) : (f.updQ g).held = f.held := rfl
@[simp] theorem Flow.updStrap_strap (f : Flow) (g : Strap → Strap) : (f.updStrap g).strap = g f.strap := rfl
@[simp] theorem Flow.updQ_strap (f : Flow) (g : Queues → Queues) : (f.updQ g).strap = f.strap := rfl
@[simp] theorem Flow.updStrap_q (f : Flow) (g : Strap → Strap) : (f.updStrap g).q = f.q := rfl
@[simp] theorem Flow.updQ_q (f : Flow) (g : Queues → Queues) : (f.updQ g).q = g f.q := rfl

-- Links, collective instances and free values ---------------------------------------------------------------------

theorem State.link_setLink_same (s : State) (n : BitVec 4) (l : Link) : (s.setLink n l).link n = l := by
  simp [State.link, State.setLink]

theorem State.link_setLink_other (s : State) {n m : BitVec 4} (l : Link) (h : n ≠ m) : (s.setLink n l).link m = s.link m := by
  have h : n.toNat ≠ m.toNat := fun e => h (BitVec.eq_of_toNat_eq e)
  simp [State.link, State.setLink, Vector.getElem_set, h]

@[simp] theorem State.draw_fresh (s : State) : s.draw.2.fresh = s.fresh + 1 := rfl
@[simp] theorem State.draw_value (s : State) : s.draw.1 = s.fresh := rfl
@[simp] theorem State.setLink_cur (s : State) (n : BitVec 4) (l : Link) : (s.setLink n l).cur = s.cur := rfl
@[simp] theorem State.updColl_cur (s : State) (x : Coll) (f : Coll → Coll) : (s.updColl x f).cur = s.cur := rfl
@[simp] theorem State.draw_cur (s : State) : s.draw.2.cur = s.cur := rfl
@[simp] theorem State.setLink_agenda (s : State) (n : BitVec 4) (l : Link) : (s.setLink n l).agenda = s.agenda := rfl
@[simp] theorem State.updColl_agenda (s : State) (x : Coll) (f : Coll → Coll) : (s.updColl x f).agenda = s.agenda := rfl
@[simp] theorem State.draw_agenda (s : State) : s.draw.2.agenda = s.agenda := rfl
@[simp] theorem State.setLink_turn (s : State) (n : BitVec 4) (l : Link) : (s.setLink n l).turn = s.turn := rfl
@[simp] theorem State.updColl_turn (s : State) (x : Coll) (f : Coll → Coll) : (s.updColl x f).turn = s.turn := rfl
@[simp] theorem State.draw_turn (s : State) : s.draw.2.turn = s.turn := rfl
@[simp] theorem State.setLink_fresh (s : State) (n : BitVec 4) (l : Link) : (s.setLink n l).fresh = s.fresh := rfl
@[simp] theorem State.updColl_fresh (s : State) (x : Coll) (f : Coll → Coll) : (s.updColl x f).fresh = s.fresh := rfl
@[simp] theorem State.setLink_nextUid (s : State) (n : BitVec 4) (l : Link) : (s.setLink n l).nextUid = s.nextUid := rfl
@[simp] theorem State.updColl_nextUid (s : State) (x : Coll) (f : Coll → Coll) : (s.updColl x f).nextUid = s.nextUid := rfl
@[simp] theorem State.draw_nextUid (s : State) : s.draw.2.nextUid = s.nextUid := rfl
@[simp] theorem State.setLink_mem (s : State) (n : BitVec 4) (l : Link) : (s.setLink n l).mem = s.mem := rfl
@[simp] theorem State.updColl_mem (s : State) (x : Coll) (f : Coll → Coll) : (s.updColl x f).mem = s.mem := rfl
@[simp] theorem State.draw_mem (s : State) : s.draw.2.mem = s.mem := rfl
@[simp] theorem State.setLink_poison (s : State) (n : BitVec 4) (l : Link) : (s.setLink n l).poison = s.poison := rfl
@[simp] theorem State.updColl_poison (s : State) (x : Coll) (f : Coll → Coll) : (s.updColl x f).poison = s.poison := rfl
@[simp] theorem State.draw_poison (s : State) : s.draw.2.poison = s.poison := rfl
@[simp] theorem State.setLink_cover (s : State) (n : BitVec 4) (l : Link) : (s.setLink n l).cover = s.cover := rfl
@[simp] theorem State.updColl_cover (s : State) (x : Coll) (f : Coll → Coll) : (s.updColl x f).cover = s.cover := rfl
@[simp] theorem State.draw_cover (s : State) : s.draw.2.cover = s.cover := rfl
@[simp] theorem State.setLink_relayPend (s : State) (n : BitVec 4) (l : Link) : (s.setLink n l).relayPend = s.relayPend := rfl
@[simp] theorem State.updColl_relayPend (s : State) (x : Coll) (f : Coll → Coll) : (s.updColl x f).relayPend = s.relayPend := rfl
@[simp] theorem State.draw_relayPend (s : State) : s.draw.2.relayPend = s.relayPend := rfl
@[simp] theorem State.setLink_cores (s : State) (n : BitVec 4) (l : Link) : (s.setLink n l).cores = s.cores := rfl
@[simp] theorem State.updColl_cores (s : State) (x : Coll) (f : Coll → Coll) : (s.updColl x f).cores = s.cores := rfl
@[simp] theorem State.draw_cores (s : State) : s.draw.2.cores = s.cores := rfl
@[simp] theorem State.setLink_images (s : State) (n : BitVec 4) (l : Link) : (s.setLink n l).images = s.images := rfl
@[simp] theorem State.setLink_left (s : State) (n : BitVec 4) (l : Link) : (s.setLink n l).left = s.left := rfl
@[simp] theorem State.updColl_images (s : State) (x : Coll) (f : Coll → Coll) : (s.updColl x f).images = s.images := rfl
@[simp] theorem State.updColl_left (s : State) (x : Coll) (f : Coll → Coll) : (s.updColl x f).left = s.left := rfl
@[simp] theorem State.draw_images (s : State) : s.draw.2.images = s.images := rfl
@[simp] theorem State.draw_left (s : State) : s.draw.2.left = s.left := rfl
@[simp] theorem State.setLink_terraces (s : State) (n : BitVec 4) (l : Link) : (s.setLink n l).terraces = s.terraces := rfl
@[simp] theorem State.updColl_terraces (s : State) (x : Coll) (f : Coll → Coll) : (s.updColl x f).terraces = s.terraces := rfl
@[simp] theorem State.draw_terraces (s : State) : s.draw.2.terraces = s.terraces := rfl
@[simp] theorem State.setLink_cascades (s : State) (n : BitVec 4) (l : Link) : (s.setLink n l).cascades = s.cascades := rfl
@[simp] theorem State.updColl_cascades (s : State) (x : Coll) (f : Coll → Coll) : (s.updColl x f).cascades = s.cascades := rfl
@[simp] theorem State.draw_cascades (s : State) : s.draw.2.cascades = s.cascades := rfl
@[simp] theorem State.setLink_parts (s : State) (n : BitVec 4) (l : Link) : (s.setLink n l).parts = s.parts := rfl
@[simp] theorem State.updColl_parts (s : State) (x : Coll) (f : Coll → Coll) : (s.updColl x f).parts = s.parts := rfl
@[simp] theorem State.draw_parts (s : State) : s.draw.2.parts = s.parts := rfl
@[simp] theorem State.setLink_vdevs (s : State) (n : BitVec 4) (l : Link) : (s.setLink n l).vdevs = s.vdevs := rfl
@[simp] theorem State.updColl_vdevs (s : State) (x : Coll) (f : Coll → Coll) : (s.updColl x f).vdevs = s.vdevs := rfl
@[simp] theorem State.draw_vdevs (s : State) : s.draw.2.vdevs = s.vdevs := rfl
@[simp] theorem State.setLink_colls (s : State) (n : BitVec 4) (l : Link) : (s.setLink n l).colls = s.colls := rfl
@[simp] theorem State.draw_colls (s : State) : s.draw.2.colls = s.colls := rfl
@[simp] theorem State.setLink_words (s : State) (n : BitVec 4) (l : Link) : (s.setLink n l).words = s.words := rfl
@[simp] theorem State.updColl_words (s : State) (x : Coll) (f : Coll → Coll) : (s.updColl x f).words = s.words := rfl
@[simp] theorem State.draw_words (s : State) : s.draw.2.words = s.words := rfl
@[simp] theorem State.setLink_rolemap (s : State) (n : BitVec 4) (l : Link) : (s.setLink n l).rolemap = s.rolemap := rfl
@[simp] theorem State.updColl_rolemap (s : State) (x : Coll) (f : Coll → Coll) : (s.updColl x f).rolemap = s.rolemap := rfl
@[simp] theorem State.draw_rolemap (s : State) : s.draw.2.rolemap = s.rolemap := rfl
@[simp] theorem State.setLink_roleboot (s : State) (n : BitVec 4) (l : Link) : (s.setLink n l).roleboot = s.roleboot := rfl
@[simp] theorem State.updColl_roleboot (s : State) (x : Coll) (f : Coll → Coll) : (s.updColl x f).roleboot = s.roleboot := rfl
@[simp] theorem State.draw_roleboot (s : State) : s.draw.2.roleboot = s.roleboot := rfl
@[simp] theorem State.setLink_mstatus (s : State) (n : BitVec 4) (l : Link) : (s.setLink n l).mstatus = s.mstatus := rfl
@[simp] theorem State.updColl_mstatus (s : State) (x : Coll) (f : Coll → Coll) : (s.updColl x f).mstatus = s.mstatus := rfl
@[simp] theorem State.draw_mstatus (s : State) : s.draw.2.mstatus = s.mstatus := rfl
@[simp] theorem State.setLink_elog (s : State) (n : BitVec 4) (l : Link) : (s.setLink n l).elog = s.elog := rfl
@[simp] theorem State.updColl_elog (s : State) (x : Coll) (f : Coll → Coll) : (s.updColl x f).elog = s.elog := rfl
@[simp] theorem State.draw_elog (s : State) : s.draw.2.elog = s.elog := rfl
@[simp] theorem State.setLink_elogCount (s : State) (n : BitVec 4) (l : Link) : (s.setLink n l).elogCount = s.elogCount := rfl
@[simp] theorem State.updColl_elogCount (s : State) (x : Coll) (f : Coll → Coll) : (s.updColl x f).elogCount = s.elogCount := rfl
@[simp] theorem State.draw_elogCount (s : State) : s.draw.2.elogCount = s.elogCount := rfl
@[simp] theorem State.setLink_coolantHigh (s : State) (n : BitVec 4) (l : Link) : (s.setLink n l).coolantHigh = s.coolantHigh := rfl
@[simp] theorem State.updColl_coolantHigh (s : State) (x : Coll) (f : Coll → Coll) : (s.updColl x f).coolantHigh = s.coolantHigh := rfl
@[simp] theorem State.draw_coolantHigh (s : State) : s.draw.2.coolantHigh = s.coolantHigh := rfl
@[simp] theorem State.updColl_links (s : State) (x : Coll) (f : Coll → Coll) : (s.updColl x f).links = s.links := rfl
@[simp] theorem State.draw_links (s : State) : s.draw.2.links = s.links := rfl
@[simp] theorem State.setLink_registrations (s : State) (n : BitVec 4) (l : Link) : (s.setLink n l).registrations = s.registrations := rfl
@[simp] theorem State.updColl_registrations (s : State) (x : Coll) (f : Coll → Coll) : (s.updColl x f).registrations = s.registrations := rfl
@[simp] theorem State.draw_registrations (s : State) : s.draw.2.registrations = s.registrations := rfl
@[simp] theorem State.setLink_regPending (s : State) (n : BitVec 4) (l : Link) : (s.setLink n l).regPending = s.regPending := rfl
@[simp] theorem State.updColl_regPending (s : State) (x : Coll) (f : Coll → Coll) : (s.updColl x f).regPending = s.regPending := rfl
@[simp] theorem State.draw_regPending (s : State) : s.draw.2.regPending = s.regPending := rfl
@[simp] theorem State.setLink_bootVersion (s : State) (n : BitVec 4) (l : Link) : (s.setLink n l).bootVersion = s.bootVersion := rfl
@[simp] theorem State.updColl_bootVersion (s : State) (x : Coll) (f : Coll → Coll) : (s.updColl x f).bootVersion = s.bootVersion := rfl
@[simp] theorem State.draw_bootVersion (s : State) : s.draw.2.bootVersion = s.bootVersion := rfl
@[simp] theorem State.setLink_bootTrickle (s : State) (n : BitVec 4) (l : Link) : (s.setLink n l).bootTrickle = s.bootTrickle := rfl
@[simp] theorem State.updColl_bootTrickle (s : State) (x : Coll) (f : Coll → Coll) : (s.updColl x f).bootTrickle = s.bootTrickle := rfl
@[simp] theorem State.draw_bootTrickle (s : State) : s.draw.2.bootTrickle = s.bootTrickle := rfl
@[simp] theorem State.setLink_bootFails (s : State) (n : BitVec 4) (l : Link) : (s.setLink n l).bootFails = s.bootFails := rfl
@[simp] theorem State.updColl_bootFails (s : State) (x : Coll) (f : Coll → Coll) : (s.updColl x f).bootFails = s.bootFails := rfl
@[simp] theorem State.draw_bootFails (s : State) : s.draw.2.bootFails = s.bootFails := rfl
@[simp] theorem State.setLink_bootReason (s : State) (n : BitVec 4) (l : Link) : (s.setLink n l).bootReason = s.bootReason := rfl
@[simp] theorem State.updColl_bootReason (s : State) (x : Coll) (f : Coll → Coll) : (s.updColl x f).bootReason = s.bootReason := rfl
@[simp] theorem State.draw_bootReason (s : State) : s.draw.2.bootReason = s.bootReason := rfl
@[simp] theorem State.setLink_urmonDigest (s : State) (n : BitVec 4) (l : Link) : (s.setLink n l).urmonDigest = s.urmonDigest := rfl
@[simp] theorem State.updColl_urmonDigest (s : State) (x : Coll) (f : Coll → Coll) : (s.updColl x f).urmonDigest = s.urmonDigest := rfl
@[simp] theorem State.draw_urmonDigest (s : State) : s.draw.2.urmonDigest = s.urmonDigest := rfl
@[simp] theorem State.setLink_deviceDigest (s : State) (n : BitVec 4) (l : Link) : (s.setLink n l).deviceDigest = s.deviceDigest := rfl
@[simp] theorem State.updColl_deviceDigest (s : State) (x : Coll) (f : Coll → Coll) : (s.updColl x f).deviceDigest = s.deviceDigest := rfl
@[simp] theorem State.draw_deviceDigest (s : State) : s.draw.2.deviceDigest = s.deviceDigest := rfl
@[simp] theorem State.setLink_starting (s : State) (n : BitVec 4) (l : Link) : (s.setLink n l).starting = s.starting := rfl
@[simp] theorem State.updColl_starting (s : State) (x : Coll) (f : Coll → Coll) : (s.updColl x f).starting = s.starting := rfl
@[simp] theorem State.draw_starting (s : State) : s.draw.2.starting = s.starting := rfl
@[simp] theorem State.setLink_nonce (s : State) (n : BitVec 4) (l : Link) : (s.setLink n l).nonce = s.nonce := rfl
@[simp] theorem State.updColl_nonce (s : State) (x : Coll) (f : Coll → Coll) : (s.updColl x f).nonce = s.nonce := rfl
@[simp] theorem State.draw_nonce (s : State) : s.draw.2.nonce = s.nonce := rfl
@[simp] theorem State.setLink_attestBusy (s : State) (n : BitVec 4) (l : Link) : (s.setLink n l).attestBusy = s.attestBusy := rfl
@[simp] theorem State.updColl_attestBusy (s : State) (x : Coll) (f : Coll → Coll) : (s.updColl x f).attestBusy = s.attestBusy := rfl
@[simp] theorem State.draw_attestBusy (s : State) : s.draw.2.attestBusy = s.attestBusy := rfl
@[simp] theorem State.setLink_report (s : State) (n : BitVec 4) (l : Link) : (s.setLink n l).report = s.report := rfl
@[simp] theorem State.updColl_report (s : State) (x : Coll) (f : Coll → Coll) : (s.updColl x f).report = s.report := rfl
@[simp] theorem State.draw_report (s : State) : s.draw.2.report = s.report := rfl

end Machine
end Sys2Proof
end

