-- ==== Sys2Proof/Laws/Issue.lean ====
section
/-! SUPPORT. What the frame of a slot operation can do, once for every operation, and how operand reads and results
run. -/

namespace Sys2Proof.Machine

-- How actions run -----------------------------------------------------------------------------------------------------

/-- An action whose first part succeeds goes on from where that part ended. -/
theorem act_bind_ok {α β : Type} {a : Act α} {f : α → Act β} {s t : State} {x : α} (h : a.run s = (.ok x, t)) :
    (a >>= f).run s = (f x).run t := by
  change (ExceptT.bindCont f (a s).1 (a s).2) = _
  rw [show a s = (.ok x, t) from h]
  rfl

/-- A fault of the first part is the fault of the whole. -/
theorem act_bind_error {α β : Type} {a : Act α} {f : α → Act β} {s t : State} {e : FaultInfo}
    (h : a.run s = (.error e, t)) : (a >>= f).run s = (.error e, t) := by
  change (ExceptT.bindCont f (a s).1 (a s).2) = _
  rw [show a s = (.error e, t) from h]
  rfl

@[simp] theorem act_pure {α : Type} (x : α) (s : State) : (pure x : Act α).run s = (.ok x, s) := rfl
@[simp] theorem act_get (s : State) : (get : Act State).run s = (.ok s, s) := rfl
@[simp] theorem act_modify (f : State → State) (s : State) : (modify f : Act Unit).run s = (.ok (), f s) := rfl
@[simp] theorem getMe_run (s : State) : getMe.run s = (.ok s.me, s) := rfl
@[simp] theorem updMeA_run (f : Context → Context) (s : State) : (updMeA f).run s = (.ok (), s.updMe f) := rfl
@[simp] theorem updCoreA_run (f : Core → Core) (s : State) : (updCoreA f).run s = (.ok (), s.updMyCore f) := rfl
@[simp] theorem faultCode_run {α : Type} (c : BitVec 8) (s : State) :
    (faultCode c : Act α).run s = (.error { code := c, detail := 0, addr := 0 }, s) := rfl
@[simp] theorem faultAt_run {α : Type} (c : BitVec 8) (a : Nat) (s : State) :
    (faultAt c a : Act α).run s = (.error { code := c, detail := 0, addr := BitVec.ofNat 64 a }, s) := rfl

theorem require_true (c : BitVec 8) (s : State) : (require c true).run s = (.ok (), s) := rfl
theorem require_false (c : BitVec 8) (s : State) :
    (require c false).run s = (.error { code := c, detail := 0, addr := 0 }, s) := rfl

/-- A result enters flight. -/
theorem emit_run (i : Instr) (lat : Nat) (e : Effect) (flags : Flags) (s : State) :
    (emit i lat e flags).run s = (.ok (), s.updMe (fun c => c.updFlow (fun f =>
      { f with flight := f.flight ++
        [{ due := f.tick + (if c.translated then 1 else lat), slot := opSlot i, eff := e, flags := flags }] }))) := rfl

-- Register and zero operands --------------------------------------------------------------------------------------------

@[simp] theorem srcS_reg (i : Instr) (n : BitVec 5) (s : State) : (srcS i (.reg n)).run s = (.ok (s.me.readS n), s) := rfl
@[simp] theorem srcS_rel (i : Instr) (n : BitVec 4) (s : State) :
    (srcS i (.rel n)).run s = (.ok (s.me.readS (relReg s.me.bs n)), s) := rfl
@[simp] theorem srcS_zero (i : Instr) (s : State) : (srcS i .zero).run s = (.ok 0, s) := rfl
@[simp] theorem srcA_reg (i : Instr) (n : BitVec 5) (s : State) : (srcA i (.reg n)).run s = (.ok (s.me.readA n), s) := rfl
@[simp] theorem srcA_rel (i : Instr) (n : BitVec 4) (s : State) :
    (srcA i (.rel n)).run s = (.ok (s.me.readA (relReg s.me.ba n)), s) := rfl
@[simp] theorem srcA_zero (i : Instr) (s : State) : (srcA i .zero).run s = (.ok 0, s) := rfl
@[simp] theorem srcV_reg (i : Instr) (v : VSlot) (n : BitVec 5) (s : State) :
    (srcV i v (.reg n)).run s = (.ok (s.me.readV v n), s) := rfl
@[simp] theorem srcV_rel (i : Instr) (v : VSlot) (n : BitVec 4) (s : State) :
    (srcV i v (.rel n)).run s = (.ok (s.me.readV v (relReg (s.me.vbase v) n)), s) := rfl
@[simp] theorem srcV_zero (i : Instr) (v : VSlot) (s : State) : (srcV i v .zero).run s = (.ok 0, s) := rfl

-- The frame of a slot operation ------------------------------------------------------------------------------------------

/-- A slot operation of a strap that has begun, in a context that is no helper, takes effect. -/
theorem slotOp_ok {i : Instr} {body : Act Unit} {s t : State} (hd : decodeFault s s.me i = none)
    (hl : s.me.flow.strap.live = true) (hh : s.me.st ≠ .helper) (hb : body.run s = (.ok (), t)) :
    slotOp i body s = .next (t.updMe (fun c => c.slotDone (opSlot i))) := by
  simp [slotOp, hd, hl, hh, hb]

/-- A slot operation that meets an issue fault takes the lowest code of its slot (R284). -/
theorem slotOp_error {i : Instr} {body : Act Unit} {s t : State} {f : FaultInfo}
    (hd : decodeFault s s.me i = none) (hl : s.me.flow.strap.live = true) (hh : s.me.st ≠ .helper)
    (hb : body.run s = (.error f, t)) :
    slotOp i body s = .next ((s.keepWalks t).updMe (fun c =>
      if c.st = .helper then c.endHelper else c.issueFault (opSlot i) (lowestOf f (queueFaults s i ++ valueFaults s i)))) := by
  simp [slotOp, hd, hl, hh, hb]

/-- A slot operation that decode refuses takes the whole strap's fault. -/
theorem slotOp_decodeFault {i : Instr} {body : Act Unit} {s : State} {code : BitVec 8}
    (hd : decodeFault s s.me i = some code) :
    slotOp i body s = .next (s.updMe (fun c => if c.st = .helper then c.endHelper
      else c.decodeFaultAt (opSlot i) { code := code, detail := 0, addr := 0 } c.flow.strap.present)) := by
  simp [slotOp, hd]

/-- A slot operation always answers a next state. -/
theorem slotOp_next (i : Instr) (body : Act Unit) (s : State) : ∃ t, slotOp i body s = .next t := by
  unfold slotOp
  dsimp only
  split
  · exact ⟨_, rfl⟩
  · split
    · exact ⟨_, rfl⟩
    · split
      · exact ⟨_, rfl⟩
      · split <;> exact ⟨_, rfl⟩

/-- TRAP, SVC and BRK always answer a next state. -/
theorem trapOp_next (i : Instr) (code : BitVec 8) (arg : BitVec 18) (s : State) : ∃ t, trapOp i code arg s = .next t := by
  unfold trapOp
  dsimp only
  split
  · exact ⟨_, rfl⟩
  · split
    · exact ⟨_, rfl⟩
    · split <;> exact ⟨_, rfl⟩

end Sys2Proof.Machine
end

