-- ==== Sys2Proof/Laws/Memory.lean ====
section
/-! SUPPORT. What memory reads as after a write, and that every operation on it keeps the canonical form. -/

namespace Sys2Proof.Machine

/-- Every listed key lies above a number. -/
def bmAbove (n : Nat) (m : ByteMap) : Prop := ∀ e ∈ m, n < e.1

theorem bmSorted_cons {a : Nat} {b : Byte} {r : ByteMap} :
    bmSorted ((a, b) :: r) = true ↔ bmAbove a r ∧ bmSorted r = true := by
  induction r generalizing a b with
  | nil => simp [bmSorted, bmAbove]
  | cons e r ih =>
    obtain ⟨c, d⟩ := e
    constructor
    · intro h
      simp only [bmSorted, Bool.and_eq_true, decide_eq_true_eq] at h
      refine ⟨?_, h.2⟩
      intro e he
      rcases List.mem_cons.mp he with rfl | he
      · exact h.1
      · exact lt_trans h.1 ((ih.mp h.2).1 e he)
    · rintro ⟨h, hs⟩
      simp only [bmSorted, Bool.and_eq_true, decide_eq_true_eq]
      exact ⟨h (c, d) (by simp), hs⟩

theorem bmGet_above {m : ByteMap} {k n : Nat} (h : bmAbove n m) (hk : k ≤ n) : bmGet m k = none := by
  cases m with
  | nil => rfl
  | cons e r =>
    obtain ⟨a, b⟩ := e
    have : n < a := h (a, b) (by simp)
    simp [bmGet, show a ≠ k by omega, show k < a by omega]

theorem bmGet_bmPut (m : ByteMap) (k j : Nat) (v : Byte) :
    bmGet (bmPut m k v) j = if j = k then some v else bmGet m j := by
  induction m with
  | nil =>
    by_cases h : j = k
    · simp [bmPut, bmGet, h]
    · simp [bmPut, bmGet, h, Ne.symm h]
  | cons e r ih =>
    obtain ⟨a, b⟩ := e
    by_cases h1 : k < a
    · simp only [bmPut, if_pos h1, bmGet]
      by_cases h : j = k
      · simp [h]
      · by_cases h2 : j < k
        · simp [h, Ne.symm h, h2, show a ≠ j by omega, show j < a by omega]
        · simp [h, Ne.symm h, h2]
    · by_cases h2 : a = k
      · subst h2
        simp only [bmPut, lt_irrefl, if_false, if_true, bmGet]
        by_cases h : j = a
        · simp [h]
        · simp [h, Ne.symm h]
      · simp only [bmPut, if_neg h1, if_neg h2, bmGet, ih]
        by_cases h : j = k
        · subst h; simp [h1, h2]
        · simp [h]

theorem bmGet_bmErase {m : ByteMap} (hm : bmSorted m = true) (k j : Nat) :
    bmGet (bmErase m k) j = if j = k then none else bmGet m j := by
  induction m with
  | nil => simp [bmErase, bmGet]
  | cons e r ih =>
    obtain ⟨a, b⟩ := e
    obtain ⟨ha, hr⟩ := bmSorted_cons.mp hm
    by_cases h1 : a = k
    · subst h1
      simp only [bmErase, if_true, bmGet]
      by_cases h : j = a
      · subst h; simp [bmGet_above ha le_rfl]
      · by_cases h2 : j < a
        · simp [h, Ne.symm h, h2, bmGet_above ha h2.le]
        · simp [h, Ne.symm h, h2]
    · by_cases h2 : k < a
      · simp only [bmErase, if_neg h1, if_pos h2, bmGet]
        by_cases h : j = k
        · subst h; simp [h1, h2]
        · simp [h]
      · simp only [bmErase, if_neg h1, if_neg h2, bmGet, ih hr]
        by_cases h : j = k
        · subst h; simp [h1, h2]
        · simp [h]

theorem bmPut_above {m : ByteMap} {n k : Nat} {v : Byte} (h : bmAbove n m) (hk : n < k) : bmAbove n (bmPut m k v) := by
  induction m with
  | nil => simpa [bmPut, bmAbove] using hk
  | cons e r ih =>
    obtain ⟨a, b⟩ := e
    have ha : n < a := h (a, b) (by simp)
    have hr : bmAbove n r := fun e he => h e (by simp [he])
    unfold bmPut
    split
    · intro e he
      rcases List.mem_cons.mp he with rfl | he
      · exact hk
      · exact h e he
    · split
      · intro e he
        rcases List.mem_cons.mp he with rfl | he
        · exact hk
        · exact hr e he
      · intro e he
        rcases List.mem_cons.mp he with rfl | he
        · exact ha
        · exact ih hr e he

theorem bmErase_mem {m : ByteMap} {k : Nat} {e : Host.Cell} (h : e ∈ bmErase m k) : e ∈ m := by
  induction m with
  | nil => simp [bmErase] at h
  | cons f r ih =>
    obtain ⟨a, b⟩ := f
    unfold bmErase at h
    split at h
    · simp [h]
    · split at h
      · exact h
      · rcases List.mem_cons.mp h with rfl | h
        · simp
        · simp [ih h]

theorem bmPut_mem {m : ByteMap} {k : Nat} {v : Byte} {e : Host.Cell} (h : e ∈ bmPut m k v) : e = (k, v) ∨ e ∈ m := by
  induction m with
  | nil => simpa [bmPut] using h
  | cons f r ih =>
    obtain ⟨a, b⟩ := f
    unfold bmPut at h
    split at h
    · rcases List.mem_cons.mp h with rfl | h
      · simp
      · exact .inr h
    · split at h
      · rcases List.mem_cons.mp h with rfl | h
        · simp
        · simp [h]
      · rcases List.mem_cons.mp h with rfl | h
        · simp
        · rcases ih h with rfl | h
          · simp
          · simp [h]

/-- A write keeps a byte map in order. -/
theorem bmSorted_bmPut {m : ByteMap} (hm : bmSorted m = true) (k : Nat) (v : Byte) : bmSorted (bmPut m k v) = true := by
  induction m with
  | nil => rfl
  | cons e r ih =>
    obtain ⟨a, b⟩ := e
    obtain ⟨ha, hr⟩ := bmSorted_cons.mp hm
    unfold bmPut
    split
    · next h =>
      refine bmSorted_cons.mpr ⟨?_, hm⟩
      intro e he
      rcases List.mem_cons.mp he with rfl | he
      · exact h
      · exact lt_trans h (ha e he)
    · split
      · next h => subst h; exact bmSorted_cons.mpr ⟨ha, hr⟩
      · exact bmSorted_cons.mpr ⟨bmPut_above ha (by omega), ih hr⟩

theorem bmSorted_bmErase {m : ByteMap} (hm : bmSorted m = true) (k : Nat) : bmSorted (bmErase m k) = true := by
  induction m with
  | nil => rfl
  | cons e r ih =>
    obtain ⟨a, b⟩ := e
    obtain ⟨ha, hr⟩ := bmSorted_cons.mp hm
    unfold bmErase
    split
    · exact hr
    · split
      · exact hm
      · exact bmSorted_cons.mpr ⟨fun e he => ha e (bmErase_mem he), ih hr⟩

theorem bmSorted_filter {m : ByteMap} (hm : bmSorted m = true) (p : Host.Cell → Bool) : bmSorted (m.filter p) = true := by
  induction m with
  | nil => rfl
  | cons e r ih =>
    obtain ⟨a, b⟩ := e
    obtain ⟨ha, hr⟩ := bmSorted_cons.mp hm
    rw [List.filter_cons]
    split
    · exact bmSorted_cons.mpr ⟨fun e he => ha e (List.mem_filter.mp he).1, ih hr⟩
    · exact ih hr

/-- The canonical form in two parts. -/
theorem Memory.wf_iff {m : ByteMap} : Memory.wf m = true ↔ bmSorted m = true ∧ ∀ e ∈ m, e.2 ≠ 0 := by
  simp [Memory.wf]

/-- A write to memory keeps the canonical form. -/
theorem Memory.wf_memWrite {m : ByteMap} (hm : Memory.wf m = true) (k : Nat) (v : Byte) :
    Memory.wf (memWrite m k v) = true := by
  obtain ⟨hs, hz⟩ := Memory.wf_iff.mp hm
  unfold memWrite
  split
  · exact Memory.wf_iff.mpr ⟨bmSorted_bmErase hs k, fun e he => hz e (bmErase_mem he)⟩
  · next h =>
    refine Memory.wf_iff.mpr ⟨bmSorted_bmPut hs k v, fun e he => ?_⟩
    rcases bmPut_mem he with rfl | he
    · exact h
    · exact hz e he

theorem Memory.wf_memWriteAll {m : ByteMap} (hm : Memory.wf m = true) (k : Nat) (b : List Byte) :
    Memory.wf (memWriteAll m k b) = true := by
  induction b generalizing m k with
  | nil => exact hm
  | cons x r ih => exact ih (Memory.wf_memWrite hm k x) (k + 1)

theorem Memory.wf_foldl_memWrite {m : ByteMap} (hm : Memory.wf m = true) (b : ByteMap) :
    Memory.wf (b.foldl (fun m e => memWrite m e.1 e.2) m) = true := by
  induction b generalizing m with
  | nil => exact hm
  | cons x r ih => exact ih (Memory.wf_memWrite hm x.1 x.2)

theorem Memory.wf_filter {m : ByteMap} (hm : Memory.wf m = true) (p : Host.Cell → Bool) :
    Memory.wf (m.filter p) = true := by
  obtain ⟨hs, hz⟩ := Memory.wf_iff.mp hm
  exact Memory.wf_iff.mpr ⟨bmSorted_filter hs p, fun e he => hz e (List.mem_filter.mp he).1⟩

/-- What memory reads as after a write: the byte written at its key, and every other byte as before. -/
theorem memRead_memWrite {m : ByteMap} (hm : Memory.wf m = true) (k j : Nat) (v : Byte) :
    memRead (memWrite m k v) j = if j = k then v else memRead m j := by
  unfold memWrite memRead
  split
  · next h => rw [bmGet_bmErase (Memory.wf_iff.mp hm).1]; split <;> simp [h]
  · rw [bmGet_bmPut]; split <;> rfl

theorem memRead_memWriteAll_below {m : ByteMap} (hm : Memory.wf m = true) (k j : Nat) (b : List Byte) (h : j < k) :
    memRead (memWriteAll m k b) j = memRead m j := by
  induction b generalizing m k with
  | nil => rfl
  | cons x r ih =>
    rw [memWriteAll, ih (Memory.wf_memWrite hm k x) (k + 1) (by omega), memRead_memWrite hm, if_neg (by omega)]

theorem memRead_memWriteAll_above {m : ByteMap} (hm : Memory.wf m = true) (k j : Nat) (b : List Byte)
    (h : k + b.length ≤ j) : memRead (memWriteAll m k b) j = memRead m j := by
  induction b generalizing m k with
  | nil => rfl
  | cons x r ih =>
    simp only [List.length_cons] at h
    rw [memWriteAll, ih (Memory.wf_memWrite hm k x) (k + 1) (by omega), memRead_memWrite hm, if_neg (by omega)]

theorem memRead_memWriteAll_in {m : ByteMap} (hm : Memory.wf m = true) (k i : Nat) (b : List Byte) (h : i < b.length) :
    memRead (memWriteAll m k b) (k + i) = b[i] := by
  induction b generalizing m k i with
  | nil => simp at h
  | cons x r ih =>
    cases i with
    | zero =>
      rw [memWriteAll, memRead_memWriteAll_below (Memory.wf_memWrite hm k x) (k + 1) (k + 0) r (by omega),
        memRead_memWrite hm]
      simp
    | succ i =>
      have := ih (Memory.wf_memWrite hm k x) (k + 1) i (by simpa using h)
      rw [memWriteAll, show k + (i + 1) = k + 1 + i by omega, this]
      simp

/-- Memory in canonical form is fixed by what it reads as. -/
theorem memRead_injective {m n : ByteMap} (hm : Memory.wf m = true) (hn : Memory.wf n = true)
    (h : ∀ k, memRead m k = memRead n k) : m = n := by
  induction m generalizing n with
  | nil =>
    cases n with
    | nil => rfl
    | cons e r =>
      obtain ⟨a, b⟩ := e
      exact absurd (by simpa [memRead, bmGet] using (h a).symm) ((Memory.wf_iff.mp hn).2 (a, b) (by simp))
  | cons e r ih =>
    obtain ⟨a, b⟩ := e
    obtain ⟨hms, hmz⟩ := Memory.wf_iff.mp hm
    cases n with
    | nil => exact absurd (by simpa [memRead, bmGet] using h a) (hmz (a, b) (by simp))
    | cons f t =>
      obtain ⟨c, d⟩ := f
      obtain ⟨hns, hnz⟩ := Memory.wf_iff.mp hn
      have hb : b ≠ 0 := hmz (a, b) (by simp)
      have hd : d ≠ 0 := hnz (c, d) (by simp)
      have hac : a = c := by
        by_contra hne
        rcases Nat.lt_or_gt_of_ne hne with hlt | hlt
        · exact hb (by simpa [memRead, bmGet, Ne.symm hne, hlt] using h a)
        · exact hd (by simpa [memRead, bmGet, hne, hlt] using (h c).symm)
      subst hac
      have hbd : b = d := by simpa [memRead, bmGet] using h a
      subst hbd
      obtain ⟨hma, hmr⟩ := bmSorted_cons.mp hms
      obtain ⟨hna, hnr⟩ := bmSorted_cons.mp hns
      have := ih (n := t) (Memory.wf_iff.mpr ⟨hmr, fun e he => hmz e (by simp [he])⟩)
        (Memory.wf_iff.mpr ⟨hnr, fun e he => hnz e (by simp [he])⟩) (by
          intro k
          by_cases hk : k ≤ a
          · simp [memRead, bmGet_above hma hk, bmGet_above hna hk]
          · have := h k
            simpa [memRead, bmGet, show a ≠ k by omega, show ¬ k < a by omega] using this)
      rw [this]

/-- Memory after reset lists nothing, which is canonical. -/
theorem Memory.wf_reset : Memory.wf State.reset.mem = true := rfl

/-- The number of a number's bytes. -/
theorem bytesNat_natBytes (n v : Nat) : bytesNat (natBytes n v) = v % 256 ^ n := by
  induction n generalizing v with
  | zero => simp [bytesNat, natBytes, Nat.mod_one]
  | succ n ih =>
    have h1 : v % 256 % 2 ^ 8 = v % 256 := Nat.mod_mod _ _
    simp only [bytesNat, natBytes, BitVec.toNat_ofNat, ih, h1]
    rw [Nat.pow_succ, Nat.mul_comm (256 ^ n) 256, Nat.mod_mul]

/-- The word of a word's bytes. -/
theorem bytesWord_wordBytes (w : Word) : bytesWord (wordBytes w) = w := by
  rw [bytesWord, wordBytes, bytesNat_natBytes]
  exact BitVec.eq_of_toNat_eq (by rw [BitVec.toNat_ofNat]; have := w.isLt; omega)

end Sys2Proof.Machine
end

