-- ==== Sys2Proof/Laws/PerInstr.lean ====
section
/-! SUPPORT. The round trip of every constructor: what `encode` writes, `decodeOp` reads back. -/

namespace Sys2Proof.Laws.RoundTrip

/-- Where a well-formed operation has an encoding, the decoder gives the operation back with every operand. -/
def Statement (i : Instr) : Prop := ∀ o, i.wf = true → i.encode = some o → decodeOp o = .ok i

theorem br (t : BitVec 16) : Statement (.br t) := by
  intro o hw he
  cases he
  rw [decodeOp_encCT, decodeC, fieldsOfCT_pack]
  exact bindOk mustBeZero_zero (bindOk mustBeZero_zero (bindOk mustBeZero_zero (finish_wf hw)))

theorem brp (p : BitVec 4) (n : Bool) (t : BitVec 16) : Statement (.brp p n t) := by
  intro o hw he
  cases he
  rw [decodeOp_encCT, decodeC, fieldsOfCT_pack]
  exact bindOk mustBeZero_zero (by cases n <;> exact finish_wf hw)

theorem bri (l : BitVec 3) : Statement (.bri l) := by
  intro o hw he
  cases he
  rw [decodeOp_encCT, decodeC, fieldsOfCT_pack]
  exact bindOk mustBeZero_zero (bindOk mustBeZero_zero (bindOk mustBeZero_zero (finish_wf hw)))

theorem call (l : BitVec 3) (t : BitVec 16) : Statement (.call l t) := by
  intro o hw he
  cases he
  rw [decodeOp_encCT, decodeC, fieldsOfCT_pack]
  exact bindOk mustBeZero_zero (bindOk mustBeZero_zero (finish_wf hw))

theorem ret (l : BitVec 3) : Statement (.ret l) := by
  intro o hw he
  cases he
  rw [decodeOp_encCI, decodeC, fieldsOfCT_packCI_op, fieldsOfCI_pack]
  exact bindOk mustBeZero_zero (bindOk mustBeZero_zero (finish_wf hw))

theorem loop (l : BitVec 3) (ring drain : BitVec 3) (n : BitVec 15) : Statement (.loop l ring drain n) := by
  intro o hw he
  cases he
  rw [decodeOp_encCI, decodeC, fieldsOfCT_packCI_op, fieldsOfCI_pack]
  exact finish_eq (by simp only [loop_imm]) hw

theorem lbr (l : BitVec 3) (t : BitVec 16) : Statement (.lbr l t) := by
  intro o hw he
  cases he
  rw [decodeOp_encCT, decodeC, fieldsOfCT_pack]
  exact bindOk mustBeZero_zero (bindOk mustBeZero_zero (finish_wf hw))

theorem lset (l : BitVec 3) (ring drain : BitVec 3) : Statement (.lset l ring drain) := by
  intro o hw he
  cases he
  rw [decodeOp_encCI, decodeC, fieldsOfCT_packCI_op, fieldsOfCI_pack]
  exact bindOk (lset_imm drain) (finish_eq (by simp only [loop_imm]) hw)

theorem nextPoint (l : BitVec 3) (t : BitVec 16) : Statement (.nextPoint l t) := by
  intro o hw he
  cases he
  rw [decodeOp_encCT, decodeC, fieldsOfCT_pack]
  exact bindOk mustBeZero_zero (bindOk mustBeZero_zero (finish_wf hw))

theorem exit : Statement (.exit) := by
  intro o hw he
  cases he
  rw [decodeOp_encCI, decodeC, fieldsOfCT_packCI_op, fieldsOfCI_pack]
  exact bindOk mustBeZero_zero (bindOk mustBeZero_zero (bindOk mustBeZero_zero (finish_wf hw)))

theorem yield (n : BitVec 18) : Statement (.yield n) := by
  intro o hw he
  cases he
  rw [decodeOp_encCI, decodeC, fieldsOfCT_packCI_op, fieldsOfCI_pack]
  exact bindOk mustBeZero_zero (bindOk mustBeZero_zero (finish_wf hw))

theorem skip (p : BitVec 4) (n : Bool) (k : BitVec 16) : Statement (.skip p n k) := by
  intro o hw he
  cases he
  rw [decodeOp_encCT, decodeC, fieldsOfCT_pack]
  exact bindOk mustBeZero_zero (by cases n <;> exact finish_wf hw)

theorem join (g : BitVec 18) : Statement (.join g) := by
  intro o hw he
  cases he
  rw [decodeOp_encCI, decodeC, fieldsOfCT_packCI_op, fieldsOfCI_pack]
  exact bindOk mustBeZero_zero (bindOk mustBeZero_zero (finish_wf hw))

theorem leave (g : BitVec 18) : Statement (.leave g) := by
  intro o hw he
  cases he
  rw [decodeOp_encCI, decodeC, fieldsOfCT_packCI_op, fieldsOfCI_pack]
  exact bindOk mustBeZero_zero (bindOk mustBeZero_zero (finish_wf hw))

theorem trap (c : BitVec 18) : Statement (.trap c) := by
  intro o hw he
  cases he
  rw [decodeOp_encCI, decodeC, fieldsOfCT_packCI_op, fieldsOfCI_pack]
  exact bindOk mustBeZero_zero (bindOk mustBeZero_zero (finish_wf hw))

theorem svc (c : BitVec 18) : Statement (.svc c) := by
  intro o hw he
  cases he
  rw [decodeOp_encCI, decodeC, fieldsOfCT_packCI_op, fieldsOfCI_pack]
  exact bindOk mustBeZero_zero (bindOk mustBeZero_zero (finish_wf hw))

theorem brk (c : BitVec 18) : Statement (.brk c) := by
  intro o hw he
  cases he
  rw [decodeOp_encCI, decodeC, fieldsOfCT_packCI_op, fieldsOfCI_pack]
  exact bindOk mustBeZero_zero (bindOk mustBeZero_zero (finish_wf hw))

theorem eret : Statement (.eret) := by
  intro o hw he
  cases he
  rw [decodeOp_encCI, decodeC, fieldsOfCT_packCI_op, fieldsOfCI_pack]
  exact bindOk mustBeZero_zero (bindOk mustBeZero_zero (bindOk mustBeZero_zero (finish_wf hw)))

theorem add (d a b : Spec) : Statement (.add d a b) := by
  intro o hw he
  cases he
  rw [decodeOp_encR_s, decodeS, fieldsOfSR_pack]
  exact bindOk mustBeZero_zero (srDab_code hw)

theorem addi (d a : Spec) (imm : BitVec 12) : Statement (.addi d a imm) := by
  intro o hw he
  cases he
  rw [decodeOp_encI_s, decodeS, fieldsOfSR_packSI_op, fieldsOfSI_pack]
  exact siDa_code hw

theorem sub (d a b : Spec) : Statement (.sub d a b) := by
  intro o hw he
  cases he
  rw [decodeOp_encR_s, decodeS, fieldsOfSR_pack]
  exact bindOk mustBeZero_zero (srDab_code hw)

theorem mul (d a b : Spec) : Statement (.mul d a b) := by
  intro o hw he
  cases he
  rw [decodeOp_encR_s, decodeS, fieldsOfSR_pack]
  exact srDab_code hw

theorem mulHs (d a b : Spec) : Statement (.mulHs d a b) := by
  intro o hw he
  cases he
  rw [decodeOp_encR_s, decodeS, fieldsOfSR_pack]
  exact srDab_code hw

theorem mulHu (d a b : Spec) : Statement (.mulHu d a b) := by
  intro o hw he
  cases he
  rw [decodeOp_encR_s, decodeS, fieldsOfSR_pack]
  exact srDab_code hw

theorem div (d a b : Spec) : Statement (.div d a b) := by
  intro o hw he
  cases he
  rw [decodeOp_encR_s, decodeS, fieldsOfSR_pack]
  exact srDab_code hw

theorem divU (d a b : Spec) : Statement (.divU d a b) := by
  intro o hw he
  cases he
  rw [decodeOp_encR_s, decodeS, fieldsOfSR_pack]
  exact srDab_code hw

theorem rem (d a b : Spec) : Statement (.rem d a b) := by
  intro o hw he
  cases he
  rw [decodeOp_encR_s, decodeS, fieldsOfSR_pack]
  exact srDab_code hw

theorem remU (d a b : Spec) : Statement (.remU d a b) := by
  intro o hw he
  cases he
  rw [decodeOp_encR_s, decodeS, fieldsOfSR_pack]
  exact srDab_code hw

theorem and (d a b : Spec) : Statement (.and d a b) := by
  intro o hw he
  cases he
  rw [decodeOp_encR_s, decodeS, fieldsOfSR_pack]
  exact bindOk mustBeZero_zero (srDab_code hw)

theorem or (d a b : Spec) : Statement (.or d a b) := by
  intro o hw he
  cases he
  rw [decodeOp_encR_s, decodeS, fieldsOfSR_pack]
  exact bindOk mustBeZero_zero (srDab_code hw)

theorem xor (d a b : Spec) : Statement (.xor d a b) := by
  intro o hw he
  cases he
  rw [decodeOp_encR_s, decodeS, fieldsOfSR_pack]
  exact bindOk mustBeZero_zero (srDab_code hw)

theorem andi (d a : Spec) (imm : BitVec 12) : Statement (.andi d a imm) := by
  intro o hw he
  cases he
  rw [decodeOp_encI_s, decodeS, fieldsOfSR_packSI_op, fieldsOfSI_pack]
  exact siDa_code hw

theorem ori (d a : Spec) (imm : BitVec 12) : Statement (.ori d a imm) := by
  intro o hw he
  cases he
  rw [decodeOp_encI_s, decodeS, fieldsOfSR_packSI_op, fieldsOfSI_pack]
  exact siDa_code hw

theorem xori (d a : Spec) (imm : BitVec 12) : Statement (.xori d a imm) := by
  intro o hw he
  cases he
  rw [decodeOp_encI_s, decodeS, fieldsOfSR_packSI_op, fieldsOfSI_pack]
  exact siDa_code hw

theorem shl (d a b : Spec) : Statement (.shl d a b) := by
  intro o hw he
  cases he
  rw [decodeOp_encR_s, decodeS, fieldsOfSR_pack]
  exact bindOk mustBeZero_zero (srDab_code hw)

theorem shr (d a b : Spec) : Statement (.shr d a b) := by
  intro o hw he
  cases he
  rw [decodeOp_encR_s, decodeS, fieldsOfSR_pack]
  exact bindOk mustBeZero_zero (srDab_code hw)

theorem sar (d a b : Spec) : Statement (.sar d a b) := by
  intro o hw he
  cases he
  rw [decodeOp_encR_s, decodeS, fieldsOfSR_pack]
  exact bindOk mustBeZero_zero (srDab_code hw)

theorem shiL (d a : Spec) (n : BitVec 6) : Statement (.shiL d a n) := by
  intro o hw he
  cases he
  rw [decodeOp_encI_s, decodeS, fieldsOfSR_packSI_op, fieldsOfSI_pack]
  refine bindOk (shi_imm 0 n).1 (bindOk (specOf_code d) (bindOk (specOf_code a) ?_))
  simp only [shi_imm]
  exact finish_wf hw

theorem shiR (d a : Spec) (n : BitVec 6) : Statement (.shiR d a n) := by
  intro o hw he
  cases he
  rw [decodeOp_encI_s, decodeS, fieldsOfSR_packSI_op, fieldsOfSI_pack]
  refine bindOk (shi_imm 1 n).1 (bindOk (specOf_code d) (bindOk (specOf_code a) ?_))
  simp only [shi_imm]
  exact finish_wf hw

theorem shiA (d a : Spec) (n : BitVec 6) : Statement (.shiA d a n) := by
  intro o hw he
  cases he
  rw [decodeOp_encI_s, decodeS, fieldsOfSR_packSI_op, fieldsOfSI_pack]
  refine bindOk (shi_imm 2 n).1 (bindOk (specOf_code d) (bindOk (specOf_code a) ?_))
  simp only [shi_imm]
  exact finish_wf hw

theorem min (d a b : Spec) : Statement (.min d a b) := by
  intro o hw he
  cases he
  rw [decodeOp_encR_s, decodeS, fieldsOfSR_pack]
  exact srDab_code hw

theorem minU (d a b : Spec) : Statement (.minU d a b) := by
  intro o hw he
  cases he
  rw [decodeOp_encR_s, decodeS, fieldsOfSR_pack]
  exact srDab_code hw

theorem max (d a b : Spec) : Statement (.max d a b) := by
  intro o hw he
  cases he
  rw [decodeOp_encR_s, decodeS, fieldsOfSR_pack]
  exact srDab_code hw

theorem maxU (d a b : Spec) : Statement (.maxU d a b) := by
  intro o hw he
  cases he
  rw [decodeOp_encR_s, decodeS, fieldsOfSR_pack]
  exact srDab_code hw

theorem clz (d a : Spec) : Statement (.clz d a) := by
  intro o hw he
  cases he
  rw [decodeOp_encR_s, decodeS, fieldsOfSR_pack]
  exact srDa_code hw

theorem popc (d a : Spec) : Statement (.popc d a) := by
  intro o hw he
  cases he
  rw [decodeOp_encR_s, decodeS, fieldsOfSR_pack]
  exact srDa_code hw

theorem bext (d a b : Spec) : Statement (.bext d a b) := by
  intro o hw he
  cases he
  rw [decodeOp_encR_s, decodeS, fieldsOfSR_pack]
  exact srDab_code hw

theorem bextS (d a b : Spec) : Statement (.bextS d a b) := by
  intro o hw he
  cases he
  rw [decodeOp_encR_s, decodeS, fieldsOfSR_pack]
  exact srDab_code hw

theorem bins (d a b : Spec) : Statement (.bins d a b) := by
  intro o hw he
  cases he
  rw [decodeOp_encR_s, decodeS, fieldsOfSR_pack]
  exact bindOk mustBeZero_zero (srDab_code hw)

theorem cmp (d : CmpDst) (a b : Spec) (c : SCond) : Statement (.cmp d a b c) := by
  intro o hw he
  cases he
  rw [decodeOp_encR_s, decodeS, fieldsOfSR_pack]
  exact bindOk (cmp_fn d.toP c.code).1 (bindOk (a := d) (by simp only [cmp_fn]; exact d.cmpDstOf_field)
      (bindOk (specOf_code a) (bindOk (specOf_code b)
          (bindOk (a := c) (by simp only [cmp_fn]; exact scondOf_code _ c) (finish_wf hw)))))

theorem cmpi (d : CmpDst) (a : Spec) (v : BitVec 8) (c : SCond) : Statement (.cmpi d a v c) := by
  intro o hw he
  cases he
  rw [decodeOp_encI_s, decodeS, fieldsOfSR_packSI_op, fieldsOfSI_pack]
  exact bindOk (a := d) (by simp only [cmpi_imm]; exact d.cmpDstOf_field) (bindOk (specOf_code a)
      (bindOk (a := c) (by simp only [cmpi_imm]; exact scondOf_code _ c) (finish_eq (by simp only [cmpi_imm]) hw)))

theorem sel (d a b : Spec) (neg : Bool) (p : BitVec 4) : Statement (.sel d a b neg p) := by
  intro o hw he
  cases he
  rw [decodeOp_encR_s, decodeS, fieldsOfSR_pack]
  exact bindOk (sel_fn neg p).1 (bindOk (specOf_code d) (bindOk (specOf_code a)
      (bindOk (specOf_code b) (finish_eq (by simp only [sel_fn]) hw))))

theorem li (d : Spec) (imm : BitVec 12) : Statement (.li d imm) := by
  intro o hw he
  cases he
  rw [decodeOp_encI_s, decodeS, fieldsOfSR_packSI_op, fieldsOfSI_pack]
  exact bindOk mustBeZero_zero (bindOk (specOf_code d) (finish_wf hw))

theorem lui (d : Spec) (imm : BitVec 12) : Statement (.lui d imm) := by
  intro o hw he
  cases he
  rw [decodeOp_encI_s, decodeS, fieldsOfSR_packSI_op, fieldsOfSI_pack]
  exact bindOk mustBeZero_zero (bindOk (specOf_code d) (finish_wf hw))

theorem movx (d : MovLoc) (a : MovSrc) : Statement (.movx d a) := by
  intro o hw he
  cases he
  rw [decodeOp_encR_s, decodeS, fieldsOfSR_pack]
  exact decodeMovx_code d a hw

theorem movxB (slot : VSlot) (d : Spec) (a : Spec) (f : Fmt) : Statement (.movxB slot d a f) := by
  intro o hw he
  cases he
  rw [decodeOp_encR_s, decodeS, fieldsOfSR_pack]
  cases slot <;>
  exact bindOk (needs_ok _ (by simp only [movx_fn]; rfl)) (bindOk (pad2_4 f.code).1 (bindOk (specOf_code d)
      (bindOk (specOf_code a) (bindOk (a := f) (by simp only [pad2_4]; exact fmtOf_code f) (finish_wf hw)))))

theorem setb (b : Base) (a : Spec) : Statement (.setb b a) := by
  intro o hw he
  cases he
  rw [decodeOp_encR_s, decodeS, fieldsOfSR_pack]
  exact bindOk mustBeZero_zero (bindOk mustBeZero_zero (bindOk (pad4_2 b.code).1
      (bindOk (specOf_code a) (finish_eq (by simp only [pad4_2, Base.ofCode_code]) hw))))

theorem csrr (d : Spec) (n : BitVec 12) : Statement (.csrr d n) := by
  intro o hw he
  cases he
  rw [decodeOp_encI_s, decodeS, fieldsOfSR_packSI_op, fieldsOfSI_pack]
  exact bindOk mustBeZero_zero (bindOk (specOf_code d) (finish_wf hw))

theorem csrw (n : BitVec 12) (a : Spec) : Statement (.csrw n a) := by
  intro o hw he
  cases he
  rw [decodeOp_encI_s, decodeS, fieldsOfSR_packSI_op, fieldsOfSI_pack]
  exact bindOk mustBeZero_zero (bindOk (specOf_code a) (finish_wf hw))

theorem aadd (d a b : Spec) : Statement (.aadd d a b) := by
  intro o hw he
  cases he
  rw [decodeOp_encR_a, decodeA, fieldsOfSR_pack]
  exact bindOk mustBeZero_zero (srDab_code hw)

theorem aaddi (d a : Spec) (imm : BitVec 12) : Statement (.aaddi d a imm) := by
  intro o hw he
  cases he
  rw [decodeOp_encI_a, decodeA, fieldsOfSR_packSI_op, fieldsOfSI_pack]
  exact siDa_code hw

theorem amadd (d a b c : Spec) : Statement (.amadd d a b c) := by
  intro o hw he
  cases he
  rw [decodeOp_encR_a, decodeA, fieldsOfSR_pack]
  exact bindOk (specOf_code d) (bindOk (specOf_code a) (bindOk (specOf_code b)
      (bindOk (specOf_code c) (finish_wf hw))))

theorem ali (d : Spec) (imm : BitVec 12) : Statement (.ali d imm) := by
  intro o hw he
  cases he
  rw [decodeOp_encI_a, decodeA, fieldsOfSR_packSI_op, fieldsOfSI_pack]
  exact bindOk mustBeZero_zero (bindOk (specOf_code d) (finish_wf hw))

theorem lda (base idx : Spec) (w : BitVec 3) (sc : Scope) (o : Order) : Statement (.lda base idx w sc o) := by
  intro o hw he
  cases he
  rw [decodeOp_encAM, decodeA, fieldsOfSR_packAM_op, fieldsOfAM_pack]
  exact amFull_code hw

theorem lds (base stride : Spec) (w : BitVec 3) : Statement (.lds base stride w) := by
  intro o hw he
  cases he
  rw [decodeOp_encAM, decodeA, fieldsOfSR_packAM_op, fieldsOfAM_pack]
  exact amWidth_code hw

theorem ldt (base offs : Spec) : Statement (.ldt base offs) := by
  intro o hw he
  cases he
  rw [decodeOp_encAM, decodeA, fieldsOfSR_packAM_op, fieldsOfAM_pack]
  exact amMod_code (bindOk mustBeZero_zero (finish_wf hw))

theorem ldk (base idx : Spec) (c : RClass) : Statement (.ldk base idx c) := by
  intro o hw he
  cases he
  rw [decodeOp_encAM, decodeA, fieldsOfSR_packAM_op, fieldsOfAM_pack]
  exact amMod_code (bindOk (classOf_code c) (finish_wf hw))

theorem pf (base idx : Spec) (w : BitVec 3) : Statement (.pf base idx w) := by
  intro o hw he
  cases he
  rw [decodeOp_encAM, decodeA, fieldsOfSR_packAM_op, fieldsOfAM_pack]
  exact amWidth_code hw

theorem sta (base idx : Spec) (w : BitVec 3) (sc : Scope) (o : Order) : Statement (.sta base idx w sc o) := by
  intro o hw he
  cases he
  rw [decodeOp_encAM, decodeA, fieldsOfSR_packAM_op, fieldsOfAM_pack]
  exact amFull_code hw

theorem sts (base stride : Spec) (w : BitVec 3) : Statement (.sts base stride w) := by
  intro o hw he
  cases he
  rw [decodeOp_encAM, decodeA, fieldsOfSR_packAM_op, fieldsOfAM_pack]
  exact amWidth_code hw

theorem stt (base offs : Spec) : Statement (.stt base offs) := by
  intro o hw he
  cases he
  rw [decodeOp_encAM, decodeA, fieldsOfSR_packAM_op, fieldsOfAM_pack]
  exact amMod_code (bindOk mustBeZero_zero (finish_wf hw))

theorem sti (base offs : Spec) (neg : Bool) : Statement (.sti base offs neg) := by
  intro o hw he
  cases he
  rw [decodeOp_encAM, decodeA, fieldsOfSR_packAM_op, fieldsOfAM_pack]
  exact amMod_code (bindOk (flag3 neg).1 (finish_eq (by simp only [flag3]) hw))

theorem skst (base shape : Spec) (c : RClass) : Statement (.skst base shape c) := by
  intro o hw he
  cases he
  rw [decodeOp_encAM, decodeA, fieldsOfSR_packAM_op, fieldsOfAM_pack]
  exact amMod_code (bindOk (classOf_code c) (finish_wf hw))

theorem skrtg (base param : Spec) (c : RClass) : Statement (.skrtg base param c) := by
  intro o hw he
  cases he
  rw [decodeOp_encAM, decodeA, fieldsOfSR_packAM_op, fieldsOfAM_pack]
  exact amMod_code (bindOk (classOf_code c) (finish_wf hw))

theorem skdrop (base idx : Spec) : Statement (.skdrop base idx) := by
  intro o hw he
  cases he
  rw [decodeOp_encAM, decodeA, fieldsOfSR_packAM_op, fieldsOfAM_pack]
  exact amMod_code (bindOk mustBeZero_zero (finish_wf hw))

theorem atom (base data : Spec) (w : BitVec 3) (sc : Scope) (o : Order) (op : AtomOp)
    : Statement (.atom base data w sc o op) := by
  intro o hw he
  cases he
  rw [decodeOp_encAM, decodeA, fieldsOfSR_packAM_op, fieldsOfAM_pack]
  exact bindOk (specOf_code base) (bindOk (specOf_code data)
      (bindOk (scopeOf_code sc) (finish_eq (by simp only [Order.ofCode_code, AtomOp.ofCode_code]) hw)))

theorem cas (base data : Spec) (w : BitVec 3) (sc : Scope) (o : Order) : Statement (.cas base data w sc o) := by
  intro o hw he
  cases he
  rw [decodeOp_encAM, decodeA, fieldsOfSR_packAM_op, fieldsOfAM_pack]
  exact amFull_code hw

theorem gidx (base idx : Spec) : Statement (.gidx base idx) := by
  intro o hw he
  cases he
  rw [decodeOp_encAM, decodeA, fieldsOfSR_packAM_op, fieldsOfAM_pack]
  exact amMod_code (bindOk mustBeZero_zero (finish_wf hw))

theorem kld (d : BitVec 4) (off : BitVec 14) : Statement (.kld d off) := by
  intro o hw he
  cases he
  rw [decodeOp_encK, decodeK, fieldsOfKF_pack]
  exact bindOk mustBeZero_zero (finish_wf hw)

theorem kldD0 (d : BitVec 4) (off : BitVec 14) : Statement (.kldD0 d off) := by
  intro o hw he
  cases he
  rw [decodeOp_encK, decodeK, fieldsOfKF_pack]
  exact bindOk mustBeZero_zero (finish_wf hw)

theorem kset (d : BitVec 4) (c : BitVec 8) : Statement (.kset d c) := by
  intro o hw he
  cases he
  rw [decodeOp_encK, decodeK, fieldsOfKF_pack]
  exact bindOk mustBeZero_zero (bindOk (byte_imm c).1 (finish_eq (by simp only [byte_imm]) hw))

theorem kmov (d s : BitVec 4) : Statement (.kmov d s) := by
  intro o hw he
  cases he
  rw [decodeOp_encK, decodeK, fieldsOfKF_pack]
  exact bindOk mustBeZero_zero (finish_wf hw)

theorem kmovAdj (d s : BitVec 4) (n : BitVec 8) : Statement (.kmovAdj d s n) := by
  intro o hw he
  cases he
  rw [decodeOp_encK, decodeK, fieldsOfKF_pack]
  exact bindOk (byte_imm n).1 (finish_eq (by simp only [byte_imm]) hw)

theorem waitf (ya : BitVec 3) (f : BitVec 5) (sc : Scope) (take : Bool) : Statement (.waitf ya f sc take) := by
  intro o hw he
  cases he
  rw [decodeOp_encY, decodeY, fieldsOfYG_pack]
  exact bindOk mustBeZero_zero (bindOk mustBeZero_zero (bindOk (flag6 take).1 (bindOk (obj5 _ f).1
      (bindOk (scopeOf_code sc) (finish_eq (by simp only [obj5 .reservedValue f, flag6]) hw)))))

theorem postf (ya yb : BitVec 3) (f : BitVec 5) (sc : Scope) (k : BitVec 6) : Statement (.postf ya yb f sc k) := by
  intro o hw he
  cases he
  rw [decodeOp_encY, decodeY, fieldsOfYG_pack]
  exact bindOk mustBeZero_zero (bindOk (obj5 _ f).1
      (bindOk (scopeOf_code sc) (finish_eq (by simp only [obj5 .reservedValue f]) hw)))

theorem waitw (ya yb : BitVec 3) (sc : Scope) (c : WCond) : Statement (.waitw ya yb sc c) := by
  intro o hw he
  cases he
  rw [decodeOp_encY, decodeY, fieldsOfYG_pack]
  exact bindOk mustBeZero_zero (bindOk mustBeZero_zero (bindOk (pad4_2 c.code).1
      (bindOk (scopeOf_code sc) (finish_eq (by simp only [pad4_2, WCond.ofCode_code]) hw))))

theorem waitc (loads stores copies tiles : BitVec 6) : Statement (.waitc loads stores copies tiles) := by
  intro o hw he
  cases he
  rw [decodeOp_encR_y, decodeY, fieldsOfYG_packSR_op, fieldsOfSR_pack]
  exact finish_wf hw

theorem gbar (g : BitVec 6) (sc : Scope) : Statement (.gbar g sc) := by
  intro o hw he
  cases he
  rw [decodeOp_encY, decodeY, fieldsOfYG_pack]
  exact bindOk mustBeZero_zero (bindOk mustBeZero_zero (bindOk mustBeZero_zero (bindOk mustBeZero_zero
      (bindOk (scopeOf_code sc) (finish_wf hw)))))

theorem phase (sc : Scope) : Statement (.phase sc) := by
  intro o hw he
  cases he
  rw [decodeOp_encY, decodeY, fieldsOfYG_pack]
  exact bindOk mustBeZero_zero (bindOk mustBeZero_zero (bindOk mustBeZero_zero (bindOk mustBeZero_zero
      (bindOk mustBeZero_zero (bindOk (scopeOf_code sc) (finish_wf hw))))))

theorem fence (sc : Scope) (o : FenceOrd) : Statement (.fence sc o) := by
  intro o' hw he
  cases he
  rw [decodeOp_encY, decodeY, fieldsOfYG_pack]
  exact bindOk mustBeZero_zero (bindOk mustBeZero_zero (bindOk mustBeZero_zero (bindOk mustBeZero_zero
      (bindOk (scopeOf_code sc) (bindOk (fenceOf_code _ o) (finish_wf hw))))))

theorem rfence (ya : BitVec 3) (sc : Scope) : Statement (.rfence ya sc) := by
  intro o hw he
  cases he
  rw [decodeOp_encY, decodeY, fieldsOfYG_pack]
  exact bindOk mustBeZero_zero (bindOk mustBeZero_zero (bindOk mustBeZero_zero
      (bindOk (mustBeZero_of (by dsimp only; decide)) (iteF (by dsimp only; decide)
          (bindOk (scopeOf_code sc) (finish_wf hw))))))

theorem rfenceAll (sc : Scope) : Statement (.rfenceAll sc) := by
  intro o hw he
  cases he
  rw [decodeOp_encY, decodeY, fieldsOfYG_pack]
  exact bindOk mustBeZero_zero (bindOk mustBeZero_zero (bindOk mustBeZero_zero
      (bindOk (mustBeZero_of (by dsimp only; decide)) (iteT (by dsimp only; decide) (bindOk mustBeZero_zero
          (bindOk (scopeOf_code sc) (finish_wf hw)))))))

theorem vadd (h : VHdr) (f : Fmt) (d a b : Spec) : Statement (.vadd h f d a b) := by
  intro o hw he
  cases he
  rw [decodeOp_encV, decodeV, fieldsOfVF_pack, VF.hdr_mk]
  exact vDab_code hw

theorem vsub (h : VHdr) (f : Fmt) (d a b : Spec) : Statement (.vsub h f d a b) := by
  intro o hw he
  cases he
  rw [decodeOp_encV, decodeV, fieldsOfVF_pack, VF.hdr_mk]
  exact vDab_code hw

theorem vmul (h : VHdr) (f : Fmt) (d a b : Spec) (hi : Bool) : Statement (.vmul h f d a b hi) := by
  intro o hw he
  cases he
  rw [decodeOp_encV, decodeV, fieldsOfVF_pack, VF.hdr_mk]
  exact vDabF_code hw

theorem vmad (h : VHdr) (f : Fmt) (d a b c : Spec) : Statement (.vmad h f d a b c) := by
  intro o hw he
  cases he
  rw [decodeOp_encV, decodeV, fieldsOfVF_pack, VF.hdr_mk]
  exact vDabc_code hw

theorem vadds (h : VHdr) (f : Fmt) (d a b : Spec) : Statement (.vadds h f d a b) := by
  intro o hw he
  cases he
  rw [decodeOp_encV, decodeV, fieldsOfVF_pack, VF.hdr_mk]
  exact vDab_code hw

theorem vsubs (h : VHdr) (f : Fmt) (d a b : Spec) : Statement (.vsubs h f d a b) := by
  intro o hw he
  cases he
  rw [decodeOp_encV, decodeV, fieldsOfVF_pack, VF.hdr_mk]
  exact vDab_code hw

theorem vmin (h : VHdr) (f : Fmt) (d a b : Spec) : Statement (.vmin h f d a b) := by
  intro o hw he
  cases he
  rw [decodeOp_encV, decodeV, fieldsOfVF_pack, VF.hdr_mk]
  exact vDab_code hw

theorem vmax (h : VHdr) (f : Fmt) (d a b : Spec) : Statement (.vmax h f d a b) := by
  intro o hw he
  cases he
  rw [decodeOp_encV, decodeV, fieldsOfVF_pack, VF.hdr_mk]
  exact vDab_code hw

theorem vabs (h : VHdr) (f : Fmt) (d a : Spec) : Statement (.vabs h f d a) := by
  intro o hw he
  cases he
  rw [decodeOp_encV, decodeV, fieldsOfVF_pack, VF.hdr_mk]
  exact vDa_code hw

theorem vavg (h : VHdr) (f : Fmt) (d a b : Spec) (tr : Bool) : Statement (.vavg h f d a b tr) := by
  intro o hw he
  cases he
  rw [decodeOp_encV, decodeV, fieldsOfVF_pack, VF.hdr_mk]
  exact vDabF_code hw

theorem vabsd (h : VHdr) (f : Fmt) (d a b : Spec) : Statement (.vabsd h f d a b) := by
  intro o hw he
  cases he
  rw [decodeOp_encV, decodeV, fieldsOfVF_pack, VF.hdr_mk]
  exact vDab_code hw

theorem vshl (h : VHdr) (f : Fmt) (d a : Spec) (b : ShiftBy) : Statement (.vshl h f d a b) := by
  intro o hw he
  cases he
  rw [decodeOp_encV, decodeV, fieldsOfVF_pack, VF.hdr_mk]
  exact vShift_code hw

theorem vshr (h : VHdr) (f : Fmt) (d a : Spec) (b : ShiftBy) : Statement (.vshr h f d a b) := by
  intro o hw he
  cases he
  rw [decodeOp_encV, decodeV, fieldsOfVF_pack, VF.hdr_mk]
  exact vShift_code hw

theorem vsar (h : VHdr) (f : Fmt) (d a : Spec) (b : ShiftBy) : Statement (.vsar h f d a b) := by
  intro o hw he
  cases he
  rw [decodeOp_encV, decodeV, fieldsOfVF_pack, VF.hdr_mk]
  exact vShift_code hw

theorem vand (h : VHdr) (f : Fmt) (d a b : Spec) : Statement (.vand h f d a b) := by
  intro o hw he
  cases he
  rw [decodeOp_encV, decodeV, fieldsOfVF_pack, VF.hdr_mk]
  exact vDab_code hw

theorem vor (h : VHdr) (f : Fmt) (d a b : Spec) : Statement (.vor h f d a b) := by
  intro o hw he
  cases he
  rw [decodeOp_encV, decodeV, fieldsOfVF_pack, VF.hdr_mk]
  exact vDab_code hw

theorem vxor (h : VHdr) (f : Fmt) (d a b : Spec) : Statement (.vxor h f d a b) := by
  intro o hw he
  cases he
  rw [decodeOp_encV, decodeV, fieldsOfVF_pack, VF.hdr_mk]
  exact vDab_code hw

theorem vnot (h : VHdr) (f : Fmt) (d a : Spec) : Statement (.vnot h f d a) := by
  intro o hw he
  cases he
  rw [decodeOp_encV, decodeV, fieldsOfVF_pack, VF.hdr_mk]
  exact vDa_code hw

theorem vpopc (h : VHdr) (f : Fmt) (d a : Spec) : Statement (.vpopc h f d a) := by
  intro o hw he
  cases he
  rw [decodeOp_encV, decodeV, fieldsOfVF_pack, VF.hdr_mk]
  exact vDa_code hw

theorem vcmp (h : VHdr) (f : Fmt) (pd : BitVec 4) (a b : Spec) (c : VCond) : Statement (.vcmp h f pd a b c) := by
  intro o hw he
  cases he
  rw [decodeOp_encV, decodeV, fieldsOfVF_pack, VF.hdr_mk]
  exact bindOk mustBeZero_zero (bindOk (pad4_3 c.code).1 (bindOk (fmtOf_code f) (bindOk (pregOf_xr pd)
      (bindOk (specOf_code a) (bindOk (specOf_code b)
          (bindOk (a := c) (by simp only [pad4_3]; exact vcondOf_code _ c) (finish_wf hw)))))))

theorem vsel (h : VHdr) (f : Fmt) (d a b : Spec) : Statement (.vsel h f d a b) := by
  intro o hw he
  cases he
  rw [decodeOp_encV, decodeV, fieldsOfVF_pack, VF.hdr_mk]
  exact vDab_code hw

theorem vdot (h : VHdr) (f : Fmt) (d a b c : Spec) : Statement (.vdot h f d a b c) := by
  intro o hw he
  cases he
  rw [decodeOp_encV, decodeV, fieldsOfVF_pack, VF.hdr_mk]
  exact vDabc_code hw

theorem vwmul (h : VHdr) (f : Fmt) (d a b : Spec) (hi : Bool) : Statement (.vwmul h f d a b hi) := by
  intro o hw he
  cases he
  rw [decodeOp_encV, decodeV, fieldsOfVF_pack, VF.hdr_mk]
  exact vDabF_code hw

theorem vnarw (h : VHdr) (f : Fmt) (d a b : Spec) (sat sgn rnd : Bool) (s : BitVec 4)
    : Statement (.vnarw h f d a b sat sgn rnd s) := by
  intro o hw he
  cases he
  rw [decodeOp_encV, decodeV, fieldsOfVF_pack, VF.hdr_mk]
  exact bindOk mustBeZero_zero (bindOk (fmtOf_code f) (bindOk (specOf_code d) (bindOk (specOf_code a)
      (bindOk (specOf_code b) (finish_eq (by simp only [vnarw_fn]) hw)))))

theorem vwide (h : VHdr) (f : Fmt) (d a : Spec) (hi : Bool) : Statement (.vwide h f d a hi) := by
  intro o hw he
  cases he
  rw [decodeOp_encV, decodeV, fieldsOfVF_pack, VF.hdr_mk]
  exact bindOk mustBeZero_zero (bindOk mustBeZero_zero (bindOk (flag7 hi).1 (bindOk (fmtOf_code f)
      (bindOk (specOf_code d) (bindOk (specOf_code a) (finish_eq (by simp only [flag7]) hw))))))

theorem vpxu (h : VHdr) (f : Fmt) (d a b : Spec) (n : BitVec 5) : Statement (.vpxu h f d a b n) := by
  intro o hw he
  cases he
  rw [decodeOp_encV, decodeV, fieldsOfVF_pack, VF.hdr_mk]
  exact bindOk mustBeZero_zero (bindOk (pad2_5 n).1 (bindOk (fmtOf_code f) (bindOk (specOf_code d)
      (bindOk (specOf_code a) (bindOk (specOf_code b) (finish_eq (by simp only [pad2_5]) hw))))))

theorem vpxp (h : VHdr) (f : Fmt) (d a : Spec) (n : BitVec 5) (sat : Bool) : Statement (.vpxp h f d a n sat) := by
  intro o hw he
  cases he
  rw [decodeOp_encV, decodeV, fieldsOfVF_pack, VF.hdr_mk]
  exact bindOk mustBeZero_zero (bindOk mustBeZero_zero (bindOk (vpxp_fn sat n).1 (bindOk (fmtOf_code f)
      (bindOk (specOf_code d) (bindOk (specOf_code a) (finish_eq (by simp only [vpxp_fn]) hw))))))

theorem vbitx (h : VHdr) (f : Fmt) (d a b : Spec) (len : BitVec 6) : Statement (.vbitx h f d a b len) := by
  intro o hw he
  cases he
  rw [decodeOp_encV, decodeV, fieldsOfVF_pack, VF.hdr_mk]
  exact bindOk mustBeZero_zero (bindOk (pad1_6 len).1 (bindOk (fmtOf_code f) (bindOk (specOf_code d)
      (bindOk (specOf_code a) (bindOk (specOf_code b) (finish_eq (by simp only [pad1_6]) hw))))))

theorem vbitp (h : VHdr) (f : Fmt) (d a b c : Spec) (len : BitVec 6) : Statement (.vbitp h f d a b c len) := by
  intro o hw he
  cases he
  rw [decodeOp_encV, decodeV, fieldsOfVF_pack, VF.hdr_mk]
  exact bindOk (pad1_6 len).1 (bindOk (fmtOf_code f) (bindOk (specOf_code d) (bindOk (specOf_code a)
      (bindOk (specOf_code b) (bindOk (specOf_code c) (finish_eq (by simp only [pad1_6]) hw))))))

theorem vlut (h : VHdr) (f : Fmt) (d a b c : Spec) (x2 : Bool) : Statement (.vlut h f d a b c x2) := by
  intro o hw he
  cases he
  rw [decodeOp_encV, decodeV, fieldsOfVF_pack, VF.hdr_mk]
  exact bindOk (flag7 x2).1 (bindOk (fmtOf_code f) (bindOk (specOf_code d) (bindOk (specOf_code a)
      (bindOk (specOf_code b) (bindOk (specOf_code c) (finish_eq (by simp only [flag7]) hw))))))

theorem vsad (h : VHdr) (f : Fmt) (d a b c : Spec) : Statement (.vsad h f d a b c) := by
  intro o hw he
  cases he
  rw [decodeOp_encV, decodeV, fieldsOfVF_pack, VF.hdr_mk]
  exact vDabc_code hw

theorem vperm (h : VHdr) (f : Fmt) (d a b c : Spec) : Statement (.vperm h f d a b c) := by
  intro o hw he
  cases he
  rw [decodeOp_encV, decodeV, fieldsOfVF_pack, VF.hdr_mk]
  exact vDabc_code hw

theorem vshuf (h : VHdr) (f : Fmt) (d a : Spec) (m : BitVec 7) : Statement (.vshuf h f d a m) := by
  intro o hw he
  cases he
  rw [decodeOp_encV, decodeV, fieldsOfVF_pack, VF.hdr_mk]
  exact vDaI_code hw

theorem vslide (h : VHdr) (f : Fmt) (d a b : Spec) (s : BitVec 7) : Statement (.vslide h f d a b s) := by
  intro o hw he
  cases he
  rw [decodeOp_encV, decodeV, fieldsOfVF_pack, VF.hdr_mk]
  exact bindOk mustBeZero_zero (bindOk (fmtOf_code f) (bindOk (specOf_code d) (bindOk (specOf_code a)
      (bindOk (specOf_code b) (finish_wf hw)))))

theorem vzip (h : VHdr) (f : Fmt) (d a b : Spec) (hi : Bool) : Statement (.vzip h f d a b hi) := by
  intro o hw he
  cases he
  rw [decodeOp_encV, decodeV, fieldsOfVF_pack, VF.hdr_mk]
  exact vDabF_code hw

theorem vuzip (h : VHdr) (f : Fmt) (d a b : Spec) (odd : Bool) : Statement (.vuzip h f d a b odd) := by
  intro o hw he
  cases he
  rw [decodeOp_encV, decodeV, fieldsOfVF_pack, VF.hdr_mk]
  exact vDabF_code hw

theorem vtrn (h : VHdr) (f : Fmt) (d a b : Spec) (odd : Bool) : Statement (.vtrn h f d a b odd) := by
  intro o hw he
  cases he
  rw [decodeOp_encV, decodeV, fieldsOfVF_pack, VF.hdr_mk]
  exact vDabF_code hw

theorem vcmpr (h : VHdr) (f : Fmt) (d a : Spec) (merge : Bool) : Statement (.vcmpr h f d a merge) := by
  intro o hw he
  cases he
  rw [decodeOp_encV, decodeV, fieldsOfVF_pack, VF.hdr_mk]
  exact bindOk mustBeZero_zero (bindOk mustBeZero_zero (bindOk (flag7 merge).1 (bindOk (fmtOf_code f)
      (bindOk (specOf_code d) (bindOk (specOf_code a) (finish_eq (by simp only [flag7]) hw))))))

theorem vbcast (h : VHdr) (f : Fmt) (d a : Spec) (m : BitVec 7) : Statement (.vbcast h f d a m) := by
  intro o hw he
  cases he
  rw [decodeOp_encV, decodeV, fieldsOfVF_pack, VF.hdr_mk]
  exact vDaI_code hw

theorem vmov (h : VHdr) (f : Fmt) (d a : Spec) : Statement (.vmov h f d a) := by
  intro o hw he
  cases he
  rw [decodeOp_encV, decodeV, fieldsOfVF_pack, VF.hdr_mk]
  exact vDa_code hw

theorem vli (h : VHdr) (f : Fmt) (d : Spec) (imm : BitVec 25) : Statement (.vli h f d imm) := by
  intro o hw he
  cases he
  rw [decodeOp_encV, decodeV, fieldsOfVF_pack, VF.hdr_mk]
  exact bindOk (fmtOf_code f) (bindOk (specOf_code d) (finish_eq (congrArg (Instr.vli h f d) (vli_imm imm)) hw))

theorem vmovx (h : VHdr) (f : Fmt) (d a : Spec) : Statement (.vmovx h f d a) := by
  intro o hw he
  cases he
  rw [decodeOp_encV, decodeV, fieldsOfVF_pack, VF.hdr_mk]
  exact vDa_code hw

theorem pand (h : VHdr) (pd pa pb : BitVec 4) : Statement (.pand h pd pa pb) := by
  intro o hw he
  cases he
  rw [decodeOp_encV, decodeV, fieldsOfVF_pack, VF.hdr_mk]
  exact vPred_code hw

theorem por (h : VHdr) (pd pa pb : BitVec 4) : Statement (.por h pd pa pb) := by
  intro o hw he
  cases he
  rw [decodeOp_encV, decodeV, fieldsOfVF_pack, VF.hdr_mk]
  exact vPred_code hw

theorem pxor (h : VHdr) (pd pa pb : BitVec 4) : Statement (.pxor h pd pa pb) := by
  intro o hw he
  cases he
  rw [decodeOp_encV, decodeV, fieldsOfVF_pack, VF.hdr_mk]
  exact vPred_code hw

theorem pnot (h : VHdr) (pd pa : BitVec 4) : Statement (.pnot h pd pa) := by
  intro o hw he
  cases he
  rw [decodeOp_encV, decodeV, fieldsOfVF_pack, VF.hdr_mk]
  exact bindOk mustBeZero_zero (vPred_code (b := 0) hw)

theorem pset (h : VHdr) (f : Fmt) (pd : BitVec 4) (n : ShiftBy) : Statement (.pset h f pd n) := by
  intro o hw he
  rcases n with a | k
  · cases he
    rw [decodeOp_encV, decodeV, fieldsOfVF_pack, VF.hdr_mk]
    exact bindOk mustBeZero_zero (bindOk mustBeZero_zero (bindOk (fmtOf_code f) (bindOk (pregOf_xr pd)
        (bindOk (psetOf_by a) (finish_wf hw)))))
  · cases he
    rw [decodeOp_encV, decodeV, fieldsOfVF_pack, VF.hdr_mk]
    exact bindOk mustBeZero_zero (bindOk mustBeZero_zero (bindOk (fmtOf_code f) (bindOk (pregOf_xr pd)
        (bindOk (psetOf_imm k) (finish_wf hw)))))

theorem pcnt (h : VHdr) (f : Fmt) (d : Spec) : Statement (.pcnt h f d) := by
  intro o hw he
  cases he
  rw [decodeOp_encV, decodeV, fieldsOfVF_pack, VF.hdr_mk]
  exact bindOk mustBeZero_zero (bindOk mustBeZero_zero (bindOk mustBeZero_zero (bindOk mustBeZero_zero
      (bindOk (fmtOf_code f) (bindOk (specOf_code d) (finish_wf hw))))))

theorem vfadd (h : VHdr) (f : Fmt) (d a b : Spec) : Statement (.vfadd h f d a b) := by
  intro o hw he
  cases he
  rw [decodeOp_encV, decodeV, fieldsOfVF_pack, VF.hdr_mk]
  exact vDab_code hw

theorem vfsub (h : VHdr) (f : Fmt) (d a b : Spec) : Statement (.vfsub h f d a b) := by
  intro o hw he
  cases he
  rw [decodeOp_encV, decodeV, fieldsOfVF_pack, VF.hdr_mk]
  exact vDab_code hw

theorem vfmul (h : VHdr) (f : Fmt) (d a b : Spec) : Statement (.vfmul h f d a b) := by
  intro o hw he
  cases he
  rw [decodeOp_encV, decodeV, fieldsOfVF_pack, VF.hdr_mk]
  exact vDab_code hw

theorem vfma (h : VHdr) (f : Fmt) (d a b c : Spec) (np nc : Bool) : Statement (.vfma h f d a b c np nc) := by
  intro o hw he
  cases he
  rw [decodeOp_encV, decodeV, fieldsOfVF_pack, VF.hdr_mk]
  exact bindOk (vfma_fn nc np).1 (bindOk (fmtOf_code f) (bindOk (specOf_code d) (bindOk (specOf_code a)
      (bindOk (specOf_code b) (bindOk (specOf_code c) (finish_eq (by simp only [vfma_fn]) hw))))))

theorem vfmin (h : VHdr) (f : Fmt) (d a b : Spec) : Statement (.vfmin h f d a b) := by
  intro o hw he
  cases he
  rw [decodeOp_encV, decodeV, fieldsOfVF_pack, VF.hdr_mk]
  exact vDab_code hw

theorem vfmax (h : VHdr) (f : Fmt) (d a b : Spec) : Statement (.vfmax h f d a b) := by
  intro o hw he
  cases he
  rw [decodeOp_encV, decodeV, fieldsOfVF_pack, VF.hdr_mk]
  exact vDab_code hw

theorem vfsgn (h : VHdr) (f : Fmt) (d a b : Spec) (m : BitVec 2) : Statement (.vfsgn h f d a b m) := by
  intro o hw he
  cases he
  rw [decodeOp_encV, decodeV, fieldsOfVF_pack, VF.hdr_mk]
  exact bindOk mustBeZero_zero (bindOk (pad5_2 m).1 (bindOk (fmtOf_code f) (bindOk (specOf_code d)
      (bindOk (specOf_code a) (bindOk (specOf_code b) (finish_eq (by simp only [pad5_2]) hw))))))

theorem vfcmp (h : VHdr) (f : Fmt) (pd : BitVec 4) (a b : Spec) (c : FCond) : Statement (.vfcmp h f pd a b c) := by
  intro o hw he
  cases he
  rw [decodeOp_encV, decodeV, fieldsOfVF_pack, VF.hdr_mk]
  exact bindOk mustBeZero_zero (bindOk (pad4_3 c.code).1 (bindOk (fmtOf_code f) (bindOk (pregOf_xr pd)
      (bindOk (specOf_code a) (bindOk (specOf_code b)
          (bindOk (a := c) (by simp only [pad4_3]; exact fcondOf_code _ c) (finish_wf hw)))))))

theorem vfcvt (h : VHdr) (dst src : Fmt) (d a b : Spec) (q : BitVec 6) (rm : Rounding)
    : Statement (.vfcvt h dst src d a b q rm) := by
  intro o hw he
  cases he
  rw [decodeOp_encV, decodeV, fieldsOfVF_pack, VF.hdr_mk]
  exact bindOk (fmtOf_code dst) (bindOk (a := src) (by simp only [vfcvt_fn]; exact fmtOf_code src)
      (bindOk (specOf_code d) (bindOk (specOf_code a) (bindOk (specOf_code b)
          (bindOk (a := rm) (by simp only [vfcvt_fn]; exact roundOf_code rm) (finish_wf hw))))))

theorem vfclass (h : VHdr) (f : Fmt) (d a : Spec) : Statement (.vfclass h f d a) := by
  intro o hw he
  cases he
  rw [decodeOp_encV, decodeV, fieldsOfVF_pack, VF.hdr_mk]
  exact vDa_code hw

theorem vfexp2 (h : VHdr) (f : Fmt) (d a : Spec) : Statement (.vfexp2 h f d a) := by
  intro o hw he
  cases he
  rw [decodeOp_encV, decodeV, fieldsOfVF_pack, VF.hdr_mk]
  exact vDa_code hw

theorem vfexp (h : VHdr) (f : Fmt) (d a : Spec) : Statement (.vfexp h f d a) := by
  intro o hw he
  cases he
  rw [decodeOp_encV, decodeV, fieldsOfVF_pack, VF.hdr_mk]
  exact vDa_code hw

theorem vflog2 (h : VHdr) (f : Fmt) (d a : Spec) : Statement (.vflog2 h f d a) := by
  intro o hw he
  cases he
  rw [decodeOp_encV, decodeV, fieldsOfVF_pack, VF.hdr_mk]
  exact vDa_code hw

theorem vflog (h : VHdr) (f : Fmt) (d a : Spec) : Statement (.vflog h f d a) := by
  intro o hw he
  cases he
  rw [decodeOp_encV, decodeV, fieldsOfVF_pack, VF.hdr_mk]
  exact vDa_code hw

theorem vfrcp (h : VHdr) (f : Fmt) (d a : Spec) : Statement (.vfrcp h f d a) := by
  intro o hw he
  cases he
  rw [decodeOp_encV, decodeV, fieldsOfVF_pack, VF.hdr_mk]
  exact vDa_code hw

theorem vfrsq (h : VHdr) (f : Fmt) (d a : Spec) : Statement (.vfrsq h f d a) := by
  intro o hw he
  cases he
  rw [decodeOp_encV, decodeV, fieldsOfVF_pack, VF.hdr_mk]
  exact vDa_code hw

theorem vftanh (h : VHdr) (f : Fmt) (d a : Spec) : Statement (.vftanh h f d a) := by
  intro o hw he
  cases he
  rw [decodeOp_encV, decodeV, fieldsOfVF_pack, VF.hdr_mk]
  exact vDa_code hw

theorem vamax (h : VHdr) (f : Fmt) (d a c : Spec) : Statement (.vamax h f d a c) := by
  intro o hw he
  cases he
  rw [decodeOp_encV, decodeV, fieldsOfVF_pack, VF.hdr_mk]
  exact bindOk mustBeZero_zero (bindOk mustBeZero_zero (bindOk (fmtOf_code f) (bindOk (specOf_code d)
      (bindOk (specOf_code a) (bindOk (specOf_code c) (finish_wf hw))))))

theorem vscl (h : VHdr) (f : Fmt) (d a : Spec) (t : QTarget) (ol : Bool) : Statement (.vscl h f d a t ol) := by
  intro o hw he
  cases he
  rw [decodeOp_encV, decodeV, fieldsOfVF_pack, VF.hdr_mk]
  exact bindOk mustBeZero_zero (bindOk mustBeZero_zero (bindOk (vscl_fn ol t.code).1 (bindOk (fmtOf_code f)
      (bindOk (specOf_code d)
          (bindOk (specOf_code a) (finish_eq (by simp only [vscl_fn, QTarget.ofCode_code]) hw))))))

theorem vqnt (h : VHdr) (f : Fmt) (d a b : Spec) (t : QTarget) (rm : Rounding)
    : Statement (.vqnt h f d a b t rm) := by
  intro o hw he
  cases he
  rw [decodeOp_encV, decodeV, fieldsOfVF_pack, VF.hdr_mk]
  exact bindOk mustBeZero_zero (bindOk (vqnt_fn t.code rm.code).1 (bindOk (fmtOf_code f)
      (bindOk (specOf_code d) (bindOk (specOf_code a) (bindOk (specOf_code b)
          (bindOk (a := rm) (by simp only [vqnt_fn]; exact roundOf_code rm) (finish_eq (by simp only [vqnt_fn,
              QTarget.ofCode_code]) hw)))))))

theorem vdqnt (h : VHdr) (f : Fmt) (d a b : Spec) (t : QTarget) : Statement (.vdqnt h f d a b t) := by
  intro o hw he
  cases he
  rw [decodeOp_encV, decodeV, fieldsOfVF_pack, VF.hdr_mk]
  exact bindOk mustBeZero_zero (bindOk (pad5_2 t.code).1 (bindOk (fmtOf_code f) (bindOk (specOf_code d)
      (bindOk (specOf_code a) (bindOk (specOf_code b) (finish_eq (by simp only [pad5_2, QTarget.ofCode_code]) hw))))))

theorem vrelub (h : VHdr) (f : Fmt) (d b : Spec) : Statement (.vrelub h f d b) := by
  intro o hw he
  cases he
  rw [decodeOp_encV, decodeV, fieldsOfVF_pack, VF.hdr_mk]
  exact bindOk kqSource_code (bindOk mustBeZero_zero (bindOk (fmtOf_code f) (bindOk (specOf_code d)
      (bindOk (specOf_code b) (finish_wf hw)))))

theorem vmaxb (h : VHdr) (f : Fmt) (d b : Spec) (w : BitVec 4) : Statement (.vmaxb h f d b w) := by
  intro o hw he
  cases he
  rw [decodeOp_encV, decodeV, fieldsOfVF_pack, VF.hdr_mk]
  exact bindOk kqSource_code (bindOk (pad3_4 w).1 (bindOk (fmtOf_code f) (bindOk (specOf_code d)
      (bindOk (specOf_code b) (finish_eq (by simp only [pad3_4]) hw)))))

theorem vmskb (h : VHdr) (f : Fmt) (d b : Spec) : Statement (.vmskb h f d b) := by
  intro o hw he
  cases he
  rw [decodeOp_encV, decodeV, fieldsOfVF_pack, VF.hdr_mk]
  exact bindOk kqSource_code (bindOk mustBeZero_zero (bindOk (fmtOf_code f) (bindOk (specOf_code d)
      (bindOk (specOf_code b) (finish_wf hw)))))

theorem vkfull (h : VHdr) (f : Fmt) (d : Spec) : Statement (.vkfull h f d) := by
  intro o hw he
  cases he
  rw [decodeOp_encV, decodeV, fieldsOfVF_pack, VF.hdr_mk]
  exact bindOk kqSource_code (bindOk mustBeZero_zero (bindOk mustBeZero_zero (bindOk (fmtOf_code f)
      (bindOk (specOf_code d) (finish_wf hw)))))

theorem vred (h : VHdr) (f : Fmt) (d a : Spec) (op : TreeOp) : Statement (.vred h f d a op) := by
  intro o hw he
  cases he
  rw [decodeOp_encV, decodeV, fieldsOfVF_pack, VF.hdr_mk]
  exact bindOk mustBeZero_zero (bindOk mustBeZero_zero (bindOk (pad4_3 op.code).1 (bindOk (fmtOf_code f)
      (bindOk (specOf_code d) (bindOk (specOf_code a)
          (bindOk (a := op) (by simp only [pad4_3]; exact treeOpOf_code _ op) (finish_wf hw)))))))

theorem vscan (h : VHdr) (f : Fmt) (d a sd : Spec) (op : TreeOp) : Statement (.vscan h f d a sd op) := by
  intro o hw he
  cases he
  rw [decodeOp_encV, decodeV, fieldsOfVF_pack, VF.hdr_mk]
  exact bindOk mustBeZero_zero (bindOk (pad4_3 op.code).1 (bindOk (fmtOf_code f) (bindOk (specOf_code d)
      (bindOk (specOf_code a) (bindOk (specOf_code sd)
          (bindOk (a := op) (by simp only [pad4_3]; exact treeOpOf_code _ op) (finish_wf hw)))))))

theorem mma (fa fb : Fmt) (acc : BitVec 3) (ka kb : BitVec 4) (hla hlb z : Bool)
    : Statement (.mma fa fb acc ka kb hla hlb z) := by
  intro o hw he
  cases he
  rw [decodeOp_encM, decodeM, fieldsOfMF_pack]
  exact bindOk mustBeZero_zero (bindOk (mma_imm z hlb hla).1 (bindOk (fmtOf_code fa)
      (bindOk (fmtOf_code fb) (finish_eq (by simp only [mma_imm]) hw))))

theorem mmb (fa fb : Fmt) (acc : BitVec 3) (hla hlb z : Bool) (and : Bool)
    : Statement (.mmb fa fb acc hla hlb z and) := by
  intro o hw he
  cases he
  rw [decodeOp_encM, decodeM, fieldsOfMF_pack]
  exact bindOk mustBeZero_zero (bindOk mustBeZero_zero (bindOk mustBeZero_zero
      (bindOk (mmb_imm and z hlb hla).1 (bindOk (a := ()) (by simp only [mmb_imm]; rfl)
          (bindOk (fmtOf_code fa) (bindOk (fmtOf_code fb) (finish_eq (by simp only [mmb_imm]) hw)))))))

theorem mcfg (fa fb : Fmt) (ka : BitVec 4) (cell int : Bool) : Statement (.mcfg fa fb ka cell int) := by
  intro o hw he
  cases he
  rw [decodeOp_encM, decodeM, fieldsOfMF_pack]
  exact bindOk mustBeZero_zero (bindOk mustBeZero_zero (bindOk mustBeZero_zero (bindOk (mcfg_imm int cell).1
      (bindOk (fmtOf_code fa) (bindOk (fmtOf_code fb) (finish_eq (by simp only [mcfg_imm]) hw))))))

theorem mdrain : Statement (.mdrain) := by
  intro o hw he
  cases he
  rw [decodeOp_encM, decodeM, fieldsOfMF_pack]
  exact bindOk mustBeZero_zero (bindOk mustBeZero_zero (bindOk mustBeZero_zero (bindOk mustBeZero_zero
      (bindOk mustBeZero_zero (bindOk mustBeZero_zero (bindOk mustBeZero_zero (finish_wf hw)))))))

theorem mdrn (f : Fmt) (acc : BitVec 3) (rq : BitVec 3) : Statement (.mdrn f acc rq) := by
  intro o hw he
  cases he
  rw [decodeOp_encM, decodeM, fieldsOfMF_pack]
  exact bindOk mustBeZero_zero (bindOk mustBeZero_zero (bindOk mustBeZero_zero (bindOk mustBeZero_zero
      (bindOk (fmtOf_code f) (finish_wf hw)))))

theorem mclr (acc : BitVec 3) (inf : Bool) : Statement (.mclr acc inf) := by
  intro o hw he
  cases he
  rw [decodeOp_encM, decodeM, fieldsOfMF_pack]
  exact bindOk mustBeZero_zero (bindOk mustBeZero_zero (bindOk mustBeZero_zero (bindOk mustBeZero_zero
      (bindOk mustBeZero_zero (bindOk (mclr_imm inf).1 (finish_eq (by simp only [mclr_imm]) hw))))))

theorem mlda (f : Fmt) (acc : BitVec 3) (off : BitVec 14) : Statement (.mlda f acc off) := by
  intro o hw he
  cases he
  rw [decodeOp_encM, decodeM, fieldsOfMF_pack]
  exact bindOk mustBeZero_zero (bindOk mustBeZero_zero (bindOk mustBeZero_zero (bindOk mustBeZero_zero
      (bindOk (off_imm off).1 (bindOk (fmtOf_code f) (finish_eq (by simp only [off_imm]) hw))))))

theorem xcp (lane : BitVec 3) (d s n : BitVec 4) (t : XSpec) (kept : Bool) : Statement (.xcp lane d s n t kept) := by
  intro o hw he
  cases he
  rw [decodeOp_encX, decodeX, fieldsOfXF_pack]
  exact bindOk mustBeZero_zero (bindOk (flag8 kept).1 (bindOk (laneOf_pad lane) (bindOk (xregOf_xr d)
      (bindOk (xregOf_xr s) (bindOk (xregOf_xr n) (bindOk (xspecOf_code t) (finish_eq (by simp only [flag8]) hw)))))))

theorem xcpz (lane : BitVec 3) (d s n t : BitVec 4) (dict : Bool) : Statement (.xcpz lane d s n t dict) := by
  intro o hw he
  cases he
  rw [decodeOp_encX, decodeX, fieldsOfXF_pack]
  exact bindOk mustBeZero_zero (bindOk (flag8b dict).1 (bindOk (flag8b dict).2.1 (bindOk (laneOf_pad lane)
      (bindOk (xregOf_xr d) (bindOk (xregOf_xr s) (bindOk (xregOf_xr n)
          (bindOk (xregOf_xr t) (finish_eq (by simp only [flag8b]) hw))))))))

theorem xcpc (lane : BitVec 3) (f : Fmt) (d s n t : BitVec 4) (ib : IBits) (flag : BitVec 5)
    : Statement (.xcpc lane f d s n t ib flag) := by
  intro o hw he
  cases he
  rw [decodeOp_encX, decodeX, fieldsOfXF_pack]
  exact bindOk (xcpc_m flag ib.code).1 (bindOk (laneOf_pad lane) (bindOk (fmtOf_code f)
      (bindOk (xregOf_xr d) (bindOk (xregOf_xr s) (bindOk (xregOf_xr n) (bindOk (xregOf_xr t)
          (bindOk (a := ib) (by simp only [xcpc_m]; exact ibitsOf_code _ ib) (finish_eq (by simp only [xcpc_m])
              hw))))))))

theorem xfill (lane : BitVec 3) (f : Fmt) (s : BitVec 4) (n : XSpec) (t : XSpec) (kept fb tr : Bool)
    : Statement (.xfill lane f s n t kept fb tr) := by
  intro o hw he
  cases he
  rw [decodeOp_encX, decodeX, fieldsOfXF_pack]
  exact bindOk absentOf_absent (bindOk (xfill_m tr fb kept).1 (bindOk (laneOf_pad lane)
      (bindOk (fmtOf_code f) (bindOk (xregOf_xr s) (bindOk (xspecOf_code n)
          (bindOk (xspecOf_code t) (finish_eq (by simp only [xfill_m]) hw)))))))

theorem xgath (lane : BitVec 3) (d : XSpec) (n : BitVec 4) (t : XSpec) : Statement (.xgath lane d n t) := by
  intro o hw he
  cases he
  rw [decodeOp_encX, decodeX, fieldsOfXF_pack]
  exact bindOk mustBeZero_zero (bindOk absentOf_absent (bindOk (flag8b _).2.1 (bindOk (flag8b _).1
      (bindOk (xspecOf_code d) (bindOk (a := ()) (by simp only [flag8b]; cases d <;> rfl)
          (bindOk (laneOf_pad lane) (bindOk (xregOf_xr n) (bindOk (xspecOf_code t) (finish_wf hw)))))))))

theorem xscat (lane : BitVec 3) (s n : BitVec 4) (t : XSpec) : Statement (.xscat lane s n t) := by
  intro o hw he
  cases he
  rw [decodeOp_encX, decodeX, fieldsOfXF_pack]
  exact bindOk mustBeZero_zero (bindOk absentOf_absent (bindOk mustBeZero_zero (bindOk (laneOf_pad lane)
      (bindOk (xregOf_xr s) (bindOk (xregOf_xr n) (bindOk (xspecOf_code t) (finish_wf hw)))))))

theorem xpopq (lane : BitVec 3) (d : BitVec 4) (rq : BitVec 3) (n : BitVec 4) (t : XSpec)
    : Statement (.xpopq lane d rq n t) := by
  intro o hw he
  cases he
  rw [decodeOp_encX, decodeX, fieldsOfXF_pack]
  exact bindOk mustBeZero_zero (bindOk mustBeZero_zero (bindOk (laneOf_pad lane) (bindOk (xregOf_xr d)
      (bindOk (rqOf_code rq) (bindOk (xregOf_xr n) (bindOk (xspecOf_code t) (finish_wf hw)))))))

theorem xsend (lane : BitVec 3) (ch : BitVec 8) (s : BitVec 4) (t : XSpec) : Statement (.xsend lane ch s t) := by
  intro o hw he
  cases he
  rw [decodeOp_encX, decodeX, fieldsOfXF_pack]
  exact bindOk mustBeZero_zero (bindOk absentOf_absent (bindOk absentOf_absent (bindOk (laneOf_pad lane)
      (bindOk (xregOf_xr s) (bindOk (xspecOf_code t) (finish_wf hw))))))

theorem xrecv (lane : BitVec 3) (ch : BitVec 8) (d : XSpec) (t : XSpec) : Statement (.xrecv lane ch d t) := by
  intro o hw he
  cases he
  rw [decodeOp_encX, decodeX, fieldsOfXF_pack]
  exact bindOk mustBeZero_zero (bindOk absentOf_absent (bindOk absentOf_absent (bindOk (laneOf_pad lane)
      (bindOk (xspecOf_code d) (bindOk (xspecOf_code t) (finish_wf hw))))))

theorem xcoll (f : BitVec 4) (d s n : BitVec 4) (t : XSpec) (op : BitVec 4) (kind : BitVec 3)
    : Statement (.xcoll f d s n t op kind) := by
  intro o hw he
  cases he
  rw [decodeOp_encX, decodeX, fieldsOfXF_pack]
  exact bindOk mustBeZero_zero (bindOk (xcoll_m kind op).1 (bindOk (xregOf_xr d) (bindOk (xregOf_xr s)
      (bindOk (xregOf_xr n) (bindOk (xspecOf_code t) (finish_eq (by simp only [xcoll_m]) hw))))))

theorem xcav (f : BitVec 4) (d s n : BitVec 4) (t : XSpec) (op : BitVec 4) : Statement (.xcav f d s n t op) := by
  intro o hw he
  cases he
  rw [decodeOp_encX, decodeX, fieldsOfXF_pack]
  exact bindOk mustBeZero_zero (bindOk (pad4_4 op).1 (bindOk (xregOf_xr d) (bindOk (xregOf_xr s)
      (bindOk (xregOf_xr n) (bindOk (xspecOf_code t) (finish_eq (by simp only [pad4_4]) hw))))))

theorem xtrig (n : BitVec 6) (s : BitVec 4) : Statement (.xtrig n s) := by
  intro o hw he
  cases he
  rw [decodeOp_encX, decodeX, fieldsOfXF_pack]
  exact bindOk mustBeZero_zero (bindOk mustBeZero_zero (bindOk absentOf_absent (bindOk absentOf_absent
      (bindOk absentOf_absent (bindOk (pad2_6 n).1 (bindOk (xregOf_xr s) (finish_eq (by simp only [pad2_6]) hw)))))))

theorem xcan (n : BitVec 6) : Statement (.xcan n) := by
  intro o hw he
  cases he
  rw [decodeOp_encX, decodeX, fieldsOfXF_pack]
  refine bindOk mustBeZero_zero (bindOk absentOf_absent (bindOk absentOf_absent (bindOk absentOf_absent
      (bindOk absentOf_absent (iteF (by simp only [pad2_6]) ?_)))))
  exact bindOk mustBeZero_zero (bindOk (pad2_6 n).2.1 (finish_eq (by simp only [pad2_6]) hw))

theorem xcanLane (lane : BitVec 3) : Statement (.xcanLane lane) := by
  intro o hw he
  cases he
  rw [decodeOp_encX, decodeX, fieldsOfXF_pack]
  exact bindOk mustBeZero_zero (bindOk absentOf_absent (bindOk absentOf_absent (bindOk absentOf_absent
      (bindOk absentOf_absent (iteT (by dsimp only; decide) (bindOk (mustBeZero_of (by dsimp only; decide))
          (bindOk (laneOf_pad lane) (finish_wf hw))))))))

theorem xqfence (s : BitVec 4) : Statement (.xqfence s) := by
  intro o hw he
  cases he
  rw [decodeOp_encX, decodeX, fieldsOfXF_pack]
  exact bindOk mustBeZero_zero (bindOk mustBeZero_zero (bindOk absentOf_absent (bindOk absentOf_absent
      (bindOk absentOf_absent (bindOk mustBeZero_zero (bindOk (xregOf_xr s) (finish_wf hw)))))))

theorem xstor (lane : BitVec 3) (d s n t : BitVec 4) : Statement (.xstor lane d s n t) := by
  intro o hw he
  cases he
  rw [decodeOp_encX, decodeX, fieldsOfXF_pack]
  exact bindOk mustBeZero_zero (bindOk mustBeZero_zero (bindOk (laneOf_pad lane) (bindOk (xregOf_xr d)
      (bindOk (xregOf_xr s) (bindOk (xregOf_xr n) (bindOk (xregOf_xr t) (finish_wf hw)))))))

theorem retireComplete (c : CtxId) : Statement (.retireComplete c) := by
  intro o _ he
  cases he

theorem helperStart (core : CoreId) : Statement (.helperStart core) := by
  intro o _ he
  cases he

theorem loadPerform (c : CtxId) (what : LoadWhat) : Statement (.loadPerform c what) := by
  intro o _ he
  cases he

theorem ldkEntryPush (c : CtxId) (n : Nat) : Statement (.ldkEntryPush c n) := by
  intro o _ he
  cases he

theorem storePerform (c : CtxId) : Statement (.storePerform c) := by
  intro o _ he
  cases he

theorem atomicPerform (arrivals : List Access) : Statement (.atomicPerform arrivals) := by
  intro o _ he
  cases he

theorem skstRecordWrite (c : CtxId) : Statement (.skstRecordWrite c) := by
  intro o _ he
  cases he

theorem skrtgRewrite (c : CtxId) : Statement (.skrtgRewrite c) := by
  intro o _ he
  cases he

theorem skdropClear (c : CtxId) : Statement (.skdropClear c) := by
  intro o _ he
  cases he

theorem postfPerform (c : CtxId) : Statement (.postfPerform c) := by
  intro o _ he
  cases he

theorem releaseWeirPass (c : CtxId) : Statement (.releaseWeirPass c) := by
  intro o _ he
  cases he

theorem waitwPeriodicRead (c : CtxId) : Statement (.waitwPeriodicRead c) := by
  intro o _ he
  cases he

theorem tagProbe (c : CtxId) (va : Nat) : Statement (.tagProbe c va) := by
  intro o _ he
  cases he

theorem tileCacheEviction (core : CoreId) (line : Nat) : Statement (.tileCacheEviction core line) := by
  intro o _ he
  cases he

theorem laneCommandStart (core : CoreId) (lane : BitVec 3) : Statement (.laneCommandStart core lane) := by
  intro o _ he
  cases he

theorem copyChunk (core : CoreId) (lane : BitVec 3) : Statement (.copyChunk core lane) := by
  intro o _ he
  cases he

theorem stampWrite (core : CoreId) (lane : BitVec 3) : Statement (.stampWrite core lane) := by
  intro o _ he
  cases he

theorem xcpcBlockResume (core : CoreId) (lane : BitVec 3) : Statement (.xcpcBlockResume core lane) := by
  intro o _ he
  cases he

theorem fifoFillPush (core : CoreId) (lane : BitVec 3) : Statement (.fifoFillPush core lane) := by
  intro o _ he
  cases he

theorem xsendCreditTake (core : CoreId) (lane : BitVec 3) : Statement (.xsendCreditTake core lane) := by
  intro o _ he
  cases he

theorem channelWordArrival (w : WordFrom) : Statement (.channelWordArrival w) := by
  intro o _ he
  cases he

theorem xrecvSlotTake (core : CoreId) (lane : BitVec 3) : Statement (.xrecvSlotTake core lane) := by
  intro o _ he
  cases he

theorem triggerFire (core : CoreId) : Statement (.triggerFire core) := by
  intro o _ he
  cases he

theorem triggerLaneEntry (core : CoreId) (entry : BitVec 6) : Statement (.triggerLaneEntry core entry) := by
  intro o _ he
  cases he

theorem triggerComplete (core : CoreId) (entry : BitVec 6) : Statement (.triggerComplete core entry) := by
  intro o _ he
  cases he

theorem laneFenceRelease (core : CoreId) : Statement (.laneFenceRelease core) := by
  intro o _ he
  cases he

theorem collectiveChunk (core : CoreId) : Statement (.collectiveChunk core) := by
  intro o _ he
  cases he

theorem collectiveComplete (core : CoreId) (comm : BitVec 8) : Statement (.collectiveComplete core comm) := by
  intro o _ he
  cases he

theorem switchSlotRequest (core : CoreId) (comm : BitVec 8) : Statement (.switchSlotRequest core comm) := by
  intro o _ he
  cases he

theorem gbarArrival (c : CtxId) : Statement (.gbarArrival c) := by
  intro o _ he
  cases he

theorem groupBarrierComplete (part : BitVec 6) (g : BitVec 6) : Statement (.groupBarrierComplete part g) := by
  intro o _ he
  cases he

theorem switchPoint (part : BitVec 6) : Statement (.switchPoint part) := by
  intro o _ he
  cases he

theorem launchLoading (part : BitVec 6) (launch : Nat) : Statement (.launchLoading part launch) := by
  intro o _ he
  cases he

theorem dictionaryPreload (part : BitVec 6) (launch : Nat) : Statement (.dictionaryPreload part launch) := by
  intro o _ he
  cases he

theorem launchBind (part : BitVec 6) (launch : Nat) : Statement (.launchBind part launch) := by
  intro o _ he
  cases he

theorem launchRunning (part : BitVec 6) (launch : Nat) : Statement (.launchRunning part launch) := by
  intro o _ he
  cases he

theorem walkerPlace (part : BitVec 6) (launch : Nat) (core : CoreId) : Statement (.walkerPlace part launch core) := by
  intro o _ he
  cases he

theorem launchComplete (part : BitVec 6) (launch : Nat) : Statement (.launchComplete part launch) := by
  intro o _ he
  cases he

theorem drainComplete (t : BitVec 4) : Statement (.drainComplete t) := by
  intro o _ he
  cases he

theorem flushComplete (t : BitVec 4) : Statement (.flushComplete t) := by
  intro o _ he
  cases he

theorem enumerationComplete (t : BitVec 4) : Statement (.enumerationComplete t) := by
  intro o _ he
  cases he

theorem resetFlitDrain (vf : BitVec 10) : Statement (.resetFlitDrain vf) := by
  intro o _ he
  cases he

theorem tinvComplete (part : BitVec 6) : Statement (.tinvComplete part) := by
  intro o _ he
  cases he

theorem attestationComplete : Statement (.attestationComplete) := by
  intro o _ he
  cases he

theorem registrationWrite (r : BitVec 12) (v : BitVec 256) : Statement (.registrationWrite r v) := by
  intro o _ he
  cases he

theorem relayCopyUpdate (t : BitVec 4) (n : Nat) : Statement (.relayCopyUpdate t n) := by
  intro o _ he
  cases he

theorem phaseWriteBack (c : CtxId) : Statement (.phaseWriteBack c) := by
  intro o _ he
  cases he

theorem waitingStrapRelease (c : CtxId) : Statement (.waitingStrapRelease c) := by
  intro o _ he
  cases he

theorem resultLanding (c : CtxId) : Statement (.resultLanding c) := by
  intro o _ he
  cases he

theorem yieldExpiry (c : CtxId) : Statement (.yieldExpiry c) := by
  intro o _ he
  cases he

theorem matrixWayRelease (core : CoreId) : Statement (.matrixWayRelease core) := by
  intro o _ he
  cases he

theorem asynchronousFault (c : CtxId) (f : AsyncFault) : Statement (.asynchronousFault c f) := by
  intro o _ he
  cases he

theorem stopRequest (c : CtxId) : Statement (.stopRequest c) := by
  intro o _ he
  cases he

theorem operatorOverrun (part : BitVec 6) (launch : Nat) : Statement (.operatorOverrun part launch) := by
  intro o _ he
  cases he

theorem contextResume (c : CtxId) : Statement (.contextResume c) := by
  intro o _ he
  cases he

theorem contextSave (c : CtxId) : Statement (.contextSave c) := by
  intro o _ he
  cases he

theorem contextRestore (src dst : CtxId) : Statement (.contextRestore src dst) := by
  intro o _ he
  cases he

theorem endOperator (part : BitVec 6) (launch : Nat) : Statement (.endOperator part launch) := by
  intro o _ he
  cases he

theorem translationWalk (core : CoreId) (va : Nat) (drop : Nat) : Statement (.translationWalk core va drop) := by
  intro o _ he
  cases he

theorem shapeRecordFetch (core : CoreId) (n : Nat) (drop : Nat) : Statement (.shapeRecordFetch core n drop) := by
  intro o _ he
  cases he

theorem nvmeCompletion (core : CoreId) (lane : BitVec 3) (status : BitVec 15) (data : Option (Nat × List Byte))
    : Statement (.nvmeCompletion core lane status data) := by
  intro o _ he
  cases he

theorem gsubmit (vf : BitVec 10) (v : Word) : Statement (.gsubmit vf v) := by
  intro o _ he
  cases he

theorem gstatWrite (vf : BitVec 10) (v : Word) : Statement (.gstatWrite vf v) := by
  intro o _ he
  cases he

theorem hostMemoryAccess (vf : BitVec 10) (a : HostAccess) : Statement (.hostMemoryAccess vf a) := by
  intro o _ he
  cases he

theorem rolemapWrite (v : Word) : Statement (.rolemapWrite v) := by
  intro o _ he
  cases he

theorem rolebootWrite (v : Word) : Statement (.rolebootWrite v) := by
  intro o _ he
  cases he

theorem tctlReEnumerate (t : BitVec 4) : Statement (.tctlReEnumerate t) := by
  intro o _ he
  cases he

theorem tctlReleaseFailed (t : BitVec 4) : Statement (.tctlReleaseFailed t) := by
  intro o _ he
  cases he

theorem terraceLogicError (t : BitVec 4) : Statement (.terraceLogicError t) := by
  intro o _ he
  cases he

theorem pctlForm (part : BitVec 6) (addr : Word) : Statement (.pctlForm part addr) := by
  intro o _ he
  cases he

theorem pctlDissolve (part : BitVec 6) : Statement (.pctlDissolve part) := by
  intro o _ he
  cases he

theorem vdcfgWrite (vf : BitVec 10) (v : Word) : Statement (.vdcfgWrite vf v) := by
  intro o _ he
  cases he

theorem vdstatReset (vf : BitVec 10) (v : Word) : Statement (.vdstatReset vf v) := by
  intro o _ he
  cases he

theorem functionLevelReset (vf : BitVec 10) : Statement (.functionLevelReset vf) := by
  intro o _ he
  cases he

theorem migrationBoundary (part : BitVec 6) (area : Nat) : Statement (.migrationBoundary part area) := by
  intro o _ he
  cases he

theorem tinvStart (part : BitVec 6) (v : Word) : Statement (.tinvStart part v) := by
  intro o _ he
  cases he

theorem lctlTrain (link : BitVec 4) : Statement (.lctlTrain link) := by
  intro o _ he
  cases he

theorem lctlQuarantine (link : BitVec 4) : Statement (.lctlQuarantine link) := by
  intro o _ he
  cases he

theorem lctlRelease (link : BitVec 4) : Statement (.lctlRelease link) := by
  intro o _ he
  cases he

theorem linkTrainingDone (link : BitVec 4) (passed : BitVec 9) (peerModule : BitVec 16) (peerLink : BitVec 4) :
    Statement (.linkTrainingDone link passed peerModule peerLink) := by
  intro o _ he
  cases he

theorem linkTrainingTimeout (link : BitVec 4) : Statement (.linkTrainingTimeout link) := by
  intro o _ he
  cases he

theorem linkLaneFailure (link : BitVec 4) (lane : BitVec 4) : Statement (.linkLaneFailure link lane) := by
  intro o _ he
  cases he

theorem linkFailure (link : BitVec 4) (cause : BitVec 4) : Statement (.linkFailure link cause) := by
  intro o _ he
  cases he

theorem flitRetry (link : BitVec 4) : Statement (.flitRetry link) := by
  intro o _ he
  cases he

theorem powerOnReset (f : BootFacts) : Statement (.powerOnReset f) := by
  intro o _ he
  cases he

theorem bootStartTimeout : Statement (.bootStartTimeout) := by
  intro o _ he
  cases he

theorem bootctlRestart (v : Word) (f : BootFacts) : Statement (.bootctlRestart v f) := by
  intro o _ he
  cases he

theorem attestationRequest (v : Word) : Statement (.attestationRequest v) := by
  intro o _ he
  cases he

theorem thermalEvent (t : BitVec 4) (monitor : BitVec 5) (value : BitVec 16)
    : Statement (.thermalEvent t monitor value) := by
  intro o _ he
  cases he

theorem coolantGradeChange (high : Bool) : Statement (.coolantGradeChange high) := by
  intro o _ he
  cases he

theorem correctableError (p : Part) : Statement (.correctableError p) := by
  intro o _ he
  cases he

theorem uncorrectableError (p : Part) (addr : Option Nat) : Statement (.uncorrectableError p addr) := by
  intro o _ he
  cases he

theorem registerWrite (offset : Nat) (v : Word) : Statement (.registerWrite offset v) := by
  intro o _ he
  cases he

end Sys2Proof.Laws.RoundTrip
end

