-- ==== Sys2Proof/Laws/Results.lean ====
section
/-! SUPPORT. How results enter flight, and the frame of an operation that reads its sources and then gives one result. -/

namespace Sys2Proof.Machine

/-- A result of the S slot in a context that is no helper. -/
theorem dstS_slotDone {i : Instr} {lat : Nat} {d : Spec} {v : Word} {s : State} (hh : s.me.st ≠ .helper) :
    ∃ t, (dstS i lat d v).run s = (.ok (), t) ∧
      t.updMe (fun c => c.slotDone (opSlot i)) = s.updMe (fun c => c.afterOp (opSlot i) lat (sEffect c d v) 0) := by
  cases d with
  | reg n => exact ⟨_, rfl, by rw [State.updMe_updMe]; rfl⟩
  | rel n => exact ⟨_, rfl, by rw [State.updMe_updMe]; rfl⟩
  | sq =>
    refine ⟨s.updMe (fun c => c.withResult (opSlot i) lat (.sq (v.setWidth 1024) (BitVec.allOnes 128)) 0), ?_,
      by rw [State.updMe_updMe]; rfl⟩
    change (pushSq i lat (v.setWidth 1024) (BitVec.allOnes 128)).run s = _
    unfold pushSq
    rw [act_bind_ok (getMe_run s)]
    simp only [hh, if_false]
    rfl
  | _ => exact ⟨s, rfl, rfl⟩


/-- What a pop of a queue leaves as it was. -/
structure SameButQueues (s u : State) : Prop where
  cur : u.cur = s.cur
  mem : u.mem = s.mem
  poison : u.poison = s.poison
  parts : u.parts = s.parts
  st : u.me.st = s.me.st
  priv : u.me.priv = s.me.priv
  pyrino : u.me.pyrino = s.me.pyrino
  tick : u.me.flow.tick = s.me.flow.tick
  flight : u.me.flow.flight = s.me.flow.flight
  live : u.me.flow.strap.live = s.me.flow.strap.live
  regS : u.me.s = s.me.s
  regA : u.me.a = s.me.a
  regD : u.me.d = s.me.d
  regX : u.me.x = s.me.x
  regY : u.me.y = s.me.y
  regL : u.me.l = s.me.l
  regV : u.me.v = s.me.v
  regW : u.me.w = s.me.w
  regK : u.me.k = s.me.k
  regP : u.me.p = s.me.p
  regH : u.me.h = s.me.h
  sticky : u.me.sticky = s.me.sticky
  bases : (u.me.bs, u.me.ba, u.me.bv, u.me.bw) = (s.me.bs, s.me.ba, s.me.bv, s.me.bw)
  ring : (u.me.ringLen, u.me.ringOff) = (s.me.ringLen, s.me.ringOff)

theorem SameButQueues.refl (s : State) : SameButQueues s s := by constructor <;> rfl

theorem SameButQueues.trans {s t u : State} (h : SameButQueues s t) (k : SameButQueues t u) : SameButQueues s u := by
  constructor
  all_goals first
    | exact k.cur.trans h.cur | exact k.mem.trans h.mem | exact k.poison.trans h.poison | exact k.parts.trans h.parts
    | exact k.st.trans h.st | exact k.priv.trans h.priv | exact k.pyrino.trans h.pyrino | exact k.tick.trans h.tick
    | exact k.flight.trans h.flight | exact k.live.trans h.live | exact k.regS.trans h.regS | exact k.regA.trans h.regA
    | exact k.regD.trans h.regD | exact k.regX.trans h.regX | exact k.regY.trans h.regY | exact k.regL.trans h.regL
    | exact k.regV.trans h.regV | exact k.regW.trans h.regW | exact k.regK.trans h.regK | exact k.regP.trans h.regP
    | exact k.regH.trans h.regH | exact k.sticky.trans h.sticky | exact k.bases.trans h.bases | exact k.ring.trans h.ring

/-- A change of the running queues alone, or of what the strap still pops. -/
theorem sameButQueues_updMe (s : State) (g : Flow → Flow)
    (h : ∀ f, (g f).tick = f.tick ∧ (g f).flight = f.flight ∧ (g f).strap.live = f.strap.live) :
    SameButQueues s (s.updMe (fun c => c.updFlow g)) := by
  constructor <;> simp [h]

/-- A change of a core that leaves its contexts. -/
theorem sameButQueues_updMyCore (s : State) (f : Core → Core) (h : (f s.myCore).ctxs = s.myCore.ctxs) :
    SameButQueues s (s.updMyCore f) := by
  have hme : (s.updMyCore f).me = s.me := by
    rw [State.me_updMyCore, Core.ctx]; simp only [h]; rfl
  constructor <;> simp [hme]

/-- A pop changes queues alone. -/
theorem popQueue_same {i : Instr} {p : Spec} {s u : State} {x : VWord} (h : (popQueue i p).run s = (.ok x, u)) :
    SameButQueues s u := by
  unfold popQueue at h
  rw [act_bind_ok (getMe_run s)] at h
  by_cases hst : s.me.st = .helper
  · simp only [hst, if_true] at h
    cases h; exact .refl s
  · simp only [hst, if_false] at h
    cases p with
    | lq =>
      simp only [popLq, act_bind_ok (getMe_run s)] at h
      split at h
      · cases h
        exact sameButQueues_updMe s _ (fun f => ⟨rfl, rfl, rfl⟩)
      · cases h
      · cases h; exact .refl s
    | kq =>
      simp only [popKq, act_bind_ok (getMe_run s)] at h
      split at h
      · cases h; exact .refl s
      · split at h
        · cases h
        · split at h
          · cases h
            exact sameButQueues_updMe s _ (fun f => ⟨rfl, rfl, rfl⟩)
          · cases h
    | rq n =>
      simp only [popRq, act_bind_ok (act_get s)] at h
      split at h
      · cases h
      · cases h
        exact (sameButQueues_updMyCore s _ rfl).trans (sameButQueues_updMe _ _ (fun f => ⟨rfl, rfl, rfl⟩))
    | _ => cases h; exact .refl s

/-- Reading a source of the S, A or a vector slot changes queues alone. -/
theorem srcS_same {i : Instr} {p : Spec} {s u : State} {x : Word} (h : (srcS i p).run s = (.ok x, u)) :
    SameButQueues s u := by
  cases p with
  | reg n => cases h; exact .refl s
  | rel n => cases h; exact .refl s
  | zero => cases h; exact .refl s
  | _ =>
    rw [srcS, act_bind_ok (getMe_run s)] at h
    dsimp only at h
    cases hq : (popQueue i _).run s with
    | mk r v =>
      cases r with
      | error e => rw [act_bind_error hq] at h; cases h
      | ok y => rw [act_bind_ok hq] at h; cases h; exact popQueue_same hq


/-- Reading sources in order changes queues alone. -/
theorem readInOrder_same {i : Instr} {ps : List Spec} {xs : List Word} {s t : State}
    (h : ReadInOrder (srcS i) ps s xs t) : SameButQueues s t := by
  induction ps generalizing s xs with
  | nil =>
    cases xs with
    | nil => cases h; exact .refl _
    | cons x xs => exact h.elim
  | cons p ps ih =>
    cases xs with
    | nil => exact h.elim
    | cons x xs =>
      obtain ⟨u, hu, hr⟩ := h
      exact (srcS_same hu).trans (ih hr)

/-- The template of two sources in the S slot. -/
theorem sBin_ok {i : Instr} {lat : Nat} {d a b : Spec} {f : Word → Word → Word} {s t : State} {x y : Word}
    (h : ReadInOrder (srcS i) [a, b] s [x, y] t) (hs : s.me.st ≠ .helper) :
    ∃ u, (sBin i lat d a b f).run s = (.ok (), u) ∧
      u.updMe (fun c => c.slotDone (opSlot i)) =
        t.updMe (fun c => c.afterOp (opSlot i) lat (sEffect c d (f x y)) 0) := by
  have hsame := readInOrder_same h
  obtain ⟨s1, h1, s2, h2, rfl⟩ := h
  obtain ⟨u, hu, he⟩ := dstS_slotDone (i := i) (lat := lat) (d := d) (v := f x y) (s := s2) (by rwa [hsame.st])
  exact ⟨u, by rw [sBin, act_bind_ok h1, act_bind_ok h2, hu], he⟩

/-- The template of one source in the S slot. -/
theorem sUn_ok {i : Instr} {lat : Nat} {d a : Spec} {f : Word → Word} {s t : State} {x : Word}
    (h : ReadInOrder (srcS i) [a] s [x] t) (hs : s.me.st ≠ .helper) :
    ∃ u, (sUn i lat d a f).run s = (.ok (), u) ∧
      u.updMe (fun c => c.slotDone (opSlot i)) = t.updMe (fun c => c.afterOp (opSlot i) lat (sEffect c d (f x)) 0) := by
  have hsame := readInOrder_same h
  obtain ⟨s1, h1, rfl⟩ := h
  obtain ⟨u, hu, he⟩ := dstS_slotDone (i := i) (lat := lat) (d := d) (v := f x) (s := s1) (by rwa [hsame.st])
  exact ⟨u, by rw [sUn, act_bind_ok h1, hu], he⟩

/-- A slot operation whose body gives a result. -/
theorem slotOp_afterOp {i : Instr} {body : Act Unit} {s t : State} {g : Context → Context}
    (hd : decodeFault s s.me i = none) (hs : Issuing s)
    (h : ∃ u, body.run s = (.ok (), u) ∧ u.updMe (fun c => c.slotDone (opSlot i)) = t.updMe g) :
    slotOp i body s = .next (t.updMe g) := by
  obtain ⟨u, hu, he⟩ := h
  rw [slotOp_ok hd hs.1 hs.2 hu, he]

end Sys2Proof.Machine
end

