-- ==== Sys2Proof/Tests/Slice0.lean ====
section
/-! SUPPORT. The tests: ill-formed terms refused, words of the spec decoded, results of its worked examples, and for every
statement with hypotheses a state and operands that meet them. -/

namespace Sys2Proof.Tests

open Sys2Proof Sys2Proof.Machine

-- States -------------------------------------------------------------------------------------------------------------

/-- Core 0's context 0 of a bound launch in the middle of a strap; `f` and `g` change the context and the core. -/
def made (f : Context → Context) (g : Core → Core) : State :=
  let c : Context := { Context.reset with st := .ready, launch := some 0, mat := true }
  let c := f (c.updFlow (fun x => x.updStrap (fun st => { st with live := true, present := 0x1FF })))
  let s := State.reset.setPart 0 { Partition.reset with formed := true, features := 0xFF, harness := [0], rtcount := 2 }
  s.setCore 0 (g { Core.reset.setCtx 0 c with bound := some 0, flagsOwned := 0xFF })

def busy (f : Context → Context) : State := made f id
def user : State := busy id
def handler : State := busy (fun c => { c with priv := true, st := .trapped, hand := c.user })
/-- The context about to begin a strap. -/
def idle (f : Context → Context) : State := busy (fun c => f (c.updFlow (fun x => x.updStrap (fun st => { st with live := false }))))

/-- What an operation answers, read. -/
def after {α : Type} (i : Instr) (s : State) (f : State → α) : Option α :=
  match exec i s with | .next t => some (f t) | _ => none

/-- The effect that an operation puts in flight last. -/
def result (i : Instr) (s : State) : Option Effect := (after i s (fun t => (t.me.user.flight.getLast?).map (·.eff))).join

-- Ill-formed terms ---------------------------------------------------------------------------------------------------

theorem test_skip_count : (Instr.skip 0 false 17).wf = false := by decide
theorem test_group_number : (Instr.join 64).wf = false := by decide
theorem test_s_destination_lq : (Instr.add .lq (.reg 0) (.reg 0)).wf = false := by decide
theorem test_s_source_sq : (Instr.add (.reg 0) .sq (.reg 0)).wf = false := by decide
theorem test_bins_destination : (Instr.bins .zero (.reg 0) (.reg 0)).wf = false := by decide
theorem test_movx_a_zero : (Instr.movx (.a .zero) (.loc (.x 0))).wf = false := by decide
theorem test_movx_unlisted : (Instr.movx (.s (.reg 0)) (.sys 6)).wf = false := by decide
theorem test_movxB_o4 : (Instr.movxB .v0 (.reg 0) (.reg 0) .o4).wf = false := by decide
theorem test_csrr_unlisted : (Instr.csrr (.reg 0) 6).wf = false := by decide
theorem test_csrw_tick : (Instr.csrw 2 (.reg 0)).wf = false := by decide
theorem test_a_destination_sq : (Instr.aadd .sq (.reg 0) (.reg 0)).wf = false := by decide
theorem test_ordinary_scope : (Instr.lda (.reg 0) (.reg 0) 3 .core .ordinary).wf = false := by decide
theorem test_strong_width : (Instr.sta (.reg 0) (.reg 0) 4 .core .relaxed).wf = false := by decide
theorem test_atom_width : (Instr.atom (.reg 0) (.reg 0) 1 .core .relaxed .add).wf = false := by decide
theorem test_atom_fadd_width : (Instr.atom (.reg 0) (.reg 0) 3 .core .relaxed .fadd).wf = false := by decide
theorem test_cas_data_zero : (Instr.cas (.reg 0) .zero 3 .core .relaxed).wf = false := by decide
theorem test_postf_two_addends : (Instr.postf 0 1 0 .ctx 1).wf = false := by decide
theorem test_postf_local_core : (Instr.postf 1 0 0 .core 1).wf = false := by decide

def h256 : VHdr := { slot := .v0, width := .w256, pred := 0, neg := false }
theorem test_vadd_float : (Instr.vadd h256 .f32 (.reg 0) (.reg 0) (.reg 0)).wf = false := by decide
theorem test_vfadd_integer : (Instr.vfadd h256 .s32 (.reg 0) (.reg 0) (.reg 0)).wf = false := by decide
theorem test_vdot_wide : (Instr.vdot h256 .s32 (.reg 0) (.reg 0) (.reg 0) (.reg 0)).wf = false := by decide
theorem test_vpxu_bit : (Instr.vpxu h256 .s16 (.reg 0) (.reg 0) (.reg 0) 16).wf = false := by decide
theorem test_vbitx_length : (Instr.vbitx h256 .s16 (.reg 0) (.reg 0) (.reg 0) 17).wf = false := by decide
theorem test_vlut_unread : (Instr.vlut h256 .s8 (.reg 0) (.reg 0) (.reg 0) (.reg 1) false).wf = false := by decide
theorem test_vbcast_element : (Instr.vbcast h256 .s16 (.reg 0) (.reg 0) 16).wf = false := by decide
theorem test_vslide_distance : (Instr.vslide h256 .s16 (.reg 0) (.reg 0) (.reg 0) 17).wf = false := by decide
theorem test_vli_high_bits : (Instr.vli h256 .e4m3 (.reg 0) 0x100).wf = false := by decide
theorem test_pand_predicated : (Instr.pand { h256 with pred := 1 } 0 0 0).wf = false := by decide
theorem test_vfcvt_integers : (Instr.vfcvt h256 .s8 .s16 (.reg 0) (.reg 0) (.reg 0) 0 .rne).wf = false := by decide
theorem test_vfcvt_part : (Instr.vfcvt h256 .f32 .bf16 (.reg 0) (.reg 0) (.reg 0) 2 .rne).wf = false := by decide
theorem test_vqnt_narrow : (Instr.vqnt h256 .f32 (.reg 0) (.reg 0) (.reg 0) .o4 .rne).wf = false := by decide
theorem test_vrelub_kq_twice : (Instr.vrelub h256 .bf16 (.reg 0) .kq).wf = false := by decide
theorem test_vred_sum_bit : (Instr.vred h256 .b1 (.reg 0) (.reg 0) .sum).wf = false := by decide
theorem test_vred_and_float : (Instr.vred h256 .f32 (.reg 0) (.reg 0) .and).wf = false := by decide
theorem test_mma_scale_of_bf16 : (Instr.mma .bf16 .bf16 0 1 0 false false false).wf = false := by decide
theorem test_mdrn_format : (Instr.mdrn .f16 0 0).wf = false := by decide
-- Words of the spec --------------------------------------------------------------------------------------------------

def dec (slot : Slot) (w : BitVec 48) : Option Instr := (decodeOp { slot := slot, width := .w256, word := w }).toOption
theorem test_word_loop : dec .c 0x08A47FFF = some (.loop 5 1 0 32767) := by decide
theorem test_word_eret : dec .c 0x30000000 = some .eret := by decide
theorem test_word_cmpi : dec .s 0x210C40AA = some (.cmpi (.p 3) (.reg 4) 10 .lt) := by decide
theorem test_word_csrr : dec .s 0x38600010 = some (.csrr (.reg 24) 0x010) := by decide
theorem test_word_andi : dec .s 0x0B618E00 = some (.andi (.reg 24) (.reg 24) (-512)) := by decide
theorem test_word_lda : dec .a 0x1012B600 = some (.lda (.reg 4) .zero 3 .ctx .ordinary) := by decide
theorem test_word_lds : dec .a 0x11209400 = some (.lds (.reg 8) (.reg 9) 2) := by decide
theorem test_word_fence : dec .y 0x090005C0 = some (.fence .part .sc) := by decide
theorem test_word_postf : dec .y 0x02001101 = some (.postf 0 0 1 .core 1) := by decide
theorem test_word_kset : dec .k 0x02300078 = some (.kset 3 0x78) := by decide
theorem test_word_mma : dec .m 0x013560480000 = some (.mma .e4m3 .o4 3 1 2 false false false) := by decide
theorem test_word_xtrig : dec .x 0x1800AC0AEB00 = some (.xtrig 0 0) := by decide
theorem test_word_xcp : dec .x 0x01011870C400 = some (.xcp 1 6 7 3 (.x 4) false) := by decide
theorem test_x_specifier : dec .x 0x01018070C400 = none := by decide
theorem test_word_vpxu : dec .v0 0x2070060D600B = some (.vpxu h256 .s16 (.reg 3) (.reg 1) .zero 11) := by decide
theorem test_word_reserved_opcode : dec .s 0 = none := by decide
theorem test_word_reserved_bit : dec .c 0x30000001 = none := by decide


-- Witnesses: operands and the S, A, K, Y and C slots -------------------------------------------------------------------

theorem issuing_user : IssuingUser user := ⟨⟨rfl, nofun⟩, rfl⟩
theorem issuing_handler : Issuing handler ∧ handler.me.priv = true := ⟨⟨rfl, nofun⟩, rfl⟩
theorem issuing_c : IssuingC user ∧ IssuingC handler := ⟨⟨issuing_user.1, .inl rfl⟩, issuing_handler.1, .inl rfl⟩
/-- Two registers read. -/
theorem two_read (i : Instr) : ReadInOrder (srcS i) [.reg 2, .reg 3] user [0, 0] user ∧
    ReadInOrder (srcA i) [.reg 2, .reg 3] user [0, 0] user := ⟨⟨_, rfl, _, rfl, rfl⟩, _, rfl, _, rfl, rfl⟩
theorem three_read (i : Instr) : ReadInOrder (srcS i) [.reg 1, .reg 2, .reg 3] user [0, 0, 0] user ∧
    ReadInOrder (srcA i) [.reg 1, .reg 2, .reg 3] user [0, 0, 0] user := ⟨⟨_, rfl, _, rfl, _, rfl, rfl⟩, _, rfl, _, rfl, _, rfl, rfl⟩
theorem one_read (i : Instr) : ReadInOrder (srcS i) [.reg 2] user [0] user ∧ ReadInOrder (srcA i) [.reg 2] user [0] user :=
  ⟨⟨_, rfl, rfl⟩, _, rfl, rfl⟩

theorem witness_ScalarArithmeticResults : (∃ lat f, scalarRule (.add (.reg 1) (.reg 2) (.reg 3)) = some (.reg 1, [.reg 2, .reg 3], lat, f)) ∧
    (Instr.add (.reg 1) (.reg 2) (.reg 3)).wf = true ∧ Issuing user ∧
    ReadInOrder (srcS (.add (.reg 1) (.reg 2) (.reg 3))) [.reg 2, .reg 3] user [0, 0] user :=
  ⟨⟨_, _, rfl⟩, rfl, issuing_user.1, (two_read _).1⟩

theorem witness_ScalarComparesMovesAndSystemRegisters :
    (Instr.cmp (.p 1) (.reg 2) (.reg 3) .lt).wf = true ∧ (Instr.cmpi (.s .zero) (.reg 2) 255 .eq).wf = true ∧
    (Instr.sel .sq (.reg 2) (.reg 3) true 15).wf = true ∧ (Instr.bins (.reg 1) (.reg 2) (.reg 3)).wf = true ∧
    (Instr.movx (.y 7) (.loc (.s (.reg 2)))).wf = true ∧ movRead (.movx (.y 7) (.sys 2)) (.sys 2) user 0 user ∧
    (Instr.movxB .v1 (.reg 1) (.reg 2) .b1).wf = true ∧ (Instr.setb .bw (.reg 2)).wf = true ∧
    (Instr.csrr (.reg 1) 0x821).wf = true ∧ sysRule handler 0x821 = some 0 ∧ sysRule user 5 = some 0 ∧
    (Instr.csrr (.reg 1) 0x822).wf = true ∧ (Instr.csrw 4 (.reg 2)).wf = true ∧ sysWritable false 4 = true ∧
    sysWritable true 0x821 = true := by
  refine ⟨rfl, rfl, rfl, rfl, rfl, ⟨rfl, rfl⟩, rfl, rfl, rfl, rfl, rfl, rfl, rfl, rfl, rfl⟩

/-- A context with an entry in each of its queues. -/
def queued (st : EntryState) (mark : Option FaultInfo) : State :=
  let lq : List LqEntry := [{ id := 0, part := 0, st := st }]
  let kq : List KqEntry := [{ id := 0, data := 1, cls := 1, base := 64, mark := mark }]
  made (fun c => c.updFlow (fun f => { f with q := { f.q with lq := lq, kq := kq } }))
    (fun k => { k with rq := Vector.replicate 8 { present := [{ id := 3, data := 5, claimed := false }], owed := [] } })
def fault9 : FaultInfo := { code := 0x0B, detail := 0, addr := 0 }

theorem witness_QueueOperandsPop :
    (queued (.present 7) none).me.st ≠ .helper ∧
    (queued (.present 7) none).me.flow.q.lq = [{ id := 0, part := 0, st := .present 7 }] ∧
    (queued (.marked fault9) none).me.flow.q.lq = [{ id := 0, part := 0, st := .marked fault9 }] ∧
    (user.myCore.rq[7]).present = [] ∧
    ((queued .reserved none).myCore.rq[7]).present = [{ id := 3, data := 5, claimed := false }] ∧
    opSlot (.add (.reg 0) .kq (.reg 0)) = 1 ∧
    (queued .reserved none).me.flow.q.kq = [{ id := 0, data := 1, cls := 1, base := 64, mark := none }] ∧
    (busy (fun c => { c with st := .helper })).me.st = .helper := by
  refine ⟨by decide, rfl, rfl, rfl, rfl, rfl, rfl, rfl⟩

theorem witness_ResultInstructionsFrame : resultOnly (.add (.reg 1) (.reg 2) (.reg 3)) = true ∧ Issuing user ∧
    ∃ t, exec (.add (.reg 1) (.reg 2) (.reg 3)) user = .next t ∧ t.me.priv = user.me.priv :=
  ⟨rfl, issuing_user.1, _, rfl, rfl⟩

theorem witness_AddressArithmeticResults :
    (∃ f, addressRule (.amadd (.reg 0) (.reg 1) (.reg 2) (.reg 3)) = some (.reg 0, [.reg 1, .reg 2, .reg 3], f)) ∧
    (Instr.amadd (.reg 0) (.reg 1) (.reg 2) (.reg 3)).wf = true ∧
    ReadInOrder (srcA (.amadd (.reg 0) (.reg 1) (.reg 2) (.reg 3))) [.reg 1, .reg 2, .reg 3] user [0, 0, 0] user :=
  ⟨⟨_, rfl⟩, rfl, (three_read _).2⟩

theorem witness_LoadsAndAtomicsEnterTheQueue :
    (Instr.lda (.reg 2) (.reg 3) 7 .ctx .ordinary).wf = true ∧ (0 + 0 : Word).toNat % 2 ^ 7 = 0 ∧
    (Instr.lds (.reg 2) (.reg 3) 7).wf = true ∧ (∀ a ∈ strideRule 0 0 (2 ^ 7), a.toNat % 2 ^ 7 = 0) ∧
    (Instr.ldt (.reg 2) (.reg 3)).wf = true ∧ (∃ r u, user.takeRecord user.cur.core user.me.part 0 = (r, u)) ∧
    (Instr.ldk (.reg 2) (.reg 3) .sign).wf = true ∧ (Instr.gidx (.reg 2) (.reg 3)).wf = true ∧
    (Instr.atom (.reg 2) (.reg 3) 3 .sys .seqCst .max).wf = true ∧ (Instr.cas (.reg 2) (.reg 31) 3 .sys .seqCst).wf = true ∧
    pairRule user.me (.reg 31) = some 31 ∧ (Instr.pf (.reg 2) (.reg 3) 7).wf = true := by
  refine ⟨rfl, rfl, rfl, by simp [strideRule, wordOf], rfl, ⟨_, _, rfl⟩, rfl, rfl, rfl, rfl, rfl, rfl⟩


/-- Core 0's context with register a1 at its own core's window and a2 zero, and a kept record of one bf16 element there. -/
def atPad (g : Core → Core) : State :=
  let s := made (fun c => { c with a := (c.a.set 1 0xFFF000000000).set 4 0x100000001F000 }) g
  let hdr : List Byte := [1, 5, 0x16, 1, 0, 1, 0, 0, 1, 2, 0, 0, 0, 0, 0, 0, 0x80, 0x3F]
  { s with mem := (memWriteAll [] (padBase 0) hdr) ++ [(tagKey (padBase 0), 1)] }

/-- The same with a cached shape record of one bf16 element in the granule after that record. -/
def shapeBytes : List Byte := natBytes 8 0xFFF000000040 ++ [1, 1, 1, 0, 0, 0, 0, 0] ++ natBytes 4 1 ++ natBytes 4 1 ++ natBytes 4 1 ++
    natBytes 4 1 ++ List.replicate 32 0
def withShape : State := atPad (fun k => { k with records := [(1, shapeBytes)] })
/-- Whether an action succeeds, and a value of what it answers. -/
def passes {α : Type} (a : Act α) (s : State) (p : α → Bool) : Bool := match a.run s with | (.ok x, _) => p x | _ => false

theorem witness_StoresEnterTheirQueues_1 :
    (Instr.sta (.reg 1) (.reg 3) 0 .sys .seqCst).wf = true ∧
    ReadInOrder (srcA (.sta (.reg 1) (.reg 3) 0 .sys .seqCst)) [.reg 1, .reg 3] (atPad id) [0xFFF000000000, 0] (atPad id) ∧
    passes (checkTargets (.sta (.reg 1) (.reg 3) 0 .sys .seqCst) false true true (bytesAt 0xFFF000000040 1) []) (atPad id) (fun _ => true) = true :=
  ⟨rfl, ⟨_, rfl, _, rfl, rfl⟩, by decide⟩
theorem witness_StoresEnterTheirQueues_2 : (Instr.sts (.reg 1) (.reg 3) 7).wf = true ∧
    passes (checkTargets (.sts (.reg 1) (.reg 3) 0) false false true [0xFFF000000040, 0xFFF000000041] []) (atPad id) (fun _ => true) = true :=
  ⟨rfl, by decide⟩
theorem witness_StoresEnterTheirQueues_3 :
    (withShape.takeRecord 0 0 1).1 = .bytes shapeBytes ∧
    (match shapeOf shapeBytes with
     | some h => !h.noWrite && h.fmt != .o4 &&
        passes (checkTargets (.stt (.reg 3) (.reg 3)) false false true (tileVas h 1 0) []) withShape (fun _ => true)
     | none => false) = true := ⟨rfl, by decide⟩
theorem witness_StoresEnterTheirQueues_4 :
    (match shapeWordOf RClass.sign.code.toNat 0x100007000 with
     | some sw => passes (checkTargets (.skst (.reg 1) (.reg 3) .sign) false false true
         (recordVas 0xFFF000000040 (sw.payload RClass.sign.code.toNat)) []) (atPad id) (fun _ => true)
     | none => false) = true := by decide
theorem witness_StoresEnterTheirQueues_5 :
    passes (do
      let fr0 ← checkTargets (.skrtg (.reg 1) (.reg 3) .sign) true false false [0xFFF000000000] []
      let g0 ← readGranule fr0 0xFFF000000000
      let fr ← checkTargets (.skrtg (.reg 1) (.reg 3) .sign) true false false (recordVas 0xFFF000000000 (headerOf g0.1).payload) []
      let gs ← (recordVas 0xFFF000000000 (headerOf g0.1).payload).mapM (readGranule fr)
      return (g0, gs)) (atPad id) (fun (g0, gs) =>
        g0.2.1 && !g0.2.2 && headerReason true (headerOf g0.1) none == none && gs.all (fun g => g.2.1 && !g.2.2) &&
        (match retagOf (headerOf g0.1) (((gs.flatMap (·.1)).drop 16).take (headerOf g0.1).payload) 1 0 false with
         | .rewrite _ _ _ => true | _ => false)) = true := by decide

/-- Whether an answer is one of success. -/
def ok {α ε : Type} (r : Except ε α) : Bool := match r with | .ok _ => true | .error _ => false

theorem witness_ScaleRegisterInstructions : IssuingUser user ∧ user.kept (padBase 0) = false ∧
    (∀ k < 128, user.poisoned (padBase user.cur.core + 128 * 0 + k) = false) ∧
    128 = ((user.me.d.get (cellRule user.me 0)).toNat + 128 * 1) % 2 ^ 21 ∧ 128 % 128 = 0 :=
  ⟨issuing_user, by decide, fun _ _ => rfl, by decide, rfl⟩

/-- Thread 0 is a member of group 1, and y0 is its own core's window. -/
def member : State :=
  (busy (fun c => { c with y := c.y.set 0 0xFFF000000000 })).updPart 0 (fun p =>
    { p with groups := [(1, { members := [0], coming := [], arrived := [], passed := [0] })] })

theorem witness_SynchronisationInstructions : user.myCore.flagsOwned.getLsbD 7 = true ∧
    (Instr.postf 0 0 7 .ctx 1).wf = true ∧ (Instr.postf 0 0 7 .sys 63).wf = true ∧
    user.logical user.me.part 0 = some 0 ∧ user.inScope .sys user.cur.core 0 = true ∧ Issuing member ∧
    ok (watchOf member 0 1 .core .eq).1 = true ∧ member.me.thread ∈ (member.group member.me.part 1).members ∧
    (0 : CoreId) ∈ member.scopeCores .part :=
  ⟨rfl, rfl, rfl, by decide, by decide, ⟨rfl, nofun⟩, by decide, by decide, by decide⟩

theorem witness_WaitingStrapBlocks :
    (let s := idle (fun c => { c with y := c.y.set 0 1 })
     s.me.flow.strap.live = false ∧ s.me.st = .ready ∧ (s.myCore.flag 7).toNat < (s.me.y.get 0).toNat % 2 ^ 32) ∧
    (let l : LoadOp := { id := 0, ea := 0, kind := .lda 3 .ctx .ordinary, got := [], pushed := 0, stuck := false, redo := false }
     let s := idle (fun c => c.updFlow (fun f => { f with q := { f.q with la := [l] } }))
     s.me.flow.strap.live = false ∧ (0 : BitVec 6).toNat < outLoads s.me) :=
  ⟨⟨rfl, rfl, by decide⟩, rfl, by decide⟩

/-- Core 0's context 0 in a strap before a strap that can be fetched. -/
def fetching : State :=
  let s := State.reset.withFetchWord 32 0x30000000
  s.updMe (fun c => c.updFlow (fun f => f.updStrap (fun st => { st with live := true, next := 0 })))

theorem witness_TransfersSkipsAndLoops : IssuingC user ∧ IssuingC fetching ∧ fetching.me.pyrino = false ∧
    ok (fetching.fetchAt fetching.me fetching.me.flow.strap.next.toNat) = true ∧
    (Instr.skip 0 false 1).wf = true ∧ (Instr.skip 15 true 16).wf = true ∧
    IssuingC (busy (fun c => { c with pyrino := true, user := { c.user with delayTo := some 5 } })) :=
  ⟨issuing_c.1, ⟨⟨rfl, nofun⟩, .inl rfl⟩, rfl, by decide, rfl, rfl, ⟨⟨rfl, nofun⟩, .inr rfl⟩⟩

/-- Two points wait at the core, and its thread has drawn the first of them. -/
def drawing : State :=
  made (fun c => { c with lastPoint := some { i0 := 0, i1 := 1, i2 := 0 } })
    (fun k => { k with points := [{ i0 := 0, i1 := 1, i2 := 0 }, { i0 := 0, i1 := 2, i2 := 0 }] })

theorem witness_ThreadControl : IssuingC user ∧ (∀ p ∈ user.myCore.points, user.me.mayDraw p = false) ∧
    (busy (fun c => c.updFlow (fun f => f.updStrap (fun st => { st with exits := true })))).me.flow.strap.exits = true ∧
    (busy (fun c => c.updFlow (fun f => f.updStrap (fun st => { st with away := some 3 })))).me.flow.strap.away = some 3 ∧
    drawing.myCore.points = [{ i0 := 0, i1 := 1, i2 := 0 }] ++ { i0 := 0, i1 := 2, i2 := 0 } :: [] ∧
    drawing.me.mayDraw { i0 := 0, i1 := 1, i2 := 0 } = false ∧ drawing.me.mayDraw { i0 := 0, i1 := 2, i2 := 0 } = true ∧
    user.me.thread ∉ (user.group user.me.part 63).members ∧ strapHasGbar user 63 = false ∧ user.colls = [] ∧
    member.me.thread ∈ (member.group member.me.part 1).members ∧ strapHasGbar member 1 = false ∧
    openPartOf member member.cur 1 = false ∧ member.me.priv = false :=
  ⟨issuing_c.1, nofun, rfl, rfl, rfl, by decide, by decide, by decide, by decide, rfl, by decide, by decide, by decide, rfl⟩

theorem witness_TrapInstructionsEnterTheHandler : IssuingC user ∧ user.me.priv = false ∧ user.me.flow.delayTo = none ∧
    user.me.flow.strap.taken = none ∧ user.me.flow.strap.exits = false ∧ user.me.flow.strap.away = none :=
  ⟨issuing_c.1, rfl, rfl, rfl, rfl, rfl⟩
theorem witness_EretReturnsToUserMode : IssuingC handler ∧ handler.me.priv = true := ⟨issuing_c.2, rfl⟩
theorem witness_SynchronousFaults : user.me.priv = false ∧ user.me.resume = none ∧
    (let c := (busy (fun c => { c with pyrino := true })).me
     c.priv = false ∧ c.resume = none ∧ c.pyrino = true ∧ (8 : BitVec 4) ≠ 5 ∧ (8 : BitVec 4) ≠ 7) := ⟨rfl, rfl, rfl, rfl, rfl, nofun, nofun⟩
theorem witness_NestedFaultStops : handler.me.priv = true ∧ IssuingC handler := ⟨rfl, issuing_c.2⟩

theorem witness_AsynchronousFaultDelivery : asyncCode 0x12 = true ∧ (user.ctx user.cur).launch.isSome = true ∧
    (let x := (idle id).ctx user.cur
     x.st = .ready ∧ x.priv = false ∧ x.resume = none ∧ x.pendingFaults = [] ∧ x.user.strap.live = false ∧ x.launch.isSome = true) ∧
    (user.ctx user.cur).st = .ready ∧ (user.ctx user.cur).flow.strap.live = true ∧
    ((idle (fun c => { c with pendingFaults := [fault9] })).ctx user.cur).pendingFaults ≠ [] ∧
    (handler.ctx handler.cur).st = .trapped := ⟨rfl, rfl, ⟨rfl, rfl, rfl, rfl, rfl, rfl⟩, rfl, rfl, nofun, rfl⟩

theorem witness_PrivilegedAndIllegalFault : user.me.st ≠ .helper ∧ (0x800 : BitVec 12).toNat = 0x800 ∧
    (Instr.add .lq (.reg 0) (.reg 0)).encode.isSome = true ∧ (Instr.add .lq (.reg 0) (.reg 0)).wf = false ∧
    (Instr.trap 0).encode.map (·.slot) = some .c ∧ Instr.mdrain.encode.map (·.slot) = some .m ∧
    (Instr.xcpz 0 1 2 3 4 true).encode.isSome = true ∧ (2 ∈ featuresRule (.xcpz 0 1 2 3 4 true)) ∧
    ((user.updPart 0 (fun p => { p with features := 0xFB })).part user.me.part).features.getLsbD 2 = false ∧
    (busy (fun c => c.updFlow (fun f => { f with delayTo := some 5 }))).me.flow.delayTo.isSome = true ∧
    (busy (fun c => { c with mat := false })).me.mat = false ∧ (Instr.csrw 0x15 (.reg 0)).encode.isSome = true :=
  ⟨nofun, rfl, by decide, rfl, by decide, by decide, by decide, by decide, rfl, rfl, rfl, by decide⟩

/-- Register a1 holds an odd address. -/
def odd : State := busy (fun c => { c with a := c.a.set 1 1 })
theorem witness_MisalignedAccessesFault : Issuing odd ∧ odd.me.priv = false ∧
    (Instr.lda (.reg 1) (.reg 2) 1 .ctx .ordinary).wf = true ∧
    ReadInOrder (srcA (.lda (.reg 1) (.reg 2) 1 .ctx .ordinary)) [.reg 1, .reg 2] odd [1, 0] odd ∧ (1 + 0 : Word).toNat % 2 ^ 1 ≠ 0 ∧
    (Instr.ldk (.reg 1) (.reg 2) .full).wf = true ∧ (1 + 0 : Word).toNat % 64 ≠ 0 ∧
    (Instr.atom (.reg 1) (.reg 2) 2 .core .relaxed .fadd).wf = true ∧ (1 : Word).toNat % 2 ^ 2 ≠ 0 :=
  ⟨⟨rfl, nofun⟩, rfl, rfl, ⟨_, rfl, _, rfl, rfl⟩, by decide, rfl, by decide, rfl, by decide⟩

/-- A core whose context 0 has results that land now. -/
def landing (l : List Flight) : Core := Core.reset.setCtx 0 (Context.reset.updFlow (fun f => { f with flight := l }))
def now (slot : BitVec 4) (e : Effect) : Flight := { due := 0, slot := slot, eff := e, flags := 1 }
theorem witness_LandingWritesExactlyItsTarget :
    ((landing [now 1 (.s 31 7)]).ctx 0).flow.flight.filter (fun r => r.due ≤ ((landing [now 1 (.s 31 7)]).ctx 0).flow.tick) = [now 1 (.s 31 7)] ∧
    ((landing [now 1 (.sys 0x81F 7)]).ctx 0).flow.flight.filter (fun r => r.due ≤ ((landing [now 1 (.sys 0x81F 7)]).ctx 0).flow.tick) =
      [now 1 (.sys 0x81F 7)] := by decide
theorem witness_LandingOrderAtOneTick :
    ((landing [now 0 (.shift 1), now 1 (.sys 4 9)]).ctx 0).flow.flight.filter
      (fun r => r.due ≤ ((landing [now 0 (.shift 1), now 1 (.sys 4 9)]).ctx 0).flow.tick) = [now 0 (.shift 1), now 1 (.sys 4 9)] := by decide

-- Witnesses: the vector and matrix slots -------------------------------------------------------------------------------

theorem witness_VectorIntegerAndPermutation :
    (vecIntRule (.vadd h256 .s8 (.rq 7) (.reg 1) (.reg 2))).isSome = true ∧ (Instr.vadd h256 .s8 (.rq 7) (.reg 1) (.reg 2)).wf = true ∧
    IssuingUser user ∧ ReadInOrder (srcV (.vadd h256 .s8 (.rq 7) (.reg 1) (.reg 2)) .v0) [.reg 1, .reg 2] user [0, 0] user ∧
    HasRoom user 7 ∧ (vecMoveRule (.vslide h256 .s8 .sq (.reg 1) (.reg 2) 32)).isSome = true ∧
    (Instr.vslide h256 .s8 .sq (.reg 1) (.reg 2) 32).wf = true :=
  ⟨rfl, rfl, issuing_user, ⟨_, rfl, _, rfl, rfl⟩, by unfold HasRoom; decide, rfl, rfl⟩

theorem witness_VectorFloatAndReaderResults :
    (vecFloatRule (.vftanh h256 .f16 .zero (.rel 15))).isSome = true ∧ (Instr.vftanh h256 .f16 .zero (.rel 15)).wf = true ∧
    ReadInOrder (srcV (.vftanh h256 .f16 .zero (.rel 15)) .v0) [.rel 15] user [0] user ∧
    (vecFloatRule (.vrelub h256 .bf16 (.reg 0) (.reg 1))).isSome = true ∧
    passes (srcV (.vrelub h256 .bf16 (.reg 0) (.reg 1)) .v0 .kq) (queued .reserved none) (fun _ => true) = true :=
  ⟨rfl, rfl, ⟨_, rfl, rfl⟩, rfl, by decide⟩

theorem witness_PredicateAndWholeResults :
    (vecCmpRule (.vfcmp h256 .e5m2 15 (.reg 0) .lq .un)).isSome = true ∧ (Instr.vfcmp h256 .e5m2 15 (.reg 0) .lq .un).wf = true ∧
    (predLogicRule (.pnot h256 15 0)).isSome = true ∧ (Instr.pnot h256 15 0).wf = true ∧
    (Instr.pset h256 .s8 1 (.imm 63)).wf = true ∧ (Instr.pset h256 .s8 1 (.by (.reg 2))).wf = true ∧
    ReadInOrder (srcV (.pset h256 .s8 1 (.by (.reg 2))) .v0) [.reg 2] user [0] user ∧
    (Instr.vsel h256 .f32 .sq (.reg 1) (.reg 2)).wf = true ∧ (Instr.vpxp h256 .s8 (.rq 0) (.reg 1) 7 true).wf = true ∧
    (Instr.vcmpr h256 .s64 (.reg 0) (.reg 1) true).wf = true ∧ (Instr.pcnt h256 .b1 .sq).wf = true ∧
    (Instr.vmovx h256 .e4m3 (.rel 0) (.reg 1)).wf = true :=
  ⟨rfl, rfl, rfl, rfl, rfl, rfl, ⟨_, rfl, rfl⟩, rfl, rfl, rfl, rfl, rfl⟩

def h1024 : VHdr := { slot := .v1, width := .w1024, pred := 15, neg := true }
theorem witness_VectorConversions : (Instr.vfcvt h1024 .e4m3 .f32 (.reg 0) (.reg 1) (.reg 2) 3 .rs).wf = true ∧
    (Instr.vfcvt h1024 .f32 .e4m3 (.reg 0) (.reg 1) (.reg 0) 3 .rs).wf = true ∧
    ReadInOrder (srcV (.vfcvt h1024 .e4m3 .f32 (.reg 0) (.reg 1) (.reg 2) 3 .rs) .v1) [.reg 1, .reg 2] user [0, 0] user :=
  ⟨rfl, rfl, _, rfl, _, rfl, rfl⟩
theorem witness_QuantisationResults : (Instr.vamax h1024 .f32 .sq (.reg 1) (.reg 2)).wf = true ∧
    (Instr.vscl h1024 .bf16 (.rq 7) (.reg 1) .o4 true).wf = true ∧ (Instr.vqnt h1024 .f32 (.reg 0) (.reg 1) (.reg 2) .o4 .rs).wf = true ∧
    ReadInOrder (srcV (.vqnt h1024 .f32 (.reg 0) (.reg 1) (.reg 2) .o4 .rs) .v1) [.reg 1, .reg 2] user [0, 0] user :=
  ⟨rfl, rfl, rfl, _, rfl, _, rfl, rfl⟩
theorem witness_TreeUnitResults : (Instr.vred h1024 .f16 .zero (.reg 1) .max).wf = true ∧
    (Instr.vscan h1024 .s64 .sq (.reg 1) (.rel 3) .xor).wf = true ∧
    ReadInOrder (srcV (.vred h1024 .f16 .zero (.reg 1) .max) .v1) [.reg 1] user [0] user := ⟨rfl, rfl, _, rfl, rfl⟩

/-- The matrix engine of core 0 in a state. -/
def engine (m : MState) : State := made id (fun k => { k with mstate := m })
def config (fa fb : Fmt) (mode : MMode) (used : Bool) : MConfig := { fa := fa, fb := fb, mode := mode, cell := 0, used := used }
theorem issuing_m (i : Instr) (m : MState) (h : featuresOk 0xFF i = true) : IssuingM i (engine m) := ⟨⟨⟨rfl, nofun⟩, rfl⟩, rfl, h⟩
theorem witness_MatrixProducts :
    (Instr.mma .bf16 .o4 7 0 15 true true true).wf = true ∧
    IssuingM (.mma .bf16 .o4 7 0 15 true true true) (engine (.configured (config .bf16 .o4 .float true))) ∧
    WayFree (engine (.configured (config .bf16 .o4 .float true))) (wayRule .bf16 .o4 .float) ∧
    IssuingM (.mmb .b1 .b1 7 true true true true) (engine (.configured (config .b1 .b1 .binary true))) ∧
    (Instr.mmb .b1 .b1 7 true true true true).wf = true ∧ WayFree (engine (.configured (config .b1 .b1 .binary true))) 1 :=
  ⟨rfl, issuing_m _ _ rfl, .inr (by decide), issuing_m _ _ rfl, rfl, .inr (by decide)⟩
theorem witness_MatrixConfigurationAndMoves :
    (Instr.mcfg .s8 .o4 0 false true).wf = true ∧ IssuingM (.mcfg .s8 .o4 0 false true) (engine .unset) ∧
    pairMode .s8 .o4 true = some .int ∧ (engine (.configured (config .s8 .o4 .int false))).myCore.mstate = .configured (config .s8 .o4 .int false) ∧
    IssuingM .mdrain (engine .unset) ∧ (Instr.mdrn .bf16 7 7).wf = true ∧ (Instr.mdrn .s32 7 7).wf = true ∧
    (engine .unset).myCore.drainUntil ≤ (engine .unset).me.user.tick ∧
    ((engine .unset).myCore.rq[7]).present.length + ((engine .unset).myCore.rq[7]).owed.length + 128 ≤ 128 ∧
    accPending (engine .unset).me 7 = [] ∧ (Instr.mlda .bf16 7 16320).wf = true ∧ 16320 * 128 + 8192 = 2 ^ 21 ∧
    (∀ g : Nat, (engine .unset).kept (padBase 0 + 16320 * 128 + 64 * g) = false) :=
  ⟨rfl, issuing_m _ _ rfl, rfl, rfl, issuing_m _ _ rfl, rfl, rfl, by decide, by decide, rfl, rfl, rfl, fun _ => rfl⟩

-- Witnesses: the copy slot and the events of contexts ------------------------------------------------------------------

def chanOf (receive : Bool) : ChanEntry :=
  { peerModule := 0xFFFF, vc := 0, comm := 1, base := 0, slots := 1, flag := 2, depth := 1, cols := 64, rows := 1, fmt := .bf16,
    receive := receive, mode := 0, peer := 0 }
def commOf : CommEntry := { num := 1, group := 1, prio := 0, vc := 0, desc := false, alg := 2, chunk := 9 }
/-- The tokens of a literal bundle of one operation. -/
def tokensOf (i : Instr) : List (BitVec 16) := match i.encode with | some o => literalTokens o | none => []
/-- A loaded form of one operation, with a send end, a receive end and a communicator over group 1. -/
def codeOf (i : Instr) : Code :=
  { uid := 3, status := 0, tokens := tokensOf i, bundles := [], dict := [], slices := [{ from_ := 0, to_ := 32, tokens := [] }], entries := [],
    flags := 0, chans := [chanOf false, chanOf true], comms := [commOf], symm := none, bound := 0, mmr := 0, pyrino := false,
    data := [], dataWritten := false }
/-- A state in which thread 0 is the member of group 1 and the context's code is one operation. -/
def coded (i : Instr) (s : State) : State :=
  s.updPart 0 (fun p => { p with groups := [(1, { members := [0], coming := [], arrived := [], passed := [0] })], codes := [(0, codeOf i)] })
def setX (r : RegFile 3 64) (c : Context) : Context := { c with x := r }
/-- Two gather rows, x0 to x7, and result queues of two entries. -/
def copying (r : RegFile 3 64) (g : Core → Core) : State :=
  let row (n : Nat) : LoadOp := { id := n, ea := 64, kind := .gidx, got := [], pushed := 0, stuck := false, redo := false }
  let s := made (fun c => setX r (c.updFlow (fun f => { f with q := { f.q with la := [row 0, row 1] } })))
    (fun k => g { k with rq := Vector.replicate 8 { present := [{ id := 8, data := 5, claimed := false }],
                                                    owed := [{ id := 9, data := 0, claimed := false }] } })
  { coded .eret s with registrations := [(1, (1 : BitVec 256) ||| ((9 : BitVec 256) <<< 40))] }
def plain : State := copying (Vector.replicate 8 0x40) id
theorem issuing_x (i : Instr) (h : featuresOk 0xFF i = true) : IssuingX i plain := ⟨⟨⟨rfl, nofun⟩, rfl⟩, h⟩

theorem witness_CopyAndFillCommands : IssuingX (.xcp 7 1 2 3 .none true) plain ∧
    (Instr.xcpz 0 1 2 3 4 true).wf = true ∧ (Instr.xcpc 0 .bf16 1 2 3 4 .i2 7).wf = true ∧ StampFits (some (0x0080000000000040, 1)) ∧
    (let s := copying #v[0, 0, 0x10000000000040, 0x10000000000040, 0, 0, 0, 0] id
     (copyRule s (.xcpz 0 1 2 3 4 true)).isSome = true ∧ (xRegRule s.me 3).toNat / 2 ^ 32 ≠ 0 ∧ (xRegRule s.me 3).toNat / 2 ^ 52 ≠ 0) ∧
    (∃ e, plain.chanEntry plain.me 0 = some e ∧ e.receive = false ∧ (plain.me.chan 0).withdrawn = false) ∧
    (∃ e, plain.chanEntry plain.me 1 = some e ∧ e.receive = true) ∧ plain.grants 1 (plain.vfOf plain.me.part) 0 = true ∧
    (Instr.xfill 0 .bf16 2 (.x 3) .none false true false).wf = true ∧ (gatherRows plain.me).length = 2 ∧
    (let q := plain.myCore.rq[7]; ((q.present ++ q.owed).filter (fun e => !e.claimed)).length = 2) ∧
    (Instr.xgath 0 .none 1 .none).wf = true ∧ (Instr.xscat 0 1 2 .none).wf = true ∧ (Instr.xpopq 0 1 7 2 .none).wf = true :=
  ⟨issuing_x _ rfl, rfl, rfl, by simp [StampFits], ⟨rfl, by decide, by decide⟩, ⟨_, rfl, rfl, rfl⟩, ⟨_, rfl, rfl⟩, by decide, rfl, rfl, rfl, rfl, rfl, rfl⟩

theorem witness_CollectiveAndTriggerCommands : plain.commEntry plain.me 1 = some commOf ∧
    plain.me.thread ∈ (plain.group plain.me.part commOf.group).members ∧ (Instr.xcoll 1 2 3 4 .none 0 4).wf = true ∧
    plain.collOf plain.cur 1 0 = none ∧ (plain.part plain.me.part).features.getLsbD 6 = true ∧
    (let s := plain
     (trigChecks s s.cur 63 { st := .armed, id := 0, ctx := 0, w0 := 0x100000001, w1 := 0, w2 := 0, w3 := 0, cancel := false }).all (fun c => !c.1) = true) ∧
    (let t : Trigger := { st := .running, id := 0, ctx := 0, w0 := 0, w1 := 0, w2 := 0, w3 := 0, cancel := false }
     Assoc.find (copying (Vector.replicate 8 1) (fun k => { k with triggers := [(63, t)] })).myCore.triggers 63 = some t) ∧
    IssuingX (.xqfence 3) plain ∧ 1 ≤ (xRegRule plain.me 3).toNat ∧ (xRegRule plain.me 3).toNat < 2 ^ 8 :=
  ⟨rfl, by decide, rfl, rfl, rfl, by decide, rfl, issuing_x _ rfl, by decide, by decide⟩

/-- Core 0's context in a state of R277, and context 1 in another. -/
def states (i : Instr) (x y : CState) : State :=
  let s := coded i (idle (fun c => { c with st := x, thread := 1 }))
  s.updCtx { core := 0, ctx := 1 } (fun c => { c with st := y, launch := some 0 })
def ctx1 : CtxId := { core := 0, ctx := 1 }
theorem witness_ContextSaveAndRestore :
    (let s := states (.add (.reg 1) (.reg 2) (.reg 0)) .blocked .away
     (s.ctx s.cur).st = .blocked ∧ s.canIssue s.cur = true ∧ (s.ctx ctx1).st = .away ∧ (s.ctx ctx1).wake ≤ (s.core 0).cycle) ∧
    ((states .eret .stopped .saved).ctx user.cur).st = .stopped ∧ ((states .eret .stopped .saved).ctx user.cur).mat = true ∧
    ((states .eret .saved .stopped).ctx user.cur).st = .saved ∧
    (let s := ((states .eret .saved .free).updPart 0 (fun p => { p with harness := [0, 5] })).updTerrace 0 (fun t => { t with st := .compute })
     (5 : CoreId) ∈ (s.part (s.ctx s.cur).part).harness ∧ s.coreComputes 5 = true ∧ (s.ctx { core := 5, ctx := 0 }).st = .free ∧
       (s.core 5).bound = none ∧ matOwner (s.core 5) = none ∧
       (s.core 0).unitMoves (s.core 5) 0 (s.ctx s.cur).mat ((s.core 0).image (s.ctx s.cur)).owed = true ∧
       (s.core 5).owedFits (((s.core 0).image (s.ctx s.cur)).owed ++ (s.core 0).claimedOf 0) = true ∧
       (0 : CoreId) ∈ (s.part (s.ctx s.cur).part).harness ∧ s.coreComputes 0 = true ∧ (s.ctx ctx1).st = .free) := by
  refine ⟨⟨rfl, by decide, rfl, by decide⟩, rfl, rfl, rfl, by decide, by decide, rfl, rfl, rfl, by decide, by decide, by decide, by decide, rfl⟩

theorem witness_RetirementHelpersAndBarriers :
    (let s := states .eret .retiring .free
     (s.ctx s.cur).st = .retiring ∧ s.drained s.cur = true) ∧
    (let s := states (.add (.reg 1) .lq (.reg 0)) .blocked .free
     s.blockedOnLq s.cur = true ∧ s.codeOf s.me = some (codeOf (.add (.reg 1) .lq (.reg 0))) ∧
       (codeOf (.add (.reg 1) .lq (.reg 0))).sliceAt s.me.user.pc = some 0 ∧ (s.ctx ctx1).st = .free ∧
       ∀ m : BitVec 2, (s.ctx { core := 0, ctx := m }).st ≠ .helper ∧
         ((s.ctx { core := 0, ctx := m }).launch.isSome = true → s.canIssue { core := 0, ctx := m } = false)) ∧
    (let s := (states (.gbar 1 .core) .blocked .free).setGroup 0 1 { members := [1], coming := [], arrived := [], passed := [] }
     s.waitingGbar s.cur = some (1, .core, [.gbar 1 .core]) ∧ (s.ctx s.cur).launch.isSome = true ∧ s.me.thread ∉ (s.group s.me.part 1).coming ∧ s.me.thread ∈ (s.group s.me.part 1).members ∧
       s.me.thread ∉ (s.group s.me.part 1).arrived ∧ s.me.thread ∉ (s.group s.me.part 1).passed ∧
       (s.setGroup 0 1 { members := [1], coming := [], arrived := [], passed := [1] }).canIssue s.cur = true ∧ s.arrivalReady s.cur .core = true ∧
       ({ s with cur := s.cur } : State).mustWait [] = false ∧
       ((s.updMyCore (fun k => { k with nextId := 1 })).updMe (fun c => c.updFlow (fun f => { f with q := { f.q with la := [{ id := 0, ea := 0xFFF000001000, kind := .lda 1 .ctx .ordinary, got := [], pushed := 0, stuck := false, redo := false }] } }))).arrivalReady s.cur .core = false) ∧
    (let s := user.setGroup 0 1 { members := [0], coming := [], arrived := [0], passed := [] }
     (s.group 0 1).arrived ≠ [] ∧ ∀ m ∈ (s.group 0 1).members, m ∈ (s.group 0 1).arrived) ∧
    (∃ o, matOwner (user.core 0) = some o) := by
  refine ⟨⟨rfl, by decide⟩, ⟨by decide, rfl, rfl, rfl, by decide⟩, ⟨by decide, by decide, by decide, by decide, by decide, by decide, by decide,
    by decide, by decide, by decide⟩, ⟨by decide, by decide⟩, _, rfl⟩

-- Witnesses: the memory path ------------------------------------------------------------------------------------------

/-- Core 0's window of partition 0, with a kept record at its start, and context 0 with the queues `q`. -/
def queues (f : Queues → Queues) : State :=
  (atPad id).updMe (fun c => c.updFlow (fun x => { x with q := f x.q }))
def loadOf (kind : LoadKind) (got : List Byte) : LoadOp := { id := 0, ea := 0xFFF000001000, kind := kind, got := got, pushed := 0, stuck := false, redo := false }
def withLoad (kind : LoadKind) (got : List Byte) : State :=
  queues (fun q => { q with la := [{ loadOf kind got with ea := if got = [] then 0xFFF000001000 else 0xFFF000000000 }],
                            lq := [{ id := 0, part := 0, st := .reserved }] })
def recordBytes : List Byte := [1, 5, 0x16, 1, 0, 1, 0, 0, 1, 2, 0, 0, 0, 0, 0, 0, 0x80, 0x3F] ++ List.replicate 46 0
/-- Bytes read without a fault. -/
def reads {ε : Type} (r : (List Byte × List ε) × State) (bs : List Byte) : Bool := r.1.1 == bs && r.1.2.isEmpty

theorem witness_LoadsPerform :
    (let s := withLoad (.lda 1 .ctx .ordinary) []
     let o := loadOf (.lda 1 .ctx .ordinary) []
     s.me.user.q.la[0]? = some o ∧ loadRule o = some [0xFFF000001000, 0xFFF000001001] ∧ s.canPerform s.cur o = true ∧
       awaits s.me.user.q o.id 0 = true ∧
       reads ((loadBegun s s.cur o).loadBytes s.cur (loadReader (loadBegun s s.cur o) s.cur o) ([0xFFF000001000, 0xFFF000001001].map some))
         [0, 0] = true) ∧
    (let s := (withLoad (.ldk .full) []).updMe (fun c => c.updFlow (fun x => { x with q := { x.q with la :=
       [{ loadOf (.ldk .full) [] with ea := 0xFFF000000000 }] } }))
     s.canPerform s.cur { loadOf (.ldk .full) [] with ea := 0xFFF000000000 } = true ∧
       (match s.recordGranule s.cur 0xFFF000000000 with
        | (.ok (b, kept), _) => headerReason kept (headerOf b) (some RClass.full.code.toNat) == none
        | _ => false) = true) ∧
    (let e : TlbEntry := { va := 0, size := 65536, pa := 0, read := true, write := true, dirty := true }
     (made id (fun k => { k with tlb := [e] })).pfBlocked user.cur [64] = false) ∧
    (64 ≤ recordBytes.length ∧ (headerOf recordBytes).topGranule 0 < recordBytes.length / 64) ∧
    isDirect (padBase 0) = true ∧ (atPad id).kept (padBase 0) = true ∧ (atPad id).kept (padBase 0 + 64) = false ∧
    isDirect 0 = false ∧ padBase 0 < 2 ^ 60 ∧
    (let s := user.updMe (fun c => { c with own := [(5, 7), (tagKey 5, 0), (tagKey 64, 1)], snap := [(6, 8), (tagKey 128, 1)] })
     bmGet (s.ctx s.cur).own 5 = some 7 ∧ bmGet (s.ctx s.cur).own (tagKey 5) = some 0 ∧ bmGet (s.ctx s.cur).own 6 = none ∧
       bmGet (s.ctx s.cur).snap 6 = some 8 ∧ bmGet (s.ctx s.cur).own (tagKey 6) = some 0 ∧
       bmGet (s.ctx s.cur).own (tagKey 64) = some 1 ∧ bmGet (s.ctx s.cur).own (tagKey 128) = none ∧
       bmGet (s.ctx s.cur).snap (tagKey 128) = some 1) ∧
    (atPad id).poisoned (padBase 0 + 64) = false := by
  refine ⟨⟨rfl, rfl, by decide, rfl, by decide⟩, ⟨by decide, by decide⟩, by decide, by decide, by decide, by decide, by decide, by decide,
    by decide, by decide, rfl⟩
/-- A load whose lower byte meets one fault and whose upper byte another, and an LDK that follows another one in its queue. -/
theorem witness_LoadsPerform_more :
    (let o := { loadOf (.lda 1 .ctx .ordinary) [] with ea := 0xFFF000000000 }
     let s := queues (fun q => { q with la := [o], lq := [{ id := 0, part := 0, st := .reserved }] })
     s.canPerform s.cur o = true ∧
       ((loadBegun s s.cur o).loadBytes s.cur (loadReader (loadBegun s s.cur o) s.cur o) ((bytesAt o.ea 2).map some)).1.2.isEmpty = false) ∧
    (let o := { loadOf (.ldk .full) recordBytes with id := 2 }
     let p := { loadOf (.ldk .full) [] with stuck := true }
     let s := queues (fun q => { q with la := [p, o] })
     (s.ctx s.cur).user.q.la[1]? = some o ∧ 64 ≤ o.got.length ∧ (s.ctx s.cur).user.q.kq.length < 32 ∧
       (∀ p ∈ (s.ctx s.cur).user.q.la, p.id < o.id → p.stuck = true ∨ ∀ r, p.kind ≠ .ldk r)) := by
  refine ⟨⟨by decide, by decide⟩, rfl, by decide, by decide, ?_⟩
  intro p hp lt
  rcases List.mem_cons.mp hp with rfl | h
  · exact .inl rfl
  · rw [List.mem_singleton.mp h] at lt; exact absurd lt (by decide)

def storeOf (held : Bool) (o : Order) : StoreOp :=
  { id := 1, ea := 0xFFF000001000, kind := .sta 2 .ter o, frames := [(0xFFF00000, 0x10000000)], held := held, data := [], plan := none, bad := [], flags := 0 }
theorem witness_StoresAndAtomicsPerform :
    (let s := withLoad (.atom 2 .core .relaxed .add 1) []
     let o := loadOf (.atom 2 .core .relaxed .add 1) []
     Memory.wf s.mem = true ∧ s.me.user.q.la[0]? = some o ∧ (s.ctx s.cur).loads.find? (fun p => p.id == o.id) = some o ∧ s.mayLoad s.cur o = true ∧ awaits s.me.user.q o.id 0 = true ∧
       (match s.atomFault s.cur o with
        | (none, u) => (u.keysFor s.cur [o.ea.toNat]).head? == some (padBase 0 + 0x1000)
        | _ => false) = true) ∧
    (let o := storeOf false .ordinary
     let s := queues (fun q => { q with sa := [o], sq := [{ data := 5, mask := 0xF }] })
     o.ea.toNat % 4 = 0 ∧ (∀ b, b < 4 → storeKey o b ≠ none) ∧ s.mayStore s.cur o = true ∧ storeReleases s.me o.kind = false ∧
       TakesData s.me.user.q o { data := 5, mask := 0xF } ∧ LineRoom s s.cur ∧ bmSorted (s.terrace 0).relay = true ∧ s.poison = []) ∧
    (let o := { storeOf true .acqRel with data := [{ data := 5, mask := 0xF }] }
     let s := queues (fun q => { q with sa := [o] })
     storeReleases s.me o.kind = true ∧ s.mayStore s.cur o = true ∧ s.released s.cur o.id .ter = true ∧
       TakesData s.me.user.q o { data := 5, mask := 0xF }) ∧
    (let o := storeOf false .acqRel
     let s := queues (fun q => { q with sa := [o], sq := [{ data := 5, mask := 0xF }], la := [loadOf (.lda 1 .ctx .ordinary) []] })
     s.mayStore s.cur o = true ∧ storeReleases s.me o.kind = true ∧ s.storeReleased s.cur o = false ∧ 2 ≤ Scope.ter.rank) := by
  refine ⟨⟨by decide, rfl, rfl, by decide, rfl, by decide⟩, ⟨by decide, by decide, by decide, by decide, .inr ⟨rfl, rfl⟩, by show 0 < 768; decide, rfl, rfl⟩,
    ⟨by decide, by decide, by decide, .inl rfl⟩, by decide⟩

/-- Partition 0's table translates the first GiB to the second one of device memory. -/
def paged (i : Instr) (f : Context → Context) : State :=
  let s := (coded i (idle f)).updPart 0 (fun p => { p with troot := 0x10000 })
  { s with mem := memWriteAll (memWriteAll [] 0x10000 (natBytes 8 0x2000D)) 0x20000 (natBytes 8 0x4000000E) }
def granuleOf (va : Nat) : GranuleWrite := { va := va, bytes := none, tag := false }
theorem witness_BackgroundMemoryEvents :
    (let o : StoreOp := { id := 0, ea := 0, kind := .skst .full 0, frames := [(0xFFF00000, 0x10000000)], held := false, data := [], plan := some [granuleOf 0xFFF000001000, granuleOf 0xFFF000001040], bad := [], flags := 0 }
     let s := queues (fun q => { q with sa := [o] })
     acquirePending s.me (fun _ => false) o.id = false ∧ frameKey o.frames 0xFFF000001000 = some 0x100000001000 ∧
       (s.fixSnap s.cur (tagKey 0x100000001000)).ordKept s.cur 0x100000001000 = false) ∧
    (let t : TileOp := { id := 0, drop := false, frames := [(0xFFF00000, padBase 0 / 2 ^ 16)], plan := [granuleOf 0xFFF000000000, granuleOf 0xFFF000000040], bad := [], flags := 0 }
     let s := (atPad id).updMe (fun c => { c with tileOps := [t] })
     acquirePending s.me (fun _ => false) t.id = false ∧ frameKey t.frames 0xFFF000000000 = some (padBase 0) ∧
       (s.fixSnap s.cur (tagKey (padBase 0))).ordKept s.cur (padBase 0) = true ∧ (∀ n < 64, s.poisoned (padBase 0 + n) = false)) ∧
    (let p : Post := { id := 0, core := 0, flag := 1, add := 0xFFFFFFFF, sc := .core, uid := 0, trig := none }
     let w : Watch := { key := padBase 0 + 0x1000, mask := 1, ref := 0, cond := .eq, sc := .core }
     let s := (atPad id).updMe (fun c => { c with posts := [p], watch := some w })
     s.mayPost s.cur p = true ∧ w.cond.holds (s.watchWord s.cur w &&& w.mask) w.ref = true ∧ acquireOpen (s.ctx s.cur) = false ∧
       s.aheadHolds s.cur false ((List.range 8).map (w.key + ·)) = false) ∧
    (let o := { loadOf (.lda 1 .ctx .ordinary) [] with ea := 64 }
     let s := paged .eret (fun c => c.updFlow (fun f => { f with q := { f.q with la := [o] } }))
     (s.core 0).bound.isSome = true ∧ s.wantsPage 0 64 = true ∧
       (match (s.walk 0 (s.core 0).boundPart 64 true false).1 with | .ok pa => pa == 0x40000040 | _ => false) = true) ∧
    (let s := coded (.ldt (.reg 1) (.reg 2)) (idle (fun c => { c with a := c.a.set 1 1 }))
     (s.core 0).bound.isSome = true ∧ s.wantsRecord 0 1 = true) ∧
    (withShape.takeRecord 0 (withShape.core 0).boundPart 1).1 = .bytes shapeBytes ∧
    (coded (.phase .core) (idle id)).waitingPhase user.cur = some .core ∧
    (let s := (atPad id).updPart 0 (fun p => { p with harness := [0, 9] })
     0xFFF001000000 ∈ remoteGranules s [0xFFF001000007]) ∧
    (let u : RelayUpdate := { store := 0, src := { core := 0, ctx := 0 }, rel := false, terrace := 3, bytes := [(7, 1)] }
     let s : State := { user with relayPend := [{ u with terrace := 2 }, u] }
     relayIndex s.relayPend 3 0 = some 1 ∧ s.relayPend[1]? = some u ∧ s.mayRelay 1 u = true) := by
  refine ⟨⟨by decide, by decide, by decide⟩, ⟨by decide, by decide, by decide, fun _ _ => rfl⟩, ⟨by decide, by decide, rfl, by decide⟩,
    ⟨rfl, by decide, by decide⟩, ⟨rfl, by decide⟩, rfl, by decide, by decide, ⟨by decide, rfl, by decide⟩⟩

-- Witnesses: the lanes, channels, triggers and collectives ------------------------------------------------------------

/-- Core 0 with a command at the head of lane 0, in a member of group 1 with the channels and communicator of `codeOf`. -/
def cmdOf (op : CmdOp) (st : CmdState) : Command := { queuedRule 0 0 op none with st := st }
def inLane (c : Command) : State :=
  coded .eret (atPad (fun k => { k with lanes := k.lanes.set 0 [.cmd c], flags := Vector.replicate 32 1, fbOrder := [0], faOrder := [0], rq := Vector.replicate 8 { present := [{ id := 8, data := 5, claimed := true }], owed := [] } }))
def core0 : CtxId := { core := 0, ctx := 0 }
/-- The places of a chunk, none of them at a fault. -/
def placed (r : (List (Option Spot) × List EngFault) × State) (ps : List (Option Place)) : Bool :=
  r.1.1.map (fun p => p.map (·.1)) == ps && r.1.2.isEmpty
def keysFrom (k n : Nat) : List (Option Place) := (List.range n).map (fun i => some (.mem (k + i)))

theorem witness_LaneEvents :
    (let c := cmdOf (.xcp 0xFFF000002000 0xFFF000001000 4 false) .queued
     let s := inLane c
     s.cmdAt 0 0 = some c ∧ s.mayStart (c.at 0) c.id = true ∧ s.farModules 0 c c.op.words = []) ∧
    (let c := cmdOf (.xcpc 0xFFF000002000 0xFFF000001000 4 0x3000 .i2 2) .performing
     let s := inLane c
     s.cmdAt 0 0 = some c ∧ c.cursor < 4 ∧ c.tile ≠ some (c.cursor / 128) ∧ c.cursor / 128 + 1 ≤ ((s.core 0).flag 2).toNat ∧
       reads (s.engReadAll (c.at 0) c.shapes false (vaRange (s.windowVa (s.ctx (c.at 0)).part 0 0x3000) 8)) (List.replicate 8 0) = true) ∧
    (let c := { cmdOf (.xfill 0 0 .bf16 false false true 0) .performing with tile := some 0 }
     let s := inLane c
     s.cmdAt 0 0 = some c ∧ (s.core 0).faOrder.head? = some c.id ∧ (s.core 0).fa.length < 4) ∧
    (let c := { cmdOf (.xstor 0xFFF000001000 0 0 1 0 2) .performing with cursor := 1 }
     let s := inLane c
     s.cmdAt 0 0 = some c ∧ c.cursor ≠ 0 ∧ ([1, 2, 3, 4] : List Byte).length = (0 + 1) * 2 ^ 2 ∧
       chunkRule (0xFFF000001000 + BitVec.ofNat 64 0 : Word).toNat 4 = 4 ∧ c.parts = [] ∧ s.owing 0 c.id = [] ∧
       ({ c with delivered := 4 } : Command).delivered = (0 + 1) * 2 ^ 2 ∧
       placed (s.engTargets (c.at 0) c.shapes false false (wrapAt 0xFFF000001000 4)) (keysFrom (padBase 0 + 0x1000) 4) = true ∧
       (∀ m ∈ farsOf (s.lookPlaces 0 c (wrapAt 0xFFF000001000 4)), s.reaches m = true)) ∧
    (let t : Stamp := { add := true, sc := .core, addr := 0xFFF000001000, word := 1 }
     let c := { cmdOf (.xrecv 0 none) (.stamping 0 0) with stamp := some t }
     let s := inLane c
     s.stampAt 0 0 = some c ∧ s.released (c.at 0) c.id t.sc = true ∧
       s.aheadHolds (c.at 0) true (memKeys (s.lookPlaces 0 { c with shapes := [] } (vaRange t.addr 8))) = false ∧
       ¬(0x400000000000 ≤ t.addr ∧ t.addr < 0x800000000000) ∧ s.owing 0 c.id = [] ∧
       (s.engTargets (c.at 0) [] false false (vaRange t.addr 8)).1 =
         ((vaRange t.addr 8).zipIdx.map (fun x => some (Place.mem (padBase 0 + 0x1000 + x.2), x.1)), []) ∧
       (∀ i, i < 8 → (s.engTargets (c.at 0) [] false false (vaRange t.addr 8)).2.poisoned (padBase 0 + 0x1000 + i) = false) ∧
       Memory.wf (((s.engTargets (c.at 0) [] false false (vaRange t.addr 8)).2.evictKeys (c.at 0)
         ((List.range 8).map (padBase 0 + 0x1000 + ·))).engReadAll (c.at 0) [] true (vaRange t.addr 8)).2.mem = true) ∧
    (let k : Core := { Core.reset with lanes := (Core.reset.lanes.set 0 [.fence 4 0]).set 7 [.fence 4 0, .fence 5 0] }
     (k.lane 0).head? = some (.fence 4 0) ∧ k.fenceReady 4 = true ∧ k.fenceReady 5 = false) := by
  refine ⟨⟨rfl, by decide, by decide⟩, ⟨rfl, by decide, nofun, by decide, by decide⟩, ⟨rfl, rfl, by decide⟩,
    ⟨rfl, by decide, rfl, by decide, rfl, rfl, rfl, by decide, by decide +kernel⟩,
    ⟨by decide +kernel, by decide +kernel, by decide +kernel, by decide, rfl, by decide +kernel, by decide +kernel, by decide +kernel⟩,
    ⟨rfl, by decide, by decide⟩⟩

/-- Links that hold no flits stay as they are. -/
theorem linkProgress_idle (s : State) (h : ∀ n : BitVec 4, (s.link n).flits = []) : s.linkProgress = s := by
  have stays : ∀ n, s.linkStep n = s := fun n => by simp [State.linkStep, h n]
  have all : ∀ l : List (BitVec 4), l.foldl (fun s n => s.linkStep n) s = s := by
    intro l
    induction l with
    | nil => rfl
    | cons n r ih => simp only [List.foldl_cons, stays, ih]
  exact all _
theorem reset_flits (s : State) (h : s.links = State.reset.links) (n : BitVec 4) : (s.link n).flits = [] := by
  simp [State.link, h, State.reset, Link.reset]
theorem no_flits (c : Command) : (inLane c).linkProgress = inLane c := linkProgress_idle _ (reset_flits _ rfl)
/-- A kept copy of one granule that has its tag, to the granule at 0x2000. -/
def keptCopy : Command := cmdOf (.xcp 0xFFF000002000 0xFFF000000000 64 true) .performing
theorem witness_CopyChunkEvent_kept :
    (let c := keptCopy
     let s := inLane c
     s.cmdAt 0 0 = some c ∧ chunkRule (0xFFF000002000 + BitVec.ofNat 64 0 : Word).toNat 64 = 64 ∧
       (s.engReadAll (c.at 0) c.shapes true (wrapAt 0xFFF000000000 64)).1.2.isEmpty = true ∧
       placed (s.engTargets (c.at 0) c.shapes true false (wrapAt 0xFFF000002000 64)) (keysFrom (padBase 0 + 0x2000) 64) = true ∧
       (s.sourcePlaces 0 c (wrapAt 0xFFF000000000 64)).1 = keysFrom (padBase 0) 64 ∧
       s.engineByte (c.at 0) (tagKey (padBase 0)) = 1 ∧ tagKey (padBase 0) ≠ tagKey (padBase 0 + 0x2000) ∧ Memory.wf s.mem = true) := by
  refine ⟨rfl, by decide, by decide +kernel, by decide +kernel, by decide +kernel, by decide, by decide, by decide⟩
theorem witness_CopyChunkEvent :
    (let c := cmdOf (.xcp 0xFFF000002000 0xFFF000001000 4 false) .performing
     let s := inLane c
     s.cmdAt 0 0 = some c ∧ reads (s.engReadAll (c.at 0) c.shapes false (wrapAt 0xFFF000001000 4)) [0, 0, 0, 0] = true ∧
       placed (s.engTargets (c.at 0) c.shapes false false (wrapAt 0xFFF000002000 4)) (keysFrom (padBase 0 + 0x2000) 4) = true ∧
       (s.sourcePlaces 0 c (wrapAt 0xFFF000001000 4)).1 = keysFrom (padBase 0 + 0x1000) 4) ∧
    (cmdOf (.xcp 0xFFF000002000 0xFFF000001000 0 false) .performing).delivered = 0 ∧
    (let s := inLane (cmdOf (.xscat 0xFFF000002000 4 [0xFFF000001000]) .performing)
     reads (s.engReadAll core0 [] false (wrapAt 0xFFF000002000 4)) [0, 0, 0, 0] = true ∧
       placed (s.engTargets core0 [] false true (wrapAt 0xFFF000001000 4)) (keysFrom (padBase 0 + 0x1000) 4) = true) ∧
    (let s := inLane (cmdOf (.xgath 0xFFF000002000 4 [0xFFF000001000]) .performing)
     reads (s.engReadAll core0 [] false (wrapAt 0xFFF000001000 4)) [0, 0, 0, 0] = true ∧
       placed (s.engTargets core0 [] false false (wrapAt 0xFFF000002000 4)) (keysFrom (padBase 0 + 0x2000) 4) = true) ∧
    (let s := inLane (cmdOf (.xpopq 0xFFF000002070 7 [8] 128) .performing)
     ((s.core 0).claimedData 7 8).isSome = true ∧ chunkRule 0xFFF000002070 128 = 16 ∧
       placed (s.engTargets core0 [] false false (wrapAt 0xFFF000002070 16)) (keysFrom (padBase 0 + 0x2070) 16) = true) ∧
    (let s := inLane (cmdOf (.xfill 0xFFF000001000 2 .o4 false true false 0) .performing)
     reads (s.engReadAll core0 [] false (wrapAt 0xFFF000001000 40)) (List.replicate 40 0) = true) := by
  refine ⟨⟨rfl, by decide, by decide, by decide⟩, rfl, ⟨by decide, by decide⟩, ⟨by decide, by decide⟩, ⟨by decide, by decide, by decide⟩, by decide⟩

/-- The chunks of the commands below meet nothing before them. -/
def gateOpen (c : Command) : Bool := ((inLane c).chunkGate 0 0 c).isNone
theorem gate_open (c : Command) (h : gateOpen c = true) : (inLane c).chunkGate 0 0 c = none := Option.isNone_iff_eq_none.mp h
/-- An XCPZ of a raw frame of one byte, and one whose three bytes are expanded. -/
def expanding (cursor : Nat) : Command :=
  { cmdOf (.xcpz 0xFFF000002000 0xFFF000001000 4 64 none) .performing with cursor := cursor, buf := if cursor = 0 then [] else [1, 2, 3] }
def indexed (n : Nat) : Command :=
  { cmdOf (.xcpc 0xFFF000002000 0xFFF000001000 200 0x3000 .i3 2) .performing with cursor := n, tile := some 0, buf := List.replicate 16 7 }
def sending (cursor delivered : Nat) : Command :=
  { cmdOf (.xsend 0 0xFFF000001000) .performing with tile := some 4, cursor := cursor, delivered := delivered }
def receiving (d : Option Word) (cursor : Nat) : Command := { cmdOf (.xrecv 1 d) .performing with tile := some 0, cursor := cursor }
def storing_ (cursor : Nat) : Command := { cmdOf (.xstor 0xFFF000001000 0 0 1 0 2) .performing with cursor := cursor }
def keptFill (cursor : Nat) (buf : List Byte) : Command :=
  { cmdOf (.xfill 0xFFF000000000 0 .e4m3 true false false 0x3000) .performing with cursor := cursor, buf := buf }
theorem witness_CopyChunkEvent_gates :
    [keptCopy, cmdOf (.xcp 0xFFF000002000 0xFFF000001000 4 false) .performing, cmdOf (.xcp 0xFFF000002000 0xFFF000001000 0 false) .performing,
      cmdOf (.xscat 0xFFF000002000 4 [0xFFF000001000]) .performing, cmdOf (.xgath 0xFFF000002000 4 [0xFFF000001000]) .performing,
      cmdOf (.xpopq 0xFFF000002070 7 [8] 128) .performing, cmdOf (.xfill 0xFFF000001000 2 .o4 false true false 0) .performing,
      expanding 0, expanding 1, expanding 8, indexed 0, indexed 200, sending 0 0, sending 128 0, sending 128 128, receiving (some 0xFFF000002000) 0,
      receiving none 0, receiving none 1, storing_ 0, storing_ 1, keptFill 0 [], keptFill 67 []].all gateOpen = true := by decide +kernel
theorem witness_CopyChunkEvent_expanded :
    (let c := expanding 0
     ((inLane c).readUpTo 0 c (wrapAt 0xFFF000001000 4)).2.1.isEmpty = true ∧ (inLane c).cmdAt 0 0 = some c) ∧
    (let c := expanding 1
     c.cursor ≠ 0 ∧ c.delivered < c.buf.length ∧
       placed ((inLane c).engTargets core0 [] false false (wrapAt 0xFFF000002000 3)) (keysFrom (padBase 0 + 0x2000) 3) = true) ∧
    (let c := { expanding 1 with delivered := 3 }
     c.buf.length ≤ c.delivered ∧ (inLane c).owing 0 c.id = [] ∧ (expanding 8).cursor = 3 + (0x05 : BitVec 8).toNat) ∧
    (let c := indexed 0
     c.tile = some 0 ∧ c.buf.length = 2 * 2 ^ 3 ∧ chunkRule 0xFFF000002000 (2 * 128) / 2 = 64 ∧
       reads ((inLane c).engReadAll core0 [] false (wrapAt 0xFFF000001000 24)) (List.replicate 24 0) = true ∧
       placed ((inLane c).engTargets core0 [] false false (wrapAt 0xFFF000002000 128)) (keysFrom (padBase 0 + 0x2000) 128) = true) ∧
    (200 ≤ (indexed 200).cursor ∧ (inLane (indexed 200)).owing 0 0 = []) := by
  refine ⟨⟨by decide +kernel, rfl⟩, ⟨by decide, by decide, by decide +kernel⟩, ⟨by decide, by decide, by decide⟩,
    ⟨rfl, rfl, by decide, by decide +kernel, by decide +kernel⟩, by decide, by decide⟩
theorem witness_CopyChunkEvent_channels :
    (let c := sending 0 0
     let s := inLane c
     s.chanEntry (s.ctx core0) 0 = some (chanOf false) ∧ ((s.ctx core0).chan 0).withdrawn = false ∧ (chanOf false).peerModule = 0xFFFF ∧
       s.peerOf core0 (chanOf false) = some core0 ∧
       reads (s.engReadAll core0 [] false (wrapAt 0xFFF000001000 128)) (List.replicate 128 0) = true) ∧
    (let c := receiving (some 0xFFF000002000) 0
     let s := inLane c
     s.chanEntry (s.ctx core0) 1 = some (chanOf true) ∧ s.windowVa (s.ctx core0).part 0 ((chanOf true).wordOff 0 0) = 0xFFF000000000 ∧
       placed (s.engTargets core0 [] false false (wrapAt 0xFFF000002000 128)) (keysFrom (padBase 0 + 0x2000) 128) = true ∧
       reads (s.engReadAll core0 [] false (vaRange 0xFFF000000080 128)) (List.replicate 128 0) = true) ∧
    (let c := receiving none 0
     let s := inLane c
     (chanOf true).mode = 0 ∧ (chanOf true).peerModule = 0xFFFF ∧ s.peerOf core0 (chanOf true) = some core0 ∧
       s.chanEntry (s.ctx core0) 1 = some (chanOf true)) ∧
    (let c := receiving none (2 ^ 17)
     2 ^ 17 ≤ c.cursor ∧ (∀ p ∈ ((inLane c).ctx core0).posts, 2 ^ 17 + p.id + 1 ≠ c.cursor) ∧ (inLane c).owing 0 c.id = []) := by
  refine ⟨⟨rfl, rfl, rfl, by decide +kernel, by decide +kernel⟩, ⟨rfl, by decide +kernel, by decide +kernel, by decide +kernel⟩,
    ⟨rfl, rfl, by decide +kernel, rfl⟩, ⟨by decide, nofun, by decide⟩⟩
theorem witness_CopyChunkEvent_storage :
    (let c := storing_ 0
     c.cursor = 0 ∧ placed ((inLane c).engTargets core0 [] false false (wrapAt 0xFFF000001000 4)) (keysFrom (padBase 0 + 0x1000) 4) = true) ∧
    (let c := keptFill 0 []
     let s := inLane c
     c.cursor < 67 ∧ (match s.engReadAll core0 [] true (wrapAt 0xFFF000000000 64) with
      | ((bs, []), u) => (u.tagsSet 0 c (wrapAt 0xFFF000000000 64)).1 && (keptReason .e4m3 0 true (headerOf bs)).isSome
      | _ => false) = true ∧ (s.ctx core0).alive = true) ∧
    (let c := keptFill 1 []
     let s := inLane c
     (match s.engReadAll core0 [] true (wrapAt 0xFFF000000040 64) with
      | ((_, []), u) => !(u.tagsSet 0 c (wrapAt 0xFFF000000040 64)).1
      | _ => false) = true ∧ keptReason .e4m3 1 true (headerOf []) = none) ∧
    (let c := keptFill 67 (List.replicate (67 * 64) 0)
     let s := inLane c
     67 ≤ c.cursor ∧ placed (s.engTargets core0 [] false false (vaRange (s.windowVa (s.ctx core0).part 0 0x3000) 128))
       (keysFrom (padBase 0 + 0x3000) 128) = true) := by
  refine ⟨⟨rfl, by decide +kernel⟩, ⟨by decide, by decide +kernel, rfl⟩, ⟨by decide +kernel, rfl⟩, ⟨by decide, by decide +kernel⟩⟩

theorem witness_ChannelWordsAndCredits :
    (let c := cmdOf (.xsend 0 0xFFF000001000) .performing
     let s := inLane c
     s.cmdAt 0 0 = some c ∧ s.chanEntry (s.ctx (c.at 0)) 0 = some (chanOf false) ∧ ((s.ctx (c.at 0)).chan 0).withdrawn = false ∧
       ((s.ctx (c.at 0)).chan 0).tiles < (chanOf false).depth) ∧
    (let f : FlightWord := { src := core0, cmd := 0, dst := core0, chan := 1, tile := 3, word := 15, data := 9 }
     let s : State := { inLane (cmdOf (.xsend 0 0) .performing) with words := [f] }
     s.words[0]? = some f ∧ (s.laneOf 0 0).isSome = true ∧ s.chanEntry (s.ctx f.dst) f.chan = some (chanOf true) ∧
       1 ≤ (chanOf true).slots ∧ (inLane (cmdOf (.xsend 0 0) .performing)).kept (padBase 0 + 120) = false ∧ s.poison = [] ∧
       ((s.ctx f.dst).chan f.chan).withdrawn = false ∧ (s.core f.dst.core).owns (chanOf true).flag = true ∧ Memory.wf s.mem = true) ∧
    (let c := cmdOf (.xrecv 1 none) .performing
     let s := (inLane c).updMe (fun x => x.setChan 1 { Chan.fresh with complete := [6] })
     s.cmdAt 0 0 = some c ∧ s.chanEntry (s.ctx (c.at 0)) 1 = some (chanOf true) ∧ ((s.ctx (c.at 0)).chan 1).complete = [6] ∧
       (s.core 0).flag (chanOf true).flag ≠ 0) := by
  refine ⟨⟨rfl, rfl, rfl, by decide⟩, ⟨rfl, rfl, rfl, by decide, by decide, rfl, rfl, rfl, by decide⟩, ⟨rfl, rfl, rfl, by decide⟩⟩

/-- Core 0's context 0 with a send end and a receive end of channels to module 7, and link n UP; which links lead to module 7 is an
opaque constant, and the witnesses take the first of them. -/
def farChan (receive : Bool) : ChanEntry := { chanOf receive with peerModule := 7, depth := 2 }
def toFar (c : Command) (n : BitVec 4) : State :=
  let s := (inLane c).updPart 0 (fun p => { p with codes := [(0, { codeOf .eret with chans := [farChan false, farChan true] })] })
  (s.updMe (fun x => x.setChan 0 { Chan.fresh with tiles := 5 })).setLink n { Link.reset with st := .up }
theorem route_far (c : Command) (n : BitVec 4) (h : n ∈ Config.routeOf (7 : BitVec 16).toNat) : n ∈ (toFar c n).usableRoute 7 :=
  List.mem_filter.mpr ⟨h, by simp [toFar, State.link, State.setLink, Link.usable]⟩
theorem reaches_far (c : Command) (n : BitVec 4) (h : n ∈ Config.routeOf (7 : BitVec 16).toNat) : (toFar c n).reaches 7 = true := by
  unfold State.reaches
  cases e : (toFar c n).usableRoute 7 with
  | nil => exact absurd (route_far c n h) (by rw [e]; exact List.not_mem_nil)
  | cons a r => rfl
/-- A channel to another module, at both of its ends. -/
def FarChannel (n : BitVec 4) : Prop :=
  let c := cmdOf (.xsend 0 0xFFF000001000) .performing
  let s := toFar c n
  s.chanEntry (s.ctx core0) 0 = some (farChan false) ∧ s.chanEntry (s.ctx core0) 1 = some (farChan true) ∧
    (s.ctx core0).launch ≠ none ∧ (farChan false).peerModule ≠ 0xFFFF ∧ s.reaches (farChan false).peerModule = true ∧
    ((s.ctx core0).chan 0).withdrawn = false ∧ (s.core 0).owns (farChan false).flag = true ∧
    ((s.core 0).flag (farChan false).flag).toNat + (((s.ctx core0).chan 0).tiles - (farChan false).depth) < ((s.ctx core0).chan 0).tiles ∧
    ((s.ctx core0).chan 1).tiles = 0 ∧ ((s.ctx core0).chan 1).complete = [] ∧ ((s.ctx core0).chan 1).filling = [] ∧
    s.cmdAt 0 0 = some c
theorem far_channel (n : BitVec 4) (h : n ∈ Config.routeOf (7 : BitVec 16).toNat) : FarChannel n :=
  ⟨rfl, rfl, nofun, by decide, reaches_far _ _ h, rfl, by clear h; revert n; decide +kernel, by clear h; revert n; decide +kernel,
    rfl, rfl, rfl, rfl⟩
theorem witness_ChannelWordsAndCredits_far : ∃ n, FarChannel n := ⟨_, far_channel (Config.routeLinks (7 : BitVec 16).toNat).1 List.mem_cons_self⟩
theorem reaches_links (s t : State) (m : BitVec 16) (h : s.links = t.links) : s.reaches m = t.reaches m := by
  simp only [State.reaches, State.usableRoute, State.link, h]
/-- The same with no flag declared and no tile taken. -/
def undeclared (c : Command) (n : BitVec 4) : State :=
  ((toFar c n).updCore 0 (fun k => { k with flagsOwned := 0 })).updMe (fun x => x.setChan 0 Chan.fresh)
theorem witness_FarChannelEvents_flag : ∃ n,
    let c := cmdOf (.xsend 0 0xFFF000001000) .performing
    let s := undeclared c n
    s.chanEntry (s.ctx core0) 0 = some (farChan false) ∧ s.chanEntry (s.ctx core0) 1 = some (farChan true) ∧ s.reaches 7 = true ∧
      ((s.ctx core0).chan 0).withdrawn = false ∧ ((s.ctx core0).chan 0).tiles = 0 ∧ 1 ≤ (farChan false).depth ∧ s.cmdAt 0 0 = some c ∧
      (s.core 0).owns (farChan false).flag = false := by
  refine ⟨(Config.routeLinks (7 : BitVec 16).toNat).1, rfl, rfl, ?_, rfl, rfl, by decide, rfl, rfl⟩
  exact (reaches_links _ (toFar (cmdOf (.xsend 0 0xFFF000001000) .performing) _) _ rfl).trans (reaches_far _ _ List.mem_cons_self)
/-- A chunk on its way, and the flits of a command on a link that is lost. -/
def FarChunk (n : BitVec 4) : Prop :=
  (let c := { cmdOf (.xsend 0 0xFFF000001000) .performing with tile := some 4 }
   let s := toFar c n
   s.cmdAt 0 0 = some c ∧ (s.chunkGate 0 0 c).isNone = true ∧ s.usableRoute 7 ≠ [] ∧ (farChan false).rows * (farChan false).cols * (farChan false).fmt.bits / 8 = 128 ∧
     c.cursor < 128 ∧ reads (s.engReadAll core0 [] false (wrapAt 0xFFF000001000 128)) (List.replicate 128 0) = true) ∧
  (let t : Stamp := { add := false, sc := .core, addr := 0xFFF000001000, word := 1 }
   let c := { cmdOf (.xcp 0 0 4 false) .performing with stamp := some t, delivered := 4 }
   let f : Flit := { vc := 0, src := core0, owner := c.id, data := [(0, 1)], counts := true, sent := true }
   let s := (inLane c).setLink 3 { Link.reset with st := .degraded, flits := [f] }
   (s.link 3).st = .degraded ∧ s.cmdAt 0 0 = some c ∧ s.laneOf 0 c.id = some (0, c) ∧ c.stamp ≠ none ∧ (s.link 3).flits = [f] ∧ f.src.core = 0)
theorem far_chunk (n : BitVec 4) (h : n ∈ Config.routeOf (7 : BitVec 16).toNat) : FarChunk n := by
  refine ⟨⟨rfl, by clear h; revert n; decide +kernel, ?_, rfl, by decide, by clear h; revert n; decide +kernel⟩, rfl, rfl, by decide, nofun,
    rfl, rfl⟩
  intro e
  exact absurd (route_far { cmdOf (.xsend 0 0xFFF000001000) .performing with tile := some 4 } n h) (by rw [e]; simp)
theorem witness_LinkEvents_traffic : ∃ n, FarChunk n := ⟨_, far_chunk (Config.routeLinks (7 : BitVec 16).toNat).1 List.mem_cons_self⟩

/-- Device physical address 2^43 lies in another module. Which frames do is an opaque constant of the pod, so the witnesses about
far places take one that does. -/
def FarFrame (m : BitVec 16) : Prop := Config.farModule (2 ^ 43 / 2 ^ 16) = some m
theorem FarFrame.at {m : BitVec 16} (h : FarFrame m) {va : Nat} (hv : va < 8) : Config.farModule ((2 ^ 43 + va) / 2 ^ 16) = some m := by
  rw [show (2 ^ 43 + va) / 2 ^ 16 = 2 ^ 43 / 2 ^ 16 by omega]
  exact h
/-- The first 64 KiB lead there. -/
def farPage (c : Command) : State :=
  (inLane c).updCore 0 (fun k => { k with tlb := [{ va := 0, size := 65536, pa := 2 ^ 43, read := true, write := true, dirty := true }] })
theorem far_place {m : BitVec 16} (h : FarFrame m) (c : Command) {va : Nat} (hv : va < 8) (rd wr : Bool) :
    (farPage c).engPlace 0 ((farPage c).ctx core0).part [] va rd wr = (.ok (some (Place.far (2 ^ 43 + va), va)), farPage c) := by
  have low {b e : Nat} (hb : 8 ≤ b) : ¬((decide (b ≤ va) && decide (va < e)) = true) := by
    intro x
    have := of_decide_eq_true (Bool.and_elim_left x)
    omega
  have dram : isDram (2 ^ 43 + va) = false := by simp [isDram]; omega
  have res : isReservoir (2 ^ 43 + va) = false := by simp [isReservoir]; omega
  have far : isFar (2 ^ 43 + va) = true := by unfold isFar; rw [dram, res, h.at hv]; rfl
  have phys : (farPage c).physFault (2 ^ 43 + va) = false := by
    unfold State.physFault
    rw [dram, res, far]
    rfl
  have tlb : ((farPage c).core 0).tlb.find? (fun e => e.covers va) =
      some { va := 0, size := 65536, pa := 2 ^ 43, read := true, write := true, dirty := true } := by
    show List.find? _ [_] = _
    rw [List.find?_cons_of_pos]
    simp [TlbEntry.covers]; omega
  have walk : (farPage c).xlate 0 ((farPage c).ctx core0).part va rd wr = (.ok (2 ^ 43 + va), farPage c) := by
    unfold State.xlate
    rw [tlb]
    show (if !(TlbEntry.grants _ rd wr) then _ else if wr && !true then _ else (farPage c).checkPhys (.ok (2 ^ 43 + (va - 0)), farPage c)) = _
    rw [if_neg (by cases rd <;> cases wr <;> decide), if_neg (by cases wr <;> decide)]
    show (if (farPage c).physFault (2 ^ 43 + va) then _ else _) = _
    rw [phys]
    rfl
  have place : (farPage c).place 0 ((farPage c).ctx core0).part va rd wr = (.ok (.far (2 ^ 43 + va)), farPage c) := by
    unfold State.place
    rw [if_neg (by simp [vaEnd]; omega), if_neg (low (by decide)), if_neg (by simp only [tensorBase]; omega), walk]
    show (Except.ok (if isFar (2 ^ 43 + va) then _ else _), _) = _
    rw [far]
    rfl
  unfold State.engPlace
  rw [if_neg (low (by decide))]
  simp only [place]
def farCopy : Command := cmdOf (.xcp 0xFFF000002000 0 1 false) .performing
theorem witness_ChunkGates_far (m : BitVec 16) (h : FarFrame m) :
    (farPage farCopy).cmdAt 0 0 = some farCopy ∧
      farsOf ((farPage farCopy).lookPlaces 0 farCopy ((farPage farCopy).nextSpan 0 farCopy).1) = [m] ∧
      memKeys ((farPage farCopy).lookPlaces 0 farCopy ((farPage farCopy).nextSpan 0 farCopy).1) = [] := by
  have look : (farPage farCopy).lookPlaces 0 farCopy [0] = [Place.far (2 ^ 43)] := by
    simp only [State.lookPlaces, List.filterMap_cons, List.filterMap_nil]
    rw [show (farPage farCopy).engPlace 0 ((farPage farCopy).ctx (farCopy.at 0)).part farCopy.shapes 0 false false = _ from
      far_place h farCopy (by decide) false false]
    rfl
  refine ⟨rfl, (congrArg farsOf look).trans ?_, congrArg memKeys look⟩
  simp only [farsOf, List.filterMap_cons, List.filterMap_nil, show Config.farModule (2 ^ 43 / 2 ^ 16) = some m from h]
  rfl
theorem witness_StampAndFenceEvents_far (m : BitVec 16) (h : FarFrame m) (c : Command) :
    (farPage c).engTargets core0 [] false false (vaRange 0 8) =
      (((List.range 8).map (fun i => some (Place.far (2 ^ 43 + i), i)), []), farPage c) := by
  have one {va : Nat} (hv : va < 8) (r : List Nat) (ps : List (Option Spot)) (t : (farPage c).engTargets core0 [] false false r = ((ps, []), farPage c)) :
      (farPage c).engTargets core0 [] false false (va :: r) = ((some (Place.far (2 ^ 43 + va), va) :: ps, []), farPage c) := by
    unfold State.engTargets
    rw [show (farPage c).engPlace core0.core ((farPage c).ctx core0).part [] va false true = _ from far_place h c hv false true]
    simp only [t]
    rfl
  exact one (by decide) _ _ (one (by decide) _ _ (one (by decide) _ _ (one (by decide) _ _ (one (by decide) _ _ (one (by decide) _ _
    (one (by decide) _ _ (one (by decide) [] [] rfl)))))))

def trigOf (st : TrigState) : Trigger := { st := st, id := 0, ctx := 0, w0 := 0x180002041, w1 := 0, w2 := 0, w3 := 0x700000040, cancel := false }
def partIn (kind : CollKind) (started : Bool) (round : Nat) (status : BitVec 8) : CollPart :=
  { id := 0, ctx := 0, comm := 1, kind := kind, op := 0, fmt := 0, len := 4, root := 0, src := 0xFFF000001000, dst := 0xFFF000002000, stamp := none, k := 0, steps := none, trig := none, shapes := [], started := started, round := round, sent := 0, work := 0, inbox := [], out := none, delivered := 0, suspended := false, flags := 1, status := status, stampSent := false }
/-- An instance of communicator 1 over core 0's context 0 and itself or core 5's context 0. -/
def together (p : CollPart) (two : Bool) (slot : Option Bool) : State :=
  let s := coded .eret (atPad (fun k => { k with comms := [(1, [p])] }))
  let s := s.setCore 5 ({ Core.reset with comms := [(1, [partIn .bcast true 1 0])] }.setCtx 0
    { Context.reset with st := .ready, launch := some 0, thread := 20 })
  let m : List Member := [{ thread := 0, far := none, at_ := core0 }] ++
    (if two then [{ thread := 20, far := none, at_ := { core := 5, ctx := 0 } }] else [])
  { s with colls := [{ uid := 0, part := 0, comm := 1, group := 1, k := 0, members := m, slot := slot, ended := false, why := 0, gone := [], seen := [] }] }
theorem order_together : (together (partIn .bcast false 0 0) true none).commOrder 0 = [1] := by
  have h : (((together (partIn .bcast false 0 0) true none).core 0).comms.filter (fun q => !q.2.isEmpty)).map (·.1) = [1] := rfl
  have l : ((together (partIn .bcast false 0 0) true none).core 0).lastComm = 0 := rfl
  have a : ([1] : List Nat).filter (fun n => decide (0 < n)) = [1] := rfl
  have b : ([1] : List Nat).filter (fun n => decide (n ≤ 0)) = [] := rfl
  simp only [State.commOrder, h, l, a, b, List.mergeSort_singleton, List.mergeSort_nil]
  rfl
theorem witness_TriggerAndCollectiveEvents :
    (let t := { trigOf .armed with w0 := 0x180002001 }
     let s := made id (fun k => { k with triggers := [(63, t)], flags := Vector.replicate 32 1, nextId := 1 })
     Assoc.find (s.core 0).triggers 63 = some t ∧ t.oper = 0 ∧ t.threshold.toNat + s.pledged 0 t.watch ≤ ((s.core 0).flag t.watch).toNat ∧
       t.cancel = false ∧ t.id < (s.core 0).nextId ∧ (s.core 0).owns t.watch = true ∧ (∀ m : Nat, m ≠ 63 → ∀ y, Assoc.find (s.core 0).triggers m = some y → y.st ≠ .armed ∧ y.cancel = false)) ∧
    (let t := { trigOf .armed with w0 := 0x180002001, cancel := true }
     let s := made id (fun k => { k with triggers := [(63, t)], flags := Vector.replicate 32 1, nextId := 1 })
     (s.core 0).triggers = [((63 : BitVec 6).toNat, t)] ∧ t.id < 1 ∧ (s.core 0).satisfied t = true ∧
       t.threshold.toNat + 0 ≤ ((s.core 0).flag t.watch).toNat) ∧
    (let t := { trigOf .fired with w0 := 0x180002001 }
     t.oper = 0 ∧ ((Core.reset).lane (t.w3.extractLsb' 32 3)).length < 16) ∧
    (let s := made id (fun k => { k with triggers := [(63, trigOf .running)] })
     Assoc.find (s.core 0).triggers 63 = some (trigOf .running) ∧ s.opOver 0 63 (trigOf .running) = true ∧
       releaseDone (s.ctx core0) (trigOf .running).id .core = true ∧ (s.core 0).owns ((trigOf .running).w0.extractLsb' 8 5) = true ∧
       (s.core 0).owns ((trigOf .running).w0.extractLsb' 14 5) = true) ∧
    (let s := together (partIn .bcast false 0 0) true none
     s.commOrder 0 = [1] ∧ (s.core 0).activeParts 1 = [partIn .bcast false 0 0] ∧ (s.collOf core0 1 0).isSome = true ∧
       s.commEntry (s.ctx core0) 1 = some commOf ∧ (partIn .bcast false 0 0).atEnd 2 = false ∧ s.mayStart core0 0 = true) ∧
    (let p := partIn .bcast true 1 0
     let s := together p true (some false)
     p.released = true ∧ (nextMsg (p.msgs 2 0 1) p.sent).isSome = true ∧
       (s.colls.head?.bind (fun x => s.partOf x { core := 5, ctx := 0 })).isSome = true ∧ mismatch p (partIn .bcast true 1 0) = false ∧
       (s.colls.all (fun x => !s.partCut core0 x p && !s.mismatched x p)) = true ∧ (s.takeShapes core0 [p.src.toNat]).1 = [] ∧ (s.colls.map (fun x => x.members.map (·.far))) = [[none, none]] ∧
       reads (s.engReadAll core0 [] false (wrapAt p.src 4)) [0, 0, 0, 0] = true) ∧
    (let p := partIn .barrier true 0 0
     (∀ m ∈ p.msgs 1 0 0, m.len ≤ p.sent) ∧ p.whole 1 0 0 = true ∧ (together p false (some true)).colls.all (fun x =>
       !(together p false (some true)).partCut core0 x p && !(together p false (some true)).mismatched x p &&
       !(together p false (some true)).unmet x p 1 0) = true ∧ p.out = none) ∧
    (let p := { partIn .bcast true 1 0 with root := 1 }
     (together p true (some false)).colls.all (fun x => (together p true (some false)).mismatched x p) = true) ∧
    (let s : State := together (partIn .barrier true 0 0) false none
     let s : State := { s with colls := s.colls.map (fun x => { x with ended := true, why := 0x09 }) }
     (s.collOf core0 1 0).map (·.ended) = some true ∧ (s.core 0).activeParts 1 = [partIn .barrier true 0 0]) ∧
    (let s := together (partIn .barrier true 1 0) false (some true)
     (s.core 0).activeParts 1 = [partIn .barrier true 1 0] ∧ (s.collOf core0 1 0).isSome = true ∧ (partIn .barrier true 1 0).stamp = none) ∧
    (let s := together (partIn .barrier true 0 0) false none
     (s.collOf core0 1 0).isSome = true ∧ (s.colls.map (fun x => x.rank core0)) = [0] ∧
       (s.colls.filter (fun y => y.slot == some true)).length + (s.colls.filter (fun y => decide (y.part.toNat < 0) && s.asksSlot y)).length < 32 ∧
       (s.colls.map (fun x => x.members.map (·.at_))) = [[core0]]) := by
  refine ⟨⟨rfl, by decide, by decide, rfl, by decide, by decide, ?_⟩, ⟨rfl, by decide, by decide, by decide⟩, ⟨by decide, by decide⟩, ⟨rfl, by decide, by decide, by decide, by decide⟩,
    ⟨order_together, by decide, by decide, by decide, by decide, by decide⟩,
    ⟨by decide, by decide, by decide, by decide, by decide, by decide, by decide, by decide⟩, ⟨by decide, by decide, by decide, rfl⟩,
    by decide, ⟨by decide, by decide⟩, ⟨by decide, by decide, rfl⟩, ⟨by decide, by decide, by decide, by decide⟩⟩
  intro m hm y hy
  rw [show Assoc.find _ m = (if 63 = m then _ else none) from rfl, if_neg (fun e => hm e.symm)] at hy
  nomatch hy

-- Witnesses: launches, devices, terraces and partitions ---------------------------------------------------------------

/-- A launch over the first core of its partition, with 3 points by 2, its code object and its predecessors. -/
def launchOf (uid : Nat) (st : LState) (preds : List Nat) : Launch :=
  { uid := uid, st := st, status := 0, bytes := List.replicate 36 1 ++ List.replicate 28 0, code := 64, completion := 0, extents := [3, 2], rank := 2, prio := 1, first := 0, count := 1, preds := preds, elems := [], blocks := [], nextPoint := 5, returned := [], drawnCount := 5 }
def graphOf (l : List Launch) : Graph := { addr := 64, fetched := true, completion := 0, status := 0, launches := l }
/-- Device 0 runs a graph in partition 0, which has core 0. -/
def running (l : List Launch) (s : State) : State :=
  let c : Code := { codeOf .eret with dataWritten := true, entries := [{ off := 2, mask := 3, mat := true }] }
  let p : Partition := { Partition.reset with formed := true, running := some 0, harness := [0], features := 0xFF, codes := [(64, c)] }
  let d : VDev := { VDev.reset with cfg := 0x8000000001000040, st := .running, graphs := [graphOf l] }
  { s with parts := [(0, p)], vdevs := [(0, d)] }
/-- No context of a machine without cores is bound. -/
theorem unbound (l : List Launch) (x : CtxId) : ((running l State.reset).ctx x).launch = none := by
  show (Core.reset.ctx x.ctx).launch = none
  simp [Core.reset, Core.ctx, Context.reset]
theorem in_progress (l : List Launch) (s : State) (h : (l.map (·.uid)).Nodup) : InProgress (running l s) 0 (graphOf l) := ⟨rfl, rfl, h⟩
/-- The same with terrace 0 in the COMPUTE role. -/
def computing (s : State) : State := s.updTerrace 0 (fun t => { t with st := .compute })
theorem cores_open (l : List Launch) (x : Launch) (n : Nat) (h : (computing (running l State.reset)).coresOf 0 x = [(n, 0)]) :
    CoresOpen (computing (running l State.reset)) 0 x := by
  intro y hy
  rw [h, List.mem_singleton] at hy
  subst hy
  refine ⟨?_, fun m => unbound l _⟩
  rw [show terraceOf 0 = 0 from rfl, computing, State.updTerrace, State.terrace_setTerrace_same _ _ (by decide)]
def others : List Launch := [launchOf 8 .running [], launchOf 9 .pending []]
/-- Core 0 is bound to launch 7, with its dictionary resident. -/
def serving (f : Context → Context) : State :=
  State.reset.setCore 0 { Core.reset.setCtx 0 (f { Context.reset with st := .scrub, launch := some 7 }) with bound := some 7, dictOf := #v[none, some 3] }

theorem witness_LaunchLoadingAndStart :
    (let l := { launchOf 7 .pending [1] with bytes := [0, 0, 0, 0, 0, 0, 0, 0] ++ List.replicate 8 0 ++ [3, 0, 0, 2, 0, 0, 0, 0, 0] ++ List.replicate 39 0 }
     let g := [l, { launchOf 8 .running [] with st := .complete }]
     let s := computing (running g State.reset)
     InProgress s 0 (graphOf g) ∧ (∀ i ∈ l.preds, ∀ p, g[i]? = some p → p.st = .complete) ∧ s.draining 0 = false ∧
       CoresOpen s 0 l ∧ (Assoc.find (s.part 0).codes l.code).isSome = true ∧
       l.recordBad g.length (s.part 0).harness.length = false) ∧
    (let g := [launchOf 7 .pending [1], launchOf 8 .ended [], launchOf 9 .running []]
     InProgress (running g State.reset) 0 (graphOf g) ∧ (∃ p, g[1]? = some p ∧ p.st = .ended)) ∧
    (let g := launchOf 7 .binding [] :: others
     InProgress (running g (serving id)) 0 (graphOf g) ∧
       (∀ y ∈ (running g (serving id)).coresOf 0 (launchOf 7 .binding []), (((running g (serving id)).core y.2).dictHalf (3)).isSome = true)) ∧
    (let g := launchOf 7 .loading [] :: others
     let s := computing (running g State.reset)
     InProgress s 0 (graphOf g) ∧ CoresOpen s 0 (launchOf 7 .loading []) ∧
       (∀ x ∈ s.coresOf 0 (launchOf 7 .loading []), ∀ n : BitVec 3, (s.core x.2).lane n = []) ∧ (s.vdev 0).forms = [] ∧
       ((s.coresOf 0 (launchOf 7 .loading [])).map (·.2)).Nodup ∧ (codeOf .eret).symm = none) ∧
    (let g := launchOf 7 .loading [] :: others
     let f : List Byte := List.replicate 40 0 ++ [0x01] ++ List.replicate 23 0
     let s := (computing (running g State.reset)).updVdev 0 (fun d => { d with forms := [f] })
     InProgress s 0 (graphOf g) ∧ CoresOpen s 0 (launchOf 7 .loading []) ∧ (s.part 0).running = some 0 ∧ (s.vdev 0).forms = [f] ∧
       (commandOfForm f).isSome = true ∧ s.coresOf 0 (launchOf 7 .loading []) = [(0, 0)]) ∧
    (let g := launchOf 7 .running [] :: others
     let s := running g (serving (fun c => { c with lastPoint := some { i0 := 2, i1 := 0, i2 := 0 } }))
     InProgress s 0 (graphOf g) ∧ (s.core 0).bound = some 7 ∧ (s.core 0).points.length < 8 ∧ ((s.core 0).ctx 0).launch = some 7 ∧
       (launchOf 7 .running []).nextPoint < (launchOf 7 .running []).extents.prod ∧
       ((s.core 0).ctx 0).mayDraw { i0 := 2, i1 := 1, i2 := 0 } = true) := by
  refine ⟨⟨⟨rfl, rfl, by decide⟩, ?_, by decide, cores_open _ _ 0 rfl, rfl, by decide⟩, ⟨in_progress _ _ (by decide), _, rfl, rfl⟩,
    ⟨in_progress _ _ (by decide), by decide⟩, ⟨⟨rfl, rfl, by decide⟩, cores_open _ _ 0 rfl, by decide, rfl, by decide, rfl⟩,
    ⟨⟨rfl, rfl, by decide⟩, cores_open _ _ 0 rfl, rfl, rfl, by decide, rfl⟩,
    ⟨in_progress _ _ (by decide), rfl, by decide, rfl, by decide, by decide⟩⟩
  intro i hi p hp
  simp only [launchOf, List.mem_singleton] at hi
  subst hi
  injection hp with hp
  subst hp
  rfl

theorem witness_LaunchEndEvents :
    (let g := launchOf 7 .running [] :: others
     let s := running g State.reset
     InProgress s 0 (graphOf g) ∧ launchOf 7 .running [] ∈ g ∧ launchOf 8 .running [] ∈ g ∧ (∀ x : CtxId, (s.ctx x).launch ≠ some 7) ∧
       (∀ x : CtxId, (s.ctx x).launch = some 7 → (s.ctx x).part = 0) ∧
       (∀ x ∈ s.launchCtxs 7, (s.ctx x).st = .stopped → (s.ctx x).stopWhy ≠ .debug)) :=
  ⟨in_progress _ _ (by decide), by decide, by decide, fun x => by rw [unbound]; nofun, fun x => by rw [unbound]; nofun,
    by decide⟩

theorem witness_GraphsAndSwitchPoints :
    (let s := (running others State.reset).setPart 0 { Partition.reset with formed := true }
     (s.part 0).formed = true ∧ (s.part 0).running = none ∧ s.someBound 0 = false ∧ s.draining 0 = false ∧ (s.vdevs.map (·.1)).Nodup ∧
       (s.vdev 0).isReady = true ∧ s.devicesOf 0 = [0]) ∧
    (let s := (running [] State.reset).setPart 0 { Partition.reset with formed := true, running := some 0, harness := [0] }
     let s := s.updTerrace 0 (fun t => { t with st := .draining })
     (s.part 0).running = some 0 ∧ s.atBoundary 0 = true ∧ s.draining 0 = true) ∧
    (let s := running others State.reset
     (s.vdev 0).st = .running ∧ (s.vdev 0).graphs.length < 4 ∧ (s.vdev 0).graphs = graphOf others :: [] ∧ (graphOf others).fetched = true) ∧
    user.someBound 0 = true ∧
    (let s := (running others State.reset).updVdev 0 (fun d => { d with graphs := [] })
     (s.part (s.vdev 0).part).running = some 0 ∧ (s.vdev 0).st = .running ∧ (s.vdev 0).graphs = [] ∧ s.someBound 0 = false) := by
  refine ⟨⟨rfl, rfl, by decide, by decide, by decide, rfl, List.mergeSort_singleton 0⟩, ⟨rfl, by decide, by decide⟩, ⟨rfl, by decide, rfl, rfl⟩,
    by decide, rfl, rfl, rfl, by decide⟩

theorem witness_RoleEvents : rolemapRule State.reset 0x95959595 = 0 ∧ rolemapRule State.reset 0x55 = 1 ∧
    roleGoal (roleRule State.reset.rolemap.toNat 15) = (State.reset.terrace 15).st ∧
    (let s := State.reset.updTerrace 9 (fun t => { t with st := .compute })
     (∀ t < 16, (s.terrace t).busy = false) ∧ (s.terrace 9).st = .compute) ∧
    ((State.reset.updTerrace 9 (fun t => { t with st := .failed })).terrace 9).st = .failed := by
  refine ⟨by decide, by decide, by decide, ⟨by decide, by decide⟩, rfl⟩

theorem witness_TerraceSequences :
    (let s := State.reset.updTerrace 9 (fun t => { t with st := .draining, leaving := .compute })
     (s.terrace 9).leaving = .compute ∧ ∀ phys < 100, (s.core (BitVec.ofNat 11 (128 * 9 + phys))).idle = true) ∧
    (let s := State.reset.updTerrace 9 (fun t => { t with st := .flushing, leaving := .reservoir, target := .compute })
     let s : State := { s with mem := [(2 ^ 40 + 9 / 4 * 2 ^ 36 + 2 ^ 29 + 2, 1)] }
     (s.terrace 9).st = .flushing ∧ (s.terrace 9).leaving = .reservoir ∧ Memory.wf s.mem = true ∧
       bytesNat (memReadAll s.mem (2 ^ 40 + 9 / 4 * 2 ^ 36 + 9 % 4 * 2 ^ 29) 8) = 0x10000 ∧ s.poison = []) ∧
    (let s := State.reset.updTerrace 9 (fun t => { t with st := .flushing, leaving := .offline, target := .reservoir })
     (s.terrace 9).leaving ≠ .reservoir ∧ (s.terrace 9).target = .reservoir) ∧
    ((State.reset.updTerrace 9 (fun t => { t with st := .enumerating })).terrace 9).st = .enumerating := by
  refine ⟨⟨rfl, fun _ _ => rfl⟩, ⟨rfl, rfl, by decide, by decide, rfl⟩, ⟨nofun, rfl⟩, rfl⟩

/-- A partition record of core 0 at 0x1000 in a module whose terrace 0 is COMPUTE. -/
def withRecord : State :=
  let s := State.reset.updTerrace 0 (fun t => { t with st := .compute })
  { s with mem := memWriteAll [] 0x1000 (List.replicate 12 0 ++ [1, 0, 1, 0] ++ natBytes 8 0x1040 ++ [0, 0xFF] ++ natBytes 2 250) }
theorem witness_PartitionsAndVirtualDevices :
    (match withRecord.partRecord 0x1000 with
     | some (p, cores, ports) => p.opBound == 250 && cores == [0] && ports.all (· ≤ 8) && p.harness == [0]
     | none => false) = true ∧ (withRecord.part 63).formed = false ∧ withRecord.enabledCore 0 = true ∧
    ((running others State.reset).part 0).formed = true ∧ (running others State.reset).vdevs.map (·.1) = [0] ∧
    cfgRule (running others State.reset) 0x100000000000 = 0 ∧ cfgRule (running others State.reset) 0x80 = 0x20 ∧
    ((running others State.reset).vdev 0).st ≠ .resetting ∧
    (let s := ((State.reset.updVdev 9 (fun d => { d with st := .resetting })).setPart 0 { Partition.reset with harness := [0] }).setCore 0
       { Core.reset with lastTenant := some 0 }
     (s.vdev 9).st = .resetting ∧ 0 ∈ (s.part (s.vdev 9).part).harness ∧ (s.core 0).bound = none ∧
       (s.core 0).lastTenant = some (BitVec.ofNat 16 ((s.vdev 9).cfg.toNat / 2 ^ 48)) ∧ s.words = [] ∧
       (∀ l ∈ s.links.toList, l.flits = []) ∧ (∀ n : BitVec 3, (s.core 0).lane n = []) ∧ Memory.wf s.mem = true) := by
  refine ⟨by decide, rfl, by decide, rfl, rfl, by decide, by decide, nofun, rfl, by decide, rfl, by decide, rfl, ?_, by decide, rfl⟩
  intro l hl
  simp [State.setCore, State.setPart, State.updVdev, State.setVdev, State.reset] at hl
  subst hl
  rfl

theorem witness_MigrationAndInvalidation :
    (let g := [launchOf 7 .running [], launchOf 9 .pending []]
     InProgress (running g (serving (fun c => { c with st := .retiring }))) 0 (graphOf g) ∧
       (∀ x ∈ g, x.st = .running → (running g (serving (fun c => { c with st := .retiring }))).atMigration x.uid = true) ∧
       (∃ m ∈ g, m.st = .pending)) ∧
    (let s := running others State.reset
     (s.part 0).tinv = none ∧ (0x0300000000000001 : Word).getLsbD 0 = true ∧ hostMisses 0xFFF000001000 = false ∧
       (match (s.writeKeys (s.vdev 0).part (piecesOf 0xFFF000001000 1)).1 with | .ok ks => ks == [some (padBase 0 + 0x1000)] | _ => false) = true ∧
       (match (s.writeKeys (s.vdev 0).part (piecesOf 0x1000 1)).1 with | .error c => c == 0x0B | _ => false) = true) ∧
    (let s := (user.updMe (fun c => { c with dirty := [(64, 7)] })).updPart 0 (fun p => { p with tinv := some 1 })
     (s.part 0).tinv = some 1 ∧ Memory.wf s.mem = true ∧ (s.core 0).bound ≠ none ∧ (s.core 0).boundPart = 0 ∧ s.poison = [] ∧
       (64, 7) ∈ (s.ctx s.cur).dirty ∧ ∀ d ∈ (s.ctx s.cur).dirty, d.1 = 64 → d.2 = 7) := by
  refine ⟨⟨in_progress _ _ (by decide), by decide, by decide⟩, ⟨rfl, rfl, by decide, by decide, by decide⟩,
    ⟨rfl, rfl, by decide, rfl, rfl, by decide, by decide⟩⟩

-- Witnesses: bring-up, health, links, decoding and the step --------------------------------------------------------------

theorem witness_BootEvents :
    (let f : BootFacts := { signatureOk := true, digestOk := true, aboveFloor := true, dramOk := true, version := 7, urmonDigest := 1, deviceDigest := 2 }
     bootRule f State.reset.coolantHigh (State.reset.roleboot.toNat % 2 ^ 32) = 0 ∧ bootRule { f with dramOk := false } false 0 = 4 ∧
       bootRule f false 0x55 = 7) ∧ State.reset.bootFails ≠ 3 ∧ State.reset.starting = false ∧
    ({ State.reset with bootFails := 3, starting := true } : State).bootFails = 3 := by
  refine ⟨⟨by decide, by decide, by decide⟩, nofun, rfl, rfl⟩

theorem witness_AttestationAndRegistrations :
    (let s : State := { State.reset with attestBusy := true, nonce := List.replicate 64 1 }
     s.attestBusy = true ∧ s.nonce.length = 64) ∧
    (let s := inLane (cmdOf (.xstor 0xFFF000001000 0 0 1 0 2) .performing)
     (∃ o, Assoc.find ({ s with registrations := [(1, (1 : BitVec 256))] } : State).registrations 1 = some o ∧ o.getLsbD 0 = true) ∧
       ({ s with registrations := [(1, (1 : BitVec 256))] } : State).storing 1 = true) ∧ State.reset.storing 1 = false := by
  refine ⟨⟨rfl, rfl⟩, ⟨⟨_, rfl, rfl⟩, by decide⟩, rfl⟩

theorem witness_HealthAndRegisters : (105 * 16 < (0x6A0 : BitVec 16).toInt ∧ (0x690 : BitVec 16).toInt ≤ 105 * 16 ∧ 115 * 16 < (0x731 : BitVec 16).toInt) ∧
    (∀ i < 4, State.reset.terrace i = Terrace.reset) ∧ (∀ x ∈ Terrace.reset.monitors.toList, x.toInt < 100 * 16) ∧ State.reset.poison.length = 0 ∧
    (let s := State.reset.updTerrace 0 (fun t => { t with rowErrors := [(8, 1)], viaErrors := [(5, 3)] })
     (Assoc.find (s.terrace 0).rowErrors 8).getD 0 = 1 ∧ (Assoc.find (s.terrace 0).viaErrors 5).getD 0 = 3) ∧
    Terrace.reset.monitors[27]? = some 0 ∧
    Assoc.find ({ State.reset with registrations := [(4095, (0xFF00 : BitVec 256))] } : State).registrations 4095 = some 0xFF00 := by
  refine ⟨by decide, ?_, by intro x hx; simp [Terrace.reset] at hx; subst hx; decide, rfl, ⟨rfl, rfl⟩, by decide, rfl⟩
  intro i h
  match i, h with
  | 0, _ | 1, _ | 2, _ | 3, _ => rfl

def linkIn (st : LinkState) (failed : BitVec 9) : State := State.reset.setLink 15 { Link.reset with st := st, failed := failed }
theorem witness_LinkEvents : ((linkIn .down 0).link 15).st = .down ∧ (linkIn .down 0).bootTrickle = false ∧ ((linkIn .up 0).link 15).st = .up ∧
    ((linkIn .quarantined 0).link 15).st = .quarantined ∧ ((linkIn .training 0).link 15).st = .training ∧
    (∀ i < 8, (0xFF : BitVec 9).getLsbD i = true) ∧ ((0x1FE : BitVec 9).getLsbD 0 = false ∧ (0x1FE : BitVec 9).getLsbD 8 = true) ∧
    (0x1FC : BitVec 9).getLsbD 1 = false ∧ ((linkIn .up 0).link 15).failed.getLsbD 8 = false ∧
    ((linkIn .up 0x100).link 15).failed.getLsbD 8 = true ∧ ((linkIn .degraded 1).link 15).st = .degraded ∧
    (linkIn .up 0).agenda.filter (failsLink 15) = [] ∧
    ({ linkIn .up 0 with agenda := [.eret, .linkFailure 15 3, .linkFailure 14 3] } : State).agenda.filter (failsLink 15) =
      [.linkFailure 15 3] := by decide

def addOf : Instr := .add (.reg 1) (.reg 2) (.reg 3)
def addWord : OpWord := (addOf.encode).getD { slot := .s, width := .w256, word := 0 }
/-- The machine about to fetch an ADD as its first instruction. -/
def first : State := State.reset.withFetchWord 32 addWord.word.toNat
theorem first_words (s : State) (c : Context) (n : Nat) (h : n = 0)
    (w : (s.tokens c).1 0 = some 0xFFFF ∧ (s.tokens c).1 1 = some 2 ∧ (s.tokens c).1 2 = (literalTokens addWord)[2]? ∧
      (s.tokens c).1 3 = (literalTokens addWord)[3]?) : LiteralAt s c n addWord := by
  subst h
  intro k x hk
  match k, hk with
  | 0, h => exact w.1.trans h
  | 1, h => exact w.2.1.trans h
  | 2, h => exact w.2.2.1.trans h
  | 3, h => exact w.2.2.2.trans h
  | k + 4, h =>
    rw [List.getElem?_eq_none (by rw [show (literalTokens addWord).length = 4 by decide]; omega)] at h
    cases h
theorem witness_DelayStrapThenTarget : Flow.reset.delayTo = none ∧ ({ Flow.reset with delayTo := some 5 } : Flow).delayTo = some 5 := ⟨rfl, rfl⟩
theorem witness_LiteralBundleFetched : addOf.wf = true ∧ addOf.encode = some addWord ∧ first.me.pyrino = false ∧ first.me.resume = none ∧
    privWord addWord = false ∧ decodeFault first first.me addOf = none ∧ LiteralAt first first.me first.me.flow.pc.toNat addWord := by
  refine ⟨rfl, by decide, rfl, rfl, by decide, by decide, first_words _ _ _ (by decide) (by decide)⟩
theorem witness_StepRunsTheDecodedInstruction : AtStrap first { core := 0, ctx := 0 } addOf addWord ∧
    (let u := first.turnBegun 0
     let b : State := { (({ u.updCtx { core := 0, ctx := 0 } Context.unblock with cur := { core := 0, ctx := 0 } } : State).arm [addOf]).updCore 0 Core.endHelpers with cur := { core := 0, ctx := 0 } }
     match exec addOf (b.updMe (fun x => x.beginStrap (literalInfo addWord (u.ctx { core := 0, ctx := 0 }).flow.pc.toNat) [addOf])) with
     | .next _ => true | _ => false) = true ∧
    ({ State.reset with agenda := [.eret] } : State).agenda = .eret :: [] := by
  refine ⟨⟨rfl, by decide, by decide +kernel, by decide +kernel, by decide +kernel, .inl (by decide +kernel),
    first_words _ _ _ (by decide +kernel) (by decide +kernel), by decide +kernel, by decide +kernel, fun h => absurd h (by decide),
    by decide +kernel, by decide +kernel⟩, by decide +kernel, rfl⟩
theorem witness_StepsKeepMemoryCanonical : Memory.wf first.mem = true ∧ (match step first with | .next _ => true | _ => false) = true := ⟨rfl, by decide +kernel⟩
theorem witness_DecodeEncode : addOf.wf = true ∧ addOf.encode = some addWord ∧ decodeOp addWord = .ok addOf := ⟨rfl, by decide, by decide⟩
theorem witness_EncodeDecode : addWord.word.toNat < 2 ^ (16 * addWord.slot.words) ∧ addWord.width = .w256 ∧ decodeOp addWord = .ok addOf := by
  refine ⟨by decide, by decide, by decide⟩

-- Results of the spec's worked examples, and of its rules by hand ------------------------------------------------------

/-- The value that an operation puts in flight last, and its flags. -/
def value (i : Instr) (s : State) : Option (Nat × BitVec 3) :=
  (after i s (fun t => (t.me.user.flight.getLast?).bind (fun r => match r.eff with
    | .s _ v | .a _ v | .h _ v => some (v.toNat, r.flags)
    | .v _ v _ | .w _ v _ => some (v.toNat, r.flags)
    | .p _ v _ => some (v.toNat, r.flags)
    | _ => none))).join
def withS (a b : Word) : State := busy (fun c => { c with s := (c.s.set 1 a).set 2 b })
def withV (a b : Nat) : State := busy (fun c => { c with v := (c.v.set 1 (BitVec.ofNat 1024 a)).set 2 (BitVec.ofNat 1024 b) })
def v32 : VHdr := { slot := .v0, width := .w256, pred := 1, neg := false }
/-- The same with lane predicate p1 on for the first bytes given. -/
def lanes (p : Nat) (s : State) : State := s.updMe (fun c => { c with p := c.p.set 1 (BitVec.ofNat 128 p) })

theorem test_add_wraps : value (.add (.reg 3) (.reg 1) (.reg 2)) (withS 0xFFFFFFFFFFFFFFFF 2) = some (1, 0) := by decide +kernel
theorem test_clz_zero : value (.clz (.reg 3) (.reg 1)) (withS 0 0) = some (64, 0) := by decide +kernel
theorem test_bext_sign : value (.bextS (.reg 3) (.reg 1) (.reg 2)) (withS 0x30 0x204) = some (0xFFFFFFFFFFFFFFFF, 0) := by decide +kernel
theorem test_bext_length_zero : value (.bext (.reg 3) (.reg 1) (.reg 2)) (withS 0x8000000000000000 0x3F) = some (1, 0) := by decide +kernel
theorem test_cmp_signed : value (.cmp (.s (.reg 3)) (.reg 1) (.reg 2) .lt) (withS 0x8000000000000000 0) = some (1, 0) := by decide +kernel
/-- R67, R68: 2^128 overflows FP32, and 2^-149 is its least subnormal; log2 of 0.25 is -2. -/
theorem test_vfexp2_overflow : value (.vfexp2 v32 .f32 (.reg 3) (.reg 1)) (lanes 0xF (withV 0x43000000 0)) = some (0x7F800000, 2) := by decide +kernel
theorem test_vfexp2_least : value (.vfexp2 v32 .f32 (.reg 3) (.reg 1)) (lanes 0xF (withV 0xC3150000 0)) = some (1, 0) := by decide +kernel
theorem test_vflog2_quarter : value (.vflog2 v32 .bf16 (.reg 3) (.reg 1)) (lanes 3 (withV 0x3E80 0)) = some (0xC000, 0) := by decide +kernel
/-- R64's worked tree sum: 1.0, 2^24, 1.0 and -2^24 give 1.0. -/
theorem test_vred_tree_order : value (.vred v32 .f32 (.reg 4) (.reg 1) .sum) (lanes 0xFFFF (withV (0xCB8000003F8000004B8000003F800000) 0)) =
    some (0x3F800000, 0) := by decide +kernel
theorem test_vred_none_active : value (.vred v32 .f32 (.reg 4) (.reg 1) .sum) (lanes 0 (withV 7 0)) = some (0x80000000, 0) := by decide +kernel
/-- R69: amax 3.0 at target O4 has the code 0x7E; 2^-140 clamps to 0x00 with scale_underflow. -/
theorem test_scale_code : (scaleCode QTarget.o4.bound (.fin false 3 0)).1 = 0x7E ∧ scaleCode QTarget.o4.bound (.fin false 1 (-140)) = (0, flUnder) := by
  decide
/-- R220's worked conversion: 1.0, 300.0, 500.0, -0.001, NaN and 17.0 to E4M3 in part 1 of the width. -/
theorem test_vfcvt_worked :
    (value (.vfcvt { v32 with width := .w1024, pred := 0 } .e4m3 .f32 (.reg 6) (.reg 1) (.reg 2) 1 .rne)
      (withV 0x418800007FC00000BA83126F43FA0000439600003F800000 0xAAAA)).map (fun r => (r.1 / 2 ^ 256 % 2 ^ 64, r.1 % 2 ^ 16, r.2)) =
      some (0x587F817E7938, 0xAAAA, 2) := by decide +kernel
/-- R405's worked bound: under an operator bound of 2,000 a quantum of 2,010 is refused, and 2,016 is accepted. -/
theorem test_vdcfg_quantum : cfgRule ((running others State.reset).updPart 0 (fun p => { p with opBound := 2000 })) (2010 * 2 ^ 32) = 0x21 ∧
    cfgRule ((running others State.reset).updPart 0 (fun p => { p with opBound := 2000 })) (2016 * 2 ^ 32) = 0 := by decide
/-- R415's worked start: one times out, two meet a bad signature, and the fourth enters trickle mode. -/
theorem test_bootrep : ({ State.reset with bootVersion := 0x0102, bootTrickle := true, bootFails := 3, bootReason := 1 } : State).bootrep = 0x01021301 := by
  decide
/-- R13: physical core 37 on terrace 1 of cascade 2. -/
theorem test_core_number : terraceOf 0x4A5 = 4 * 2 + 1 ∧ physOf 0x4A5 = 37 := by decide
theorem test_word_br : dec .c 0x01000006 = some (.br 6) := by decide
theorem test_word_lda_wide : dec .a 0x1016BE00 = some (.lda (.reg 5) .zero 7 .ctx .ordinary) := by decide
theorem test_word_cas : dec .a 0x210C66B8 = some (.cas (.reg 3) (.reg 6) 3 .part .seqCst) := by decide
theorem test_word_kld : dec .k 0x01100008 = some (.kld 1 8) := by decide
theorem test_word_waitw : dec .y 0x034C0502 = some (.waitw 2 3 .part .geu) := by decide
theorem test_word_fence_acq : dec .y 0x09000640 = some (.fence .mod .acq) := by decide

end Sys2Proof.Tests
end

section
/-! PROOF (O37). The C slot's transfers, SKIP and the loop instructions: where a strap that was fetched ends, the frame that
these operations share, the values that a loop starts with, and then one equation per instruction. -/

namespace Sys2Proof.Machine

-- Where a strap ends ----------------------------------------------------------------------------------------------------

/-- A fetched bundle is passed by its length: both readings of the section agree on the offset after it. -/
theorem strapEnd_of_fetchBundle {tok : Nat → Option (BitVec 16)} {dict : List (BitVec 384)} {off : Nat} {b : Bundle}
    (h : fetchBundle tok dict off = some b) (fuel : Nat) :
    strapEnd tok (fuel + 1) off = if b.stop then some b.next else strapEnd tok fuel b.next := by
  unfold fetchBundle at h
  cases ht : tok off with
  | none => simp [ht] at h
  | some t =>
    simp only [ht] at h
    by_cases hlit : (t.extractLsb' 0 15).toNat = 0x7FFF
    · have hlit' : t.extractLsb' 0 15 = 0x7FFF#15 := BitVec.eq_of_toNat_eq hlit
      cases hh : tok (off + 1) with
      | none => simp [hlit, hh] at h
      | some w =>
        cases hw : wordsAt tok (off + 2) (headerWords w) with
        | none => simp [hlit, hh, hw] at h
        | some ws =>
          simp only [hlit, hh, hw, if_true, Option.some.injEq] at h
          subst h
          simp [strapEnd, ht, hlit', hh]
    · have hlit' : t.extractLsb' 0 15 ≠ 0x7FFF#15 := fun e => hlit (congrArg BitVec.toNat e)
      simp only [hlit, if_false] at h
      split at h
      · split at h
        · cases h
        · cases h
          simp [strapEnd, ht, hlit']
      · cases h

/-- Bundles fetched without a fault end where the strap does. -/
theorem strapEnd_of_fetchBundles {tok : Nat → Option (BitVec 16)} {dict : List (BitVec 384)} {fuel off : Nat}
    (hbad : (fetchBundles tok dict fuel off).bad = false) (hlong : (fetchBundles tok dict fuel off).long = false) :
    ∃ b, (fetchBundles tok dict fuel off).bundles.getLast? = some b ∧ strapEnd tok fuel off = some b.next := by
  induction fuel generalizing off with
  | zero => simp [fetchBundles] at hlong
  | succ fuel ih =>
    cases hb : fetchBundle tok dict off with
    | none => simp [fetchBundles, hb] at hbad
    | some b =>
      rw [strapEnd_of_fetchBundle hb]
      cases hstop : b.stop with
      | true => exact ⟨b, by simp [fetchBundles, hb, hstop], rfl⟩
      | false =>
        simp only [fetchBundles, hb, hstop, Bool.false_eq_true, if_false] at hbad hlong ⊢
        obtain ⟨d, hd, hend⟩ := ih hbad hlong
        exact ⟨d, by simp [List.getLast?_cons, hd], hend⟩

/-- Bundles that make a strap were fetched without a fault, and the strap that follows it starts after the last of them. -/
theorem strapOfBundles_ok {f : Fetched} {info : StrapInfo} (h : strapOfBundles f = .ok info) :
    f.bad = false ∧ f.long = false ∧ info.next = BitVec.ofNat 32 ((f.bundles.getLast?.map (·.next)).getD 0) := by
  unfold strapOfBundles at h
  dsimp only at h
  split at h
  · cases h
  · next hbad =>
    split at h
    · cases h
    · next hlegal =>
      cases h
      simp only [Bool.or_eq_true, not_or, Bool.not_eq_true] at hbad hlegal
      obtain ⟨⟨⟨⟨⟨hlong, -⟩, -⟩, -⟩, -⟩, -⟩ := hlegal
      exact ⟨hbad, hlong, rfl⟩

/-- Where the native strap at an offset can be fetched, the offset after it is the one that the fetch gives (R138). -/
theorem afterStrap_of_fetchAt {s : State} {c : Context} {off : BitVec 32} {info : StrapInfo}
    (hnative : c.translated = false) (h : s.fetchAt c off.toNat = .ok info) : s.afterStrap c off = info.next := by
  simp only [State.fetchAt, hnative, Bool.false_eq_true, if_false] at h
  obtain ⟨hbad, hlong, hnext⟩ := strapOfBundles_ok h
  obtain ⟨b, hlast, hend⟩ := strapEnd_of_fetchBundles hbad hlong
  simp [State.afterStrap, hend, hnext, hlast]

-- The frame that transfers and loop instructions share --------------------------------------------------------------------

/-- The instructions of R138, R139, R141 and R142. -/
inductive TransferOrLoop : Instr → Prop
  | br (t : BitVec 16) : TransferOrLoop (.br t)
  | brp (p : BitVec 4) (n : Bool) (t : BitVec 16) : TransferOrLoop (.brp p n t)
  | bri (l : BitVec 3) : TransferOrLoop (.bri l)
  | call (l : BitVec 3) (t : BitVec 16) : TransferOrLoop (.call l t)
  | ret (l : BitVec 3) : TransferOrLoop (.ret l)
  | skip (p : BitVec 4) (n : Bool) (k : BitVec 16) : TransferOrLoop (.skip p n k)
  | loop (l ring drain : BitVec 3) (n : BitVec 15) : TransferOrLoop (.loop l ring drain n)
  | lset (l ring drain : BitVec 3) : TransferOrLoop (.lset l ring drain)
  | lbr (l : BitVec 3) (t : BitVec 16) : TransferOrLoop (.lbr l t)

theorem TransferOrLoop.opSlot_eq {i : Instr} (hi : TransferOrLoop i) : opSlot i = 0 := by
  cases hi <;> rfl

/-- Outside a delay strap decode refuses none of them that is well formed (R79, R137). -/
theorem TransferOrLoop.decodeFault_none {i : Instr} (hi : TransferOrLoop i) (hw : i.wf = true) {s : State}
    (hs : IssuingC s) : decodeFault s s.me i = none := by
  have hdelay : s.me.flow.delayTo.isSome = true → s.me.translated = true := by
    rcases hs.2 with hnone | htr
    · simp [hnone]
    · exact fun _ => htr
  have hslot := hi.opSlot_eq
  cases hi <;> simpa [decodeFault, featuresOk, featureOf, hslot, hw] using hdelay

/-- Such an operation does what its body does, and its slot is done. -/
theorem TransferOrLoop.slotOp_eq {i : Instr} (hi : TransferOrLoop i) {s t : State} {body : Act Unit} (hs : IssuingC s)
    (hb : body.run s = (.ok (), t)) (hw : i.wf = true := by rfl) :
    slotOp i body s = .next (t.updMe (fun c => c.strapDone id)) := by
  rw [slotOp_ok (hi.decodeFault_none hw hs) hs.1.1 hs.1.2 hb, hi.opSlot_eq]
  rfl

/-- Such an operation whose body changes its context. -/
theorem TransferOrLoop.slotOp_updMe {i : Instr} (hi : TransferOrLoop i) {s : State} {body : Act Unit}
    {g : Context → Context} (hs : IssuingC s) (hb : body.run s = (.ok (), s.updMe g)) (hw : i.wf = true := by rfl) :
    slotOp i body s = .next (s.updMe (fun c => (g c).strapDone id)) := by
  rw [hi.slotOp_eq hs hb hw, State.updMe_updMe]

/-- A result of such an operation enters flight with latency 1. -/
theorem TransferOrLoop.emit_run {i : Instr} (hi : TransferOrLoop i) (e : Effect) (s : State) :
    (emit i 1 e).run s = (.ok (), s.updMe (fun c => c.cResult e)) := by
  rw [Machine.emit_run, hi.opSlot_eq]
  rfl

theorem takeTransfer_run (t : BitVec 16) (s : State) :
    (takeTransfer t).run s =
      (.ok (), s.updMe (fun c => c.updFlow (fun f => f.updStrap (fun st => { st with taken := some t })))) := rfl

/-- What changed the strap's record before the slot was done, changed it with that. -/
@[simp] theorem Context.strapDone_updStrap (c : Context) (g : Strap → Strap) :
    (c.updFlow (fun f => f.updStrap g)).strapDone id = c.strapDone g := by
  simp [Context.strapDone, Flow.updStrap]

/-- Such an operation whose body changes the context's record and then the strap's. -/
theorem TransferOrLoop.slotOp_updStrap {i : Instr} (hi : TransferOrLoop i) {s : State} {body : Act Unit}
    {g : Context → Context} {k : Strap → Strap} (hs : IssuingC s)
    (hb : body.run s = (.ok (), s.updMe (fun c => (g c).updFlow (fun f => f.updStrap k)))) (hw : i.wf = true := by rfl) :
    slotOp i body s = .next (s.updMe (fun c => (g c).strapDone k)) := by
  simpa only [Context.strapDone_updStrap] using hi.slotOp_updMe hs hb hw

/-- A result and a change of the strap's record do not depend on their order. -/
theorem Context.cResult_updStrap (c : Context) (g : Strap → Strap) (e : Effect) :
    (c.updFlow (fun f => f.updStrap g)).cResult e = (c.cResult e).updFlow (fun f => f.updStrap g) := by
  simp [Context.cResult, Context.withResult, Context.translated, Flow.updStrap]

/-- The condition of BRP and SKIP by its bits: after negation a predicate is zero where each of its bits equals the negate bit. -/
theorem anyBit_eq_someBitRule (p : PWord) (neg : Bool) : anyBit p neg = someBitRule p neg := by
  have hzero : (if neg then ~~~p else p) = 0 ↔ ∀ k : Fin 128, p.getLsbD k = neg := by
    constructor
    · intro h k
      have hk := congrArg (fun q : PWord => q.getLsbD k) h
      cases neg <;> simpa using hk
    · intro h
      refine BitVec.eq_of_getLsbD_eq fun k hk => ?_
      have hbit := h ⟨k, hk⟩
      cases neg <;> simp_all
  rw [anyBit, someBitRule, Bool.eq_iff_iff, bne_iff_ne, ne_eq, hzero, decide_eq_true_iff, not_forall]

theorem condOf_run (p : BitVec 4) (n : Bool) (s : State) :
    (condOf p n).run s = (.ok (someBitRule (s.me.p.get p) n), s) := by
  rw [← anyBit_eq_someBitRule]
  rfl

-- What a loop starts with ---------------------------------------------------------------------------------------------------

theorem pAll_decide (b : Prop) [Decidable b] : pAll (decide b) = fullRule b := by
  by_cases h : b <;> simp [pAll, fullRule, h]

/-- The count of a loop: the entering iterations and those that drain it. -/
theorem loopCount_toNat (n : BitVec 32) (drain : BitVec 3) :
    (n + drain.setWidth 32).toNat = (n.toNat + drain.toNat) % 2 ^ 32 := by
  have := drain.isLt
  rw [BitVec.toNat_add, BitVec.toNat_setWidth, Nat.mod_eq_of_lt (a := drain.toNat) (by omega)]

/-- The fields of a loop register, laid beside each other. -/
theorem loopWord_eq (drain : BitVec 3) (c : BitVec 32) :
    (0 : BitVec 29) ++ drain ++ c = BitVec.ofNat 64 (c.toNat + 2 ^ 32 * drain.toNat) := by
  apply BitVec.eq_of_toNat_eq
  have hc := c.isLt
  have hd := drain.isLt
  have hhigh : ((0 : BitVec 29) ++ drain).toNat = drain.toNat := by
    rw [BitVec.toNat_append]
    simp
  rw [BitVec.toNat_append, ← Nat.shiftLeft_add_eq_or_of_lt hc, hhigh, BitVec.toNat_ofNat, Nat.shiftLeft_eq]
  omega

/-- Changes of the acting context one after another are one change. -/
theorem State.foldl_updMe {α : Type} (g : Context → α → Context) (es : List α) (f : Context → Context) (s : State) :
    es.foldl (fun s e => s.updMe (fun c => g c e)) (s.updMe f) = s.updMe (fun c => es.foldl g (f c)) := by
  induction es generalizing f with
  | nil => rfl
  | cons e es ih => simp only [List.foldl_cons, State.updMe_updMe, ih]

/-- Results emitted one after another. -/
theorem TransferOrLoop.forM_emit_run {i : Instr} (hi : TransferOrLoop i) (e : Nat → Effect) (js : List Nat) (s : State) :
    (js.forM (fun j => emit i 1 (e j))).run s =
      (.ok (), (js.map e).foldl (fun s e => s.updMe (fun c => c.cResult e)) s) := by
  induction js generalizing s with
  | nil => rfl
  | cons j js ih =>
    exact (act_bind_ok (hi.emit_run (e j) s)).trans (ih _)

/-- LOOP and LSET bring the loop register, the ring and the eight stage predicates into flight (R141). -/
theorem TransferOrLoop.startLoop_run {i : Instr} (hi : TransferOrLoop i) (l ring drain : BitVec 3) (n : BitVec 32)
    (s : State) : (startLoop i l ring drain n).run s =
      (.ok (), s.updMe (fun c => (loopEffects l ring drain n.toNat).foldl Context.cResult c)) := by
  unfold startLoop
  rw [act_bind_ok (hi.emit_run _ s), act_bind_ok (hi.emit_run _ _), act_bind_ok (hi.emit_run _ _), hi.forM_emit_run,
    State.updMe_updMe, State.updMe_updMe, State.foldl_updMe, loopWord_eq, pAll_decide, loopCount_toNat]
  rfl

-- The instructions ------------------------------------------------------------------------------------------------------

/-- BRP and SKIP: a change of the strap's record where some bit of the predicate is 1 after negation (R138, R139). -/
theorem TransferOrLoop.slotOp_where {i : Instr} (hi : TransferOrLoop i) (hw : i.wf = true) (p : BitVec 4) (n : Bool)
    (g : Strap → Strap) {s : State} (hs : IssuingC s) :
    slotOp i (do if (← condOf p n) then updMeA (fun c => c.updFlow (fun f => f.updStrap g))) s =
      .next (s.updMe (fun c => c.strapDone (fun st => if someBitRule (s.me.p.get p) n then g st else st))) := by
  cases hc : someBitRule (s.me.p.get p) n with
  | true =>
    exact hi.slotOp_updStrap (g := id) hs
      ((act_bind_ok (condOf_run p n s)).trans (by rw [hc]; exact updMeA_run _ s)) hw
  | false =>
    rw [hi.slotOp_eq hs ((act_bind_ok (condOf_run p n s)).trans (by rw [hc]; rfl)) hw]
    rfl

/-- The lowest bits of a loop register: a target or a count. -/
theorem lowBits_eq (v : Word) (w : Nat) : v.extractLsb' 0 w = BitVec.ofNat w (v.toNat % 2 ^ w) := by
  apply BitVec.eq_of_toNat_eq
  simp

/-- BRI and RET: a transfer to the target that a loop register holds (R138). -/
theorem TransferOrLoop.slotOp_indirect {i : Instr} (hi : TransferOrLoop i) (hw : i.wf = true) (l : BitVec 3) {s : State}
    (hs : IssuingC s) :
    slotOp i (do takeTransfer (((← getMe).l.get l).extractLsb' 0 16)) s = .next (s.updMe (fun c =>
      c.strapDone (fun st => { st with taken := some (BitVec.ofNat 16 ((s.me.l.get l).toNat % 2 ^ 16)) }))) := by
  rw [← lowBits_eq]
  exact hi.slotOp_updStrap (g := id) hs ((act_bind_ok (getMe_run s)).trans (takeTransfer_run _ s)) hw

theorem exec_br (t : BitVec 16) {s : State} (hs : IssuingC s) :
    exec (.br t) s = .next (s.updMe (fun c => c.strapDone (fun st => { st with taken := some t }))) :=
  (TransferOrLoop.br t).slotOp_updStrap (g := id) hs (takeTransfer_run t s)

theorem exec_brp (p : BitVec 4) (n : Bool) (t : BitVec 16) {s : State} (hs : IssuingC s) :
    exec (.brp p n t) s = .next (s.updMe (fun c => c.strapDone (fun st =>
      if someBitRule (s.me.p.get p) n then { st with taken := some t } else st))) :=
  (TransferOrLoop.brp p n t).slotOp_where rfl p n _ hs

theorem exec_skip (p : BitVec 4) (n : Bool) (k : BitVec 16) {s : State} (hs : IssuingC s)
    (hw : (Instr.skip p n k).wf = true) :
    exec (.skip p n k) s = .next (s.updMe (fun c => c.strapDone (fun st =>
      if someBitRule (s.me.p.get p) n then { st with skip := BitVec.ofNat 5 k.toNat } else st))) := by
  rw [BitVec.ofNat_toNat]
  exact (TransferOrLoop.skip p n k).slotOp_where hw p n (fun st => { st with skip := k.setWidth 5 }) hs

theorem exec_bri (l : BitVec 3) {s : State} (hs : IssuingC s) :
    exec (.bri l) s = .next (s.updMe (fun c => c.strapDone (fun st =>
      { st with taken := some (BitVec.ofNat 16 ((s.me.l.get l).toNat % 2 ^ 16)) }))) :=
  (TransferOrLoop.bri l).slotOp_indirect rfl l hs

theorem exec_ret (l : BitVec 3) {s : State} (hs : IssuingC s) :
    exec (.ret l) s = .next (s.updMe (fun c => c.strapDone (fun st =>
      { st with taken := some (BitVec.ofNat 16 ((s.me.l.get l).toNat % 2 ^ 16)) }))) :=
  (TransferOrLoop.ret l).slotOp_indirect rfl l hs

/-- CALL transfers, and links what the rule of its code gives (R138, R98). -/
theorem exec_call (l : BitVec 3) (t : BitVec 16) {s : State} (hs : IssuingC s) {link : BitVec 32}
    (hlink : (if s.me.translated then s.me.flow.strap.next else s.afterStrap s.me s.me.flow.strap.next) = link) :
    exec (.call l t) s = .next (s.updMe (fun c =>
      (c.cResult (.l l (BitVec.ofNat 64 link.toNat))).strapDone (fun st => { st with taken := some t }))) := by
  have hi := TransferOrLoop.call l t
  change execCall l t s = _
  unfold execCall
  refine hi.slotOp_updStrap hs ((act_bind_ok (getMe_run s)).trans ?_)
  rw [act_bind_ok (act_get s), act_bind_ok (takeTransfer_run t s), hi.emit_run]
  simp only [hlink, BitVec.ofNat_toNat, State.updMe_updMe, Context.cResult_updStrap]

theorem exec_loop (l ring drain : BitVec 3) (n : BitVec 15) {s : State} (hs : IssuingC s) :
    exec (.loop l ring drain n) s =
      .next (s.updMe (fun c => ((loopEffects l ring drain n.toNat).foldl Context.cResult c).strapDone id)) := by
  have hi := TransferOrLoop.loop l ring drain n
  rw [← BitVec.toNat_setWidth_of_le (show 15 ≤ 32 by decide)]
  exact hi.slotOp_updMe hs (hi.startLoop_run l ring drain (n.setWidth 32) s)

/-- LSET takes the entering iterations from the loop register as written earlier (R141). -/
theorem exec_lset (l ring drain : BitVec 3) {s : State} (hs : IssuingC s) :
    exec (.lset l ring drain) s = .next (s.updMe (fun c =>
      ((loopEffects l ring drain ((s.me.l.get l).toNat % 2 ^ 32)).foldl Context.cResult c).strapDone id)) := by
  have hi := TransferOrLoop.lset l ring drain
  have hcount : ((s.me.l.get l).extractLsb' 0 32).toNat = (s.me.l.get l).toNat % 2 ^ 32 := by simp
  rw [← hcount]
  change execLset l ring drain s = _
  unfold execLset
  exact hi.slotOp_updMe hs ((act_bind_ok (getMe_run s)).trans (hi.startLoop_run l ring drain _ s))

/-- LBR on a loop that has ended changes nothing. -/
theorem exec_lbr_of_eq_zero (l : BitVec 3) (t : BitVec 16) {s : State} (hs : IssuingC s)
    (h : (s.me.l.get l).toNat % 2 ^ 32 = 0) :
    exec (.lbr l t) s = .next (s.updMe (fun c => c.strapDone id)) := by
  have hc : (s.me.l.get l).extractLsb' 0 32 = 0 := by rw [lowBits_eq, h]; rfl
  refine (TransferOrLoop.lbr l t).slotOp_eq hs ((act_bind_ok (getMe_run s)).trans ?_)
  simp only [hc, if_true]
  rfl

/-- LBR at the last iteration counts it and falls through. -/
theorem exec_lbr_of_eq_one (l : BitVec 3) (t : BitVec 16) {s : State} (hs : IssuingC s)
    (h : (s.me.l.get l).toNat % 2 ^ 32 = 1) :
    exec (.lbr l t) s = .next (s.updMe (fun c => (c.cResult (.lLow l 0)).strapDone id)) := by
  have hi := TransferOrLoop.lbr l t
  have hc : (s.me.l.get l).extractLsb' 0 32 = 1 := by rw [lowBits_eq, h]; rfl
  have hone : (1 : BitVec 32) ≠ 0 := by decide
  refine hi.slotOp_updMe hs ((act_bind_ok (getMe_run s)).trans ?_)
  simp only [hc, hone, if_false, BitVec.sub_self]
  exact act_bind_ok (hi.emit_run _ s)

/-- LBR before the last iteration loops: the transfer, the count, and the rotation with its stages. -/
theorem exec_lbr_of_one_lt (l : BitVec 3) (t : BitVec 16) {s : State} (hs : IssuingC s)
    (h : 1 < (s.me.l.get l).toNat % 2 ^ 32) :
    exec (.lbr l t) s = .next (s.updMe (fun c =>
      ((c.cResult (.lLow l (BitVec.ofNat 32 ((s.me.l.get l).toNat % 2 ^ 32 - 1)))).cResult
        (.shift (fullRule ((s.me.l.get l).toNat / 2 ^ 32 % 2 ^ 3 < (s.me.l.get l).toNat % 2 ^ 32 - 1)))).strapDone
        (fun st => { st with taken := some t }))) := by
  have hi := TransferOrLoop.lbr l t
  generalize hv : s.me.l.get l = v at h ⊢
  have hcount : (v.extractLsb' 0 32 - 1).toNat = v.toNat % 2 ^ 32 - 1 := by rw [lowBits_eq]; bv_omega
  have hdrain : (v.extractLsb' 32 3).toNat = v.toNat / 2 ^ 32 % 2 ^ 3 := by simp [Nat.shiftRight_eq_div_pow]
  have hc : v.extractLsb' 0 32 ≠ 0 := by rw [lowBits_eq]; bv_omega
  have hc1 : v.extractLsb' 0 32 - 1 ≠ 0 := by rw [lowBits_eq]; bv_omega
  rw [← hcount, BitVec.ofNat_toNat, BitVec.setWidth_eq, ← hdrain, ← pAll_decide]
  refine hi.slotOp_updStrap hs ((act_bind_ok (getMe_run s)).trans ?_)
  simp only [hv, hc, hc1, if_false]
  rw [act_bind_ok (hi.emit_run _ s), act_bind_ok (takeTransfer_run t _), hi.emit_run, State.updMe_updMe,
    State.updMe_updMe]
  simp only [Context.cResult_updStrap]

/-- LBR counts down by its loop register (R142). -/
theorem exec_lbr (l : BitVec 3) (t : BitVec 16) {s : State} (hs : IssuingC s) :
    exec (.lbr l t) s = .next (s.updMe (fun c =>
      let n := (s.me.l.get l).toNat % 2 ^ 32
      let drain := (s.me.l.get l).toNat / 2 ^ 32 % 2 ^ 3
      if n = 0 then c.strapDone id
      else if n = 1 then (c.cResult (.lLow l 0)).strapDone id
      else ((c.cResult (.lLow l (BitVec.ofNat 32 (n - 1)))).cResult (.shift (fullRule (drain < n - 1)))).strapDone
        (fun st => { st with taken := some t }))) := by
  dsimp only
  by_cases h0 : (s.me.l.get l).toNat % 2 ^ 32 = 0
  · simp only [h0, if_true, exec_lbr_of_eq_zero l t hs h0]
  · by_cases h1 : (s.me.l.get l).toNat % 2 ^ 32 = 1
    · simp only [h1, one_ne_zero, if_false, if_true, exec_lbr_of_eq_one l t hs h1]
    · simp only [h0, h1, if_false, exec_lbr_of_one_lt l t hs (by omega)]

end Sys2Proof.Machine
end

section
open Sys2Proof Sys2Proof.Machine

/-- Transfers and SKIP; the link of a CALL is where the delay strap, which can be fetched, ends. -/
theorem transfersAndSkips : Claims.TransfersAndSkips := by
  refine ⟨fun t _ hs => exec_br t hs, fun p n t _ hs => exec_brp p n t hs, fun l _ hs => exec_bri l hs,
    fun l _ hs => exec_ret l hs, ?_, ?_, fun p n k _ hs hw => exec_skip p n k hs hw⟩
  · intro l t info s hs hnative hfetch
    refine exec_call l t hs ?_
    rw [hnative, if_neg Bool.false_ne_true, afterStrap_of_fetchAt hnative hfetch]
  · intro l t s hs htranslated
    exact exec_call l t hs (if_pos htranslated)

theorem loopInstructions : Claims.LoopInstructions :=
  ⟨fun l ring drain n _ hs => exec_loop l ring drain n hs, fun l ring drain _ hs => exec_lset l ring drain hs,
    fun l t _ hs => exec_lbr l t hs⟩

/-- Settles O37: each instruction does what its body does, and a CALL links the end of the fetched delay strap. -/
theorem transfersSkipsAndLoops : Obligations.TransfersSkipsAndLoops := ⟨transfersAndSkips, loopInstructions⟩

end

section
/-! PROOF (O42). The bits of packed elements, of enables and of byte masks, and what formats and widths divide. -/

namespace Sys2Proof

-- Formats and widths ----------------------------------------------------------------------------------------------------

theorem Fmt.bits_pos (f : Fmt) : 0 < f.bits := by cases f <;> decide

theorem Fmt.bits_dvd_width (f : Fmt) (w : VWidth) : f.bits ∣ w.bits := by cases f <;> cases w <;> decide

/-- The elements of ANY are whole bytes (R197). -/
theorem Fmt.eight_dvd_bits {f : Fmt} (hf : f.isAny = true) : 8 ∣ f.bits := by cases f <;> revert hf <;> decide

theorem Fmt.isAny_of_isInt {f : Fmt} (hf : f.isInt = true) : f.isAny = true := by cases f <;> revert hf <;> decide

theorem Fmt.isAny_of_isFF {f : Fmt} (hf : f.isFF = true) : f.isAny = true := by cases f <;> revert hf <;> decide

theorem VWidth.bits_le (w : VWidth) : w.bits ≤ 1024 := by cases w <;> decide

theorem VWidth.eight_dvd_bits (w : VWidth) : 8 ∣ w.bits := by cases w <;> decide

/-- An element number is below E where its bits are below the width (R193). -/
theorem div_bits_lt_iff (f : Fmt) (w : VWidth) (j : Nat) : j / f.bits < w.bits / f.bits ↔ j < w.bits := by
  rw [Nat.div_lt_iff_lt_mul f.bits_pos, Nat.div_mul_cancel (f.bits_dvd_width w)]

end Sys2Proof

namespace Sys2Proof.Machine

-- The bits of packed elements -------------------------------------------------------------------------------------------

/-- Bit j of elements packed from bit 0 upward is a bit of element j / e. -/
theorem testBit_packElems {e : Nat} (he : 0 < e) (l : List Nat) (j : Nat) :
    (packElems e l).testBit j = (l.getD (j / e) 0).testBit (j % e) := by
  induction l generalizing j with
  | nil => simp [packElems]
  | cons x r ih =>
    rw [packElems, Nat.add_comm, Nat.testBit_two_pow_mul_add _ (Nat.mod_lt _ (Nat.two_pow_pos e))]
    by_cases hj : j < e
    · simp [hj, Nat.div_eq_of_lt hj, Nat.mod_eq_of_lt hj]
    · have hle : e ≤ j := Nat.le_of_not_lt hj
      rw [if_neg hj, ih, Nat.div_eq_sub_div he hle, ← Nat.mod_eq_sub_mod hle, List.getD_cons_succ]

theorem packElems_concat (e : Nat) (l : List Nat) (x : Nat) :
    packElems e (l ++ [x]) = packElems e l + 2 ^ (e * l.length) * (x % 2 ^ e) := by
  induction l with
  | nil => simp [packElems]
  | cons y r ih =>
    simp only [List.cons_append, packElems, ih, List.length_cons, Nat.mul_succ, Nat.pow_add]
    ring

/-- A sum of fields of ones is the packing of those fields: the shape of the enable bits, the byte-lane bits and the byte
mask. -/
theorem foldl_ones_eq_packElems (e n : Nat) (c : Nat → Bool) :
    (List.range n).foldl (fun a k => if c k then a + (2 ^ e - 1) * 2 ^ (e * k) else a) 0 =
      packElems e ((List.range n).map (fun k => if c k then 2 ^ e - 1 else 0)) := by
  induction n with
  | zero => rfl
  | succ n ih =>
    rw [List.range_succ, List.foldl_append, ih, List.map_append, List.map_singleton, packElems_concat]
    have hones : (2 ^ e - 1) % 2 ^ e = 2 ^ e - 1 := Nat.mod_eq_of_lt (Nat.sub_lt (Nat.two_pow_pos e) Nat.one_pos)
    cases hc : c n <;> simp [hc, hones, Nat.mul_comm]

theorem getD_map_range (n : Nat) (F : Nat → Nat) (k : Nat) :
    ((List.range n).map F).getD k 0 = if k < n then F k else 0 := by
  by_cases h : k < n <;> simp [List.getD, h]

/-- Bit j of a sum of fields of ones, which is the condition of its field. -/
theorem testBit_foldl_ones {e : Nat} (he : 0 < e) (n : Nat) (c : Nat → Bool) (j : Nat) :
    ((List.range n).foldl (fun a k => if c k then a + (2 ^ e - 1) * 2 ^ (e * k) else a) 0).testBit j =
      (decide (j / e < n) && c (j / e)) := by
  rw [foldl_ones_eq_packElems, testBit_packElems he, getD_map_range]
  by_cases hn : j / e < n
  · cases hc : c (j / e) <;> simp [hn, Nat.mod_lt j he, Nat.testBit_two_pow_sub_one]
  · simp [hn]

/-- A list of elements in a vector register, bit by bit. -/
theorem getLsbD_packElems {e : Nat} (he : 0 < e) (l : List Nat) {j : Nat} (hj : j < 1024) :
    (BitVec.ofNat 1024 (packElems e l)).getLsbD j = (l.getD (j / e) 0).testBit (j % e) := by
  rw [BitVec.getLsbD_ofNat, testBit_packElems he]
  simp [hj]

/-- Bit j of a source is bit j % e of its element j / e. -/
theorem testBit_elemRule {e : Nat} (he : 0 < e) (v : VWord) (j : Nat) :
    (elemRule v e (j / e)).testBit (j % e) = v.getLsbD j := by
  rw [elemRule, Nat.testBit_mod_two_pow, Nat.testBit_div_two_pow, Nat.mod_add_div, BitVec.testBit_toNat]
  simp [Nat.mod_lt j he]

/-- The bits of a word at and above a position. -/
theorem getLsbD_bitsAbove {n k b : Nat} (hk : k ≤ n) (hb : b < n) :
    (BitVec.ofNat n (2 ^ n - 2 ^ k)).getLsbD b = decide (k ≤ b) := by
  have hsplit : 2 ^ n - 2 ^ k = 2 ^ k * (2 ^ (n - k) - 1) := by
    rw [Nat.mul_sub, ← Nat.pow_add, Nat.add_sub_cancel' hk, Nat.mul_one]
  have hbelow : k ≤ b → b - k < n - k := by omega
  rw [BitVec.getLsbD_ofNat, hsplit, Nat.testBit_two_pow_mul, Nat.testBit_two_pow_sub_one]
  by_cases h : k ≤ b <;> simp [h, hb, hbelow]

/-- The bits of a word below a position. -/
theorem getLsbD_bitsBelow {n b : Nat} (k : Nat) (hb : b < n) : (BitVec.ofNat n (2 ^ k - 1)).getLsbD b = decide (b < k) := by
  rw [BitVec.getLsbD_ofNat, Nat.testBit_two_pow_sub_one]
  simp [hb]

-- Enables and byte lanes ------------------------------------------------------------------------------------------------

theorem enabled_eq_onRule (h : VHdr) (p : PWord) (e k : Nat) : enabled h p e k = onRule h p e k := by
  simp [enabled, onRule, bit]

/-- The element that byte lane b belongs to. -/
theorem lane_div_eq {e : Nat} (he : 8 ∣ e) (b : Nat) : b / (e / 8) = 8 * b / e := by
  obtain ⟨m, rfl⟩ := he
  rw [Nat.mul_div_cancel_left m (by decide), Nat.mul_div_mul_left b m (by decide)]

theorem lane_lt_iff (w : VWidth) (b : Nat) : b < w.bits / 8 ↔ 8 * b < w.bits := by
  rw [Nat.lt_div_iff_mul_lt' w.eight_dvd_bits]

theorem width_le_lane_iff (w : VWidth) (b : Nat) : w.bits / 8 ≤ b ↔ w.bits ≤ 8 * b := by
  rw [← not_lt, lane_lt_iff, not_lt]

/-- The enable bits of an operation's elements. -/
theorem getLsbD_enBits (h : VHdr) (p : PWord) (f : Fmt) {j : Nat} (hj : j < 1024) :
    (BitVec.ofNat 1024 (enBits h p f.bits (h.width.bits / f.bits))).getLsbD j =
      (decide (j < h.width.bits) && onRule h p f.bits (j / f.bits)) := by
  rw [BitVec.getLsbD_ofNat, enBits, testBit_foldl_ones f.bits_pos, enabled_eq_onRule]
  simp [hj, div_bits_lt_iff]

/-- The byte-lane bits of an operation's elements (R199). -/
theorem getLsbD_laneBits (h : VHdr) {f : Fmt} (hf : f.isAny = true) (c : Nat → Bool) {b : Nat} (hb : b < 128) :
    (laneBits f.bits ((List.range (h.width.bits / f.bits)).map (fun k => (k, c k)))).getLsbD b =
      (decide (8 * b < h.width.bits) && c (8 * b / f.bits)) := by
  have hpos : 0 < f.bits / 8 := Nat.div_pos (Nat.le_of_dvd f.bits_pos (Fmt.eight_dvd_bits hf)) (by decide)
  simp only [laneBits, List.foldl_map, BitVec.getLsbD_ofNat, Nat.mul_comm _ (f.bits / 8), testBit_foldl_ones hpos,
    lane_div_eq (Fmt.eight_dvd_bits hf), div_bits_lt_iff, hb, decide_true, Bool.true_and]

/-- The byte mask of whole-byte elements: the enabled ones, and what lies above the width (R171, R196). -/
theorem getLsbD_byteMask (h : VHdr) (p : PWord) {f : Fmt} (hf : f.isAny = true) (n : Nat) {b : Nat} (hb : b < 128) :
    (byteMask h p f.bits n).getLsbD b = (decide (h.width.bits ≤ 8 * b) || onRule h p f.bits (8 * b / f.bits)) := by
  have hone : (f.bits == 1) = false := by cases f <;> revert hf <;> decide
  have hbit := testBit_foldl_ones Nat.one_pos 128
    (fun b => decide (h.width.bits ≤ 8 * b) || onRule h p f.bits (8 * b / f.bits)) b
  rw [byteMask, BitVec.getLsbD_ofNat]
  simpa [enabled_eq_onRule, hone, bne, hb] using hbit

end Sys2Proof.Machine
end

section
/-! PROOF (O42). How predicate and whole results are reached: the reading of sources, the frame that these operations
share, and where their results go. -/

namespace Sys2Proof.Machine

-- Reading vector sources ------------------------------------------------------------------------------------------------

/-- Reading a source of a vector slot changes queues alone. -/
theorem srcV_same {i : Instr} {slot : VSlot} {p : Spec} {s u : State} {x : VWord}
    (h : (srcV i slot p).run s = (.ok x, u)) : SameButQueues s u := by
  cases p with
  | reg n => cases h; exact .refl s
  | rel n => cases h; exact .refl s
  | zero => cases h; exact .refl s
  | _ =>
    rw [srcV, act_bind_ok (getMe_run s)] at h
    exact popQueue_same h

/-- Reading vector sources in order changes queues alone. -/
theorem readInOrder_srcV_same {i : Instr} {slot : VSlot} {ps : List Spec} {xs : List VWord} {s t : State}
    (h : ReadInOrder (srcV i slot) ps s xs t) : SameButQueues s t := by
  induction ps generalizing s xs with
  | nil =>
    cases xs with
    | nil => cases h; exact .refl _
    | cons x xs => exact h.elim
  | cons p ps ih =>
    cases xs with
    | nil => exact h.elim
    | cons x xs =>
      obtain ⟨u, hu, hr⟩ := h
      exact (srcV_same hu).trans (ih hr)

theorem predOf_run (h : VHdr) (s : State) : (predOf h).run s = (.ok (s.me.p.get h.pred), s) := rfl

/-- A body that reads one vector source and then the predicate. -/
theorem srcV_predOf_run {α : Type} {i : Instr} {h : VHdr} {a : Spec} {x : VWord} {s t : State}
    (hr : ReadInOrder (srcV i h.slot) [a] s [x] t) (k : VWord → PWord → Act α) :
    (do let a ← srcV i h.slot a; let p ← predOf h; k a p : Act α).run s = (k x (s.me.p.get h.pred)).run t := by
  have hsame := readInOrder_srcV_same hr
  obtain ⟨s1, h1, rfl⟩ := hr
  rw [act_bind_ok h1, act_bind_ok (predOf_run h s1), hsame.regP]

/-- A body that reads two vector sources and then the predicate. -/
theorem srcV_srcV_predOf_run {α : Type} {i : Instr} {h : VHdr} {a b : Spec} {x y : VWord} {s t : State}
    (hr : ReadInOrder (srcV i h.slot) [a, b] s [x, y] t) (k : VWord → VWord → PWord → Act α) :
    (do let a ← srcV i h.slot a; let b ← srcV i h.slot b; let p ← predOf h; k a b p : Act α).run s =
      (k x y (s.me.p.get h.pred)).run t := by
  have hsame := readInOrder_srcV_same hr
  obtain ⟨s1, h1, s2, h2, rfl⟩ := hr
  rw [act_bind_ok h1, act_bind_ok h2, act_bind_ok (predOf_run h s2), hsame.regP]

-- The frame that these operations share ---------------------------------------------------------------------------------

/-- The instructions of R199, R200, R203, R208, R210 to R213 and R217's comparison, each with its header. -/
inductive PredicateOrWhole (h : VHdr) : Instr → Prop
  | vcmp (f : Fmt) (pd : BitVec 4) (a b : Spec) (c : VCond) : PredicateOrWhole h (.vcmp h f pd a b c)
  | vfcmp (f : Fmt) (pd : BitVec 4) (a b : Spec) (c : FCond) : PredicateOrWhole h (.vfcmp h f pd a b c)
  | pand (pd pa pb : BitVec 4) : PredicateOrWhole h (.pand h pd pa pb)
  | por (pd pa pb : BitVec 4) : PredicateOrWhole h (.por h pd pa pb)
  | pxor (pd pa pb : BitVec 4) : PredicateOrWhole h (.pxor h pd pa pb)
  | pnot (pd pa : BitVec 4) : PredicateOrWhole h (.pnot h pd pa)
  | pset (f : Fmt) (pd : BitVec 4) (n : ShiftBy) : PredicateOrWhole h (.pset h f pd n)
  | vsel (f : Fmt) (d a b : Spec) : PredicateOrWhole h (.vsel h f d a b)
  | vpxp (f : Fmt) (d a : Spec) (n : BitVec 5) (sat : Bool) : PredicateOrWhole h (.vpxp h f d a n sat)
  | vcmpr (f : Fmt) (d a : Spec) (merge : Bool) : PredicateOrWhole h (.vcmpr h f d a merge)
  | pcnt (f : Fmt) (d : Spec) : PredicateOrWhole h (.pcnt h f d)
  | vmovx (f : Fmt) (d a : Spec) : PredicateOrWhole h (.vmovx h f d a)

theorem PredicateOrWhole.opSlot_eq {h : VHdr} {i : Instr} (hi : PredicateOrWhole h i) : opSlot i = slotNo h.slot := by
  obtain ⟨slot, width, pred, neg⟩ := h
  cases hi with
  | pset f pd n => cases n <;> cases slot <;> rfl
  | _ => cases slot <;> rfl

/-- In user mode decode refuses none of them that is well formed (R79). -/
theorem PredicateOrWhole.decodeFault_none {h : VHdr} {i : Instr} (hi : PredicateOrWhole h i) (hw : i.wf = true)
    {s : State} (hs : IssuingUser s) : decodeFault s s.me i = none := by
  have hslot := hi.opSlot_eq
  have hpriv := hs.2
  have hnotC : (slotNo h.slot).toNat ≠ 0 := by cases h.slot <;> decide
  have hnotM : (slotNo h.slot).toNat ≠ 5 := by cases h.slot <;> decide
  cases hi <;> simp [decodeFault, featuresOk, featureOf, hslot, hw, hpriv, hnotC, hnotM]

/-- Such an operation does what its body does, and its slot is done. -/
theorem PredicateOrWhole.slotOp_eq {h : VHdr} {i : Instr} (hi : PredicateOrWhole h i) (hw : i.wf = true) {s u : State}
    {body : Act Unit} (hs : IssuingUser s) (hb : body.run s = (.ok (), u)) :
    slotOp i body s = .next (u.updMe (fun c => c.slotDone (slotNo h.slot))) := by
  rw [slotOp_ok (hi.decodeFault_none hw hs) hs.1.1 hs.1.2 hb, hi.opSlot_eq]

-- Predicate results -----------------------------------------------------------------------------------------------------

/-- Such an operation whose body ends in a predicate result. -/
theorem PredicateOrWhole.slotOp_dstP {h : VHdr} {i : Instr} (hi : PredicateOrWhole h i) (hw : i.wf = true) {s t : State}
    {body : Act Unit} {lat : Nat} {pd : BitVec 4} {val mask : PWord} (hs : IssuingUser s)
    (hb : body.run s = (dstP i lat pd val mask h.width.bits).run t) :
    slotOp i body s = .next (predDone t h lat pd (val &&& mask)
      (mask ||| BitVec.ofNat 128 (2 ^ 128 - 2 ^ (h.width.bits / 8)))) := by
  rw [hi.slotOp_eq hw hs (hb.trans (emit_run i lat _ 0 t)), State.updMe_updMe, hi.opSlot_eq]
  rfl

-- Vector results --------------------------------------------------------------------------------------------------------

theorem relReg_eq_relRule (base : BitVec 5) (n : BitVec 4) : relReg base n = relRule base n := by
  have hn := n.isLt
  apply BitVec.eq_of_toNat_eq
  simp only [relReg, relRule, BitVec.toNat_add, BitVec.toNat_setWidth, BitVec.toNat_ofNat]
  omega

/-- A result queue with room owes one more entry. -/
theorem oweRq_one_run {t : State} {n : BitVec 3} (hroom : HasRoom t n) :
    (oweRq n 1).run t = (.ok [t.myCore.nextId], t.oweOne n) := by
  have hok : t.myCore.rqRoom t.me n 1 = true := decide_eq_true hroom
  unfold oweRq
  rw [act_bind_ok (act_get t), act_bind_ok (getMe_run t), hok, act_bind_ok (require_true 0x07 t)]
  rfl

/-- Where a vector result goes, for every destination (R84, R196). -/
theorem dstVMask_slotDone {i : Instr} {slot : VSlot} (hslot : opSlot i = slotNo slot) (file : VSlot) (w lat : Nat)
    {d : Spec} (val en : VWord) (bytes : PWord) (fl : Flags) {t : State} (hh : t.me.st ≠ .helper)
    (hroom : ∀ n, d = .rq n → HasRoom t n) :
    ∃ u, (dstVMask i file w lat d val en bytes fl).run t = (.ok (), u) ∧
      u.updMe (fun c => c.slotDone (slotNo slot)) = vecDone t slot file lat d val (en ||| aboveBits w) bytes fl := by
  unfold dstVMask
  rw [act_bind_ok (getMe_run t)]
  cases d with
  | reg n => exact ⟨_, emit_run .., by rw [State.updMe_updMe, hslot]; cases file <;> rfl⟩
  | rel n =>
    refine ⟨_, emit_run .., ?_⟩
    rw [State.updMe_updMe, hslot, relReg_eq_relRule]
    cases file <;> rfl
  | rq n =>
    simp only [hh, if_false]
    rw [act_bind_ok (oweRq_one_run (hroom n rfl))]
    exact ⟨_, emit_run .., by rw [State.updMe_updMe, hslot]; rfl⟩
  | sq =>
    unfold pushSq
    simp only [act_bind_ok (getMe_run t), hh, if_false]
    exact ⟨_, emit_run .., by rw [State.updMe_updMe, hslot]; rfl⟩
  | _ => exact ⟨_, emit_run .., by rw [State.updMe_updMe, hslot]; rfl⟩

/-- Such an operation whose body ends in a vector result. -/
theorem PredicateOrWhole.slotOp_dstVMask {h : VHdr} {i : Instr} (hi : PredicateOrWhole h i) (hw : i.wf = true)
    {s t : State} {body : Act Unit} {file : VSlot} {lat : Nat} {d : Spec} {val en : VWord} {bytes : PWord} {fl : Flags}
    (hs : IssuingUser s) (hsame : SameButQueues s t) (hroom : ∀ n, d = .rq n → HasRoom t n)
    (hb : body.run s = (dstVMask i file h.width.bits lat d val en bytes fl).run t) :
    slotOp i body s = .next (vecDone t h.slot file lat d val (en ||| aboveBits h.width.bits) bytes fl) := by
  have hh : t.me.st ≠ .helper := by rw [hsame.st]; exact hs.1.2
  obtain ⟨u, hu, hdone⟩ := dstVMask_slotDone hi.opSlot_eq file h.width.bits lat val en bytes fl hh hroom
  rw [hi.slotOp_eq hw hs (hb.trans hu), hdone]

/-- Such an operation whose body ends in a result over the whole width. -/
theorem PredicateOrWhole.slotOp_dstWhole {h : VHdr} {i : Instr} (hi : PredicateOrWhole h i) (hw : i.wf = true)
    {s t : State} {body : Act Unit} {lat : Nat} {d : Spec} {val : VWord} (hs : IssuingUser s) (hsame : SameButQueues s t)
    (hroom : ∀ n, d = .rq n → HasRoom t n) (hb : body.run s = (dstWhole i h lat d val).run t) :
    slotOp i body s =
      .next (vecDone t h.slot h.slot lat d val (BitVec.allOnes 1024) (BitVec.allOnes 128) 0) := by
  rw [hi.slotOp_dstVMask hw hs hsame hroom hb, BitVec.allOnes_or]

end Sys2Proof.Machine
end

section
/-! PROOF (O42). The results of predicate registers, one theorem per kind of instruction. -/

namespace Sys2Proof

/-- A NaN is below nothing, and nothing is below it. -/
theorem FVal.isNaN_of_lt {x y : FVal} (h : x.lt y = true) : x.isNaN = false ∧ y.isNaN = false := by
  cases x <;> cases y <;> simp_all [FVal.lt, FVal.isNaN]

theorem FVal.lt_asymm {x y : FVal} (h : x.lt y = true) : y.lt x = false := by
  cases x with
  | nan => cases h
  | inf a => cases y <;> simp_all [FVal.lt]
  | fin n m e =>
    cases y with
    | nan => cases h
    | inf b => simp_all [FVal.lt]
    | fin n' m' e' =>
      simp only [FVal.lt, decide_eq_true_eq, decide_eq_false_iff_not, not_lt] at h ⊢
      rw [min_comm e' e]
      exact h.le

end Sys2Proof

namespace Sys2Proof.Machine

-- Comparisons -----------------------------------------------------------------------------------------------------------

theorem elemOf_eq_elemRule (v : VWord) (e k : Nat) : elemOf v e k = elemRule v e k := rfl

theorem elemRule_lt (v : VWord) (e k : Nat) : elemRule v e k < 2 ^ e := Nat.mod_lt _ (Nat.two_pow_pos e)

theorem intVal_elemRule (f : Fmt) (v : VWord) (k : Nat) :
    intVal f (elemRule v f.bits k) = valRule f (elemRule v f.bits k) := by
  rw [intVal, valRule, Nat.mod_eq_of_lt (elemRule_lt v f.bits k)]
  simp

theorem vcond_holds_eq_vcondRule (c : VCond) (x y : Int) : c.holds x y = vcondRule c x y := by
  cases c with
  | ne => exact (decide_not (p := x = y)).symm
  | _ => rfl

/-- The conditions of VFCMP agree with the rule: of two values at most one is less than the other, and neither where one is
a NaN. -/
theorem fcond_holds_eq_fcondRule (c : FCond) (x y : FVal) : c.holds x y = fcondRule c x y := by
  cases hlt : x.lt y with
  | true =>
    obtain ⟨hx, hy⟩ := FVal.isNaN_of_lt hlt
    cases c <;> simp [FCond.holds, fcondRule, hlt, FVal.lt_asymm hlt, hx, hy]
  | false =>
    cases hgt : y.lt x with
    | true =>
      obtain ⟨hy, hx⟩ := FVal.isNaN_of_lt hgt
      cases c <;> simp [FCond.holds, fcondRule, hlt, hgt, hx, hy]
    | false => cases c <;> simp [FCond.holds, fcondRule, hlt, hgt]

/-- The byte lanes that a comparison c of two sources writes, and their values (R199). -/
def CompareLanes (h : VHdr) (p : PWord) (f : Fmt) (c : Nat → Nat → Bool) (x y : VWord) (val mask : PWord) : Prop :=
  ∀ n : Nat, n < 128 →
    let k := 8 * n / f.bits
    let on := onRule h p f.bits k
    mask.getLsbD n = (decide (h.width.bits ≤ 8 * n) || on) ∧
    val.getLsbD n = (decide (8 * n < h.width.bits) && on && c (elemRule x f.bits k) (elemRule y f.bits k))

/-- A comparison writes the byte lanes of the enabled elements and of what lies above the width (R199). -/
theorem PredicateOrWhole.slotOp_vCompare {h : VHdr} {i : Instr} (hi : PredicateOrWhole h i) (hw : i.wf = true) {f : Fmt}
    (hf : f.isAny = true) {pd : BitVec 4} {a b : Spec} {F c : Nat → Nat → Bool} {x y : VWord} {s t : State}
    (hs : IssuingUser s) (hr : ReadInOrder (srcV i h.slot) [a, b] s [x, y] t)
    (hF : ∀ k, F (elemRule x f.bits k) (elemRule y f.bits k) = c (elemRule x f.bits k) (elemRule y f.bits k)) :
    ∃ val mask : PWord, slotOp i (vCompare i h f.bits pd a b F) s = .next (predDone t h 2 pd val mask) ∧
      CompareLanes h (s.me.p.get h.pred) f c x y val mask := by
  refine ⟨_, _, hi.slotOp_dstP hw hs (srcV_srcV_predOf_run hr _), ?_⟩
  intro n hn k on
  have hwidth : h.width.bits / 8 ≤ 128 := by cases h.width <;> decide
  have hval : F (elemOf x f.bits k) (elemOf y f.bits k) = c (elemRule x f.bits k) (elemRule y f.bits k) := hF k
  rw [BitVec.getLsbD_and, BitVec.getLsbD_or, getLsbD_laneBits h hf _ hn, getLsbD_laneBits h hf _ hn,
    getLsbD_bitsAbove hwidth hn, enabled_eq_onRule, hval]
  simp only [width_le_lane_iff]
  by_cases hbelow : 8 * n < h.width.bits
  · simp [hbelow, Nat.not_le_of_lt hbelow, on, k, Bool.and_comm]
  · simp [hbelow, Nat.le_of_not_lt hbelow]

theorem isAny_of_vcmp_wf {h : VHdr} {f : Fmt} {pd : BitVec 4} {a b : Spec} {c : VCond}
    (hw : (Instr.vcmp h f pd a b c).wf = true) : f.isAny = true :=
  Fmt.isAny_of_isInt (Bool.and_elim_left (Bool.and_elim_left hw))

theorem isAny_of_vfcmp_wf {h : VHdr} {f : Fmt} {pd : BitVec 4} {a b : Spec} {c : FCond}
    (hw : (Instr.vfcmp h f pd a b c).wf = true) : f.isAny = true :=
  Fmt.isAny_of_isFF (Bool.and_elim_left (Bool.and_elim_left hw))

theorem exec_compare {i : Instr} {h : VHdr} {f : Fmt} {pd : BitVec 4} {a b : Spec} {c : Nat → Nat → Bool} {x y : VWord}
    {s t : State} (hrule : vecCmpRule i = some (h, f, pd, a, b, c)) (hw : i.wf = true) (hs : IssuingUser s)
    (hr : ReadInOrder (srcV i h.slot) [a, b] s [x, y] t) :
    ∃ val mask : PWord, exec i s = .next (predDone t h 2 pd val mask) ∧
      CompareLanes h (s.me.p.get h.pred) f c x y val mask := by
  unfold vecCmpRule at hrule
  split at hrule
  · cases hrule
    rename_i c
    exact (PredicateOrWhole.vcmp ..).slotOp_vCompare (c := fun x y => vcondRule c (valRule f x) (valRule f y)) hw
      (isAny_of_vcmp_wf hw) hs hr (fun k => by rw [intVal_elemRule, intVal_elemRule, vcond_holds_eq_vcondRule])
  · cases hrule
    rename_i c
    exact (PredicateOrWhole.vfcmp ..).slotOp_vCompare (c := fun x y => fcondRule c (decodeF f x) (decodeF f y)) hw
      (isAny_of_vfcmp_wf hw) hs hr (fun k => fcond_holds_eq_fcondRule ..)
  · cases hrule

-- Predicate logic and PSET ----------------------------------------------------------------------------------------------

/-- The byte lanes of a width and those above it are all of them. -/
theorem lanes_or_above (w : VWidth) :
    BitVec.ofNat 128 (2 ^ (w.bits / 8) - 1) ||| BitVec.ofNat 128 (2 ^ 128 - 2 ^ (w.bits / 8)) = BitVec.allOnes 128 := by
  cases w <;> decide

/-- Such an operation whose result covers every byte lane: the value below the width, and zero above it (R211, R212). -/
theorem PredicateOrWhole.slotOp_lanes {h : VHdr} {i : Instr} (hi : PredicateOrWhole h i) (hw : i.wf = true) {s t : State}
    {body : Act Unit} {pd : BitVec 4} {v : PWord} {g : Nat → Bool} (hs : IssuingUser s)
    (hb : body.run s = (dstP i 1 pd v (BitVec.ofNat 128 (2 ^ (h.width.bits / 8) - 1)) h.width.bits).run t)
    (hv : ∀ b, b < 128 → 8 * b < h.width.bits → v.getLsbD b = g b) :
    ∃ val : PWord, slotOp i body s = .next (predDone t h 1 pd val (BitVec.allOnes 128)) ∧
      ∀ b : Nat, b < 128 → val.getLsbD b = (decide (8 * b < h.width.bits) && g b) := by
  refine ⟨_, (hi.slotOp_dstP hw hs hb).trans (by rw [lanes_or_above]), fun b hb => ?_⟩
  rw [BitVec.getLsbD_and, getLsbD_bitsBelow _ hb, Bool.and_comm]
  by_cases hbelow : 8 * b < h.width.bits
  · simp [lane_lt_iff, hbelow, hv b hb hbelow]
  · simp [lane_lt_iff, hbelow]

/-- A predicate operation reads its registers and gives one result on the byte lanes of the width. -/
theorem pOp_run (i : Instr) (h : VHdr) (pd pa pb : BitVec 4) (g : PWord → PWord → PWord) (s : State) :
    (pOp i h pd pa pb g).run s = (dstP i 1 pd (g (s.me.p.get pa) (s.me.p.get pb))
      (BitVec.ofNat 128 (2 ^ (h.width.bits / 8) - 1)) h.width.bits).run s := act_bind_ok (getMe_run s)

theorem exec_predLogic {i : Instr} {h : VHdr} {pd : BitVec 4} {g : RegFile 4 128 → Nat → Bool} {s : State}
    (hrule : predLogicRule i = some (h, pd, g)) (hw : i.wf = true) (hs : IssuingUser s) :
    ∃ val : PWord, exec i s = .next (predDone s h 1 pd val (BitVec.allOnes 128)) ∧
      ∀ n : Nat, n < 128 → val.getLsbD n = (decide (8 * n < h.width.bits) && g s.me.p n) := by
  unfold predLogicRule at hrule
  split at hrule
  · cases hrule
    exact (PredicateOrWhole.pand ..).slotOp_lanes hw hs (pOp_run ..) (fun b _ _ => by rw [BitVec.getLsbD_and])
  · cases hrule
    exact (PredicateOrWhole.por ..).slotOp_lanes hw hs (pOp_run ..) (fun b _ _ => by rw [BitVec.getLsbD_or])
  · cases hrule
    exact (PredicateOrWhole.pxor ..).slotOp_lanes hw hs (pOp_run ..) (fun b _ _ => by simp)
  · cases hrule
    rename_i pa
    exact (PredicateOrWhole.pnot ..).slotOp_lanes hw hs (pOp_run _ h pd pa pa (fun p _ => ~~~p) s)
      (fun b hb _ => by simp [hb])
  · cases hrule

/-- Lane b is one of those of the first `count` elements of a width. -/
theorem lane_lt_elems_iff {f : Fmt} (hf : f.isAny = true) (w : VWidth) (count : Nat) {b : Nat} (hb : 8 * b < w.bits) :
    b < min count (w.bits / f.bits) * (f.bits / 8) ↔ 8 * b / f.bits < count := by
  have hpos : 0 < f.bits / 8 := Nat.div_pos (Nat.le_of_dvd f.bits_pos (Fmt.eight_dvd_bits hf)) (by decide)
  rw [← Nat.div_lt_iff_lt_mul hpos, lane_div_eq (Fmt.eight_dvd_bits hf), lt_min_iff, div_bits_lt_iff]
  exact and_iff_left hb

theorem isAny_of_pset_wf {h : VHdr} {f : Fmt} {pd : BitVec 4} {n : ShiftBy} (hw : (Instr.pset h f pd n).wf = true) :
    f.isAny = true := Bool.and_elim_right (Bool.and_elim_left hw)

/-- The byte lanes that PSET sets below the width are those of its first `count` elements (R212). -/
theorem getLsbD_psetLanes {h : VHdr} {f : Fmt} (hf : f.isAny = true) (count : Nat) {b : Nat} (hb : b < 128)
    (hbelow : 8 * b < h.width.bits) :
    (BitVec.ofNat 128 (2 ^ (min count (h.elems f) * (f.bits / 8)) - 1)).getLsbD b = decide (8 * b / f.bits < count) := by
  rw [getLsbD_bitsBelow _ hb]
  exact decide_eq_decide.mpr (lane_lt_elems_iff hf h.width count hbelow)

theorem exec_pset_imm {h : VHdr} {f : Fmt} {pd : BitVec 4} {k : BitVec 6} {s : State}
    (hw : (Instr.pset h f pd (.imm k)).wf = true) (hs : IssuingUser s) :
    ∃ val : PWord, exec (.pset h f pd (.imm k)) s = .next (predDone s h 1 pd val (BitVec.allOnes 128)) ∧
      ∀ b : Nat, b < 128 → val.getLsbD b = (decide (8 * b < h.width.bits) && decide (8 * b / f.bits < k.toNat)) := by
  have hk : (k.setWidth 1024).toNat % 2 ^ 32 = k.toNat := by
    rw [BitVec.toNat_setWidth_of_le (by decide), Nat.mod_eq_of_lt (by omega)]
  rw [← hk]
  change ∃ val, execPset h f pd (.imm k) s = _ ∧ _
  unfold execPset
  refine (PredicateOrWhole.pset ..).slotOp_lanes hw hs ?_
    (fun b hb hbelow => getLsbD_psetLanes (isAny_of_pset_wf hw) _ hb hbelow)
  exact act_bind_ok (act_pure (k.setWidth 1024) s)

theorem exec_pset_by {h : VHdr} {f : Fmt} {pd : BitVec 4} {a : Spec} {v : VWord} {s t : State}
    (hw : (Instr.pset h f pd (.by a)).wf = true) (hs : IssuingUser s)
    (hr : ReadInOrder (srcV (.pset h f pd (.by a)) h.slot) [a] s [v] t) :
    ∃ val : PWord, exec (.pset h f pd (.by a)) s = .next (predDone t h 1 pd val (BitVec.allOnes 128)) ∧
      ∀ b : Nat, b < 128 →
        val.getLsbD b = (decide (8 * b < h.width.bits) && decide (8 * b / f.bits < v.toNat % 2 ^ 32)) := by
  obtain ⟨u, hu, rfl⟩ := hr
  refine (PredicateOrWhole.pset ..).slotOp_lanes hw hs ?_
    (fun b hb hbelow => getLsbD_psetLanes (isAny_of_pset_wf hw) _ hb hbelow)
  exact act_bind_ok hu

end Sys2Proof.Machine

open Sys2Proof Sys2Proof.Machine

theorem predicateRegisterResults : Claims.PredicateRegisterResults := by
  refine ⟨fun _ _ _ _ _ _ _ _ _ _ _ hrule hw hs hr => exec_compare hrule hw hs hr,
    fun _ _ _ _ _ hrule hw hs => exec_predLogic hrule hw hs, ?_⟩
  intro h f pd n src vals count s t hw hs hcount hr
  rcases n with a | k
  · obtain ⟨v, rfl, rfl, rfl⟩ := hcount
    exact exec_pset_by hw hs hr
  · obtain ⟨rfl, rfl, rfl⟩ := hcount
    cases hr
    exact exec_pset_imm hw hs

end

section
/-! PROOF (O42). The results over the whole width of a vector, one theorem per instruction. -/

namespace Sys2Proof.Machine

-- Results over the whole width ------------------------------------------------------------------------------------------

/-- VSEL takes every element, from a where it is enabled and from b elsewhere (R200). -/
theorem exec_vsel {h : VHdr} {f : Fmt} {d a b : Spec} {x y : VWord} {s t : State}
    (hw : (Instr.vsel h f d a b).wf = true) (hs : IssuingUser s)
    (hr : ReadInOrder (srcV (.vsel h f d a b) h.slot) [a, b] s [x, y] t) (hroom : ∀ n, d = .rq n → HasRoom t n) :
    ∃ val : VWord,
      exec (.vsel h f d a b) s =
        .next (vecDone t h.slot h.slot 2 d val (BitVec.allOnes 1024) (BitVec.allOnes 128) 0) ∧
      ∀ j : Nat, j < 1024 → val.getLsbD j = (decide (j < h.width.bits) &&
        (if onRule h (s.me.p.get h.pred) f.bits (j / f.bits) then x.getLsbD j else y.getLsbD j)) := by
  refine ⟨_, (PredicateOrWhole.vsel ..).slotOp_dstWhole hw hs (readInOrder_srcV_same hr) hroom
    (srcV_srcV_predOf_run hr _), fun j hj => ?_⟩
  rw [getLsbD_packElems f.bits_pos _ hj, getD_map_range, ← testBit_elemRule f.bits_pos x j,
    ← testBit_elemRule f.bits_pos y j]
  simp only [div_bits_lt_iff, enabled_eq_onRule, elemOf_eq_elemRule]
  by_cases hbelow : j < h.width.bits
  · simp only [hbelow, if_true, decide_true, Bool.true_and]
    split <;> rfl
  · simp [hbelow]

theorem wrapTo_eq_wrapRule (w : Nat) (v : Int) : wrapTo w v = wrapRule w v := by
  rw [wrapTo, wrapRule, Nat.cast_pow]
  rfl

/-- Saturation to a field of w bits in the sign of a format (R203). -/
theorem clampInt_eq_clampRule (f : Fmt) (w : Nat) (v : Int) :
    clampInt (intMin f.isSigned w) (intMax f.isSigned w) v = clampRule (loRule f w) (hiRule f w) v := by
  have hlo : intMin f.isSigned w = loRule f w := by simp [intMin, loRule]
  have hhi : intMax f.isSigned w = hiRule f w := by simp [intMax, hiRule]
  rw [hlo, hhi]
  rfl

/-- VPXP packs a field of each enabled element, and zero for the others (R203). -/
theorem exec_vpxp {h : VHdr} {f : Fmt} {d a : Spec} {n : BitVec 5} {sat : Bool} {x : VWord} {s t : State}
    (hw : (Instr.vpxp h f d a n sat).wf = true) (hs : IssuingUser s)
    (hr : ReadInOrder (srcV (.vpxp h f d a n sat) h.slot) [a] s [x] t) (hroom : ∀ q, d = .rq q → HasRoom t q) :
    let w := n.toNat + 1
    let v (k : Nat) : Int := valRule f (elemRule x f.bits k)
    ∃ val : VWord,
      exec (.vpxp h f d a n sat) s =
        .next (vecDone t h.slot h.slot 3 d val (BitVec.allOnes 1024) (BitVec.allOnes 128) 0) ∧
      ∀ j : Nat, j < 1024 → val.getLsbD j = (decide (j / w < numRule h f) &&
        onRule h (s.me.p.get h.pred) f.bits (j / w) &&
        (wrapRule w (if sat then clampRule (loRule f w) (hiRule f w) (v (j / w)) else v (j / w))).testBit (j % w)) := by
  intro w v
  refine ⟨_, (PredicateOrWhole.vpxp ..).slotOp_dstWhole hw hs (readInOrder_srcV_same hr) hroom
    (srcV_predOf_run hr _), fun j hj => ?_⟩
  rw [getLsbD_packElems (Nat.succ_pos _) _ hj, getD_map_range]
  simp only [enabled_eq_onRule, elemOf_eq_elemRule, intVal_elemRule, wrapTo_eq_wrapRule, clampInt_eq_clampRule]
  change Nat.testBit (if j / w < numRule h f then _ else 0) (j % w) = _
  by_cases hk : j / w < numRule h f
  · cases onRule h (s.me.p.get h.pred) f.bits (j / w) <;> simp [hk, w, v]
  · simp [hk]

/-- The enabled elements of a source in ascending order (R208). -/
def enabledElems (h : VHdr) (p : PWord) (f : Fmt) (x : VWord) : List Nat :=
  ((List.range (numRule h f)).filter (fun k => onRule h p f.bits k)).map (elemRule x f.bits)

/-- What VCMPR selects is its enabled elements. -/
theorem filter_enabled_map (h : VHdr) (p : PWord) (f : Fmt) (x : VWord) :
    ((List.range (h.elems f)).filter (fun k => enabled h p f.bits k)).map (elemOf x f.bits) = enabledElems h p f x := by
  simp only [enabled_eq_onRule]
  rfl

/-- VCMPR without merging writes the whole destination. -/
theorem exec_vcmpr_clear {h : VHdr} {f : Fmt} {d a : Spec} {x : VWord} {s t : State}
    (hw : (Instr.vcmpr h f d a false).wf = true) (hs : IssuingUser s)
    (hr : ReadInOrder (srcV (.vcmpr h f d a false) h.slot) [a] s [x] t) (hroom : ∀ q, d = .rq q → HasRoom t q) :
    exec (.vcmpr h f d a false) s = .next (vecDone t h.slot h.slot 3 d
      (BitVec.ofNat 1024 (packElems f.bits (enabledElems h (s.me.p.get h.pred) f x)))
      (BitVec.allOnes 1024) (BitVec.allOnes 128) 0) := by
  rw [← filter_enabled_map]
  exact (PredicateOrWhole.vcmpr ..).slotOp_dstWhole hw hs (readInOrder_srcV_same hr) hroom (srcV_predOf_run hr _)

/-- VCMPR merging writes the bits that the packed elements take. -/
theorem exec_vcmpr_merge {h : VHdr} {f : Fmt} {d a : Spec} {x : VWord} {s t : State}
    (hw : (Instr.vcmpr h f d a true).wf = true) (hs : IssuingUser s)
    (hr : ReadInOrder (srcV (.vcmpr h f d a true) h.slot) [a] s [x] t) (hroom : ∀ q, d = .rq q → HasRoom t q) :
    exec (.vcmpr h f d a true) s = .next (vecDone t h.slot h.slot 3 d
      (BitVec.ofNat 1024 (packElems f.bits (enabledElems h (s.me.p.get h.pred) f x)))
      (BitVec.ofNat 1024 (2 ^ (f.bits * (enabledElems h (s.me.p.get h.pred) f x).length) - 1) ||| aboveBits h.width.bits)
      (BitVec.allOnes 128) 0) := by
  rw [← filter_enabled_map]
  exact (PredicateOrWhole.vcmpr ..).slotOp_dstVMask hw hs (readInOrder_srcV_same hr) hroom (srcV_predOf_run hr _)

/-- VCMPR packs the enabled elements downward; merging, it writes their bits and what lies above the width (R208). -/
theorem exec_vcmpr {h : VHdr} {f : Fmt} {d a : Spec} {merge : Bool} {x : VWord} {s t : State}
    (hw : (Instr.vcmpr h f d a merge).wf = true) (hs : IssuingUser s)
    (hr : ReadInOrder (srcV (.vcmpr h f d a merge) h.slot) [a] s [x] t) (hroom : ∀ q, d = .rq q → HasRoom t q) :
    let on := enabledElems h (s.me.p.get h.pred) f x
    ∃ val mask : VWord,
      exec (.vcmpr h f d a merge) s = .next (vecDone t h.slot h.slot 3 d val mask (BitVec.allOnes 128) 0) ∧
      ∀ j : Nat, j < 1024 → val.getLsbD j = (on.getD (j / f.bits) 0).testBit (j % f.bits) ∧
        mask.getLsbD j = (!merge || decide (h.width.bits ≤ j) || decide (j / f.bits < on.length)) := by
  intro on
  cases merge with
  | false =>
    refine ⟨_, _, exec_vcmpr_clear hw hs hr hroom, fun j hj => ⟨getLsbD_packElems f.bits_pos _ hj, ?_⟩⟩
    rw [BitVec.getLsbD_allOnes]
    simp [hj]
  | true =>
    refine ⟨_, _, exec_vcmpr_merge hw hs hr hroom, fun j hj => ⟨getLsbD_packElems f.bits_pos _ hj, ?_⟩⟩
    rw [BitVec.getLsbD_or, getLsbD_bitsBelow _ hj, aboveBits, getLsbD_bitsAbove h.width.bits_le hj, Bool.or_comm]
    simp [on, Nat.div_lt_iff_lt_mul f.bits_pos, Nat.mul_comm]

/-- PCNT counts the enabled elements (R213). -/
theorem exec_pcnt {h : VHdr} {f : Fmt} {d : Spec} {s : State} (hw : (Instr.pcnt h f d).wf = true) (hs : IssuingUser s)
    (hroom : ∀ q, d = .rq q → HasRoom s q) :
    exec (.pcnt h f d) s = .next (vecDone s h.slot h.slot 2 d
      (BitVec.ofNat 1024 ((List.range (numRule h f)).countP (fun k => onRule h (s.me.p.get h.pred) f.bits k)))
      (BitVec.allOnes 1024) (BitVec.allOnes 128) 0) := by
  refine (PredicateOrWhole.pcnt ..).slotOp_dstWhole hw hs (.refl s) hroom (act_bind_ok (predOf_run h s) |>.trans ?_)
  simp only [enabled_eq_onRule, ← List.countP_eq_length_filter]
  rfl

theorem isAny_of_vmovx_wf {h : VHdr} {f : Fmt} {d a : Spec} (hw : (Instr.vmovx h f d a).wf = true) : f.isAny = true :=
  Bool.and_elim_left (Bool.and_elim_left hw)

theorem isReg_of_vmovx_wf {h : VHdr} {f : Fmt} {d a : Spec} (hw : (Instr.vmovx h f d a).wf = true) : d.isReg = true :=
  Bool.and_elim_right (Bool.and_elim_left hw)

/-- A register destination enters no result queue. -/
theorem hasRoom_of_isReg {d : Spec} (hd : d.isReg = true) (t : State) (n : BitVec 3) (hn : d = .rq n) : HasRoom t n := by
  subst hn
  cases hd

/-- The elements of a source under the enable bits: what R196 lands of a move. -/
theorem vecPat_move_lands (h : VHdr) {f : Fmt} (hf : f.isAny = true) (lat : Nat) (d a : Spec) (p : PWord) (x : VWord) :
    (vecPat h f lat d [a] (fun v => v.headD 0)).Lands p [x]
      (x &&& BitVec.ofNat 1024 (enBits h p f.bits (h.elems f)))
      (BitVec.ofNat 1024 (enBits h p f.bits (h.elems f)) ||| aboveBits h.width.bits)
      (byteMask h p f.bits (h.elems f)) 0 where
  value j hj := by
    rw [BitVec.getLsbD_and, VHdr.elems, getLsbD_enBits h p f hj, Bool.and_comm]
    exact congrArg _ (testBit_elemRule f.bits_pos x j).symm
  written j hj := by
    rw [BitVec.getLsbD_or, VHdr.elems, getLsbD_enBits h p f hj, aboveBits, getLsbD_bitsAbove h.width.bits_le hj]
    by_cases hbelow : j < h.width.bits
    · simp [vecPat, hbelow, Nat.not_le_of_lt hbelow]
    · simp [vecPat, hbelow, Nat.le_of_not_lt hbelow]
  unmasked b hb := getLsbD_byteMask h p hf _ hb
  flags j := by simp [vecPat]

/-- VMOVX lands the enabled elements in the file of the other vector slot (R210). -/
theorem exec_vmovx {h : VHdr} {f : Fmt} {d a : Spec} {x : VWord} {s t : State} (hw : (Instr.vmovx h f d a).wf = true)
    (hs : IssuingUser s) (hr : ReadInOrder (srcV (.vmovx h f d a) h.slot) [a] s [x] t) :
    ∃ (val mask : VWord) (bytes : PWord) (fl : Flags),
      (vecPat h f 3 d [a] (fun v => v.headD 0)).Lands (s.me.p.get h.pred) [x] val mask bytes fl ∧
      exec (.vmovx h f d a) s = .next (vecDone t h.slot (otherSlot h.slot) 3 d val mask bytes fl) :=
  ⟨_, _, _, _, vecPat_move_lands h (isAny_of_vmovx_wf hw) 3 d a _ x,
    (PredicateOrWhole.vmovx ..).slotOp_dstVMask hw hs (readInOrder_srcV_same hr) (hasRoom_of_isReg (isReg_of_vmovx_wf hw) t)
      (srcV_predOf_run hr _)⟩

end Sys2Proof.Machine

open Sys2Proof Sys2Proof.Machine

theorem vectorWholeResults : Claims.VectorWholeResults :=
  ⟨fun _ _ _ _ _ _ _ _ _ hw hs hr hroom => exec_vsel hw hs hr hroom,
    fun _ _ _ _ _ _ _ _ _ hw hs hr hroom => exec_vpxp hw hs hr hroom,
    fun _ _ _ _ _ _ _ _ hw hs hr hroom => exec_vcmpr hw hs hr hroom,
    fun _ _ _ _ hw hs hroom => exec_pcnt hw hs hroom,
    fun _ _ _ _ _ _ _ hw hs hr => exec_vmovx hw hs hr⟩

/-- Settles O42: each instruction does what its body does, and the bits of its result are those of its packed elements. -/
theorem predicateAndWholeResults : Obligations.PredicateAndWholeResults :=
  ⟨predicateRegisterResults, vectorWholeResults⟩

end
